-- ==== Sys2Proof/Word.lean ====
section
/-! DEFINITION. The word types of the Jigolyn J7 and their plainest arithmetic (00 R7, 02 R39). -/

namespace Sys2Proof

/-- A 32-bit register lane, uniform register or instruction word. -/
abbrev Word := BitVec 32
/-- One byte of memory. -/
abbrev Byte := BitVec 8
/-- A 64-bit address, WID or pair value. -/
abbrev DWord := BitVec 64
/-- A set of logical lanes, one bit each. -/
abbrev Mask := BitVec 32
/-- One vector register: the 32 lanes, lane 0 first. -/
abbrev VReg := List Word

/-- The value of a vector register in one lane; a lane past the list reads 0. -/
def VReg.get (v : VReg) (l : Nat) : Word := v.getD l 0#32

/-- The vector register whose lane l holds f l. -/
def lanesOf (f : Nat → Word) : VReg := (List.range 32).map f

/-- The same value in every lane. -/
def splat (x : Word) : VReg := lanesOf fun _ => x

/-- Lane l is in the mask. -/
def Mask.has (m : Mask) (l : Nat) : Bool := m.getLsbD l

/-- The mask of the lanes that satisfy f. -/
def maskOf (f : Nat → Bool) : Mask :=
  (List.range 32).foldl (fun m l => if f l then m ||| (1#32 <<< l) else m) 0#32

/-- The lanes of a mask, ascending. -/
def Mask.lanes (m : Mask) : List Nat := (List.range 32).filter fun l => m.has l

/-- The lowest lane of a mask. -/
def Mask.lowest (m : Mask) : Option Nat := m.lanes.head?

end Sys2Proof
end

