-- ==== Sys2Proof/Config.lean ====
section
/-! DEFINITION. What an implementation fixes and the free values: constants without a body, so that no proof can see
a value of one. Each has a log entry. -/

namespace Sys2Proof.Config

/-- Core cycles, beyond one, that step n takes (00 R7: the manual gives no instruction times). Log 4. -/
opaque dwell : Nat → Nat
/-- Which of several enabled moves step n takes: an index, taken modulo their number (10 R276, 12 R330). Log 4. -/
opaque pick : Nat → Nat → Nat
/-- The choice of an SFU result within its bound: operation, depth, rounding mode, input (05 R137 R138). Log 5. -/
opaque sfuPick : Nat → Nat → Nat → Word → Nat
/-- The n-th word drawn from tiles that nothing has filled (07 R190). Log 6. -/
opaque freeTile : Nat → Word
/-- The n-th byte that a copy command leaves undefined (07 R208). Log 7. -/
opaque freeByte : Nat → Byte
/-- The n-th element of a copy command that fails at a step was moved (07 R208 R210). Log 7. -/
opaque moved : Nat → Nat → Bool
/-- Which cached entry a full cache or TLB gives up on its n-th replacement (11 R288 R295). Log 8. -/
opaque victim : Nat → Nat
/-- The HSS signature of Lantern over a message under a leaf index (17 R415 R418). Log 9. -/
opaque sign : Nat → List Byte → List Byte
/-- An LMS signature verifies under a public key over a digest and a security version (17 R414): key, signature, digest, version. Log 9. -/
opaque verify : List Byte → List Byte → List Byte → Nat → Bool
/-- The SHA-256 hash of the firmware public key in the fuses (17 R414). Log 9. -/
opaque keyHash : List Byte
/-- The table entry of a partition as bytes (17 R418), from its contents as numbers. Log 84. -/
opaque partEntry : List Nat → List Byte
/-- The zeroed classes in the DATA of a SCRUB entry (17 R421). Log 84. -/
opaque scrubClasses : Nat
/-- The DATA of a machine-check entry for an array class (17 R421 R423): class, byte. Log 84. -/
opaque checkData : Nat → Nat → Byte
/-- Errors that the codes of the SRAM arrays have found up to a step: step, class, uncorrectable (17 R420 R422 R423). Log 84. -/
opaque sramErrors : Nat → Nat → Bool → Nat
/-- Both copies of Lantern's store fail at a step (17 R423). Log 84. -/
opaque storeFails : Nat → Bool
/-- Which value an LDC of bytes written during the launch returns, of those held since the launch began (06 R161). Log 10. -/
opaque ldcOld : Nat → Bool

/-- The number of the CSR that stands in word i of the CSR area of a fibre section (14 R374). Log 11. -/
opaque csrAt : Nat → Nat
/-- A byte of a fibre section, or of a view, to which the manual gives no contents: step and offset (14 R374). Log 11. -/
opaque viewByte : Nat → Nat → Byte
/-- A byte of the STATE of a fibre section, whose fields the manual names without their bits: its contents as numbers, and the byte
(14 R374). Log 11. -/
opaque stateByte : List Nat → Nat → Byte
/-- A byte of a save area whose place the manual gives to contents without their layout: cycle of the save, offset (14 R372 R373). Log 36. -/
opaque areaByte : Nat → Nat → Byte
/-- CTXBASE of a context: where the Keeper has put its save area (14 R372). Log 36. -/
opaque ctxBase : Nat → Nat
/-- The FCODE of the record of a TRAP without a handler (08 R240): the TRAP code. Log 12. -/
opaque trapFcode : Nat → Nat
/-- Readings of the n-th governor interval of a cluster (16 R411): hot, cool. Log 13. -/
opaque hot : Nat → Nat → Bool
opaque cool : Nat → Nat → Bool

/-- What a launch that has met a race does beyond its instructions: draw k of free value n (10 R287). Log 60. -/
opaque wild : Nat → Nat → Nat

end Sys2Proof.Config
end

