-- ==== Sys2Proof/Machine/Mem.lean ====
section
/-! DEFINITION. Memory as a canonical list of cells, values of several bytes, and small list helpers (06 R156, 11 R294). -/

namespace Sys2Proof.Machine

/-- What an address that memory does not list reads as: granules are scrubbed before a partition holds them (15 R394,
17 R420). DEDUCED, log 3; for host memory DESIGN CHOICE, log 3. -/
def unlisted : Byte := 0#8

/-- The byte at a physical address. -/
def memGet : List Host.Cell → Nat → Byte
  | [], _ => unlisted
  | (b, x) :: m, a => if a = b then x else if a < b then unlisted else memGet m a

/-- Put a byte, keeping the canonical form. -/
def memPut : List Host.Cell → Nat → Byte → List Host.Cell
  | [], a, x => if x = unlisted then [] else [(a, x)]
  | (b, y) :: m, a, x =>
    if a = b then (if x = unlisted then m else (a, x) :: m)
    else if a < b then (if x = unlisted then (b, y) :: m else (a, x) :: (b, y) :: m)
    else (b, y) :: memPut m a x

/-- Addresses rise strictly and no cell holds what an unlisted address reads as. -/
def memWf : List Host.Cell → Bool
  | [] => true
  | [(_, x)] => x != unlisted
  | (a, x) :: (b, y) :: m => decide (a < b) && x != unlisted && memWf ((b, y) :: m)

/-- Put several bytes, in order. -/
def memPuts (m : List Host.Cell) (bs : List (Nat × Byte)) : List Host.Cell :=
  bs.foldl (fun m p => memPut m p.1 p.2) m

/-- n bytes from an address upward. -/
def memGets (m : List Host.Cell) (a n : Nat) : List Byte := (List.range n).map fun i => memGet m (a + i)

/-- The bytes of a list placed from an address upward. -/
def placed (a : Nat) (bs : List Byte) : List (Nat × Byte) :=
  (List.range bs.length).map fun i => (a + i, bs.getD i 0#8)

/-- Little-endian value of bytes. -/
def leNat : List Byte → Nat
  | [] => 0
  | b :: bs => b.toNat + 256 * leNat bs

/-- n little-endian bytes of a number. -/
def leBytes : Nat → Nat → List Byte
  | 0, _ => []
  | n + 1, x => BitVec.ofNat 8 x :: leBytes n (x / 256)

/-- Big-endian value of bytes. -/
def beNat (bs : List Byte) : Nat := bs.foldl (fun n b => 256 * n + b.toNat) 0

/-- n big-endian bytes of a number. -/
def beBytes (n x : Nat) : List Byte := (leBytes n x).reverse

/-- Little-endian value of n bytes of a list at an offset; bytes past the end read 0. -/
def fieldLe (bs : List Byte) (off n : Nat) : Nat := leNat ((bs.drop off).take n)

/-- Look a key up in a list of pairs. -/
def assoc {α : Type} (k : Nat) : List (Nat × α) → Option α
  | [] => none
  | (j, x) :: t => if j = k then some x else assoc k t

/-- Put a pair into a list ascending by key. -/
def assocPut {α : Type} (k : Nat) (x : α) : List (Nat × α) → List (Nat × α)
  | [] => [(k, x)]
  | (j, y) :: t => if j = k then (k, x) :: t else if k < j then (k, x) :: (j, y) :: t else (j, y) :: assocPut k x t

def assocDel {α : Type} (k : Nat) : List (Nat × α) → List (Nat × α)
  | [] => []
  | (j, y) :: t => if j = k then t else (j, y) :: assocDel k t

/-- Replace the elements that satisfy q. -/
def updWhere {α : Type} (q : α → Bool) (f : α → α) (xs : List α) : List α := xs.map fun x => if q x then f x else x

/-- The first element that satisfies q, and the others. -/
def takeOut {α : Type} (q : α → Bool) : List α → Option α × List α
  | [] => (none, [])
  | x :: t => if q x then (some x, t) else (fun r => (r.1, x :: r.2)) (takeOut q t)

/-- Sign extension of the low n bits of a number, as an integer. -/
def signedOf (n x : Nat) : Int :=
  let y := x % 2 ^ n
  if y < 2 ^ (n - 1) then (y : Int) else (y : Int) - (2 ^ n : Nat)

/-- An integer narrowed to w bits. -/
def narrow (w : Nat) (x : Int) : BitVec w := BitVec.ofInt w x

def log2Up (n : Nat) : Nat := if n ≤ 1 then 0 else Nat.log2 (n - 1) + 1

def ceilDiv (a b : Nat) : Nat := if b = 0 then 0 else (a + b - 1) / b

end Sys2Proof.Machine
end

