-- ==== Sys2Proof/Machine/Forms.lean ====
section
/-! DEFINITION. Operand codes, instruction-word formats, group words and the payloads of events (03 R62 to R77). -/

namespace Sys2Proof

/-- A decoded operand code (01 R12 R19 R20, 03 R64). -/
inductive Opnd where
  | v (n : Fin 96)
  | s (n : Fin 16)
  | q (n : Fin 8)
  | zero | lid | lnk | ctl
  /-- codes 124 to 127, illegal wherever they appear (R20) -/
  | bad (n : Fin 4)
deriving DecidableEq, Repr

/-- The operand of a 7-bit code. -/
def Opnd.ofNat (n : Nat) : Opnd :=
  if h : n < 96 then .v ⟨n, h⟩
  else if h : n - 96 < 16 then .s ⟨n - 96, h⟩
  else if h : n - 112 < 8 then .q ⟨n - 112, h⟩
  else if n = 120 then .zero
  else if n = 121 then .lid
  else if n = 122 then .lnk
  else if n = 123 then .ctl
  else if h : n - 124 < 4 then .bad ⟨n - 124, h⟩
  else .bad 3

def Opnd.ofCode (c : BitVec 7) : Opnd := Opnd.ofNat c.toNat

/-- The 7-bit code of an operand. -/
def Opnd.code : Opnd → BitVec 7
  | .v n => BitVec.ofNat 7 n.val
  | .s n => BitVec.ofNat 7 (96 + n.val)
  | .q n => BitVec.ofNat 7 (112 + n.val)
  | .zero => 120#7
  | .lid => 121#7
  | .lnk => 122#7
  | .ctl => 123#7
  | .bad n => BitVec.ofNat 7 (124 + n.val)

def Opnd.isV : Opnd → Bool | .v _ => true | _ => false
def Opnd.isS : Opnd → Bool | .s _ => true | _ => false
def Opnd.isQ : Opnd → Bool | .q _ => true | _ => false
def Opnd.isBad : Opnd → Bool | .bad _ => true | _ => false

/-- PERM payload (03 R71). -/
structure PermPx where
  aPat : BitVec 4
  aPar : BitVec 5
  bPat : BitVec 4
  bPar : BitVec 5
deriving DecidableEq, Repr

/-- MEMPOL payload (03 R71, 06 R160). -/
structure MemPx where
  scope : BitVec 3
  policy : BitVec 3
  acq : Bool
  rel : Bool
  line : Bool
deriving DecidableEq, Repr

/-- The words that may stand before an instruction word, at most one of each kind (03 R70 R71). -/
structure Px where
  sos : Bool := false
  perm : Option PermPx := none
  guard : Option (BitVec 3 × Bool) := none
  mempol : Option MemPx := none
  ximm : Option (BitVec 16) := none
  /-- rounding mode and flush override -/
  rnd : Option (BitVec 2 × Bool) := none
  approx : Option (BitVec 3) := none
deriving DecidableEq, Repr

/-- No word before the instruction word. -/
def Px.empty : Px := {}

/-- How many words stand before the instruction word. -/
def Px.count (p : Px) : Nat :=
  p.sos.toNat + p.perm.isSome.toNat + p.guard.isSome.toNat + p.mempol.isSome.toNat
    + p.ximm.isSome.toNat + p.rnd.isSome.toNat + p.approx.isSome.toNat

/-- Format R. -/
structure RForm where
  d : Opnd
  a : Opnd
  b : Opnd
  ka : Bool
  kb : Bool
  g : BitVec 2
deriving DecidableEq, Repr

/-- Format U with D and A. -/
structure UForm where
  d : Opnd
  a : Opnd
  ka : Bool
  g : BitVec 2
deriving DecidableEq, Repr

/-- Format I with D and a 16-bit immediate. -/
structure IForm where
  d : Opnd
  imm : BitVec 16
  g : BitVec 2
deriving DecidableEq, Repr

/-- Format C. -/
structure CForm where
  pd : BitVec 3
  cc : BitVec 4
  a : Opnd
  b : Opnd
  ka : Bool
  kb : Bool
  g : BitVec 2
deriving DecidableEq, Repr

/-- Format U with D alone. -/
structure UDForm where
  d : Opnd
  g : BitVec 2
deriving DecidableEq, Repr

/-- SEL. -/
structure SelForm where
  pn : BitVec 3
  d : Opnd
  a : Opnd
  b : Opnd
deriving DecidableEq, Repr

/-- Format M (06 R154). -/
structure MForm where
  t : Opnd
  a : Opnd
  wa : Bool
  sb : BitVec 3
  sz : BitVec 3
  ka : Bool
  kt : Bool
  g : BitVec 2
deriving DecidableEq, Repr

/-- PREF. -/
structure PrefForm where
  a : Opnd
  wa : Bool
  sb : BitVec 3
  ka : Bool
  g : BitVec 2
deriving DecidableEq, Repr

/-- Format A with D (06 R163). -/
structure AForm where
  d : Opnd
  a : Opnd
  b : Opnd
  aop : BitVec 4
deriving DecidableEq, Repr

/-- REDG. -/
structure ARForm where
  a : Opnd
  b : Opnd
  aop : BitVec 4
deriving DecidableEq, Repr

/-- Format B (03 R67). -/
structure BForm where
  ps : BitVec 3
  n : Bool
  mode : BitVec 2
  disp : BitVec 19
deriving DecidableEq, Repr

/-- Format U with A alone. -/
structure UAForm where
  a : Opnd
  ka : Bool
  g : BitVec 2
deriving DecidableEq, Repr

/-- TLALLOC. -/
structure TaForm where
  h : BitVec 5
  kind : BitVec 2
  s : BitVec 4
  span : Bool
  nw : Bool
deriving DecidableEq, Repr

/-- MMLOOP: C, A and B handles, descriptor index, accumulate, approximation allowed. -/
structure MmForm where
  hc : BitVec 5
  ha : BitVec 5
  hb : BitVec 5
  s : BitVec 4
  acc : Bool
  apx : Bool
deriving DecidableEq, Repr

/-- HADT: destination, source, size, record index, quantise. -/
structure HtForm where
  hd : BitVec 5
  hs : BitVec 5
  size : BitVec 2
  s : BitVec 4
  q : Bool
deriving DecidableEq, Repr

/-! Payloads of events. -/

/-- Who consumed uncorrectable data (14 R368): a fibre, in whose state an SRAM error counts too; a copy command; a transfer of the
tile path; a Thresher command. -/
inductive Consumer where
  | warp (w : Nat)
  | copy (cluster chan i : Nat)
  | tile (core op : Nat)
  | thr (die i : Nat)
deriving DecidableEq, Repr

/-- An answer to a directory probe (11 R305). -/
inductive ProbeAns where
  | data (bytes : List Byte)
  | clean
  | miss (lastSeq : Nat)
deriving DecidableEq, Repr

/-- A public key of 56 bytes and an LMS signature of 1,772 (17 R414). -/
structure Signed where
  key : List Byte
  lms : List Byte
deriving DecidableEq, Repr
/-- A firmware image: its digest, its security version, its signature (17 R414). -/
structure Image where
  digest : List Byte
  version : Nat
  signature : Signed
deriving DecidableEq, Repr

/-- What the boot chain verifies and measures (17 R413): the fuses, the ROM identity and fuse map, the images that manufacture has put
into flash, the other firmware, the partition table. -/
structure BootImages where
  fusesOk : Bool
  rom : List Byte
  slotA : Image
  slotB : Image
  memFw : Image
  linkFw : Image
  table : List Byte
deriving DecidableEq, Repr

/-- What a patrol finds in a line (11 R310). -/
inductive PatrolFound where
  | clean | corrected | uncorrectable
deriving DecidableEq, Repr

/-- A rectangle of tiles of one die: first and last column and row (15 R381). -/
structure Rect where
  die : Nat
  c0 : Nat
  c1 : Nat
  r0 : Nat
  r1 : Nat
deriving DecidableEq, Repr

/-- Stitch patterns (15 R381). -/
inductive StitchPattern where
  | mesh | ring
  | tree (root : Nat)
  | torus
deriving DecidableEq, Repr

/-- Requests to the partition manager (15 R394, 16 R396). -/
inductive PartReq where
  | create
  | destroy
  | clusters (cs : List Nat)
  | reservation (cs : List Nat)
  | memory (granules : List Nat)
  | l2ways (n : Nat)
  | bandwidth (w : Nat)
  | interfaces (vis : List Nat) (owner : Nat)
  | viWeight (vi w : Nat)
  | copyRate (cluster chan g : Nat)
  | exact (on : Bool)
  | debugWindow (granule : Option Nat)
  | killContext (ctx : Nat)
deriving DecidableEq, Repr

/-- Host snoops over CXL.cache (11 R306). -/
inductive SnoopKind where
  | data | invalidate
deriving DecidableEq, Repr

end Sys2Proof
end

