-- ==== Sys2Proof/Syntax.lean ====
section
/-! DEFINITION. The instruction set: one constructor for each row of the opcode table (03 R74 R75 R78).
The 226 encoded rows carry the words that stand before them (p) and their fields; the 124 rows without bits are
the steps of the device and of its surroundings. -/

namespace Sys2Proof

inductive Instr where
  /-- R90: Adds A and B modulo 2^32 into D in every active lane. -/
  | iadd (p : Px) (f : RForm)
  /-- R90: Subtracts B from A modulo 2^32 into D in every active lane. -/
  | isub (p : Px) (f : RForm)
  /-- R90: Writes the low 32 bits of A times B into D. -/
  | imul (p : Px) (f : RForm)
  /-- R90: Writes the high 32 bits of the signed 64-bit product of A and B into D. -/
  | imulhs (p : Px) (f : RForm)
  /-- R90: Writes the high 32 bits of the unsigned 64-bit product of A and B into D. -/
  | imulhu (p : Px) (f : RForm)
  /-- R90: Writes the low 32 bits of A times B plus D into D. -/
  | imad (p : Px) (f : RForm)
  /-- R90: Adds pair A and pair B modulo 2^64 into pair D. -/
  | iadd64 (p : Px) (f : RForm)
  /-- R90: Subtracts pair B from pair A modulo 2^64 into pair D. -/
  | isub64 (p : Px) (f : RForm)
  /-- R90: Writes the signed minimum of A and B into D. -/
  | imin (p : Px) (f : RForm)
  /-- R90: Writes the signed maximum of A and B into D. -/
  | imax (p : Px) (f : RForm)
  /-- R90: Writes the unsigned minimum of A and B into D. -/
  | umin (p : Px) (f : RForm)
  /-- R90: Writes the unsigned maximum of A and B into D. -/
  | umax (p : Px) (f : RForm)
  /-- R90: Writes the bitwise and of A and B into D. -/
  | and (p : Px) (f : RForm)
  /-- R90: Writes the bitwise or of A and B into D. -/
  | or (p : Px) (f : RForm)
  /-- R90: Writes the bitwise xor of A and B into D. -/
  | xor (p : Px) (f : RForm)
  /-- R90: Writes A and not B into D. -/
  | andn (p : Px) (f : RForm)
  /-- R91: Shifts A left by the whole value of B, giving 0 for amounts of 32 or more. -/
  | shl (p : Px) (f : RForm)
  /-- R91: Shifts A right with zero fill by the whole value of B. -/
  | shr (p : Px) (f : RForm)
  /-- R91: Shifts A right with sign fill by the whole value of B. -/
  | sar (p : Px) (f : RForm)
  /-- R92: Funnel-shifts the 64-bit value A:D right by B[4:0] into D. -/
  | shfr (p : Px) (f : RForm)
  /-- R93: Extracts a bit field of A described by B, optionally sign-extended, into D. -/
  | bfe (p : Px) (f : RForm)
  /-- R93: Inserts the low bits of A into the field of D described by B. -/
  | bfi (p : Px) (f : RForm)
  /-- R90: Adds the unsigned 64-bit product of A and B to pair D modulo 2^64. -/
  | imad64 (p : Px) (f : RForm)
  /-- R94: Copies A into D. -/
  | mov (p : Px) (f : UForm)
  /-- R94: Writes the bitwise complement of A into D. -/
  | not (p : Px) (f : UForm)
  /-- R94: Writes 0 minus A into D. -/
  | neg (p : Px) (f : UForm)
  /-- R94: Writes the absolute value of signed A into D. -/
  | abs (p : Px) (f : UForm)
  /-- R94: Writes the number of 1 bits of A into D. -/
  | popc (p : Px) (f : UForm)
  /-- R94: Writes the number of leading zero bits of A into D. -/
  | clz (p : Px) (f : UForm)
  /-- R94: Writes the number of trailing zero bits of A into D. -/
  | ctz (p : Px) (f : UForm)
  /-- R94: Writes A with its bit order reversed into D. -/
  | brev (p : Px) (f : UForm)
  /-- R94: Sign-extends A[7:0] into D. -/
  | sx8 (p : Px) (f : UForm)
  /-- R94: Sign-extends A[15:0] into D. -/
  | sx16 (p : Px) (f : UForm)
  /-- R94: Zero-extends A[7:0] into D. -/
  | zx8 (p : Px) (f : UForm)
  /-- R94: Zero-extends A[15:0] into D. -/
  | zx16 (p : Px) (f : UForm)
  /-- R94: Writes A with its byte order reversed into D. -/
  | bswap (p : Px) (f : UForm)
  /-- R94: Copies pair A into pair D. -/
  | mov64 (p : Px) (f : UForm)
  /-- R95: Writes WID field F0 of the thread's starting WID into D. -/
  | widf0 (p : Px) (f : UDForm)
  /-- R95: Writes WID field F1 into D. -/
  | widf1 (p : Px) (f : UDForm)
  /-- R95: Writes WID field F2 into D. -/
  | widf2 (p : Px) (f : UDForm)
  /-- R95: Writes WID field F3 into D. -/
  | widf3 (p : Px) (f : UDForm)
  /-- R95: Writes WID field F4 into D. -/
  | widf4 (p : Px) (f : UDForm)
  /-- R95: Writes WID field F5 into D. -/
  | widf5 (p : Px) (f : UDForm)
  /-- R68: Writes the immediate, sign-extended or completed by XIMM, into D without reading it. -/
  | movi (p : Px) (f : IForm)
  /-- R96: Writes the immediate into D[31:16] and keeps D[15:0]. -/
  | movhi (p : Px) (f : IForm)
  /-- R68: Adds the immediate to D modulo 2^32. -/
  | iaddi (p : Px) (f : IForm)
  /-- R68: Ands D with the zero-extended immediate. -/
  | andi (p : Px) (f : IForm)
  /-- R68: Ors D with the zero-extended immediate. -/
  | ori (p : Px) (f : IForm)
  /-- R68: Xors D with the zero-extended immediate. -/
  | xori (p : Px) (f : IForm)
  /-- R96: Shifts D left, right or arithmetically right by an immediate amount. -/
  | shi (p : Px) (d : Opnd) (kind : BitVec 2) (n : BitVec 5) (g : BitVec 2)
  /-- R97: Compares A and B as signed values under CC and writes predicate PD. -/
  | icmp (p : Px) (f : CForm)
  /-- R97: Compares A and B as unsigned values under CC and writes predicate PD. -/
  | ucmp (p : Px) (f : CForm)
  /-- R132: Compares FP32 A and B under CC and writes predicate PD. -/
  | fcmp (p : Px) (f : CForm)
  /-- R132: Compares both FP16 halves and writes predicates PD and PD+1. -/
  | hcmp2 (p : Px) (f : CForm)
  /-- R132: Compares both BF16 halves and writes predicates PD and PD+1. -/
  | bcmp2 (p : Px) (f : CForm)
  /-- R99: Selects A where predicate pN is 1 and B elsewhere into D. -/
  | sel (p : Px) (f : SelForm)
  /-- R100: Sets predicate pN to a three-input truth-table function of predicates. -/
  | plog (p : Px) (pn : BitVec 3) (a : Opnd)
  /-- R101: Writes the any, all and uniform bits of pN over counted lanes into D. -/
  | vote (p : Px) (pn : BitVec 3) (d : Opnd)
  /-- R102: Writes the lane mask of pN over counted lanes into D. -/
  | ballot (p : Px) (pn : BitVec 3) (d : Opnd)
  /-- R103: Writes predicate pN zero-extended into D. -/
  | pmov (p : Px) (pn : BitVec 3) (d : Opnd)
  /-- R103: Writes bit (B and 31) of A into predicate pN. -/
  | pmovPred (p : Px) (pn : BitVec 3) (a b : Opnd)
  /-- R125: Adds FP32 A and B with one rounding. -/
  | fadd (p : Px) (f : RForm)
  /-- R125: Subtracts FP32 B from A with one rounding. -/
  | fsub (p : Px) (f : RForm)
  /-- R125: Multiplies FP32 A and B with one rounding. -/
  | fmul (p : Px) (f : RForm)
  /-- R126: Computes A times B plus D in FP32 with one rounding. -/
  | ffma (p : Px) (f : RForm)
  /-- R127: Writes minimumNumber of FP32 A and B. -/
  | fmin (p : Px) (f : RForm)
  /-- R127: Writes maximumNumber of FP32 A and B. -/
  | fmax (p : Px) (f : RForm)
  /-- R128: Adds two FP16 halves independently. -/
  | hadd2 (p : Px) (f : RForm)
  /-- R128: Multiplies two FP16 halves independently. -/
  | hmul2 (p : Px) (f : RForm)
  /-- R128: Fused multiply-adds two FP16 halves with one rounding each. -/
  | hfma2 (p : Px) (f : RForm)
  /-- R128: Writes minimumNumber of each FP16 half. -/
  | hmin2 (p : Px) (f : RForm)
  /-- R128: Writes maximumNumber of each FP16 half. -/
  | hmax2 (p : Px) (f : RForm)
  /-- R128: Adds two BF16 halves independently. -/
  | badd2 (p : Px) (f : RForm)
  /-- R128: Multiplies two BF16 halves independently. -/
  | bmul2 (p : Px) (f : RForm)
  /-- R128: Fused multiply-adds two BF16 halves with one rounding each. -/
  | bfma2 (p : Px) (f : RForm)
  /-- R128: Writes minimumNumber of each BF16 half. -/
  | bmin2 (p : Px) (f : RForm)
  /-- R128: Writes maximumNumber of each BF16 half. -/
  | bmax2 (p : Px) (f : RForm)
  /-- R130: Adds an FP32 immediate to D. -/
  | faddi (p : Px) (f : IForm)
  /-- R130: Multiplies D by an FP32 immediate. -/
  | fmuli (p : Px) (f : IForm)
  /-- R130: Adds an FP16 immediate pair to D. -/
  | haddi2 (p : Px) (f : IForm)
  /-- R130: Multiplies D by an FP16 immediate pair. -/
  | hmuli2 (p : Px) (f : IForm)
  /-- R130: Adds a BF16 immediate pair to D. -/
  | baddi2 (p : Px) (f : IForm)
  /-- R130: Multiplies D by a BF16 immediate pair. -/
  | bmuli2 (p : Px) (f : IForm)
  /-- R131: Writes a replicated packed narrow-format immediate into D. -/
  | qseti (p : Px) (f : IForm)
  /-- R134: Clears the sign bit of FP32 A. -/
  | fabs (p : Px) (f : UForm)
  /-- R134: Inverts the sign bit of FP32 A. -/
  | fneg (p : Px) (f : UForm)
  /-- R134: Writes the largest integral value not above A. -/
  | ffloor (p : Px) (f : UForm)
  /-- R134: Writes the smallest integral value not below A. -/
  | fceil (p : Px) (f : UForm)
  /-- R134: Writes A rounded toward zero to an integral value. -/
  | ftrunc (p : Px) (f : UForm)
  /-- R134: Writes A rounded to an integral value in the effective mode. -/
  | frint (p : Px) (f : UForm)
  /-- R136: Writes A minus FFLOOR(A) rounded toward minus infinity. -/
  | ffract (p : Px) (f : UForm)
  /-- R136: Clamps A to the range +0 to 1.0. -/
  | fsat (p : Px) (f : UForm)
  /-- R135: Writes a one-hot class mask of A into D. -/
  | fclass (p : Px) (f : UForm)
  /-- R134: Clears the sign bits of both FP16 halves. -/
  | habs2 (p : Px) (f : UForm)
  /-- R134: Inverts the sign bits of both FP16 halves. -/
  | hneg2 (p : Px) (f : UForm)
  /-- R134: Clears the sign bits of both BF16 halves. -/
  | babs2 (p : Px) (f : UForm)
  /-- R134: Inverts the sign bits of both BF16 halves. -/
  | bneg2 (p : Px) (f : UForm)
  /-- R137: Writes the reciprocal of A. -/
  | rcp (p : Px) (f : UForm)
  /-- R137: Writes the reciprocal square root of A. -/
  | rsq (p : Px) (f : UForm)
  /-- R137: Writes the square root of A. -/
  | sqrt (p : Px) (f : UForm)
  /-- R137: Writes 2 to the power A. -/
  | exp2 (p : Px) (f : UForm)
  /-- R137: Writes the base-2 logarithm of A. -/
  | log2 (p : Px) (f : UForm)
  /-- R137: Writes the sine of A in radians. -/
  | sin (p : Px) (f : UForm)
  /-- R137: Writes the cosine of A in radians. -/
  | cos (p : Px) (f : UForm)
  /-- R137: Writes the hyperbolic tangent of A. -/
  | tanh (p : Px) (f : UForm)
  /-- R139: Adds the exact dot product of two FP16 pairs to FP32 D with one rounding. -/
  | dp2h (p : Px) (f : RForm)
  /-- R139: Adds the exact dot product of two BF16 pairs to D. -/
  | dp2b (p : Px) (f : RForm)
  /-- R139: Adds the exact dot product of four E4M3 pairs to D. -/
  | dp4e4 (p : Px) (f : RForm)
  /-- R139: Adds the exact dot product of four E5M2 pairs to D. -/
  | dp4e5 (p : Px) (f : RForm)
  /-- R139: Adds the exact dot product of four SM8 pairs to D. -/
  | dp4s8 (p : Px) (f : RForm)
  /-- R139: Adds the exact dot product of eight E2M1 pairs to D. -/
  | dp8e2 (p : Px) (f : RForm)
  /-- R139: Adds the exact dot product of eight SM4 pairs to D. -/
  | dp8s4 (p : Px) (f : RForm)
  /-- R140: Writes A times 2 to the signed power B with one rounding. -/
  | fscl (p : Px) (f : RForm)
  /-- R141: Converts FP32 A to a saturated signed integer in the effective mode. -/
  | f2i (p : Px) (f : UForm)
  /-- R141: Converts FP32 A to a saturated signed integer toward zero. -/
  | f2iRz (p : Px) (f : UForm)
  /-- R141: Converts FP32 A to a saturated unsigned integer in the effective mode. -/
  | f2u (p : Px) (f : UForm)
  /-- R141: Converts FP32 A to a saturated unsigned integer toward zero. -/
  | f2uRz (p : Px) (f : UForm)
  /-- R141: Converts signed A to FP32. -/
  | i2f (p : Px) (f : UForm)
  /-- R141: Converts unsigned A to FP32. -/
  | u2f (p : Px) (f : UForm)
  /-- R142: Converts FP32 A to FP16 into D[15:0], keeping the high half. -/
  | f2hLo (p : Px) (f : UForm)
  /-- R142: Converts FP32 A to FP16 into D[31:16], keeping the low half. -/
  | f2hHi (p : Px) (f : UForm)
  /-- R142: Converts FP32 A to BF16 into D[15:0]. -/
  | f2bLo (p : Px) (f : UForm)
  /-- R142: Converts FP32 A to BF16 into D[31:16]. -/
  | f2bHi (p : Px) (f : UForm)
  /-- R141: Converts FP16 A[15:0] to FP32. -/
  | h2fLo (p : Px) (f : UForm)
  /-- R141: Converts FP16 A[31:16] to FP32. -/
  | h2fHi (p : Px) (f : UForm)
  /-- R141: Converts BF16 A[15:0] to FP32. -/
  | b2fLo (p : Px) (f : UForm)
  /-- R141: Converts BF16 A[31:16] to FP32. -/
  | b2fHi (p : Px) (f : UForm)
  /-- R144: Quantises FP32 elements from vN upward into one packed narrow-format register per the lane's descriptor. -/
  | qnt (p : Px) (f : RForm)
  /-- R146: Dequantises one selected packed element of A, scaled, into FP32 D. -/
  | deq (p : Px) (f : RForm)
  /-- R147: Pulls A from a source lane chosen by each lane's mode and parameter. -/
  | shfl (p : Px) (f : RForm)
  /-- R148: Pushes A to target lanes, the highest sender prevailing. -/
  | xwr (p : Px) (f : RForm)
  /-- R149: Sums A over active lanes modulo 2^32 into every active lane. -/
  | redlIadd (p : Px) (f : UForm)
  /-- R149: Reduces A by signed minimum over active lanes. -/
  | redlSmin (p : Px) (f : UForm)
  /-- R149: Reduces A by signed maximum over active lanes. -/
  | redlSmax (p : Px) (f : UForm)
  /-- R149: Reduces A by unsigned minimum over active lanes. -/
  | redlUmin (p : Px) (f : UForm)
  /-- R149: Reduces A by unsigned maximum over active lanes. -/
  | redlUmax (p : Px) (f : UForm)
  /-- R149: Reduces A by bitwise and over active lanes. -/
  | redlAnd (p : Px) (f : UForm)
  /-- R149: Reduces A by bitwise or over active lanes. -/
  | redlOr (p : Px) (f : UForm)
  /-- R149: Reduces A by bitwise xor over active lanes. -/
  | redlXor (p : Px) (f : UForm)
  /-- R150: Sums FP32 A over the fixed 32-lane butterfly. -/
  | redlFadd (p : Px) (f : UForm)
  /-- R149: Reduces FP32 A by minimumNumber over active lanes. -/
  | redlFmin (p : Px) (f : UForm)
  /-- R149: Reduces FP32 A by maximumNumber over active lanes. -/
  | redlFmax (p : Px) (f : UForm)
  /-- R151: Writes the inclusive integer prefix sum over active lanes. -/
  | scanlIadd (p : Px) (f : UForm)
  /-- R151: Writes the exclusive integer prefix sum over active lanes. -/
  | scanlIaddEx (p : Px) (f : UForm)
  /-- R152: Writes the inclusive FP32 prefix sum in fixed stages. -/
  | scanlFadd (p : Px) (f : UForm)
  /-- R151: Writes the inclusive signed prefix maximum. -/
  | scanlSmax (p : Px) (f : UForm)
  /-- R151: Writes the inclusive bitwise prefix or. -/
  | scanlOr (p : Px) (f : UForm)
  /-- R157: Loads from global memory into T after checking every active lane. -/
  | ldg (p : Px) (f : MForm)
  /-- R157: Stores T to global memory after checking every active lane. -/
  | stg (p : Px) (f : MForm)
  /-- R157: Loads from shared or stash memory into T. -/
  | lds (p : Px) (f : MForm)
  /-- R157: Stores T to shared or stash memory. -/
  | sts (p : Px) (f : MForm)
  /-- R161: Loads one value for the warp into uniform T through the constant path. -/
  | ldc (p : Px) (f : MForm)
  /-- R162: Asks for the lines at each active lane's address to be brought toward the core. -/
  | pref (p : Px) (f : PrefForm)
  /-- R164: Performs a global atomic at the line's home and returns the old value. -/
  | atg (p : Px) (f : AForm)
  /-- R164: Performs a shared atomic at the core and returns the old value. -/
  | ats (p : Px) (f : AForm)
  /-- R164: Performs a global reduction atomic without returning a value, via the sheaf in deterministic launches. -/
  | redg (p : Px) (f : ARForm)
  /-- R168: Orders every earlier access before every later access toward the scope. -/
  | fenceFull (p : Px) (scope : BitVec 3) (g : BitVec 2)
  /-- R168: Orders earlier loads, atomics and WAITA checks before every later access. -/
  | fenceAcq (p : Px) (scope : BitVec 3) (g : BitVec 2)
  /-- R168: Orders every earlier access before later stores and atomics. -/
  | fenceRel (p : Px) (scope : BitVec 3) (g : BitVec 2)
  /-- R168: Orders the warp's accesses against engine commands pushed later and completions popped earlier. -/
  | fenceEng (p : Px) (scope : BitVec 3) (g : BitVec 2)
  /-- R170: Arrives on a named barrier and waits for the phase to complete. -/
  | barSync (p : Px) (d : Opnd) (name : BitVec 4) (g : BitVec 2)
  /-- R170: Arrives on a named barrier and goes on. -/
  | barArrive (p : Px) (d : Opnd) (name : BitVec 4) (g : BitVec 2)
  /-- R170: Waits for the phase in which the warp last arrived on the name to complete. -/
  | barWait (p : Px) (d : Opnd) (name : BitVec 4) (g : BitVec 2)
  /-- R170: Syncs on a named barrier whose completion is also a sheaf flush point. -/
  | barFlush (p : Px) (d : Opnd) (name : BitVec 4) (g : BitVec 2)
  /-- R172: Arrives on the slot's fibre barrier for a mask and waits. -/
  | fbarSync (p : Px) (mask : BitVec 4) (g : BitVec 2)
  /-- R172: Arrives on a fibre barrier and goes on. -/
  | fbarArrive (p : Px) (mask : BitVec 4) (g : BitVec 2)
  /-- R172: Waits for the fibre barrier phase of the last arrival. -/
  | fbarWait (p : Px) (mask : BitVec 4) (g : BitVec 2)
  /-- R173: Checks a global word against a compare value and waits until it differs or WAITLIM passes. -/
  | waita (p : Px) (f : RForm)
  /-- R174: Sleeps until a chip-time deadline or a copy completion word, writing a status. -/
  | sleepu (p : Px) (f : UForm)
  /-- R175: Unbinds a queue register. -/
  | qbindUnbind (p : Px) (f : UForm)
  /-- R177: Binds a queue register to a shared-memory warp queue header. -/
  | qbindWarp (p : Px) (f : UForm)
  /-- R175: Binds a queue register to one of the slot's fibre queues. -/
  | qbindFibre (p : Px) (f : UForm)
  /-- R175: Binds a queue register to a copy channel's command side. -/
  | qbindCopy (p : Px) (f : UForm)
  /-- R175: Binds a queue register to a copy channel's completion side. -/
  | qbindCopydone (p : Px) (f : UForm)
  /-- R175: Binds a queue register to the core's matrix sequencer. -/
  | qbindMseq (p : Px) (f : UForm)
  /-- R175: Binds a queue register to the die's Thresher command side. -/
  | qbindBincmd (p : Px) (f : UForm)
  /-- R175: Binds a queue register to the Thresher result side. -/
  | qbindBinres (p : Px) (f : UForm)
  /-- R175: Binds a queue register to a continuation queue of the launch. -/
  | qbindCont (p : Px) (f : UForm)
  /-- R175: Binds a queue register to the active-message send port. -/
  | qbindAmsend (p : Px) (f : UForm)
  /-- R179: Writes the kind, available entries and room of a queue register into D. -/
  | qstat (p : Px) (d : Opnd) (q : BitVec 3) (g : BitVec 2)
  /-- R180: Maps a shared range onto a global range as stash. -/
  | stmapMap (p : Px) (d a : Opnd) (g : BitVec 2)
  /-- R180: Writes back a stash mapping's dirty lines and ends it. -/
  | stmapUnmap (p : Px) (f : UDForm)
  /-- R180: Writes back the dirty lines of a stash range and keeps the mapping. -/
  | stmapFlush (p : Px) (f : UDForm)
  /-- R105: Branches per thread, unconditionally, or by ANY or ALL to PC plus a displacement. -/
  | bra (p : Px) (f : BForm)
  /-- R106: Branches as BRA and writes PC+4 into lnk of taken lanes. -/
  | call (p : Px) (f : BForm)
  /-- R107: Jumps each active lane to the address in A. -/
  | jmp (p : Px) (f : UAForm)
  /-- R107: Jumps to A and writes PC+4 into lnk. -/
  | callr (p : Px) (f : UAForm)
  /-- R107: Jumps each active lane to its lnk. -/
  | ret (p : Px) (g : BitVec 2)
  /-- R109: Ends the active threads and releases the warp when its last thread ends. -/
  | exit (p : Px) (g : BitVec 2)
  /-- R110: Ends threads as EXIT and asks for a join decrement at cohort completion. -/
  | exitJ (p : Px) (g : BitVec 2)
  /-- R110: Ends threads as EXIT and asks for tile-buffer marks at cohort completion. -/
  | exitF (p : Px) (g : BitVec 2)
  /-- R112: Parks the issuing entry's lanes at a target, completing and possibly compacting the cohort when all live threads are parked. -/
  | regroup (p : Px) (a : Opnd) (ka : Bool)
  /-- R115: Passes the slot to the next ready fibre, or is a switch point in deterministic launches. -/
  | yieldFibre (p : Px)
  /-- R115: Offers the scheduler a pre-emption point, otherwise acting as yield.fibre. -/
  | yieldSched (p : Px)
  /-- R115: Is a switch point in deterministic launches and does nothing otherwise. -/
  | yieldDet (p : Px)
  /-- R116: Sets the register window base from the next instruction. -/
  | winb (p : Px) (imm : BitVec 16)
  /-- R117: Raises the warp's register quota, blocking or returning a status. -/
  | rgrow (p : Px) (d a : Opnd) (tryIt : Bool)
  /-- R118: Lowers the warp's register quota and returns registers to the pool. -/
  | rshrink (p : Px) (a : Opnd)
  /-- R235: Clears the stopped mark of the fibres in the mask. -/
  | fibreStart (p : Px) (mask : BitVec 4)
  /-- R235: Marks the fibres in the mask as stopped. -/
  | fibreStop (p : Px) (mask : BitVec 4)
  /-- R237: Sets the slot's shared register band. -/
  | fibreWin (p : Px) (a : Opnd)
  /-- R236: Writes the issuing fibre's index into D. -/
  | fibreSelf (p : Px) (d : Opnd)
  /-- R236: Writes the slot's FIBRESTAT value into D. -/
  | fibreState (p : Px) (d : Opnd)
  /-- R221: Checks the recovery header and records the warp's arrival at it, waiting for the cohort. -/
  | ensure (p : Px) (lc : Opnd) (disp : BitVec 18)
  /-- R223: Parks active lanes at the level's test PC and moves the warp there when all are parked. -/
  | rbend (p : Px) (g : BitVec 2)
  /-- R224: Waits for earlier work, records the warp's verdict and waits for the cohort or conversation outcome. -/
  | rbaccept (p : Px) (pn : BitVec 3)
  /-- R230: Fails the current level with cause 8 for the whole cohort. -/
  | rbabort (p : Px) (imm : BitVec 16)
  /-- R231: Makes the cohort a member of a conversation at the open level. -/
  | convj (p : Px) (f : UAForm)
  /-- R190: Binds a handle to a new tile of a kind, waiting or reporting in p7 when no room. -/
  | tlalloc (p : Px) (f : TaForm)
  /-- R192: Releases a handle name, its tile freed when pending work retires. -/
  | tlfree (p : Px) (h : BitVec 5)
  /-- R193: Releases a handle and places its tile on the hand-over list to a partner warp. -/
  | tlgive (p : Px) (h : BitVec 5) (s : BitVec 4)
  /-- R193: Binds a handle to the head tile of the hand-over list from a named giver. -/
  | tltake (p : Px) (h : BitVec 5) (s : BitVec 4)
  /-- R196: Checks an operand map and fills a tile from memory through the tile path. -/
  | tlload (p : Px) (h : BitVec 5) (s : BitVec 4)
  /-- R196: Checks an operand map and writes a tile to memory through the tile path. -/
  | tlstore (p : Px) (h : BitVec 5) (s : BitVec 4)
  /-- R201: Checks and queues a sequence of K-steps accumulating A times B into a C tile. -/
  | mmloop (p : Px) (f : MmForm)
  /-- R206: Checks and queues a Hadamard transform of a C tile, optionally quantising into an A tile. -/
  | hadt (p : Px) (f : HtForm)
  /-- R199: Waits for every earlier tile instruction that named the handle. -/
  | tlsync (p : Px) (h : BitVec 5)
  /-- R199: Waits for every earlier tile instruction of the warp. -/
  | tlsyncAll (p : Px)
  /-- R239: Reads a CSR into D. -/
  | mfsr (p : Px) (d : Opnd) (csr : BitVec 12)
  /-- R239: Writes D into a CSR with that CSR's own timing. -/
  | mtsr (p : Px) (d : Opnd) (csr : BitVec 12)
  /-- R240: Enters the launch's trap handler with the software-trap cause. -/
  | trap (p : Px) (code : BitVec 8)
  /-- R241: Ends trap mode, restoring the set-aside frontier at TRAPPC and zeroing shadows. -/
  | tret (p : Px)
  /-- R242: Sets a tile buffer's full or empty bit after a DOM release. -/
  | tbset (p : Px) (d : Opnd) (v : Bool)
  /-- R244: Enters the handler, halts for a debugger, or does nothing. -/
  | brk (p : Px) (code : BitVec 8)
  /-- R245: Appends a trace record when tracing is enabled. -/
  | mark (p : Px) (d : Opnd) (code : BitVec 12)
  /-- R246: Halts the warp for a claiming debugger. -/
  | haltself (p : Px)
  /-- R120: A stalled or yielded instruction issues again once its stall condition has cleared. -/
  | stallReissue (w : Nat)
  /-- R221: When every live warp has arrived at a header, the level opens in every warp and the attempt count starts. -/
  | levelOpen (c : Nat)
  /-- R264: An attempt count reaches its cycle limit and the level fails with cause 2. -/
  | attemptLimitReached (c depth : Nat)
  /-- R260: After the warps stop, the core waits for shared-destination copies, undoes logs and releases claims. -/
  | levelRollback (c : Nat)
  /-- R268: The object's home handles a JOIN, setting JOINED and LAUNCH. -/
  | convJoinMessage (i : Nat)
  /-- R268: The home records a member's vote and decides acceptance or rollback. -/
  | convVoteMessage (i : Nat)
  /-- R268: The home records a member's FAIL as a false vote and sends ROLLBACK. -/
  | convFailMessage (i : Nat)
  /-- R268: The home records a finished rollback and, when all are done, advances or exhausts. -/
  | convDoneMessage (i : Nat)
  /-- R269: A member receives COMMIT and commits its level. -/
  | convCommitNotice (i : Nat)
  /-- R232: A member receives ROLLBACK and fails with its own cause or cause 5. -/
  | convRollbackNotice (i : Nat)
  /-- R268: A member receives ADVANCE and dispatches its next alternate. -/
  | convAdvanceNotice (i : Nat)
  /-- R268: A member receives EXHAUST and is exhausted under R229. -/
  | convExhaustNotice (i : Nat)
  /-- R442: A write held at a claimed line's home is performed once the claim is released. -/
  | heldWritePerform (i : Nat)
  /-- R31: Chip time reaches the committed comparator while armed, setting PEND. -/
  | timerFire (w : Nat)
  /-- R367: A warp with PEND and TRAPEN.TIMER enters its handler at the next allowed boundary. -/
  | timerTrapEntry (w : Nat)
  /-- R24: A fibre frozen waiting for the slot's shadows enters trap mode once they are free. -/
  | shadowWaitTrapEntry (w : Nat)
  /-- R173: A waiting WAITA checks again after a watched-line write or 1,000 chip ticks. -/
  | waitaRecheck (w : Nat)
  /-- R173: WAITLIM passes during a WAITA and status 1 is written. -/
  | waitaTimeout (w : Nat)
  /-- R174: Chip time reaches a SLEEPU deadline; status 0 or 2 is written, possibly trapping. -/
  | sleepuDeadline (w : Nat)
  /-- R174: A completion word arrives in a bound copydone queue and wakes a sleeping warp with status 1. -/
  | sleepuCompletionWake (w : Nat)
  /-- R187: The matrix sequencer starts a queued tile instruction once its handles have no pending write. -/
  | tileSequencerStart (core op : Nat)
  /-- R187: A tile instruction's work completes, clearing pending marks and freeing renamed handles. -/
  | tileInstrRetire (core op : Nat)
  /-- R197: Broadcast A rows reach a participant's allocation and its tile becomes ready. -/
  | aRowsBroadcastArrive (core i : Nat)
  /-- R209: A COPY command's last word arrives; it is checked, rejected or accepted with a promise. -/
  | copyCmd (cluster chan w : Nat)
  /-- R209: A FILL command's last word arrives; it is checked, rejected or accepted with a promise. -/
  | fillCmd (cluster chan w : Nat)
  /-- R210: A copy command finishes and writes DONE or FAILED and its completion word. -/
  | copyCmdComplete (cluster chan i : Nat)
  /-- R210: Chip time reaches a command's promise with a write held by a claim; it fails with DETAIL 6. -/
  | copyPromiseExpiry (cluster chan i : Nat)
  /-- R211: A RUN command's second word is pushed and checked against the pushing warp's handle map. -/
  | mseqRun (w : Nat) (w0 w1 : Word)
  /-- R212: Opens a bin set with every count at 0. -/
  | thresherOpen (die w : Nat)
  /-- R212: Reads destination ids and adds to the set's counts. -/
  | thresherCount (die w : Nat)
  /-- R212: Names a held command field to patch with a destination's count. -/
  | thresherBind (die w : Nat)
  /-- R214: After earlier COUNTs finish, writes counts, patches and releases held commands, pushes a result and frees the set. -/
  | thresherClose (die w : Nat)
  /-- R216: An active message reaches its target core and is dropped or queued for a handler warp. -/
  | amArrive (core i : Nat)
  /-- R216: A waiting message gets a free warp index and place and a handler warp starts. -/
  | handlerWarpSpawn (c : Nat)
  /-- R110: After a cohort's last thread ends, its writes are released, marks and join decrement made, completion reported. -/
  | cohortCompletion (c : Nat)
  /-- R318: A parent record held for a full continuation queue is placed when room appears. -/
  | parentPlacement (launch : Nat)
  /-- R326: A cluster dispatcher chooses an eligible record and places its cohort on a core. -/
  | cohortDispatch (cluster : Nat)
  /-- R392: The scheduler sees a new tail value of an enabled launch queue and takes its entries in order. -/
  | launchQueueTail (vi q : Nat)
  /-- R333: A promise-launch cohort still live at its budget end is rolled back and ended. -/
  | budgetEnd (c : Nat)
  /-- R334: A promise launch still running at P minus 4,000 is ended and its leftovers counted. -/
  | promiseDrainEnd (launch : Nat)
  /-- R329: A launch has held an eligible record 100,000 chip ticks without room and a context is chosen for pre-emption. -/
  | preemptTrigger (launch : Nat)
  /-- R370: A unit stops, settles accesses, quiesces engines, writes back stash, snapshots and releases. -/
  | preemption (ctx core : Nat)
  /-- R375: A saved unit is restored on chosen cores and its warps become issuable. -/
  | contextResume (ctx i : Nat)
  /-- R340: When nothing of the launch remains, the sheaf drains, held work is discarded and the completion record is written. -/
  | launchEnd (launch : Nat)
  /-- R271: After the first check-mode run completes, digest D1 is formed, writes undone and the launch rerun. -/
  | checkRunRestart (launch : Nat)
  /-- R349: After earlier work completes, a departing entry's lanes are built into cargo and placed outbound. -/
  | cargoDeparture (w : Nat)
  /-- R355: A cargo waiting in an outbound buffer is sent when an entry at its target frees. -/
  | cargoRetry (core i : Nat)
  /-- R354: A cargo's last piece arrives and it joins the target's mooring queue. -/
  | cargoLanding (core i : Nat)
  /-- R356: A warp is made from a mooring entry once a fibre place and quota are free. -/
  | landedWarpStart (core : Nat)
  /-- R358: A mooring queue held at 48 or more for 10,000 ticks causes the segment to be pinned on an idle core. -/
  | segmentReplication (core : Nat)
  /-- R301: A dirty stash line unwritten for 10,000 core cycles is written back and stays stashed. -/
  | stashIdleWriteback (c line : Nat)
  /-- R301: A foreign write to a stashed line at its home recalls it from the owner before performing. -/
  | stashRecall (line : Nat)
  /-- R303: A home directory grants a read of a line to a package or the host, probing and splitting as needed. -/
  | dirReadRequest (agent line : Nat)
  /-- R303: A home directory grants ownership of a line after invalidating probes. -/
  | dirOwnershipRequest (agent line : Nat)
  /-- R304: An agent's eviction notice reaches the home, writing dirty data and updating the vector. -/
  | evictionNotice (agent line seq : Nat) (dirty : Option (List Byte))
  /-- R304: An agent's REGION-DONE notice removes it from a region's vector. -/
  | regionDone (agent base seq : Nat)
  /-- R305: A probe answer with data or MISS reaches the home and completes the probe. -/
  | probeAnswer (agent line : Nat) (ans : ProbeAns)
  /-- R303: Sibling regions untouched for 100,000 chip ticks with equal state and vector merge. -/
  | regionMerge (base size : Nat)
  /-- R307: A host CXL.mem read of device memory is served according to the page's bias. -/
  | hostMemRead (pa n : Nat)
  /-- R307: A host CXL.mem write is performed at the home. -/
  | hostMemWrite (pa : Nat) (bytes : List Byte)
  /-- R308: BIASCMD operation 1 starts a flip to device bias with back-invalidate snoops. -/
  | biasToDev (vi : Nat) (cmd : DWord)
  /-- R308: BIASCMD operation 2 sets a page to host bias at once. -/
  | biasToHost (vi : Nat) (cmd : DWord)
  /-- R308: A host answer to a back-invalidate snoop arrives; the last one completes the flip to DEV. -/
  | bisnpAnswer (line : Nat) (dirty : Option (List Byte))
  /-- R308: A flip lacking answers after 50,000 ticks returns to HOST with status 3. -/
  | biasFlipTimeout (page : Nat)
  /-- R291: A page-table walk completes, filling the TLB or reporting a fault to the system fault queue. -/
  | pageWalk (w : Nat)
  /-- R292: A write to XINVCMD starts a translation-invalidate command. -/
  | xinvCommand (vi : Nat) (cmd : DWord)
  /-- R292: All cached entries are dropped and old-translation work has completed; the command completes. -/
  | xinvComplete (part : Nat)
  /-- R365: A RETRY reply makes the fibre replay or the engine resume. -/
  | faultReplyRetry (vi token : Nat)
  /-- R365: An UNSERVICEABLE reply redelivers the fault as a program fault or fails the engine work. -/
  | faultReplyUnserviceable (vi token : Nat)
  /-- R365: A KILL reply kills the context. -/
  | faultReplyKill (vi token : Nat)
  /-- R391: CTXCMD create makes a context and allocates its save area. -/
  | ctxCreate (vi : Nat) (cmd : DWord)
  /-- R391: CTXCMD destroy waits for the context's launches and releases it. -/
  | ctxDestroy (vi : Nat) (cmd : DWord)
  /-- R420: Once all launches end, the context's state is written back, zeroed and logged. -/
  | contextReleaseScrub (ctx : Nat)
  /-- R391: A write to LQCFG enables, refuses or reconfigures a launch queue. -/
  | lqcfgWrite (vi q : Nat) (val : DWord)
  /-- R391: A write to a register without behaviour of its own stores its value or is ignored. -/
  | registerWrite (vi off : Nat) (val : DWord)
  /-- R368: Uncorrectable data is consumed; the fibre freezes and the launch ends FAILED. -/
  | machineCheck (who : Consumer)
  /-- R368: An access reaches a resource outside the partition; it is logged and the context killed. -/
  | securityViolation (w : Nat) (addr : DWord)
  /-- R368: A context's warps stop, its engine commands and launches fail, and it is released. -/
  | contextKill (ctx : Nat)
  /-- R399: PCMD command 1 makes the writing launch claim a launch for debugging. -/
  | attach (port : Nat)
  /-- R399: PCMD command 2 disarms breakpoints, resumes halted warps and ends the claim. -/
  | detach (port : Nat)
  /-- R399: PCMD command 3 halts the selected warp. -/
  | halt (port : Nat)
  /-- R399: PCMD command 4 halts every warp of the selected cohort. -/
  | haltc (port : Nat)
  /-- R399: PCMD command 5 resumes the selected warp. -/
  | resume (port : Nat)
  /-- R399: PCMD command 6 resumes every warp of the cohort. -/
  | resumec (port : Nat)
  /-- R399: PCMD command 7 lets a halted warp issue one group and halt again. -/
  | step (port : Nat)
  /-- R399: PCMD command 8 arms a breakpoint from its registers. -/
  | setbp (port : Nat)
  /-- R399: PCMD command 9 disarms a breakpoint. -/
  | clrbp (port : Nat)
  /-- R400: A requested halt takes effect once the warp's earlier instructions complete. -/
  | warpHaltTakesEffect (w : Nat)
  /-- R402: An armed breakpoint halts a warp before it issues the group at its PC. -/
  | breakpointHit (w : Nat)
  /-- R401: A debugger write to a halted warp's register view changes or binds a name. -/
  | regviewWrite (port off n : Nat) (val : DWord)
  /-- R401: A debugger write to a halted warp's fibre view changes its writable fields. -/
  | fibviewWrite (port off n : Nat) (val : DWord)
  /-- R401: A debugger write to a halted cohort's shared memory view. -/
  | shviewWrite (port off n : Nat) (val : DWord)
  /-- R401: A debugger write changes a bound tile in place. -/
  | tileviewWrite (port off n : Nat) (val : DWord)
  /-- R401: A debugger view read returns state of a halted warp, or 0 with result 3. -/
  | viewRead (port off n : Nat)
  /-- R403: Every 2^n core cycles a core writes a sample of one claimed warp. -/
  | sample (core : Nat)
  /-- R411: Every 10,000 chip ticks a cluster's governor value moves by its conditions. -/
  | governorUpdate (cluster : Nat)
  /-- R418: Lantern writes a signed attestation report. -/
  | lmReport (addr arg : Nat) (nonce : List Byte)
  /-- R417: Lantern returns 256 log entries and the latest checkpoint. -/
  | lmLogread (addr arg : Nat)
  /-- R417: Lantern returns the lifetime record. -/
  | lmLiferead (addr arg : Nat)
  /-- R421: A Keeper request to append a log entry is queued, written or refused. -/
  | logAppendRequest (type part : Nat) (data : List Byte)
  /-- R421: Lantern signs a checkpoint every 4,096 entries or at the first append after 3,600 s. -/
  | logCheckpoint
  /-- R422: Volatile counters fold into the lifetime record hourly or at once on a machine check or trip. -/
  | lifetimeFold
  /-- R413: A Keeper request extends MEAS4 to MEAS7 or is refused and logged. -/
  | measExtend (i : Nat) (digest : List Byte)
  /-- R413: Cold reset zeroes measurements and runs the measured boot chain. -/
  | coldReset (boot : BootImages)
  /-- R414: A signed command raises the security-version thermometer fuse. -/
  | fuseRaise (signature : Signed) (minimum : Nat)
  /-- R413: A signed firmware update is accepted through the mailbox in recovery. -/
  | firmwareUpdate (image : Image)
  /-- R423: An uncorrectable error in Keeper memory restarts it from its verified image. -/
  | keeperRestart
  /-- R310: Memory controllers patrol a line, correcting and counting soft errors. -/
  | patrolScrub (stack : Nat) (found : PatrolFound)
  /-- R424: A sensor reaches 110 C; the trip is logged, contexts killed and dies held in reset. -/
  | thermalTrip (sensor : Nat)
  /-- R424: Every sensor reads below 90 C and the compute dies leave reset. -/
  | thermalRecovery
  /-- R384: A router input stuck 50,000 ticks is marked blocked and drains to the escape channel. -/
  | nocInputBlocked (die router input : Nat)
  /-- R381: The Keeper stops, drains and re-stitches a rectangle's normal channel. -/
  | stitch (part : Nat) (rect : Rect) (pattern : StitchPattern)
  /-- R388: A PL link failing retry for 1 ms is taken down and removed from routes. -/
  | plLinkDown (link : Nat)
  /-- R388: A request to an unreachable package completes with a machine check after 100 microseconds. -/
  | unreachableTimeout (w : Nat)
  /-- R394: A partition manager request changes a partition resource or is refused. -/
  | partitionConfig (part : Nat) (req : PartReq)
  /-- R74: Issue of a word that is no instruction, such as OP 0x00, an unassigned SUB, FN or AOP value, or a lone ELSEBY or ELSEERR, raises an illegal-instruction fault. -/
  | illegalInstruction
  /-- R296: Every 64 core cycles each core's logical clock pts advances by 1, which lets L1 read leases expire. -/
  | ptsAdvance (core : Nat)
  /-- R306: The host, as home of host memory, snoops the J7's cached copies over CXL.cache, and the device answers and downgrades or drops them. -/
  | hostCacheSnoop (line : Nat) (kind : SnoopKind)
  /-- R305: A package that holds a guest line receives a probe from the line's true home and answers with data or MISS, downgrading or dropping its copy. -/
  | agentProbe (line : Nat) (invalidate : Bool)
  /-- R393: Software advances FQHEAD, so that held fault records are written and the fibres and engines waiting on a full fault queue go on. -/
  | fqheadWrite (vi : Nat) (val : DWord)
  /-- R387: The domain managers set package numbers and PL route tables through a package's Keeper. -/
  | routeTableSet (number : Nat) (routes : List Nat)
  /-- R422: A voltage droop on a die is counted in the lifetime record and noted for the governor's next interval. -/
  | voltageDroopEvent (die : Nat)
  /-- R422: A sensor entering 95 °C or above is counted as a thermal excursion in the lifetime record. -/
  | thermalExcursion (sensor : Nat)
  /-- R415: Loss of power ends all volatile state, leaving only Lantern's nonvolatile store, committed counters and fuses. -/
  | powerLoss
deriving DecidableEq, Repr

end Sys2Proof
end

