-- ==== Sys2Proof/Machine/Rules.lean ====
section
/-! DEFINITION. What the words before an instruction may be and what its fields may hold: the first three checks of R79
(03 R64 R65 R70 to R77, 02 R40, 06 R160). -/

namespace Sys2Proof

/-- What a PERM word may permute (03 R72). -/
inductive PermRule where
  | no | aOnly | both
deriving DecidableEq, Repr

/-- Bits of MEMPOL that an instruction allows: acquire, release, full-line hint (06 R160). -/
structure MemRule where
  acq : Bool
  rel : Bool
  line : Bool
deriving DecidableEq, Repr

/-- The words that may stand before an instruction (03 R72). -/
structure Allow where
  perm : PermRule := .no
  mem : Option MemRule := none
  ximm : Bool := false
  rnd : Bool := false
  approx : Bool := false
  /-- format A, guarded only through a GUARD word (R65) -/
  fmtA : Bool := false
deriving DecidableEq, Repr

/-- The atomic operations that R40 lists as rounding or comparing floats. -/
def fpAop (a : BitVec 4) : Bool := a == 2#4 || a == 3#4 || a == 4#4 || a == 9#4 || a == 10#4

/-- The instruction is an event: it has no word. -/
def Instr.isEvent : Instr → Bool
  | .iadd _ _ => false
  | .isub _ _ => false
  | .imul _ _ => false
  | .imulhs _ _ => false
  | .imulhu _ _ => false
  | .imad _ _ => false
  | .iadd64 _ _ => false
  | .isub64 _ _ => false
  | .imin _ _ => false
  | .imax _ _ => false
  | .umin _ _ => false
  | .umax _ _ => false
  | .and _ _ => false
  | .or _ _ => false
  | .xor _ _ => false
  | .andn _ _ => false
  | .shl _ _ => false
  | .shr _ _ => false
  | .sar _ _ => false
  | .shfr _ _ => false
  | .bfe _ _ => false
  | .bfi _ _ => false
  | .imad64 _ _ => false
  | .mov _ _ => false
  | .not _ _ => false
  | .neg _ _ => false
  | .abs _ _ => false
  | .popc _ _ => false
  | .clz _ _ => false
  | .ctz _ _ => false
  | .brev _ _ => false
  | .sx8 _ _ => false
  | .sx16 _ _ => false
  | .zx8 _ _ => false
  | .zx16 _ _ => false
  | .bswap _ _ => false
  | .mov64 _ _ => false
  | .widf0 _ _ => false
  | .widf1 _ _ => false
  | .widf2 _ _ => false
  | .widf3 _ _ => false
  | .widf4 _ _ => false
  | .widf5 _ _ => false
  | .movi _ _ => false
  | .movhi _ _ => false
  | .iaddi _ _ => false
  | .andi _ _ => false
  | .ori _ _ => false
  | .xori _ _ => false
  | .shi _ _ _ _ _ => false
  | .icmp _ _ => false
  | .ucmp _ _ => false
  | .fcmp _ _ => false
  | .hcmp2 _ _ => false
  | .bcmp2 _ _ => false
  | .sel _ _ => false
  | .plog _ _ _ => false
  | .vote _ _ _ => false
  | .ballot _ _ _ => false
  | .pmov _ _ _ => false
  | .pmovPred _ _ _ _ => false
  | .fadd _ _ => false
  | .fsub _ _ => false
  | .fmul _ _ => false
  | .ffma _ _ => false
  | .fmin _ _ => false
  | .fmax _ _ => false
  | .hadd2 _ _ => false
  | .hmul2 _ _ => false
  | .hfma2 _ _ => false
  | .hmin2 _ _ => false
  | .hmax2 _ _ => false
  | .badd2 _ _ => false
  | .bmul2 _ _ => false
  | .bfma2 _ _ => false
  | .bmin2 _ _ => false
  | .bmax2 _ _ => false
  | .faddi _ _ => false
  | .fmuli _ _ => false
  | .haddi2 _ _ => false
  | .hmuli2 _ _ => false
  | .baddi2 _ _ => false
  | .bmuli2 _ _ => false
  | .qseti _ _ => false
  | .fabs _ _ => false
  | .fneg _ _ => false
  | .ffloor _ _ => false
  | .fceil _ _ => false
  | .ftrunc _ _ => false
  | .frint _ _ => false
  | .ffract _ _ => false
  | .fsat _ _ => false
  | .fclass _ _ => false
  | .habs2 _ _ => false
  | .hneg2 _ _ => false
  | .babs2 _ _ => false
  | .bneg2 _ _ => false
  | .rcp _ _ => false
  | .rsq _ _ => false
  | .sqrt _ _ => false
  | .exp2 _ _ => false
  | .log2 _ _ => false
  | .sin _ _ => false
  | .cos _ _ => false
  | .tanh _ _ => false
  | .dp2h _ _ => false
  | .dp2b _ _ => false
  | .dp4e4 _ _ => false
  | .dp4e5 _ _ => false
  | .dp4s8 _ _ => false
  | .dp8e2 _ _ => false
  | .dp8s4 _ _ => false
  | .fscl _ _ => false
  | .f2i _ _ => false
  | .f2iRz _ _ => false
  | .f2u _ _ => false
  | .f2uRz _ _ => false
  | .i2f _ _ => false
  | .u2f _ _ => false
  | .f2hLo _ _ => false
  | .f2hHi _ _ => false
  | .f2bLo _ _ => false
  | .f2bHi _ _ => false
  | .h2fLo _ _ => false
  | .h2fHi _ _ => false
  | .b2fLo _ _ => false
  | .b2fHi _ _ => false
  | .qnt _ _ => false
  | .deq _ _ => false
  | .shfl _ _ => false
  | .xwr _ _ => false
  | .redlIadd _ _ => false
  | .redlSmin _ _ => false
  | .redlSmax _ _ => false
  | .redlUmin _ _ => false
  | .redlUmax _ _ => false
  | .redlAnd _ _ => false
  | .redlOr _ _ => false
  | .redlXor _ _ => false
  | .redlFadd _ _ => false
  | .redlFmin _ _ => false
  | .redlFmax _ _ => false
  | .scanlIadd _ _ => false
  | .scanlIaddEx _ _ => false
  | .scanlFadd _ _ => false
  | .scanlSmax _ _ => false
  | .scanlOr _ _ => false
  | .ldg _ _ => false
  | .stg _ _ => false
  | .lds _ _ => false
  | .sts _ _ => false
  | .ldc _ _ => false
  | .pref _ _ => false
  | .atg _ _ => false
  | .ats _ _ => false
  | .redg _ _ => false
  | .fenceFull _ _ _ => false
  | .fenceAcq _ _ _ => false
  | .fenceRel _ _ _ => false
  | .fenceEng _ _ _ => false
  | .barSync _ _ _ _ => false
  | .barArrive _ _ _ _ => false
  | .barWait _ _ _ _ => false
  | .barFlush _ _ _ _ => false
  | .fbarSync _ _ _ => false
  | .fbarArrive _ _ _ => false
  | .fbarWait _ _ _ => false
  | .waita _ _ => false
  | .sleepu _ _ => false
  | .qbindUnbind _ _ => false
  | .qbindWarp _ _ => false
  | .qbindFibre _ _ => false
  | .qbindCopy _ _ => false
  | .qbindCopydone _ _ => false
  | .qbindMseq _ _ => false
  | .qbindBincmd _ _ => false
  | .qbindBinres _ _ => false
  | .qbindCont _ _ => false
  | .qbindAmsend _ _ => false
  | .qstat _ _ _ _ => false
  | .stmapMap _ _ _ _ => false
  | .stmapUnmap _ _ => false
  | .stmapFlush _ _ => false
  | .bra _ _ => false
  | .call _ _ => false
  | .jmp _ _ => false
  | .callr _ _ => false
  | .ret _ _ => false
  | .exit _ _ => false
  | .exitJ _ _ => false
  | .exitF _ _ => false
  | .regroup _ _ _ => false
  | .yieldFibre _ => false
  | .yieldSched _ => false
  | .yieldDet _ => false
  | .winb _ _ => false
  | .rgrow _ _ _ _ => false
  | .rshrink _ _ => false
  | .fibreStart _ _ => false
  | .fibreStop _ _ => false
  | .fibreWin _ _ => false
  | .fibreSelf _ _ => false
  | .fibreState _ _ => false
  | .ensure _ _ _ => false
  | .rbend _ _ => false
  | .rbaccept _ _ => false
  | .rbabort _ _ => false
  | .convj _ _ => false
  | .tlalloc _ _ => false
  | .tlfree _ _ => false
  | .tlgive _ _ _ => false
  | .tltake _ _ _ => false
  | .tlload _ _ _ => false
  | .tlstore _ _ _ => false
  | .mmloop _ _ => false
  | .hadt _ _ => false
  | .tlsync _ _ => false
  | .tlsyncAll _ => false
  | .mfsr _ _ _ => false
  | .mtsr _ _ _ => false
  | .trap _ _ => false
  | .tret _ => false
  | .tbset _ _ _ => false
  | .brk _ _ => false
  | .mark _ _ _ => false
  | .haltself _ => false
  | .stallReissue _ => true
  | .levelOpen _ => true
  | .attemptLimitReached _ _ => true
  | .levelRollback _ => true
  | .convJoinMessage _ => true
  | .convVoteMessage _ => true
  | .convFailMessage _ => true
  | .convDoneMessage _ => true
  | .convCommitNotice _ => true
  | .convRollbackNotice _ => true
  | .convAdvanceNotice _ => true
  | .convExhaustNotice _ => true
  | .heldWritePerform _ => true
  | .timerFire _ => true
  | .timerTrapEntry _ => true
  | .shadowWaitTrapEntry _ => true
  | .waitaRecheck _ => true
  | .waitaTimeout _ => true
  | .sleepuDeadline _ => true
  | .sleepuCompletionWake _ => true
  | .tileSequencerStart _ _ => true
  | .tileInstrRetire _ _ => true
  | .aRowsBroadcastArrive _ _ => true
  | .copyCmd _ _ _ => true
  | .fillCmd _ _ _ => true
  | .copyCmdComplete _ _ _ => true
  | .copyPromiseExpiry _ _ _ => true
  | .mseqRun _ _ _ => true
  | .thresherOpen _ _ => true
  | .thresherCount _ _ => true
  | .thresherBind _ _ => true
  | .thresherClose _ _ => true
  | .amArrive _ _ => true
  | .handlerWarpSpawn _ => true
  | .cohortCompletion _ => true
  | .parentPlacement _ => true
  | .cohortDispatch _ => true
  | .launchQueueTail _ _ => true
  | .budgetEnd _ => true
  | .promiseDrainEnd _ => true
  | .preemptTrigger _ => true
  | .preemption _ _ => true
  | .contextResume _ _ => true
  | .launchEnd _ => true
  | .checkRunRestart _ => true
  | .cargoDeparture _ => true
  | .cargoRetry _ _ => true
  | .cargoLanding _ _ => true
  | .landedWarpStart _ => true
  | .segmentReplication _ => true
  | .stashIdleWriteback _ _ => true
  | .stashRecall _ => true
  | .dirReadRequest _ _ => true
  | .dirOwnershipRequest _ _ => true
  | .evictionNotice _ _ _ _ => true
  | .regionDone _ _ _ => true
  | .probeAnswer _ _ _ => true
  | .regionMerge _ _ => true
  | .hostMemRead _ _ => true
  | .hostMemWrite _ _ => true
  | .biasToDev _ _ => true
  | .biasToHost _ _ => true
  | .bisnpAnswer _ _ => true
  | .biasFlipTimeout _ => true
  | .pageWalk _ => true
  | .xinvCommand _ _ => true
  | .xinvComplete _ => true
  | .faultReplyRetry _ _ => true
  | .faultReplyUnserviceable _ _ => true
  | .faultReplyKill _ _ => true
  | .ctxCreate _ _ => true
  | .ctxDestroy _ _ => true
  | .contextReleaseScrub _ => true
  | .lqcfgWrite _ _ _ => true
  | .registerWrite _ _ _ => true
  | .machineCheck _ => true
  | .securityViolation _ _ => true
  | .contextKill _ => true
  | .attach _ => true
  | .detach _ => true
  | .halt _ => true
  | .haltc _ => true
  | .resume _ => true
  | .resumec _ => true
  | .step _ => true
  | .setbp _ => true
  | .clrbp _ => true
  | .warpHaltTakesEffect _ => true
  | .breakpointHit _ => true
  | .regviewWrite _ _ _ _ => true
  | .fibviewWrite _ _ _ _ => true
  | .shviewWrite _ _ _ _ => true
  | .tileviewWrite _ _ _ _ => true
  | .viewRead _ _ _ => true
  | .sample _ => true
  | .governorUpdate _ => true
  | .lmReport _ _ _ => true
  | .lmLogread _ _ => true
  | .lmLiferead _ _ => true
  | .logAppendRequest _ _ _ => true
  | .logCheckpoint => true
  | .lifetimeFold => true
  | .measExtend _ _ => true
  | .coldReset _ => true
  | .fuseRaise _ _ => true
  | .firmwareUpdate _ => true
  | .keeperRestart => true
  | .patrolScrub _ _ => true
  | .thermalTrip _ => true
  | .thermalRecovery => true
  | .nocInputBlocked _ _ _ => true
  | .stitch _ _ _ => true
  | .plLinkDown _ => true
  | .unreachableTimeout _ => true
  | .partitionConfig _ _ => true
  | .illegalInstruction => true
  | .ptsAdvance _ => true
  | .hostCacheSnoop _ _ => true
  | .agentProbe _ _ => true
  | .fqheadWrite _ _ => true
  | .routeTableSet _ _ => true
  | .voltageDroopEvent _ => true
  | .thermalExcursion _ => true
  | .powerLoss => true

/-- The words before an instruction. -/
def Instr.px : Instr → Px
  | .iadd p _ => p
  | .isub p _ => p
  | .imul p _ => p
  | .imulhs p _ => p
  | .imulhu p _ => p
  | .imad p _ => p
  | .iadd64 p _ => p
  | .isub64 p _ => p
  | .imin p _ => p
  | .imax p _ => p
  | .umin p _ => p
  | .umax p _ => p
  | .and p _ => p
  | .or p _ => p
  | .xor p _ => p
  | .andn p _ => p
  | .shl p _ => p
  | .shr p _ => p
  | .sar p _ => p
  | .shfr p _ => p
  | .bfe p _ => p
  | .bfi p _ => p
  | .imad64 p _ => p
  | .mov p _ => p
  | .not p _ => p
  | .neg p _ => p
  | .abs p _ => p
  | .popc p _ => p
  | .clz p _ => p
  | .ctz p _ => p
  | .brev p _ => p
  | .sx8 p _ => p
  | .sx16 p _ => p
  | .zx8 p _ => p
  | .zx16 p _ => p
  | .bswap p _ => p
  | .mov64 p _ => p
  | .widf0 p _ => p
  | .widf1 p _ => p
  | .widf2 p _ => p
  | .widf3 p _ => p
  | .widf4 p _ => p
  | .widf5 p _ => p
  | .movi p _ => p
  | .movhi p _ => p
  | .iaddi p _ => p
  | .andi p _ => p
  | .ori p _ => p
  | .xori p _ => p
  | .shi p _ _ _ _ => p
  | .icmp p _ => p
  | .ucmp p _ => p
  | .fcmp p _ => p
  | .hcmp2 p _ => p
  | .bcmp2 p _ => p
  | .sel p _ => p
  | .plog p _ _ => p
  | .vote p _ _ => p
  | .ballot p _ _ => p
  | .pmov p _ _ => p
  | .pmovPred p _ _ _ => p
  | .fadd p _ => p
  | .fsub p _ => p
  | .fmul p _ => p
  | .ffma p _ => p
  | .fmin p _ => p
  | .fmax p _ => p
  | .hadd2 p _ => p
  | .hmul2 p _ => p
  | .hfma2 p _ => p
  | .hmin2 p _ => p
  | .hmax2 p _ => p
  | .badd2 p _ => p
  | .bmul2 p _ => p
  | .bfma2 p _ => p
  | .bmin2 p _ => p
  | .bmax2 p _ => p
  | .faddi p _ => p
  | .fmuli p _ => p
  | .haddi2 p _ => p
  | .hmuli2 p _ => p
  | .baddi2 p _ => p
  | .bmuli2 p _ => p
  | .qseti p _ => p
  | .fabs p _ => p
  | .fneg p _ => p
  | .ffloor p _ => p
  | .fceil p _ => p
  | .ftrunc p _ => p
  | .frint p _ => p
  | .ffract p _ => p
  | .fsat p _ => p
  | .fclass p _ => p
  | .habs2 p _ => p
  | .hneg2 p _ => p
  | .babs2 p _ => p
  | .bneg2 p _ => p
  | .rcp p _ => p
  | .rsq p _ => p
  | .sqrt p _ => p
  | .exp2 p _ => p
  | .log2 p _ => p
  | .sin p _ => p
  | .cos p _ => p
  | .tanh p _ => p
  | .dp2h p _ => p
  | .dp2b p _ => p
  | .dp4e4 p _ => p
  | .dp4e5 p _ => p
  | .dp4s8 p _ => p
  | .dp8e2 p _ => p
  | .dp8s4 p _ => p
  | .fscl p _ => p
  | .f2i p _ => p
  | .f2iRz p _ => p
  | .f2u p _ => p
  | .f2uRz p _ => p
  | .i2f p _ => p
  | .u2f p _ => p
  | .f2hLo p _ => p
  | .f2hHi p _ => p
  | .f2bLo p _ => p
  | .f2bHi p _ => p
  | .h2fLo p _ => p
  | .h2fHi p _ => p
  | .b2fLo p _ => p
  | .b2fHi p _ => p
  | .qnt p _ => p
  | .deq p _ => p
  | .shfl p _ => p
  | .xwr p _ => p
  | .redlIadd p _ => p
  | .redlSmin p _ => p
  | .redlSmax p _ => p
  | .redlUmin p _ => p
  | .redlUmax p _ => p
  | .redlAnd p _ => p
  | .redlOr p _ => p
  | .redlXor p _ => p
  | .redlFadd p _ => p
  | .redlFmin p _ => p
  | .redlFmax p _ => p
  | .scanlIadd p _ => p
  | .scanlIaddEx p _ => p
  | .scanlFadd p _ => p
  | .scanlSmax p _ => p
  | .scanlOr p _ => p
  | .ldg p _ => p
  | .stg p _ => p
  | .lds p _ => p
  | .sts p _ => p
  | .ldc p _ => p
  | .pref p _ => p
  | .atg p _ => p
  | .ats p _ => p
  | .redg p _ => p
  | .fenceFull p _ _ => p
  | .fenceAcq p _ _ => p
  | .fenceRel p _ _ => p
  | .fenceEng p _ _ => p
  | .barSync p _ _ _ => p
  | .barArrive p _ _ _ => p
  | .barWait p _ _ _ => p
  | .barFlush p _ _ _ => p
  | .fbarSync p _ _ => p
  | .fbarArrive p _ _ => p
  | .fbarWait p _ _ => p
  | .waita p _ => p
  | .sleepu p _ => p
  | .qbindUnbind p _ => p
  | .qbindWarp p _ => p
  | .qbindFibre p _ => p
  | .qbindCopy p _ => p
  | .qbindCopydone p _ => p
  | .qbindMseq p _ => p
  | .qbindBincmd p _ => p
  | .qbindBinres p _ => p
  | .qbindCont p _ => p
  | .qbindAmsend p _ => p
  | .qstat p _ _ _ => p
  | .stmapMap p _ _ _ => p
  | .stmapUnmap p _ => p
  | .stmapFlush p _ => p
  | .bra p _ => p
  | .call p _ => p
  | .jmp p _ => p
  | .callr p _ => p
  | .ret p _ => p
  | .exit p _ => p
  | .exitJ p _ => p
  | .exitF p _ => p
  | .regroup p _ _ => p
  | .yieldFibre p => p
  | .yieldSched p => p
  | .yieldDet p => p
  | .winb p _ => p
  | .rgrow p _ _ _ => p
  | .rshrink p _ => p
  | .fibreStart p _ => p
  | .fibreStop p _ => p
  | .fibreWin p _ => p
  | .fibreSelf p _ => p
  | .fibreState p _ => p
  | .ensure p _ _ => p
  | .rbend p _ => p
  | .rbaccept p _ => p
  | .rbabort p _ => p
  | .convj p _ => p
  | .tlalloc p _ => p
  | .tlfree p _ => p
  | .tlgive p _ _ => p
  | .tltake p _ _ => p
  | .tlload p _ _ => p
  | .tlstore p _ _ => p
  | .mmloop p _ => p
  | .hadt p _ => p
  | .tlsync p _ => p
  | .tlsyncAll p => p
  | .mfsr p _ _ => p
  | .mtsr p _ _ => p
  | .trap p _ => p
  | .tret p => p
  | .tbset p _ _ => p
  | .brk p _ => p
  | .mark p _ _ => p
  | .haltself p => p
  | .stallReissue _ => Px.empty
  | .levelOpen _ => Px.empty
  | .attemptLimitReached _ _ => Px.empty
  | .levelRollback _ => Px.empty
  | .convJoinMessage _ => Px.empty
  | .convVoteMessage _ => Px.empty
  | .convFailMessage _ => Px.empty
  | .convDoneMessage _ => Px.empty
  | .convCommitNotice _ => Px.empty
  | .convRollbackNotice _ => Px.empty
  | .convAdvanceNotice _ => Px.empty
  | .convExhaustNotice _ => Px.empty
  | .heldWritePerform _ => Px.empty
  | .timerFire _ => Px.empty
  | .timerTrapEntry _ => Px.empty
  | .shadowWaitTrapEntry _ => Px.empty
  | .waitaRecheck _ => Px.empty
  | .waitaTimeout _ => Px.empty
  | .sleepuDeadline _ => Px.empty
  | .sleepuCompletionWake _ => Px.empty
  | .tileSequencerStart _ _ => Px.empty
  | .tileInstrRetire _ _ => Px.empty
  | .aRowsBroadcastArrive _ _ => Px.empty
  | .copyCmd _ _ _ => Px.empty
  | .fillCmd _ _ _ => Px.empty
  | .copyCmdComplete _ _ _ => Px.empty
  | .copyPromiseExpiry _ _ _ => Px.empty
  | .mseqRun _ _ _ => Px.empty
  | .thresherOpen _ _ => Px.empty
  | .thresherCount _ _ => Px.empty
  | .thresherBind _ _ => Px.empty
  | .thresherClose _ _ => Px.empty
  | .amArrive _ _ => Px.empty
  | .handlerWarpSpawn _ => Px.empty
  | .cohortCompletion _ => Px.empty
  | .parentPlacement _ => Px.empty
  | .cohortDispatch _ => Px.empty
  | .launchQueueTail _ _ => Px.empty
  | .budgetEnd _ => Px.empty
  | .promiseDrainEnd _ => Px.empty
  | .preemptTrigger _ => Px.empty
  | .preemption _ _ => Px.empty
  | .contextResume _ _ => Px.empty
  | .launchEnd _ => Px.empty
  | .checkRunRestart _ => Px.empty
  | .cargoDeparture _ => Px.empty
  | .cargoRetry _ _ => Px.empty
  | .cargoLanding _ _ => Px.empty
  | .landedWarpStart _ => Px.empty
  | .segmentReplication _ => Px.empty
  | .stashIdleWriteback _ _ => Px.empty
  | .stashRecall _ => Px.empty
  | .dirReadRequest _ _ => Px.empty
  | .dirOwnershipRequest _ _ => Px.empty
  | .evictionNotice _ _ _ _ => Px.empty
  | .regionDone _ _ _ => Px.empty
  | .probeAnswer _ _ _ => Px.empty
  | .regionMerge _ _ => Px.empty
  | .hostMemRead _ _ => Px.empty
  | .hostMemWrite _ _ => Px.empty
  | .biasToDev _ _ => Px.empty
  | .biasToHost _ _ => Px.empty
  | .bisnpAnswer _ _ => Px.empty
  | .biasFlipTimeout _ => Px.empty
  | .pageWalk _ => Px.empty
  | .xinvCommand _ _ => Px.empty
  | .xinvComplete _ => Px.empty
  | .faultReplyRetry _ _ => Px.empty
  | .faultReplyUnserviceable _ _ => Px.empty
  | .faultReplyKill _ _ => Px.empty
  | .ctxCreate _ _ => Px.empty
  | .ctxDestroy _ _ => Px.empty
  | .contextReleaseScrub _ => Px.empty
  | .lqcfgWrite _ _ _ => Px.empty
  | .registerWrite _ _ _ => Px.empty
  | .machineCheck _ => Px.empty
  | .securityViolation _ _ => Px.empty
  | .contextKill _ => Px.empty
  | .attach _ => Px.empty
  | .detach _ => Px.empty
  | .halt _ => Px.empty
  | .haltc _ => Px.empty
  | .resume _ => Px.empty
  | .resumec _ => Px.empty
  | .step _ => Px.empty
  | .setbp _ => Px.empty
  | .clrbp _ => Px.empty
  | .warpHaltTakesEffect _ => Px.empty
  | .breakpointHit _ => Px.empty
  | .regviewWrite _ _ _ _ => Px.empty
  | .fibviewWrite _ _ _ _ => Px.empty
  | .shviewWrite _ _ _ _ => Px.empty
  | .tileviewWrite _ _ _ _ => Px.empty
  | .viewRead _ _ _ => Px.empty
  | .sample _ => Px.empty
  | .governorUpdate _ => Px.empty
  | .lmReport _ _ _ => Px.empty
  | .lmLogread _ _ => Px.empty
  | .lmLiferead _ _ => Px.empty
  | .logAppendRequest _ _ _ => Px.empty
  | .logCheckpoint => Px.empty
  | .lifetimeFold => Px.empty
  | .measExtend _ _ => Px.empty
  | .coldReset _ => Px.empty
  | .fuseRaise _ _ => Px.empty
  | .firmwareUpdate _ => Px.empty
  | .keeperRestart => Px.empty
  | .patrolScrub _ _ => Px.empty
  | .thermalTrip _ => Px.empty
  | .thermalRecovery => Px.empty
  | .nocInputBlocked _ _ _ => Px.empty
  | .stitch _ _ _ => Px.empty
  | .plLinkDown _ => Px.empty
  | .unreachableTimeout _ => Px.empty
  | .partitionConfig _ _ => Px.empty
  | .illegalInstruction => Px.empty
  | .ptsAdvance _ => Px.empty
  | .hostCacheSnoop _ _ => Px.empty
  | .agentProbe _ _ => Px.empty
  | .fqheadWrite _ _ => Px.empty
  | .routeTableSet _ _ => Px.empty
  | .voltageDroopEvent _ => Px.empty
  | .thermalExcursion _ => Px.empty
  | .powerLoss => Px.empty

/-- The guard field, where the format has one (03 R65). -/
def Instr.guardField : Instr → Option (BitVec 2)
  | .iadd _ f => some f.g
  | .isub _ f => some f.g
  | .imul _ f => some f.g
  | .imulhs _ f => some f.g
  | .imulhu _ f => some f.g
  | .imad _ f => some f.g
  | .iadd64 _ f => some f.g
  | .isub64 _ f => some f.g
  | .imin _ f => some f.g
  | .imax _ f => some f.g
  | .umin _ f => some f.g
  | .umax _ f => some f.g
  | .and _ f => some f.g
  | .or _ f => some f.g
  | .xor _ f => some f.g
  | .andn _ f => some f.g
  | .shl _ f => some f.g
  | .shr _ f => some f.g
  | .sar _ f => some f.g
  | .shfr _ f => some f.g
  | .bfe _ f => some f.g
  | .bfi _ f => some f.g
  | .imad64 _ f => some f.g
  | .mov _ f => some f.g
  | .not _ f => some f.g
  | .neg _ f => some f.g
  | .abs _ f => some f.g
  | .popc _ f => some f.g
  | .clz _ f => some f.g
  | .ctz _ f => some f.g
  | .brev _ f => some f.g
  | .sx8 _ f => some f.g
  | .sx16 _ f => some f.g
  | .zx8 _ f => some f.g
  | .zx16 _ f => some f.g
  | .bswap _ f => some f.g
  | .mov64 _ f => some f.g
  | .widf0 _ f => some f.g
  | .widf1 _ f => some f.g
  | .widf2 _ f => some f.g
  | .widf3 _ f => some f.g
  | .widf4 _ f => some f.g
  | .widf5 _ f => some f.g
  | .movi _ f => some f.g
  | .movhi _ f => some f.g
  | .iaddi _ f => some f.g
  | .andi _ f => some f.g
  | .ori _ f => some f.g
  | .xori _ f => some f.g
  | .shi _ _ _ _ g => some g
  | .icmp _ f => some f.g
  | .ucmp _ f => some f.g
  | .fcmp _ f => some f.g
  | .hcmp2 _ f => some f.g
  | .bcmp2 _ f => some f.g
  | .sel _ _ => none
  | .plog _ _ _ => none
  | .vote _ _ _ => none
  | .ballot _ _ _ => none
  | .pmov _ _ _ => none
  | .pmovPred _ _ _ _ => none
  | .fadd _ f => some f.g
  | .fsub _ f => some f.g
  | .fmul _ f => some f.g
  | .ffma _ f => some f.g
  | .fmin _ f => some f.g
  | .fmax _ f => some f.g
  | .hadd2 _ f => some f.g
  | .hmul2 _ f => some f.g
  | .hfma2 _ f => some f.g
  | .hmin2 _ f => some f.g
  | .hmax2 _ f => some f.g
  | .badd2 _ f => some f.g
  | .bmul2 _ f => some f.g
  | .bfma2 _ f => some f.g
  | .bmin2 _ f => some f.g
  | .bmax2 _ f => some f.g
  | .faddi _ f => some f.g
  | .fmuli _ f => some f.g
  | .haddi2 _ f => some f.g
  | .hmuli2 _ f => some f.g
  | .baddi2 _ f => some f.g
  | .bmuli2 _ f => some f.g
  | .qseti _ f => some f.g
  | .fabs _ f => some f.g
  | .fneg _ f => some f.g
  | .ffloor _ f => some f.g
  | .fceil _ f => some f.g
  | .ftrunc _ f => some f.g
  | .frint _ f => some f.g
  | .ffract _ f => some f.g
  | .fsat _ f => some f.g
  | .fclass _ f => some f.g
  | .habs2 _ f => some f.g
  | .hneg2 _ f => some f.g
  | .babs2 _ f => some f.g
  | .bneg2 _ f => some f.g
  | .rcp _ f => some f.g
  | .rsq _ f => some f.g
  | .sqrt _ f => some f.g
  | .exp2 _ f => some f.g
  | .log2 _ f => some f.g
  | .sin _ f => some f.g
  | .cos _ f => some f.g
  | .tanh _ f => some f.g
  | .dp2h _ f => some f.g
  | .dp2b _ f => some f.g
  | .dp4e4 _ f => some f.g
  | .dp4e5 _ f => some f.g
  | .dp4s8 _ f => some f.g
  | .dp8e2 _ f => some f.g
  | .dp8s4 _ f => some f.g
  | .fscl _ f => some f.g
  | .f2i _ f => some f.g
  | .f2iRz _ f => some f.g
  | .f2u _ f => some f.g
  | .f2uRz _ f => some f.g
  | .i2f _ f => some f.g
  | .u2f _ f => some f.g
  | .f2hLo _ f => some f.g
  | .f2hHi _ f => some f.g
  | .f2bLo _ f => some f.g
  | .f2bHi _ f => some f.g
  | .h2fLo _ f => some f.g
  | .h2fHi _ f => some f.g
  | .b2fLo _ f => some f.g
  | .b2fHi _ f => some f.g
  | .qnt _ f => some f.g
  | .deq _ f => some f.g
  | .shfl _ f => some f.g
  | .xwr _ f => some f.g
  | .redlIadd _ f => some f.g
  | .redlSmin _ f => some f.g
  | .redlSmax _ f => some f.g
  | .redlUmin _ f => some f.g
  | .redlUmax _ f => some f.g
  | .redlAnd _ f => some f.g
  | .redlOr _ f => some f.g
  | .redlXor _ f => some f.g
  | .redlFadd _ f => some f.g
  | .redlFmin _ f => some f.g
  | .redlFmax _ f => some f.g
  | .scanlIadd _ f => some f.g
  | .scanlIaddEx _ f => some f.g
  | .scanlFadd _ f => some f.g
  | .scanlSmax _ f => some f.g
  | .scanlOr _ f => some f.g
  | .ldg _ f => some f.g
  | .stg _ f => some f.g
  | .lds _ f => some f.g
  | .sts _ f => some f.g
  | .ldc _ f => some f.g
  | .pref _ f => some f.g
  | .atg _ _ => none
  | .ats _ _ => none
  | .redg _ _ => none
  | .fenceFull _ _ g => some g
  | .fenceAcq _ _ g => some g
  | .fenceRel _ _ g => some g
  | .fenceEng _ _ g => some g
  | .barSync _ _ _ g => some g
  | .barArrive _ _ _ g => some g
  | .barWait _ _ _ g => some g
  | .barFlush _ _ _ g => some g
  | .fbarSync _ _ g => some g
  | .fbarArrive _ _ g => some g
  | .fbarWait _ _ g => some g
  | .waita _ f => some f.g
  | .sleepu _ f => some f.g
  | .qbindUnbind _ f => some f.g
  | .qbindWarp _ f => some f.g
  | .qbindFibre _ f => some f.g
  | .qbindCopy _ f => some f.g
  | .qbindCopydone _ f => some f.g
  | .qbindMseq _ f => some f.g
  | .qbindBincmd _ f => some f.g
  | .qbindBinres _ f => some f.g
  | .qbindCont _ f => some f.g
  | .qbindAmsend _ f => some f.g
  | .qstat _ _ _ g => some g
  | .stmapMap _ _ _ g => some g
  | .stmapUnmap _ f => some f.g
  | .stmapFlush _ f => some f.g
  | .bra _ _ => none
  | .call _ _ => none
  | .jmp _ f => some f.g
  | .callr _ f => some f.g
  | .ret _ g => some g
  | .exit _ g => some g
  | .exitJ _ g => some g
  | .exitF _ g => some g
  | .regroup _ _ _ => none
  | .yieldFibre _ => none
  | .yieldSched _ => none
  | .yieldDet _ => none
  | .winb _ _ => none
  | .rgrow _ _ _ _ => none
  | .rshrink _ _ => none
  | .fibreStart _ _ => none
  | .fibreStop _ _ => none
  | .fibreWin _ _ => none
  | .fibreSelf _ _ => none
  | .fibreState _ _ => none
  | .ensure _ _ _ => none
  | .rbend _ g => some g
  | .rbaccept _ _ => none
  | .rbabort _ _ => none
  | .convj _ f => some f.g
  | .tlalloc _ _ => none
  | .tlfree _ _ => none
  | .tlgive _ _ _ => none
  | .tltake _ _ _ => none
  | .tlload _ _ _ => none
  | .tlstore _ _ _ => none
  | .mmloop _ _ => none
  | .hadt _ _ => none
  | .tlsync _ _ => none
  | .tlsyncAll _ => none
  | .mfsr _ _ _ => none
  | .mtsr _ _ _ => none
  | .trap _ _ => none
  | .tret _ => none
  | .tbset _ _ _ => none
  | .brk _ _ => none
  | .mark _ _ _ => none
  | .haltself _ => none
  | .stallReissue _ => none
  | .levelOpen _ => none
  | .attemptLimitReached _ _ => none
  | .levelRollback _ => none
  | .convJoinMessage _ => none
  | .convVoteMessage _ => none
  | .convFailMessage _ => none
  | .convDoneMessage _ => none
  | .convCommitNotice _ => none
  | .convRollbackNotice _ => none
  | .convAdvanceNotice _ => none
  | .convExhaustNotice _ => none
  | .heldWritePerform _ => none
  | .timerFire _ => none
  | .timerTrapEntry _ => none
  | .shadowWaitTrapEntry _ => none
  | .waitaRecheck _ => none
  | .waitaTimeout _ => none
  | .sleepuDeadline _ => none
  | .sleepuCompletionWake _ => none
  | .tileSequencerStart _ _ => none
  | .tileInstrRetire _ _ => none
  | .aRowsBroadcastArrive _ _ => none
  | .copyCmd _ _ _ => none
  | .fillCmd _ _ _ => none
  | .copyCmdComplete _ _ _ => none
  | .copyPromiseExpiry _ _ _ => none
  | .mseqRun _ _ _ => none
  | .thresherOpen _ _ => none
  | .thresherCount _ _ => none
  | .thresherBind _ _ => none
  | .thresherClose _ _ => none
  | .amArrive _ _ => none
  | .handlerWarpSpawn _ => none
  | .cohortCompletion _ => none
  | .parentPlacement _ => none
  | .cohortDispatch _ => none
  | .launchQueueTail _ _ => none
  | .budgetEnd _ => none
  | .promiseDrainEnd _ => none
  | .preemptTrigger _ => none
  | .preemption _ _ => none
  | .contextResume _ _ => none
  | .launchEnd _ => none
  | .checkRunRestart _ => none
  | .cargoDeparture _ => none
  | .cargoRetry _ _ => none
  | .cargoLanding _ _ => none
  | .landedWarpStart _ => none
  | .segmentReplication _ => none
  | .stashIdleWriteback _ _ => none
  | .stashRecall _ => none
  | .dirReadRequest _ _ => none
  | .dirOwnershipRequest _ _ => none
  | .evictionNotice _ _ _ _ => none
  | .regionDone _ _ _ => none
  | .probeAnswer _ _ _ => none
  | .regionMerge _ _ => none
  | .hostMemRead _ _ => none
  | .hostMemWrite _ _ => none
  | .biasToDev _ _ => none
  | .biasToHost _ _ => none
  | .bisnpAnswer _ _ => none
  | .biasFlipTimeout _ => none
  | .pageWalk _ => none
  | .xinvCommand _ _ => none
  | .xinvComplete _ => none
  | .faultReplyRetry _ _ => none
  | .faultReplyUnserviceable _ _ => none
  | .faultReplyKill _ _ => none
  | .ctxCreate _ _ => none
  | .ctxDestroy _ _ => none
  | .contextReleaseScrub _ => none
  | .lqcfgWrite _ _ _ => none
  | .registerWrite _ _ _ => none
  | .machineCheck _ => none
  | .securityViolation _ _ => none
  | .contextKill _ => none
  | .attach _ => none
  | .detach _ => none
  | .halt _ => none
  | .haltc _ => none
  | .resume _ => none
  | .resumec _ => none
  | .step _ => none
  | .setbp _ => none
  | .clrbp _ => none
  | .warpHaltTakesEffect _ => none
  | .breakpointHit _ => none
  | .regviewWrite _ _ _ _ => none
  | .fibviewWrite _ _ _ _ => none
  | .shviewWrite _ _ _ _ => none
  | .tileviewWrite _ _ _ _ => none
  | .viewRead _ _ _ => none
  | .sample _ => none
  | .governorUpdate _ => none
  | .lmReport _ _ _ => none
  | .lmLogread _ _ => none
  | .lmLiferead _ _ => none
  | .logAppendRequest _ _ _ => none
  | .logCheckpoint => none
  | .lifetimeFold => none
  | .measExtend _ _ => none
  | .coldReset _ => none
  | .fuseRaise _ _ => none
  | .firmwareUpdate _ => none
  | .keeperRestart => none
  | .patrolScrub _ _ => none
  | .thermalTrip _ => none
  | .thermalRecovery => none
  | .nocInputBlocked _ _ _ => none
  | .stitch _ _ _ => none
  | .plLinkDown _ => none
  | .unreachableTimeout _ => none
  | .partitionConfig _ _ => none
  | .illegalInstruction => none
  | .ptsAdvance _ => none
  | .hostCacheSnoop _ _ => none
  | .agentProbe _ _ => none
  | .fqheadWrite _ _ => none
  | .routeTableSet _ _ => none
  | .voltageDroopEvent _ => none
  | .thermalExcursion _ => none
  | .powerLoss => none

/-- Which words may stand before the instruction (03 R72, 02 R40, 06 R160); PERM before WIDF0 to WIDF5: DEDUCED, log 69. -/
def Instr.allow : Instr → Allow
  | .iadd _ _ => { perm := .both }
  | .isub _ _ => { perm := .both }
  | .imul _ _ => { perm := .both }
  | .imulhs _ _ => { perm := .both }
  | .imulhu _ _ => { perm := .both }
  | .imad _ _ => { perm := .both }
  | .iadd64 _ _ => { perm := .both }
  | .isub64 _ _ => { perm := .both }
  | .imin _ _ => { perm := .both }
  | .imax _ _ => { perm := .both }
  | .umin _ _ => { perm := .both }
  | .umax _ _ => { perm := .both }
  | .and _ _ => { perm := .both }
  | .or _ _ => { perm := .both }
  | .xor _ _ => { perm := .both }
  | .andn _ _ => { perm := .both }
  | .shl _ _ => { perm := .both }
  | .shr _ _ => { perm := .both }
  | .sar _ _ => { perm := .both }
  | .shfr _ _ => { perm := .both }
  | .bfe _ _ => { perm := .both }
  | .bfi _ _ => { perm := .both }
  | .imad64 _ _ => { perm := .both }
  | .mov _ _ => { perm := .aOnly, rnd := true }
  | .not _ _ => { perm := .aOnly }
  | .neg _ _ => { perm := .aOnly }
  | .abs _ _ => { perm := .aOnly }
  | .popc _ _ => { perm := .aOnly }
  | .clz _ _ => { perm := .aOnly }
  | .ctz _ _ => { perm := .aOnly }
  | .brev _ _ => { perm := .aOnly }
  | .sx8 _ _ => { perm := .aOnly }
  | .sx16 _ _ => { perm := .aOnly }
  | .zx8 _ _ => { perm := .aOnly }
  | .zx16 _ _ => { perm := .aOnly }
  | .bswap _ _ => { perm := .aOnly }
  | .mov64 _ _ => { perm := .aOnly, rnd := true }
  | .widf0 _ _ => { perm := .aOnly }
  | .widf1 _ _ => { perm := .aOnly }
  | .widf2 _ _ => { perm := .aOnly }
  | .widf3 _ _ => { perm := .aOnly }
  | .widf4 _ _ => { perm := .aOnly }
  | .widf5 _ _ => { perm := .aOnly }
  | .movi _ _ => { ximm := true, rnd := true }
  | .movhi _ _ => { rnd := true }
  | .iaddi _ _ => { ximm := true }
  | .andi _ _ => { ximm := true }
  | .ori _ _ => { ximm := true }
  | .xori _ _ => { ximm := true }
  | .shi _ _ _ _ _ => {}
  | .icmp _ _ => { perm := .both }
  | .ucmp _ _ => { perm := .both }
  | .fcmp _ _ => { perm := .both, rnd := true }
  | .hcmp2 _ _ => { perm := .both, rnd := true }
  | .bcmp2 _ _ => { perm := .both, rnd := true }
  | .sel _ _ => { rnd := true }
  | .plog _ _ _ => {}
  | .vote _ _ _ => {}
  | .ballot _ _ _ => {}
  | .pmov _ _ _ => {}
  | .pmovPred _ _ _ _ => {}
  | .fadd _ _ => { perm := .both, rnd := true }
  | .fsub _ _ => { perm := .both, rnd := true }
  | .fmul _ _ => { perm := .both, rnd := true }
  | .ffma _ _ => { perm := .both, rnd := true }
  | .fmin _ _ => { perm := .both, rnd := true }
  | .fmax _ _ => { perm := .both, rnd := true }
  | .hadd2 _ _ => { perm := .both, rnd := true }
  | .hmul2 _ _ => { perm := .both, rnd := true }
  | .hfma2 _ _ => { perm := .both, rnd := true }
  | .hmin2 _ _ => { perm := .both, rnd := true }
  | .hmax2 _ _ => { perm := .both, rnd := true }
  | .badd2 _ _ => { perm := .both, rnd := true }
  | .bmul2 _ _ => { perm := .both, rnd := true }
  | .bfma2 _ _ => { perm := .both, rnd := true }
  | .bmin2 _ _ => { perm := .both, rnd := true }
  | .bmax2 _ _ => { perm := .both, rnd := true }
  | .faddi _ _ => { ximm := true, rnd := true }
  | .fmuli _ _ => { ximm := true, rnd := true }
  | .haddi2 _ _ => { ximm := true, rnd := true }
  | .hmuli2 _ _ => { ximm := true, rnd := true }
  | .baddi2 _ _ => { ximm := true, rnd := true }
  | .bmuli2 _ _ => { ximm := true, rnd := true }
  | .qseti _ _ => { ximm := true, rnd := true }
  | .fabs _ _ => { perm := .aOnly, rnd := true }
  | .fneg _ _ => { perm := .aOnly, rnd := true }
  | .ffloor _ _ => { perm := .aOnly, rnd := true }
  | .fceil _ _ => { perm := .aOnly, rnd := true }
  | .ftrunc _ _ => { perm := .aOnly, rnd := true }
  | .frint _ _ => { perm := .aOnly, rnd := true }
  | .ffract _ _ => { perm := .aOnly, rnd := true }
  | .fsat _ _ => { perm := .aOnly, rnd := true }
  | .fclass _ _ => { perm := .aOnly, rnd := true }
  | .habs2 _ _ => { perm := .aOnly, rnd := true }
  | .hneg2 _ _ => { perm := .aOnly, rnd := true }
  | .babs2 _ _ => { perm := .aOnly, rnd := true }
  | .bneg2 _ _ => { perm := .aOnly, rnd := true }
  | .rcp _ _ => { perm := .aOnly, rnd := true, approx := true }
  | .rsq _ _ => { perm := .aOnly, rnd := true, approx := true }
  | .sqrt _ _ => { perm := .aOnly, rnd := true, approx := true }
  | .exp2 _ _ => { perm := .aOnly, rnd := true, approx := true }
  | .log2 _ _ => { perm := .aOnly, rnd := true, approx := true }
  | .sin _ _ => { perm := .aOnly, rnd := true, approx := true }
  | .cos _ _ => { perm := .aOnly, rnd := true, approx := true }
  | .tanh _ _ => { perm := .aOnly, rnd := true, approx := true }
  | .dp2h _ _ => { perm := .both, rnd := true }
  | .dp2b _ _ => { perm := .both, rnd := true }
  | .dp4e4 _ _ => { perm := .both, rnd := true }
  | .dp4e5 _ _ => { perm := .both, rnd := true }
  | .dp4s8 _ _ => { perm := .both, rnd := true }
  | .dp8e2 _ _ => { perm := .both, rnd := true }
  | .dp8s4 _ _ => { perm := .both, rnd := true }
  | .fscl _ _ => { perm := .both, rnd := true }
  | .f2i _ _ => { perm := .aOnly, rnd := true }
  | .f2iRz _ _ => { perm := .aOnly, rnd := true }
  | .f2u _ _ => { perm := .aOnly, rnd := true }
  | .f2uRz _ _ => { perm := .aOnly, rnd := true }
  | .i2f _ _ => { perm := .aOnly, rnd := true }
  | .u2f _ _ => { perm := .aOnly, rnd := true }
  | .f2hLo _ _ => { perm := .aOnly, rnd := true }
  | .f2hHi _ _ => { perm := .aOnly, rnd := true }
  | .f2bLo _ _ => { perm := .aOnly, rnd := true }
  | .f2bHi _ _ => { perm := .aOnly, rnd := true }
  | .h2fLo _ _ => { perm := .aOnly, rnd := true }
  | .h2fHi _ _ => { perm := .aOnly, rnd := true }
  | .b2fLo _ _ => { perm := .aOnly, rnd := true }
  | .b2fHi _ _ => { perm := .aOnly, rnd := true }
  | .qnt _ _ => { perm := .both, rnd := true }
  | .deq _ _ => { perm := .both, rnd := true }
  | .shfl _ _ => { perm := .both, rnd := true }
  | .xwr _ _ => { perm := .both, rnd := true }
  | .redlIadd _ _ => { perm := .aOnly }
  | .redlSmin _ _ => { perm := .aOnly }
  | .redlSmax _ _ => { perm := .aOnly }
  | .redlUmin _ _ => { perm := .aOnly }
  | .redlUmax _ _ => { perm := .aOnly }
  | .redlAnd _ _ => { perm := .aOnly }
  | .redlOr _ _ => { perm := .aOnly }
  | .redlXor _ _ => { perm := .aOnly }
  | .redlFadd _ _ => { perm := .aOnly, rnd := true }
  | .redlFmin _ _ => { perm := .aOnly, rnd := true }
  | .redlFmax _ _ => { perm := .aOnly, rnd := true }
  | .scanlIadd _ _ => { perm := .aOnly }
  | .scanlIaddEx _ _ => { perm := .aOnly }
  | .scanlFadd _ _ => { perm := .aOnly, rnd := true }
  | .scanlSmax _ _ => { perm := .aOnly }
  | .scanlOr _ _ => { perm := .aOnly }
  | .ldg _ _ => { mem := some ⟨true, false, false⟩ }
  | .stg _ _ => { mem := some ⟨false, true, true⟩ }
  | .lds _ _ => { mem := some ⟨true, false, false⟩ }
  | .sts _ _ => { mem := some ⟨false, true, true⟩ }
  | .ldc _ _ => { mem := some ⟨false, false, false⟩ }
  | .pref _ _ => { mem := some ⟨false, false, false⟩ }
  | .atg _ f => { mem := some ⟨true, true, false⟩, rnd := fpAop f.aop, fmtA := true }
  | .ats _ f => { mem := some ⟨true, true, false⟩, rnd := fpAop f.aop, fmtA := true }
  | .redg _ f => { mem := some ⟨false, true, false⟩, rnd := fpAop f.aop, fmtA := true }
  | .fenceFull _ _ _ => {}
  | .fenceAcq _ _ _ => {}
  | .fenceRel _ _ _ => {}
  | .fenceEng _ _ _ => {}
  | .barSync _ _ _ _ => {}
  | .barArrive _ _ _ _ => {}
  | .barWait _ _ _ _ => {}
  | .barFlush _ _ _ _ => {}
  | .fbarSync _ _ _ => {}
  | .fbarArrive _ _ _ => {}
  | .fbarWait _ _ _ => {}
  | .waita _ _ => { perm := .both, mem := some ⟨true, false, false⟩ }
  | .sleepu _ _ => {}
  | .qbindUnbind _ _ => {}
  | .qbindWarp _ _ => {}
  | .qbindFibre _ _ => {}
  | .qbindCopy _ _ => {}
  | .qbindCopydone _ _ => {}
  | .qbindMseq _ _ => {}
  | .qbindBincmd _ _ => {}
  | .qbindBinres _ _ => {}
  | .qbindCont _ _ => {}
  | .qbindAmsend _ _ => {}
  | .qstat _ _ _ _ => {}
  | .stmapMap _ _ _ _ => {}
  | .stmapUnmap _ _ => {}
  | .stmapFlush _ _ => {}
  | .bra _ _ => {}
  | .call _ _ => {}
  | .jmp _ _ => {}
  | .callr _ _ => {}
  | .ret _ _ => {}
  | .exit _ _ => {}
  | .exitJ _ _ => {}
  | .exitF _ _ => {}
  | .regroup _ _ _ => {}
  | .yieldFibre _ => {}
  | .yieldSched _ => {}
  | .yieldDet _ => {}
  | .winb _ _ => {}
  | .rgrow _ _ _ _ => {}
  | .rshrink _ _ => {}
  | .fibreStart _ _ => {}
  | .fibreStop _ _ => {}
  | .fibreWin _ _ => {}
  | .fibreSelf _ _ => {}
  | .fibreState _ _ => {}
  | .ensure _ _ _ => {}
  | .rbend _ _ => {}
  | .rbaccept _ _ => {}
  | .rbabort _ _ => {}
  | .convj _ _ => {}
  | .tlalloc _ _ => {}
  | .tlfree _ _ => {}
  | .tlgive _ _ _ => {}
  | .tltake _ _ _ => {}
  | .tlload _ _ _ => {}
  | .tlstore _ _ _ => {}
  | .mmloop _ f => { rnd := true, approx := f.apx }
  | .hadt _ _ => { rnd := true }
  | .tlsync _ _ => {}
  | .tlsyncAll _ => {}
  | .mfsr _ _ _ => {}
  | .mtsr _ _ _ => {}
  | .trap _ _ => {}
  | .tret _ => {}
  | .tbset _ _ _ => {}
  | .brk _ _ => {}
  | .mark _ _ _ => {}
  | .haltself _ => {}
  | .stallReissue _ => {}
  | .levelOpen _ => {}
  | .attemptLimitReached _ _ => {}
  | .levelRollback _ => {}
  | .convJoinMessage _ => {}
  | .convVoteMessage _ => {}
  | .convFailMessage _ => {}
  | .convDoneMessage _ => {}
  | .convCommitNotice _ => {}
  | .convRollbackNotice _ => {}
  | .convAdvanceNotice _ => {}
  | .convExhaustNotice _ => {}
  | .heldWritePerform _ => {}
  | .timerFire _ => {}
  | .timerTrapEntry _ => {}
  | .shadowWaitTrapEntry _ => {}
  | .waitaRecheck _ => {}
  | .waitaTimeout _ => {}
  | .sleepuDeadline _ => {}
  | .sleepuCompletionWake _ => {}
  | .tileSequencerStart _ _ => {}
  | .tileInstrRetire _ _ => {}
  | .aRowsBroadcastArrive _ _ => {}
  | .copyCmd _ _ _ => {}
  | .fillCmd _ _ _ => {}
  | .copyCmdComplete _ _ _ => {}
  | .copyPromiseExpiry _ _ _ => {}
  | .mseqRun _ _ _ => {}
  | .thresherOpen _ _ => {}
  | .thresherCount _ _ => {}
  | .thresherBind _ _ => {}
  | .thresherClose _ _ => {}
  | .amArrive _ _ => {}
  | .handlerWarpSpawn _ => {}
  | .cohortCompletion _ => {}
  | .parentPlacement _ => {}
  | .cohortDispatch _ => {}
  | .launchQueueTail _ _ => {}
  | .budgetEnd _ => {}
  | .promiseDrainEnd _ => {}
  | .preemptTrigger _ => {}
  | .preemption _ _ => {}
  | .contextResume _ _ => {}
  | .launchEnd _ => {}
  | .checkRunRestart _ => {}
  | .cargoDeparture _ => {}
  | .cargoRetry _ _ => {}
  | .cargoLanding _ _ => {}
  | .landedWarpStart _ => {}
  | .segmentReplication _ => {}
  | .stashIdleWriteback _ _ => {}
  | .stashRecall _ => {}
  | .dirReadRequest _ _ => {}
  | .dirOwnershipRequest _ _ => {}
  | .evictionNotice _ _ _ _ => {}
  | .regionDone _ _ _ => {}
  | .probeAnswer _ _ _ => {}
  | .regionMerge _ _ => {}
  | .hostMemRead _ _ => {}
  | .hostMemWrite _ _ => {}
  | .biasToDev _ _ => {}
  | .biasToHost _ _ => {}
  | .bisnpAnswer _ _ => {}
  | .biasFlipTimeout _ => {}
  | .pageWalk _ => {}
  | .xinvCommand _ _ => {}
  | .xinvComplete _ => {}
  | .faultReplyRetry _ _ => {}
  | .faultReplyUnserviceable _ _ => {}
  | .faultReplyKill _ _ => {}
  | .ctxCreate _ _ => {}
  | .ctxDestroy _ _ => {}
  | .contextReleaseScrub _ => {}
  | .lqcfgWrite _ _ _ => {}
  | .registerWrite _ _ _ => {}
  | .machineCheck _ => {}
  | .securityViolation _ _ => {}
  | .contextKill _ => {}
  | .attach _ => {}
  | .detach _ => {}
  | .halt _ => {}
  | .haltc _ => {}
  | .resume _ => {}
  | .resumec _ => {}
  | .step _ => {}
  | .setbp _ => {}
  | .clrbp _ => {}
  | .warpHaltTakesEffect _ => {}
  | .breakpointHit _ => {}
  | .regviewWrite _ _ _ _ => {}
  | .fibviewWrite _ _ _ _ => {}
  | .shviewWrite _ _ _ _ => {}
  | .tileviewWrite _ _ _ _ => {}
  | .viewRead _ _ _ => {}
  | .sample _ => {}
  | .governorUpdate _ => {}
  | .lmReport _ _ _ => {}
  | .lmLogread _ _ => {}
  | .lmLiferead _ _ => {}
  | .logAppendRequest _ _ _ => {}
  | .logCheckpoint => {}
  | .lifetimeFold => {}
  | .measExtend _ _ => {}
  | .coldReset _ => {}
  | .fuseRaise _ _ => {}
  | .firmwareUpdate _ => {}
  | .keeperRestart => {}
  | .patrolScrub _ _ => {}
  | .thermalTrip _ => {}
  | .thermalRecovery => {}
  | .nocInputBlocked _ _ _ => {}
  | .stitch _ _ _ => {}
  | .plLinkDown _ => {}
  | .unreachableTimeout _ => {}
  | .partitionConfig _ _ => {}
  | .illegalInstruction => {}
  | .ptsAdvance _ => {}
  | .hostCacheSnoop _ _ => {}
  | .agentProbe _ _ => {}
  | .fqheadWrite _ _ => {}
  | .routeTableSet _ _ => {}
  | .voltageDroopEvent _ => {}
  | .thermalExcursion _ => {}
  | .powerLoss => {}

/-- The values that an instruction allows in its fields (third check of R79). -/
def Instr.fieldsOk : Instr → Bool
  | .iadd _ _ => true
  | .isub _ _ => true
  | .imul _ _ => true
  | .imulhs _ _ => true
  | .imulhu _ _ => true
  | .imad _ _ => true
  | .iadd64 _ _ => true
  | .isub64 _ _ => true
  | .imin _ _ => true
  | .imax _ _ => true
  | .umin _ _ => true
  | .umax _ _ => true
  | .and _ _ => true
  | .or _ _ => true
  | .xor _ _ => true
  | .andn _ _ => true
  | .shl _ _ => true
  | .shr _ _ => true
  | .sar _ _ => true
  | .shfr _ _ => true
  | .bfe _ _ => true
  | .bfi _ _ => true
  | .imad64 _ _ => true
  | .mov _ _ => true
  | .not _ _ => true
  | .neg _ _ => true
  | .abs _ _ => true
  | .popc _ _ => true
  | .clz _ _ => true
  | .ctz _ _ => true
  | .brev _ _ => true
  | .sx8 _ _ => true
  | .sx16 _ _ => true
  | .zx8 _ _ => true
  | .zx16 _ _ => true
  | .bswap _ _ => true
  | .mov64 _ _ => true
  | .widf0 _ _ => true
  | .widf1 _ _ => true
  | .widf2 _ _ => true
  | .widf3 _ _ => true
  | .widf4 _ _ => true
  | .widf5 _ _ => true
  | .movi _ _ => true
  | .movhi _ _ => true
  | .iaddi _ _ => true
  | .andi _ _ => true
  | .ori _ _ => true
  | .xori _ _ => true
  | .shi _ _ kind _ _ => kind != 3#2
  | .icmp _ f => decide (f.cc.toNat ≤ 5)
  | .ucmp _ f => decide (f.cc.toNat ≤ 5)
  | .fcmp _ f => decide (f.cc.toNat ≤ 7)
  | .hcmp2 _ f => decide (f.cc.toNat ≤ 7)
  | .bcmp2 _ f => decide (f.cc.toNat ≤ 7)
  | .sel _ _ => true
  | .plog _ _ _ => true
  | .vote _ _ _ => true
  | .ballot _ _ _ => true
  | .pmov _ _ d => d != .zero
  | .pmovPred _ _ _ _ => true
  | .fadd _ _ => true
  | .fsub _ _ => true
  | .fmul _ _ => true
  | .ffma _ _ => true
  | .fmin _ _ => true
  | .fmax _ _ => true
  | .hadd2 _ _ => true
  | .hmul2 _ _ => true
  | .hfma2 _ _ => true
  | .hmin2 _ _ => true
  | .hmax2 _ _ => true
  | .badd2 _ _ => true
  | .bmul2 _ _ => true
  | .bfma2 _ _ => true
  | .bmin2 _ _ => true
  | .bmax2 _ _ => true
  | .faddi _ _ => true
  | .fmuli _ _ => true
  | .haddi2 _ _ => true
  | .hmuli2 _ _ => true
  | .baddi2 _ _ => true
  | .bmuli2 _ _ => true
  | .qseti _ _ => true
  | .fabs _ _ => true
  | .fneg _ _ => true
  | .ffloor _ _ => true
  | .fceil _ _ => true
  | .ftrunc _ _ => true
  | .frint _ _ => true
  | .ffract _ _ => true
  | .fsat _ _ => true
  | .fclass _ _ => true
  | .habs2 _ _ => true
  | .hneg2 _ _ => true
  | .babs2 _ _ => true
  | .bneg2 _ _ => true
  | .rcp _ _ => true
  | .rsq _ _ => true
  | .sqrt _ _ => true
  | .exp2 _ _ => true
  | .log2 _ _ => true
  | .sin _ _ => true
  | .cos _ _ => true
  | .tanh _ _ => true
  | .dp2h _ _ => true
  | .dp2b _ _ => true
  | .dp4e4 _ _ => true
  | .dp4e5 _ _ => true
  | .dp4s8 _ _ => true
  | .dp8e2 _ _ => true
  | .dp8s4 _ _ => true
  | .fscl _ _ => true
  | .f2i _ _ => true
  | .f2iRz _ _ => true
  | .f2u _ _ => true
  | .f2uRz _ _ => true
  | .i2f _ _ => true
  | .u2f _ _ => true
  | .f2hLo _ _ => true
  | .f2hHi _ _ => true
  | .f2bLo _ _ => true
  | .f2bHi _ _ => true
  | .h2fLo _ _ => true
  | .h2fHi _ _ => true
  | .b2fLo _ _ => true
  | .b2fHi _ _ => true
  | .qnt _ _ => true
  | .deq _ _ => true
  | .shfl _ _ => true
  | .xwr _ _ => true
  | .redlIadd _ _ => true
  | .redlSmin _ _ => true
  | .redlSmax _ _ => true
  | .redlUmin _ _ => true
  | .redlUmax _ _ => true
  | .redlAnd _ _ => true
  | .redlOr _ _ => true
  | .redlXor _ _ => true
  | .redlFadd _ _ => true
  | .redlFmin _ _ => true
  | .redlFmax _ _ => true
  | .scanlIadd _ _ => true
  | .scanlIaddEx _ _ => true
  | .scanlFadd _ _ => true
  | .scanlSmax _ _ => true
  | .scanlOr _ _ => true
  | .ldg _ f => f.sz != 7#3 && !f.kt && (!f.wa || f.sb == 0#3)
  | .stg _ f => f.sz != 7#3 && f.sz != 1#3 && f.sz != 3#3 && (!f.wa || f.sb == 0#3)
  | .lds _ f => f.sz != 7#3 && !f.kt && !f.wa
  | .sts _ f => f.sz != 7#3 && f.sz != 1#3 && f.sz != 3#3 && !f.wa
  | .ldc _ f => f.sz != 7#3 && !f.kt && (!f.wa || f.sb == 0#3)
  | .pref _ f => !f.wa || f.sb == 0#3
  | .atg _ _ => true
  | .ats _ _ => true
  | .redg _ f => decide (f.aop.toNat ≤ 13)
  | .fenceFull _ scope _ => decide (scope.toNat ≤ 5)
  | .fenceAcq _ scope _ => decide (scope.toNat ≤ 5)
  | .fenceRel _ scope _ => decide (scope.toNat ≤ 5)
  | .fenceEng _ scope _ => decide (scope.toNat ≤ 5)
  | .barSync _ _ _ _ => true
  | .barArrive _ _ _ _ => true
  | .barWait _ _ _ _ => true
  | .barFlush _ _ _ _ => true
  | .fbarSync _ mask _ => mask != 0#4
  | .fbarArrive _ mask _ => mask != 0#4
  | .fbarWait _ mask _ => mask != 0#4
  | .waita _ _ => true
  | .sleepu _ _ => true
  | .qbindUnbind _ _ => true
  | .qbindWarp _ _ => true
  | .qbindFibre _ _ => true
  | .qbindCopy _ _ => true
  | .qbindCopydone _ _ => true
  | .qbindMseq _ _ => true
  | .qbindBincmd _ _ => true
  | .qbindBinres _ _ => true
  | .qbindCont _ _ => true
  | .qbindAmsend _ _ => true
  | .qstat _ _ _ _ => true
  | .stmapMap _ _ _ _ => true
  | .stmapUnmap _ _ => true
  | .stmapFlush _ _ => true
  | .bra _ f => f.mode != 1#2 || (f.ps == 0#3 && !f.n)
  | .call _ f => f.mode != 1#2 || (f.ps == 0#3 && !f.n)
  | .jmp _ _ => true
  | .callr _ _ => true
  | .ret _ _ => true
  | .exit _ _ => true
  | .exitJ _ _ => true
  | .exitF _ _ => true
  | .regroup _ _ _ => true
  | .yieldFibre _ => true
  | .yieldSched _ => true
  | .yieldDet _ => true
  | .winb _ _ => true
  | .rgrow _ _ _ _ => true
  | .rshrink _ _ => true
  | .fibreStart _ mask => mask != 0#4
  | .fibreStop _ mask => mask != 0#4
  | .fibreWin _ _ => true
  | .fibreSelf _ _ => true
  | .fibreState _ _ => true
  | .ensure _ _ _ => true
  | .rbend _ _ => true
  | .rbaccept _ _ => true
  | .rbabort _ _ => true
  | .convj _ _ => true
  | .tlalloc _ f => f.kind != 3#2
  | .tlfree _ _ => true
  | .tlgive _ _ _ => true
  | .tltake _ _ _ => true
  | .tlload _ _ _ => true
  | .tlstore _ _ _ => true
  | .mmloop _ _ => true
  | .hadt _ f => f.size != 3#2 && (f.q || f.s == 0#4)
  | .tlsync _ _ => true
  | .tlsyncAll _ => true
  | .mfsr _ _ _ => true
  | .mtsr _ _ _ => true
  | .trap _ _ => true
  | .tret _ => true
  | .tbset _ _ _ => true
  | .brk _ _ => true
  | .mark _ _ _ => true
  | .haltself _ => true
  | .stallReissue _ => true
  | .levelOpen _ => true
  | .attemptLimitReached _ _ => true
  | .levelRollback _ => true
  | .convJoinMessage _ => true
  | .convVoteMessage _ => true
  | .convFailMessage _ => true
  | .convDoneMessage _ => true
  | .convCommitNotice _ => true
  | .convRollbackNotice _ => true
  | .convAdvanceNotice _ => true
  | .convExhaustNotice _ => true
  | .heldWritePerform _ => true
  | .timerFire _ => true
  | .timerTrapEntry _ => true
  | .shadowWaitTrapEntry _ => true
  | .waitaRecheck _ => true
  | .waitaTimeout _ => true
  | .sleepuDeadline _ => true
  | .sleepuCompletionWake _ => true
  | .tileSequencerStart _ _ => true
  | .tileInstrRetire _ _ => true
  | .aRowsBroadcastArrive _ _ => true
  | .copyCmd _ _ _ => true
  | .fillCmd _ _ _ => true
  | .copyCmdComplete _ _ _ => true
  | .copyPromiseExpiry _ _ _ => true
  | .mseqRun _ _ _ => true
  | .thresherOpen _ _ => true
  | .thresherCount _ _ => true
  | .thresherBind _ _ => true
  | .thresherClose _ _ => true
  | .amArrive _ _ => true
  | .handlerWarpSpawn _ => true
  | .cohortCompletion _ => true
  | .parentPlacement _ => true
  | .cohortDispatch _ => true
  | .launchQueueTail _ _ => true
  | .budgetEnd _ => true
  | .promiseDrainEnd _ => true
  | .preemptTrigger _ => true
  | .preemption _ _ => true
  | .contextResume _ _ => true
  | .launchEnd _ => true
  | .checkRunRestart _ => true
  | .cargoDeparture _ => true
  | .cargoRetry _ _ => true
  | .cargoLanding _ _ => true
  | .landedWarpStart _ => true
  | .segmentReplication _ => true
  | .stashIdleWriteback _ _ => true
  | .stashRecall _ => true
  | .dirReadRequest _ _ => true
  | .dirOwnershipRequest _ _ => true
  | .evictionNotice _ _ _ _ => true
  | .regionDone _ _ _ => true
  | .probeAnswer _ _ _ => true
  | .regionMerge _ _ => true
  | .hostMemRead _ _ => true
  | .hostMemWrite _ _ => true
  | .biasToDev _ _ => true
  | .biasToHost _ _ => true
  | .bisnpAnswer _ _ => true
  | .biasFlipTimeout _ => true
  | .pageWalk _ => true
  | .xinvCommand _ _ => true
  | .xinvComplete _ => true
  | .faultReplyRetry _ _ => true
  | .faultReplyUnserviceable _ _ => true
  | .faultReplyKill _ _ => true
  | .ctxCreate _ _ => true
  | .ctxDestroy _ _ => true
  | .contextReleaseScrub _ => true
  | .lqcfgWrite _ _ _ => true
  | .registerWrite _ _ _ => true
  | .machineCheck _ => true
  | .securityViolation _ _ => true
  | .contextKill _ => true
  | .attach _ => true
  | .detach _ => true
  | .halt _ => true
  | .haltc _ => true
  | .resume _ => true
  | .resumec _ => true
  | .step _ => true
  | .setbp _ => true
  | .clrbp _ => true
  | .warpHaltTakesEffect _ => true
  | .breakpointHit _ => true
  | .regviewWrite _ _ _ _ => true
  | .fibviewWrite _ _ _ _ => true
  | .shviewWrite _ _ _ _ => true
  | .tileviewWrite _ _ _ _ => true
  | .viewRead _ _ _ => true
  | .sample _ => true
  | .governorUpdate _ => true
  | .lmReport _ _ _ => true
  | .lmLogread _ _ => true
  | .lmLiferead _ _ => true
  | .logAppendRequest _ _ _ => true
  | .logCheckpoint => true
  | .lifetimeFold => true
  | .measExtend _ _ => true
  | .coldReset _ => true
  | .fuseRaise _ _ => true
  | .firmwareUpdate _ => true
  | .keeperRestart => true
  | .patrolScrub _ _ => true
  | .thermalTrip _ => true
  | .thermalRecovery => true
  | .nocInputBlocked _ _ _ => true
  | .stitch _ _ _ => true
  | .plLinkDown _ => true
  | .unreachableTimeout _ => true
  | .partitionConfig _ _ => true
  | .illegalInstruction => true
  | .ptsAdvance _ => true
  | .hostCacheSnoop _ _ => true
  | .agentProbe _ _ => true
  | .fqheadWrite _ _ => true
  | .routeTableSet _ _ => true
  | .voltageDroopEvent _ => true
  | .thermalExcursion _ => true
  | .powerLoss => true

/-- A PERM pattern with its parameter in range (03 R71). -/
def permOk (pat : BitVec 4) (k : BitVec 5) : Bool :=
  match pat.toNat with
  | 0 => k == 0#5
  | 1 => k == 1#5 || k == 2#5 || k == 4#5 || k == 8#5 || k == 16#5
  | 2 => decide (1 ≤ k.toNat) && decide (k.toNat ≤ 7)
  | 3 => k == 0#5
  | 4 => true
  | _ => false

/-- The words before an instruction hold no reserved value (03 R70 R71). -/
def Px.valid (p : Px) : Bool :=
  decide (p.count ≤ 3)
    && p.perm.all (fun m => permOk m.aPat m.aPar && permOk m.bPat m.bPar)
    && p.mempol.all (fun m => decide (m.scope.toNat ≤ 5) && decide (m.policy.toNat ≤ 4))
    && p.approx.all (fun l => l != 0#3)

/-- The words before an instruction may apply to it (03 R65 R72). -/
def Instr.pxOk (i : Instr) : Bool :=
  let p := i.px
  let a := i.allow
  p.perm.all (fun m => match a.perm with
    | .no => false
    | .aOnly => m.bPat == 0#4 && m.bPar == 0#5
    | .both => true)
    && (match i.guardField with
        | some g => p.guard.isSome == (g == 3#2)
        | none => p.guard.isNone || a.fmtA)
    && p.mempol.all (fun m => match a.mem with
      | none => false
      | some r => (!m.acq || r.acq) && (!m.rel || r.rel) && (!m.line || r.line))
    && (p.ximm.isNone || a.ximm)
    && (p.rnd.isNone || a.rnd)
    && (p.approx.isNone || a.approx)

end Sys2Proof
end

