-- ==== Sys2Proof/Machine/StWarp.lean ====
section
/-! DEFINITION. The state of a warp, of a warp slot and of a cohort (01 R8 to R31, 06 R170 R172 R175, 08 R221, 09 R252, 13 R341). -/

namespace Sys2Proof.Machine

/-- One entry of the frontier: the lanes that share a PC (01 R25). -/
structure Entry where
  pc : Word
  mask : Mask
  /-- made by REGROUP or RBEND (R112 R223) -/
  parked : Bool := false
  /-- the lanes that an RBEND of the current level parked -/
  rbLanes : Mask := 0#32
  /-- the PC of the group that made this PC, for a fetch outside the code section (03 R62) -/
  src : Word := 0#32
  /-- the REGROUP that parked a lane of it carried SOS (04 R120) -/
  sos : Bool := false
deriving DecidableEq, Repr

/-- What a queue register is bound to (06 R175). -/
inductive QKind where
  | warp (off : Nat) | fibre (n : Nat) | copy (ch : Nat) | copydone (ch : Nat)
  | mseq | bincmd | binres | cont (q : Nat) | amsend
deriving DecidableEq, Repr

/-- The stall kinds (04 R120); fetch is the stall that SOS does not act on. -/
inductive StallKind where
  | operand | queue | memory | rebind | quota | barrier | wait | regroup | fetch
deriving DecidableEq, Repr

/-- An access kind of a translation: bits 0 read, 1 write, 2 fetch, 3 atomic (14 R364). -/
structure Access where
  rd : Bool := false
  wr : Bool := false
  fetch : Bool := false
  atomic : Bool := false
deriving DecidableEq, Repr

/-- A TLB entry (11 R288 to R290). -/
structure TlbEntry where
  ctx : Nat
  va : Nat
  size : Nat
  pa : Nat
  r : Bool
  w : Bool
  xd : Bool
  attr : Nat
deriving DecidableEq, Repr

/-- A register that takes the old value of an atomic once its home has performed it (09 R442): an absolute name, a trap shadow, a
uniform register, lnk. -/
inductive Await where
  | reg (name : Nat) | shadow (i : Nat) | uni (i : Nat) | lnk
deriving DecidableEq, Repr

/-- What clears a stall. -/
inductive Cond where
  /-- an event of another constructor ends the wait -/
  | never
  /-- these entries of the core's sequencer have retired -/
  | tiles (ops : List Nat)
  /-- the queue can take (true) or give (false) n entries for this warp -/
  | queue (k : QKind) (push : Bool) (n : Nat)
  /-- the page of the address is in the core's TLB for the access; the addresses of the active lanes and their length; the
  SOURCE of the record of a fault (14 R364) -/
  | xlate (va : DWord) (acc : Access) (lanes : List (Nat × DWord) := []) (n : Nat := 1) (source : Nat := 0)
  /-- no write of the warp waits at a claimed line -/
  | noHeld
  /-- the old values of atomics have come to these registers (09 R442) -/
  | delivered (rs : List Await)
  /-- the line is not claimed by another cohort -/
  | unclaimed (line : Nat)
  /-- no caching agent holds the line against a device access of this kind (11 R303) -/
  | agents (line : Nat) (wr : Bool)
  /-- no other cohort holds the line stashed (11 R301) -/
  | unstashed (line : Nat)
  /-- a request to a package that no route reaches (15 R388) -/
  | route (pkg : Nat)
  /-- the quarter's pool has k registers -/
  | quota (k : Nat)
  | bar (name phase : Nat)
  | fbar (mask : BitVec 4) (phase : Nat)
  /-- a hand-over list holds a tile -/
  | hand (list : Nat)
  /-- the core's granary can place an allocation (kind, handles and bytes needed) -/
  | alloc (kind : Nat) (bytes : Nat)
  /-- the matrix sequencer has a free entry (07 R187) -/
  | seqRoom
  /-- a hand-over entry of the core is free (07 R193) -/
  | handRoom
  /-- the outbound buffer has room for n cargoes -/
  | outbound (n : Nat)
  /-- every earlier instruction of the warp has completed -/
  | settled
  /-- the last arrival at a header: the level opens at once (08 R221) -/
  | opens
  /-- the wait has its status -/
  | status
  /-- a source in flight, a miss or a full store path, which a time of no given length clears -/
  | soon
  /-- the quarter's rebind reserve has n registers (01 R16) -/
  | reserve (n : Nat)
deriving DecidableEq, Repr

/-- The waits that are granted in the order in which they began: of a queue, of the quarter's pool, of the granary (04 R117, 06 R176,
07 R190). -/
def Cond.ordered : Cond → Bool
  | .queue _ _ _ | .quota _ | .alloc _ _ => true
  | _ => false
/-- Two ordered waits of one instruction are one request. -/
def Cond.sameTurn : Cond → Cond → Bool
  | .queue _ _ _, .queue _ _ _ | .quota _, .quota _ | .alloc _ _, .alloc _ _ => true
  | _, _ => false

structure Stall where
  kind : StallKind
  cond : Cond
deriving DecidableEq, Repr

/-- What a waiting instruction keeps across its re-issue (04 R120). -/
inductive Keep where
  | none
  /-- the arrival on a named barrier: its phase, and whether it was held -/
  | bar (name phase : Nat) (held : Bool)
  | fbar (mask : BitVec 4) (phase : Nat) (held : Bool)
  /-- WAITA: start and latest check, in chip ticks; the watched lines with a stamp of their latest writes -/
  | waita (start last : Nat) (watch : List (Nat × Nat))
  /-- SLEEPU: start and deadline, in chip ticks -/
  | sleep (start deadline : Nat)
  /-- the wait ended with this status -/
  | status (n : Nat)
  /-- a JOIN message is on its way; some true when it was accepted, some false with a fault code when it was not -/
  | conv (answer : Option (Option Nat))
deriving DecidableEq, Repr

/-- What a trap entry writes (14 R366). -/
structure TrapInfo where
  cause : Nat
  detail : Nat
  pc : Word
  blame : Word
  addr : DWord
  lanes : Mask
deriving DecidableEq, Repr

/-- Why a fibre is frozen (13 R343). -/
inductive Frozen where
  /-- a translation fault whose record carries the token (14 R364): access fault 0 to 2, address, lanes -/
  | xlate (token : Nat) (kind : Nat) (addr : DWord) (lanes : Mask) (acc : Access := {})
  /-- kinds 4, 5, 6 and 7 of the fault queue -/
  | fault (token : Nat) (kind : Nat)
deriving DecidableEq, Repr

/-- A warp. The focus of State holds one; a focus without a warp has resident false. -/
structure Warp where
  id : Nat := 0
  cid : Nat := 0
  core : Nat := 0
  quarter : Nat := 0
  slot : Nat := 0
  fibre : Nat := 0
  lidx : Nat := 0
  handler : Bool := false
  resident : Bool := false
  wid : List DWord := (List.range 32).map fun l => BitVec.ofNat 64 l
  holds : Mask := 0#32
  remap : List Nat := List.range 32
  /-- bound names in ascending order -/
  regs : List (Nat × VReg) := []
  winbase : Nat := 0
  quota : Nat := 0
  sregs : List Word := List.replicate 16 0#32
  preds : List Mask := List.replicate 8 0#32
  lnk : VReg := List.replicate 32 0#32
  qbind : List (Option QKind) := List.replicate 8 none
  hmap : List (Option Nat) := List.replicate 32 none
  fpmode : BitVec 4 := 0#4
  fpflags : BitVec 5 := 0#5
  trapen : BitVec 4 := 0#4
  chipHi : Word := 0#32
  trapHi : Word := 0#32
  timerLo : Word := 0#32
  timerCmp : DWord := 0#64
  timerEn : Bool := false
  timerOne : Bool := false
  timerPend : Bool := false
  rbcause : BitVec 16 := 0#16
  rbcode : BitVec 16 := 0#16
  waitlim : Word := 0x000F4240#32
  trapCause : BitVec 16 := 0#16
  trapPc : Word := 0#32
  trapAddr : DWord := 0#64
  trapLanes : Mask := 0#32
  trapBlame : Word := 0#32
  front : List Entry := []
  /-- the frontier set aside at trap entry: the other entries, and the trapped entry -/
  aside : Option (List Entry × Entry) := none
  trapMode : Bool := false
  stopped : Bool := false
  frozen : Option Frozen := none
  halted : Bool := false
  haltReq : Bool := false
  /-- the kind and code of the HALT record of the halt to come (16 R405) -/
  haltWhy : Nat × Nat := (0, 0)
  stepping : Bool := false
  /-- the breakpoint that has halted it: port, index, PC; the group there issues without a test of it -/
  bpSkip : Option (Nat × Nat × Word) := none
  /-- the core cycles that its latest issue spans: after the first, up to the second -/
  issuedIn : Nat × Nat := (0, 0)
  stall : Option Stall := none
  /-- the request of the waiting instruction that has a place in a grant order: the step at which it began, what it asks. It stands until
  the instruction completes, through other stalls of it -/
  asked : Option (Nat × Cond) := none
  keep : Keep := .none
  /-- the phase of the latest arrival on each barrier name -/
  barLast : List (Nat × Nat) := []
  fbarLast : List (Nat × Nat) := []
  icount : Nat := 0
  /-- a SYS-scope release fence stands before every later store and atomic (10 R284) -/
  sysRel : Bool := false
  exitPc : Word := 0#32
  /-- a trap that waits for the slot's shadows -/
  trapWait : Option TrapInfo := none
  /-- the pages that the waiting tile transfer has had translated (11 R288) -/
  trans : List TlbEntry := []
  /-- the latest host write that a SYS acquire of the warp, or the acceptance of its launch, orders before it (10 R284) -/
  hostSeen : Nat := 0
  /-- the latest host write that a plain read of it met out of order, with no SYS acquire fence since; 0: none -/
  hostPend : Nat := 0
  /-- the latest host write that a plain read of it has returned -/
  hostGot : Nat := 0
deriving DecidableEq, Repr

/-- A fibre barrier of a slot (06 R172). -/
structure FBar where
  mask : BitVec 4
  phase : Nat := 0
  arrived : List Nat := []
  held : List Nat := []
deriving DecidableEq, Repr

/-- A warp slot (00 R1, 01 R23 R24, 13 R342 R345). -/
structure Slot where
  core : Nat := 0
  quarter : Nat := 0
  slot : Nat := 0
  cur : Nat := 0
  /-- the slot waits for the next ready fibre after cur -/
  passing : Bool := false
  band : BitVec 8 := 0#8
  bandRegs : List (Nat × VReg) := []
  shadow : List VReg := List.replicate 8 (List.replicate 32 0#32)
  /-- the warp that uses the shadows -/
  holder : Option Nat := none
  fbars : List FBar := []
  fq : List (List VReg) := List.replicate 4 []
deriving DecidableEq, Repr

/-- A named barrier (06 R170). -/
structure Bar where
  phase : Nat := 0
  /-- the governing count; none when the phase was begun by zero -/
  count : Option Nat := none
  arrived : List Nat := []
  /-- an arrival of the phase is a BAR.FLUSH -/
  flush : Bool := false
  /-- arrivals held for the next phase: warp, the count that each carries, BAR.FLUSH -/
  held : List (Nat × Option Nat × Bool) := []
deriving DecidableEq, Repr

/-- A line of a stash mapping that the cohort's core holds (06 R181, 11 R301). -/
structure StashLine where
  /-- shared offset in lines -/
  line : Nat
  /-- physical address of the global line -/
  pa : Nat
  /-- virtual address of the global line -/
  va : DWord
  dirty : Bool
  lastUse : Nat
deriving DecidableEq, Repr

structure StashMap where
  line : Nat
  lines : Nat
  base : DWord
deriving DecidableEq, Repr

/-- An entry of a recovery level's log (09 R252). -/
inductive LogEntry where
  | reg (w name : Nat) (old : Option VReg)
  | lnk (w : Nat) (old : VReg)
  | uni (w i : Nat) (old : Word)
  | pred (w i : Nat) (old : Mask)
  | csr (w num : Nat) (old : DWord)
  | hmap (w h : Nat) (old : Option Nat)
  | qbind (w q : Nat) (old : Option QKind)
  | shw (off : Nat) (old : Word)
  | gln (va : DWord) (pa : Nat) (old : List Byte)
  /-- a hand-over entry that the level took (07 R194) -/
  | took (list phys : Nat)
  /-- a tile that the level gave away -/
  | gave (list phys : Nat)
deriving DecidableEq, Repr

/-- An open recovery level (08 R221, 09 R252). -/
structure Level where
  header : Word
  test : Word
  alts : List Word
  code : Nat
  /-- the PC of the ELSEERR word -/
  codePc : Word
  /-- core cycles; 0 for no limit of its own -/
  limit : Nat
  /-- the core cycle at which the attempt count of this attempt was 0 -/
  start : Nat
  alt : Nat := 0
  /-- oldest first -/
  log : List LogEntry := []
  /-- the verdicts of the warps so far -/
  verdicts : List (Nat × Bool) := []
  /-- the number of the latest sequencer entry of the core when the attempt started -/
  seqFrom : Nat := 0
  /-- for each entry of the log, whether it stands in the overflow region (09 R251) -/
  overs : List Bool := []
  /-- the LEVEL entry stands in the overflow region -/
  headOver : Bool := false
  /-- chunks of the overflow region that the level holds until it closes -/
  chunks : Nat := 0
deriving DecidableEq, Repr

/-- Membership in a conversation (08 R231, 09 R266 to R270). -/
structure Conv where
  /-- virtual and physical address of the object -/
  va : DWord
  pa : Nat
  ident : Word
  /-- bit of JOINED -/
  member : Nat
  /-- depth of the conversation level -/
  depth : Nat
  /-- the vote or failure that the member has sent in this attempt -/
  voted : Option Bool := none
  /-- its own failure: cause, fault code, abort code -/
  own : Option (Nat × Nat × Nat) := none
  /-- the rollback is done and DONE was sent -/
  rolled : Bool := false
  /-- the number of this membership: a verdict for another one is none for it -/
  serial : Nat := 0
deriving DecidableEq, Repr

/-- A failure that waits for its rollback (08 R226). -/
structure Failing where
  depth : Nat
  cause : Nat
  fcode : Nat
  /-- the RBABORT code, 0 when there is none -/
  abort : Nat
deriving DecidableEq, Repr

/-- How a cohort ended (04 R110, 08 R229, 12 R333). -/
inductive Ending where
  | completed | exhausted | overBudget | stopped
deriving DecidableEq, Repr

/-- A continuation record (07 R215, 12 R316). -/
structure CRec where
  code : Word := 0#32
  ins : List Nat := []
  outs : List Nat := []
  frame : DWord := 0#64
  join : DWord := 0#64
  widBase : DWord := 0#64
  /-- a record of the launch stream or a spawned one -/
  spawned : Bool := false
deriving DecidableEq, Repr

/-- A cohort (01 R10, 12 R311 R316). -/
structure Cohort where
  id : Nat := 0
  core : Nat := 0
  launch : Nat := 0
  index : Nat := 0
  record : CRec := {}
  warpsN : Nat := 0
  resident : Bool := false
  shared : List (Nat × Byte) := []
  sharedSize : Nat := 0
  bars : List Bar := List.replicate 16 {}
  maps : List StashMap := []
  stash : List StashLine := []
  levels : List Level := []
  conv : Option Conv := none
  /-- hand-over lists: list number, physical handle, oldest first -/
  hand : List (Nat × Nat) := []
  /-- arrivals at headers: warp, and the level that its header opens -/
  headers : List (Nat × Level) := []
  failing : Option Failing := none
  exitJ : Bool := false
  exitF : Bool := false
  done : Option Ending := none
  budgetEnd : Nat := 0
  running : Nat := 0
  passing : Bool := false
deriving DecidableEq, Repr

end Sys2Proof.Machine
end

