-- ==== Sys2Proof/Machine/StTile.lean ====
section
/-! DEFINITION. The state of the granary, of the matrix sequencer and of the engines (07 R182 to R216). -/

namespace Sys2Proof.Machine

/-- Tile kinds (R182). -/
inductive TKind where
  | a | b | c
deriving DecidableEq, Repr

/-- A reservation record (R184). -/
structure TRec where
  spanlog : Nat := 0
  blk : Bool := false
  fmt : Nat := 0
  m : Nat := 0
  n : Nat := 0
  k : Nat := 0
  scoff : Nat := 0
deriving DecidableEq, Repr

/-- The columns that one participant holds (R184 R191). -/
def TRec.localN (r : TRec) : Nat := r.n / 2 ^ r.spanlog

/-- A physical tile (R185 R187 R188). -/
structure Tile where
  /-- the number by which the model knows the tile, never used twice -/
  phys : Nat
  /-- one of the core's 128 physical handles; none while a queued write waits for a spare (R185 R188) -/
  handle : Option Nat := some phys
  launch : Nat
  cid : Nat
  kind : TKind
  record : TRec
  plane : Nat := 0
  /-- the storage; an in-place rename shares it -/
  store : Nat
  granules : Nat
  /-- element codes, line by line; none until a write fills the tile (R190) -/
  data : Option (List Word) := none
  scales : List Nat := []
  /-- the pending write: PC of the writer and number of its sequencer entry -/
  pend : Option (Word × Nat) := none
  /-- no name is bound to it any more -/
  freed : Bool := false
  /-- rows of a gang broadcast fill it: cohort, handle name, number of the allocation (R197) -/
  gang : Option (Nat × Nat × Nat) := none
deriving DecidableEq, Repr

/-- An operand map, with the base moved to the local share (R195). -/
structure OpMap where
  base : DWord
  lstride : Nat
  sstride : Nat
  /-- the address of the first scale -/
  scale : DWord
  shared : Bool
  acq : Bool
  rel : Bool
  scope : Nat
deriving DecidableEq, Repr

/-- What an entry of the matrix sequencer does (R187 R211). -/
inductive TileWork where
  | load (dst : Nat) (map : OpMap) (name alloc : Nat)
  /-- the depth of the open level that logs it; 0 for none -/
  | store (src : Nat) (map : OpMap) (level : Nat)
  | mm (dst old : Nat) (acc : Bool) (steps : List (Nat × Nat)) (depth : Nat)
  | hadt (dst src : Nat) (size : Nat) (quant : Option Word)
deriving DecidableEq, Repr

structure TileOp where
  id : Nat
  warp : Nat
  cid : Nat
  launch : Nat
  pc : Word
  /-- the handle names that it reads or writes through -/
  names : List Nat
  work : TileWork
  /-- key of a held sequencer run (R211 R213); a held run waits outside the order -/
  hold : Option Nat := none
  /-- the tiles that a patched loop of a held run reaches, by step modulo 32 -/
  pattern : List (Option (Nat × Nat)) := []
  /-- the physical addresses of the pages that the transfer uses, translated at issue (R196) -/
  pages : List (Nat × Nat) := []
  running : Bool := false
  /-- the core cycle at which it may retire -/
  due : Nat := 0
  /-- K-steps already done at a checkpoint (R218) -/
  doneSteps : Nat := 0
  /-- the tile that the write renames away from: kept until the write retires (R188) -/
  old : Option Nat := none
  /-- it waits at the homes of these lines, from a place in the order of arrival on (09 R256 R259) -/
  queued : Option (Nat × List Nat) := none
  /-- since when it has met a package out of reach (15 R388) -/
  farSince : Option Nat := none
deriving DecidableEq, Repr

/-- A dimension beyond the first of a copy command (R207). -/
structure CopyDim where
  count : Nat
  sstr : Int
  dstr : Int
deriving DecidableEq, Repr

/-- The stages of a copy command (R209 R210). -/
inductive CopyStage where
  | held | accepted | running
deriving DecidableEq, Repr

structure CopyCmd where
  id : Nat
  warp : Nat
  cid : Nat
  launch : Nat
  fill : Bool
  dims : List CopyDim
  esz : Nat
  srcSh : Bool
  dstSh : Bool
  acq : Bool
  rel : Bool
  scope : Nat
  key : Option Nat
  tag : Nat
  src : DWord
  dst : DWord
  record : DWord
  count0 : Nat
  /-- its shared writes belong to an open level of this depth -/
  level : Option Nat := none
  stage : CopyStage
  promise : Nat := 0
  bytes : Nat := 0
  /-- a translation fault of its record stands open: token, kind -/
  openFault : Option (Nat × Nat) := none
  /-- an answer UNSERVICEABLE has come for it -/
  lost : Bool := false
  /-- its end is settled, the record and the completion word are not yet written: state, DETAIL, BYTES -/
  final : Option (Nat × Nat × Nat) := none
  /-- it waits at the homes of these lines, from a place in the order of arrival on (09 R256 R259) -/
  queued : Option (Nat × List Nat) := none
deriving DecidableEq, Repr
/-- Its record is written, or it has none; only the completion word is still to come. -/
def CopyCmd.wordDue (m : CopyCmd) : Bool := m.final.isSome && m.record == 0#64
/-- A channel of a copy engine (R207 R210). -/
structure Channel where
  parts : List (Nat × List Word) := []
  cmds : List CopyCmd := []
  /-- completion words on the queue, with the cohort whose warp pushed the command -/
  words : List (Nat × Word) := []
  /-- completion words held for saved cohorts: cohort, word -/
  heldWords : List (Nat × Word) := []
  last : Nat := 0
  g : Nat := 16
deriving DecidableEq, Repr

/-- A BIND of a bin set (R212). -/
structure Bind where
  key : Nat
  dest : Nat
  dim : Nat
  field : Nat
  mult : Nat
  shift : Nat
  bias : Word
deriving DecidableEq, Repr

/-- A bin set (R212 to R214). -/
structure BinSet where
  launch : Nat
  set : Nat
  ndest : Nat
  addr : DWord
  counts : List Nat
  overflow : Nat := 0
  total : Nat := 0
  binds : List Bind := []
  /-- a COUNT of it was given up (14 R365) -/
  bad : Bool := false
deriving DecidableEq, Repr

/-- A command that the Thresher has taken and not yet performed (R212). -/
structure ThrCmd where
  id : Nat
  warp : Nat
  launch : Nat
  words : List Word
  openFault : Option (Nat × Nat) := none
  lost : Bool := false
  queued : Option (Nat × List Nat) := none
  farSince : Option Nat := none
deriving DecidableEq, Repr

structure Thresher where
  parts : List (Nat × List Word) := []
  cmds : List ThrCmd := []
  sets : List BinSet := []
  /-- result words with their launch -/
  results : List (Nat × Word) := []
deriving DecidableEq, Repr

/-- An active message (R216). -/
structure AmMsg where
  launch : Nat
  sender : Nat
  target : DWord
  handler : Word
  count : Word
  payload : List Word
  arrived : Bool := false
deriving DecidableEq, Repr

/-- Rows of a spanning A tile on their way to another participant (R197). -/
structure Rows where
  /-- the sequencer entry of the broadcast -/
  id : Nat
  /-- the participant that they are for -/
  launch : Nat
  index : Nat
  name : Nat
  /-- the number of the allocation of the name that they fill -/
  nth : Nat
  data : List Word
  scales : List Nat
deriving DecidableEq, Repr

end Sys2Proof.Machine
end

