-- ==== Sys2Proof/Machine/StSys.lean ====
section
/-! DEFINITION. The state of cores, clusters, launches, partitions, the memory system, the debug window, the fabric and
Lantern (10 to 17). -/

namespace Sys2Proof.Machine

/-- An L1 copy of a line (11 R295 R296). -/
structure L1Line where
  pa : Nat
  part : Nat
  data : List Byte
  wts : Nat
  rts : Nat
  /-- the policy of its latest access: 0 DFLT, 1 KEEP, 2 STRM (06 R160, 11 R293) -/
  policy : Nat := 0
  /-- the host writes that its bytes may show: those up to this one (11 R297) -/
  host : Nat := 0
deriving DecidableEq, Repr

/-- A lane's atomic that waits in the sheaf buffer (12 R336). -/
structure SheafEntry where
  launch : Nat
  index : Nat
  lidx : Nat
  lane : Nat
  count : Nat
  va : DWord
  pa : Nat
  aop : Nat
  b : DWord
  b2 : Word
  /-- it is a SYS release, and the host accesses that stand before it (10 R284) -/
  rel : Bool := false
  seen : Nat := 0
deriving DecidableEq, Repr

/-- A cargo (13 R350). -/
structure Cargo where
  sender : Nat
  target : Nat
  pc : Word
  lanes : Mask
  widBase : DWord
  names : List (Nat × VReg)
  returning : Bool
  winbase : Nat
  seq : Nat
  launch : Nat
  cid : Nat
  fpmode : BitVec 4
  fpflags : BitVec 5
  trapen : BitVec 4
  timerLo : Word
  timerCmp : DWord
  timerEn : Bool
  timerOne : Bool
  timerPend : Bool
  waitlim : Word
  rbcause : BitVec 16
  rbcode : BitVec 16
  quota : Nat
  chipHi : Word
  sregs : List Word
  preds : List Mask
  lnk : VReg
  /-- on the network: it has a mooring entry at its target -/
  sent : Bool := false
  /-- it took one of the entries reserved for its sender's die -/
  reserved : Bool := false
  /-- the warp that it leaves -/
  warp : Nat := 0
  /-- it stands in the buffer; false while it waits for room there, its lanes still in their warp (R355) -/
  placed : Bool := true
  /-- a SYS-scope release fence of its threads stands before every later store and atomic (10 R284) -/
  sysRel : Bool := false
  hostSeen : Nat := 0
  hostPend : Nat := 0
  hostGot : Nat := 0
deriving DecidableEq, Repr

/-- A core (00 R1). -/
structure CoreS where
  id : Nat := 0
  tiles : List Tile := []
  seq : List TileOp := []
  nextOp : Nat := 0
  mseqParts : List (Nat × Word) := []
  sheaf : List SheafEntry := []
  l1 : List L1Line := []
  pts : Nat := 0
  ptsAt : Nat := 0
  tlb : List TlbEntry := []
  /-- lines that the constant path holds: launch, line, bytes (06 R161) -/
  cpath : List (Nat × Nat × List Byte) := []
  moor : List Cargo := []
  moorFullSince : Option Nat := none
  outb : List Cargo := []
  sentTo : List (Nat × Nat) := []
  pin : Option (Nat × Nat) := none
  rr : List Nat := [0, 0, 0, 0]
  am : List AmMsg := []
  arrived : List Rows := []
  /-- allocations and broadcast loads of a handle name since launch start: cohort, name, allocations, loads -/
  allocs : List (Nat × Nat × Nat × Nat) := []
  lastSample : Nat := 0
  /-- the pair that was sampled last: cohort index, warp index, launch -/
  sampleLast : Option (Nat × Nat × Nat) := none
  /-- for each quarter, the registers of its rebind reserve that writes in flight hold (01 R16) -/
  reserve : List Nat := [0, 0, 0, 0]
deriving DecidableEq, Repr

/-- A cluster: its copy engine and its governor (07 R207, 16 R411). -/
structure Cluster where
  id : Nat
  chans : List Channel := List.replicate 8 {}
  gov : Nat := 0
  govAt : Nat := 0
  droop : Bool := false
deriving DecidableEq, Repr

structure Die where
  id : Nat
  thr : Thresher := {}
deriving DecidableEq, Repr

/-- A tile buffer's full and busy bits (12 R320). -/
structure TBuf where
  id : Nat
  full : Bool
  busy : Bool
deriving DecidableEq, Repr

/-- A segment of a travelling launch: start, length, cores that hold it (13 R347 R352). -/
structure Segment where
  start : Nat
  len : Nat
  cores : List Nat := []
  /-- its bytes as the instruction stores of those cores hold them (R347) -/
  bytes : List Byte := []
deriving DecidableEq, Repr

/-- A launch (12 R311 to R316, R339, R340). -/
structure Launch where
  /-- the launch: 16 times its launch number, plus its partition -/
  num : Nat := 0
  part : Nat := 0
  vi : Nat := 0
  ctx : Nat := 0
  accepted : Nat := 0
  code : DWord := 0#64
  codeOff : Nat := 0
  codeSize : Nat := 0
  entry : Word := 0#32
  handlerPc : Word := 0#32
  /-- block priority table: start, words, priority -/
  prios : List (Nat × Nat × Nat) := []
  segs : List Segment := []
  gen : Nat := 0
  promiseF : Bool := false
  det : Bool := false
  check : Bool := false
  travel : Bool := false
  prio : Nat := 0
  warps : Nat := 1
  ncoh : Nat := 0
  f1 : Nat := 0
  f2 : Nat := 0
  f3 : Nat := 0
  f4 : Nat := 0
  f5 : Nat := 0
  quota : Nat := 0
  handles : Nat := 0
  shared : Nat := 0
  fpctl : BitVec 8 := 0#8
  args : DWord := 0#64
  frame : DWord := 0#64
  huskBase : DWord := 0#64
  huskKib : Nat := 0
  /-- the most chunks of it that have been in use -/
  huskTop : Nat := 0
  budget : Nat := 0
  promise : Nat := 0
  record : DWord := 0#64
  cqBase : DWord := 0#64
  cqCnt : Nat := 0
  cqLog : Nat := 0
  tbufs : List TBuf := []
  /-- identifiers of the buffers that start full -/
  tbFull : List Nat := []
  spawn : Nat := 0
  exact : Bool := false
  /-- the next cohort index of the launch stream -/
  next : Nat := 0
  spawnedRun : Nat := 0

  /-- since when it has held an eligible record without room -/
  waitSince : Option Nat := none
  /-- the source that offers next: 0 the stream, q + 1 queue q -/
  turn : Nat := 0
  taint : Nat := 0
  exhausted : Nat := 0
  overBudget : Nat := 0
  failCoh : Option Nat := none
  rbcode : BitVec 16 := 0#16
  amDrop : Nat := 0
  badRec : Nat := 0
  stranded : Nat := 0
  cohorts : Nat := 0
  heldDrop : Nat := 0
  /-- parent records waiting for room: queue, record bytes -/
  parents : List (Nat × List Byte) := []
  /-- dies bound to F4 values (12 R325) -/
  dieOf : List (Nat × Nat) := []
  /-- cohorts that have completed, by index: messages for them are dropped -/
  doneIdx : List Nat := []
  claimer : Option Nat := none
  /-- the core cycle at which the claim began -/
  claimAt : Nat := 0
  trace : Bool := false
  sample : Bool := false
  /-- check mode: run (1 or 2), launch-level log of lines, digest of the first run, overflowed -/
  checkRun : Nat := 1
  checkLog : List (DWord × Nat × List Byte) := []
  digest1 : Option (List Byte) := none
  checkLost : Bool := false
  /-- the failure that ends it: DETAIL of FAILED -/
  failing : Option Nat := none
  stopAll : Bool := false
  /-- a race of 10 R286 has happened in it: its results are undefined from then on (R287) -/
  raced : Bool := false
  /-- host writes made before its acceptance -/
  hostAt : Nat := 0
  /-- chip ticks in which it has held an eligible record since its latest dispatch (12 R327) -/
  eligTicks : Nat := 0
  /-- it has had a dispatch -/
  begun : Bool := false
deriving DecidableEq, Repr

/-- A partition (15 R394). -/
structure Part where
  id : Nat
  clusters : List Nat := []
  reserve : List Nat := []
  granules : List Nat := []
  l2ways : Nat := 1
  bandwidth : Nat := 1
  exact : Bool := false
  horizon : Nat := 0
  nextLaunch : Nat := 1
  /-- credits: level, interface, credit -/
  credits : List (Nat × Nat × Nat) := []
  lastServed : List (Nat × Nat) := []
  debugWin : Option Nat := none
  stitch : List (Rect × StitchPattern) := []
  drains : Nat := 0
  /-- a request that waits for pages to return to DEV (11 R307) -/
  closing : Option PartReq := none
deriving DecidableEq, Repr

/-- A launch queue (15 R391 R392). -/
structure LQueue where
  base : DWord := 0#64
  cfg : DWord := 0#64
  tailAt : DWord := 0#64
  head : Nat := 0
  err : DWord := 0#64
  lastTail : Nat := 0
  stopped : Bool := false
deriving DecidableEq, Repr

/-- A virtual interface with its register page (15 R391). -/
structure VIface where
  id : Nat
  part : Option Nat := none
  owner : Bool := false
  weight : Nat := 1
  lqs : List LQueue := List.replicate 4 {}
  biasStat : DWord := 0#64
  fqBase : DWord := 0#64
  fqCfg : DWord := 0#64
  fqTail : DWord := 0#64
  fqHead : DWord := 0#64
  xinvAddr : DWord := 0#64
  xinvStat : DWord := 0#64
  ctxStat : DWord := 0#64
deriving DecidableEq, Repr

/-- What one core held of a context when it was saved (14 R372 R373). -/
structure Saved where
  core : Nat
  warps : List Warp
  slots : List Slot
  cohorts : List Cohort
  tiles : List Tile
  seq : List TileOp
  mseqParts : List (Nat × Word)
  sheaf : List SheafEntry
  arrived : List Rows
  allocs : List (Nat × Nat × Nat × Nat)
  pts : Nat
  nextOp : Nat
  /-- core cycle at which it was saved -/
  at_ : Nat
  /-- slots whose pins found no chunk, with the cohorts and depths of the levels that fail when the unit resumes (R373) -/
  short : List ((Nat × Nat) × Nat × Nat) := []
  /-- partly assembled commands of its warps: channel of the cluster, words (14 R372) -/
  copyParts : List (Nat × Nat × List Word) := []
  thrParts : List (Nat × List Word) := []
  /-- completion words that its warps have not popped, by channel -/
  doneWords : List (Nat × List (Nat × Word)) := []
  /-- held copy commands of its warps, by channel -/
  heldCmds : List (Nat × CopyCmd) := []
  /-- open bin sets and result words of its launches, saved by the last unit of the context on the die -/
  sets : List BinSet := []
  results : List (Nat × Word) := []
  /-- the segment of a travelling launch that was pinned on the core, its mooring region and its outbound region (13 R360) -/
  pin : Option (Nat × Nat) := none
  moor : List Cargo := []
  outb : List Cargo := []
deriving DecidableEq, Repr
/-- A fault that waits for an answer (14 R364 R365). -/
inductive FaultSrc where
  | warp (w : Nat)
  | copy (cluster chan id : Nat)
  | thr (die id : Nat)
deriving DecidableEq, Repr

structure OpenFault where
  token : Nat
  part : Nat
  ctx : Nat
  launch : Nat
  kind : Nat
  src : FaultSrc
deriving DecidableEq, Repr

/-- A context (11 R289, 15 R391). -/
structure Ctx where
  num : Nat
  part : Nat
  root : Nat
  /-- CTXBASE (14 R372) -/
  base : Nat := 0
  saved : List Saved := []
  /-- replies recorded while the context is saved: token, action -/
  replies : List (Nat × Nat) := []
  /-- destroyed or killed; the scrub is still to come -/
  releasing : Bool := false
  /-- the interface whose destroy is under way; 64 when there is none -/
  owner : Nat := 64
  /-- overflow chunks that its ended launches have used: base, chunks (09 R251) -/
  husk : List (DWord × Nat) := []
  preempt : List Nat := []
  /-- a kill is due (14 R368) -/
  killed : Bool := false
deriving DecidableEq, Repr

/-- A claim on a line at its home (09 R255). -/
structure Claim where
  line : Nat
  launch : Nat
  cid : Nat
  conv : Option Nat
deriving DecidableEq, Repr

/-- One lane of an atomic that waits at its home. -/
structure HeldAtom where
  lane : Nat
  va : DWord
  pa : Nat
  aop : Nat
  b : DWord
  /-- the replacement of a CAS -/
  b2 : Word
  /-- its old value goes to the registers of the write -/
  gives : Bool := false
deriving DecidableEq, Repr

/-- A write that waits at a claimed line (09 R442). -/
structure HeldWrite where
  id : Nat
  warp : Nat
  cid : Nat
  core : Nat
  line : Nat
  va : DWord
  bytes : List (Nat × Byte)
  /-- the depth of nesting at its instruction -/
  depth : Nat
  /-- the lanes of an atomic, each of which waits whole -/
  atoms : List HeldAtom := []
  /-- it is a SYS release (10 R284) -/
  rel : Bool := false
  /-- L2 keeps the line after it (11 R293) -/
  kept : Bool := true
  /-- its atomics are those of an ATS, which taint no sheaf (16 R409) -/
  ats : Bool := false
  /-- the registers that take the old values, low word first -/
  dest : List Await := []
  /-- it is a SYS acquire (10 R284) -/
  acq : Bool := false
deriving DecidableEq, Repr
/-- A message to a conversation's home (09 R268). -/
inductive ConvMsg where
  | join (cid warp : Nat) (va : DWord) (pa depth : Nat)
  | vote (cid pa member : Nat) (yes : Bool)
  | fail (cid pa member : Nat)
  | done (cid pa member : Nat) (alt : Bool)
deriving DecidableEq, Repr

inductive Verdict where
  | commit | rollback | advance | exhaust
deriving DecidableEq, Repr

/-- A verdict on its way to a member: cohort, membership, object. -/
structure Notice where
  cid : Nat
  serial : Nat
  verdict : Verdict
  pa : Nat
deriving DecidableEq, Repr

/-- A conversation's members at its home: cohort, member bit, number of the membership; and whether one finished without an alternate. -/
structure ConvHome where
  pa : Nat
  members : List (Nat × Nat × Nat)
  noAlt : Bool := false
  /-- the object's virtual address and its members' launch -/
  va : DWord := 0#64
  launch : Nat := 0
deriving DecidableEq, Repr

/-- The entry of a line at its home in L2: its write time and its lease, and the partition that it is tagged with (11 R296 R298). -/
structure Lease where
  line : Nat
  wts : Nat
  rts : Nat
  part : Nat := 0
deriving DecidableEq, Repr

/-- A write of the host that waits: its place in the order of arrival, address, bytes (09 R256 R259). -/
structure HostWrite where
  id : Nat
  pa : Nat
  bytes : List Byte
deriving DecidableEq, Repr

/-- A request that waits at the directory: its place in the order of arrival, agent, line, ownership (11 R305). -/
structure DirReq where
  id : Nat
  agent : Nat
  line : Nat
  own : Bool
deriving DecidableEq, Repr

/-- States of a directory region (11 R302). -/
inductive DirSt where
  | i | s | e
deriving DecidableEq, Repr

structure Region where
  base : Nat
  size : Nat
  st : DirSt
  /-- packages 0 to 63, and 64 for the host -/
  vec : List Nat
  touch : Nat
  /-- its entry is being recalled (11 R302) -/
  recalled : Bool := false
deriving DecidableEq, Repr

/-- An open probe of the directory (11 R303 R305). -/
structure Probe where
  agent : Nat
  line : Nat
  inval : Bool
  /-- a MISS came first: the notice it names is awaited -/
  missSeq : Option Nat := none
  /-- a notice came first -/
  notice : Option Nat := none
deriving DecidableEq, Repr

inductive Bias where
  | host | dev
  /-- waiting for answers: start tick, lines not answered, interface -/
  | toDev (start : Nat) (opened : List Nat) (vi : Nat)
deriving DecidableEq, Repr

/-- A running or waiting translation invalidation (11 R292). -/
structure Xinv where
  part : Nat
  vi : Nat
  ctx : Nat
  va : Nat
  pages : Nat
deriving DecidableEq, Repr

/-- A line of another package or of host memory that this package holds (11 R299 R306). -/
structure Guest where
  line : Nat
  excl : Bool
  dirty : Bool
  /-- clusters whose L1 may hold copies (48 bits) -/
  clusters : List Nat := []
deriving DecidableEq, Repr

/-- An access of the host or of the device to bytes of a line that no later one of its side has replaced (10 R283 R284): a bit for
each byte, its place among the accesses of its side, of a host write the place up to which its SYS acquire orders the host's accesses,
and of a device access the launch, the warp unless an engine made it, and whether it was a SYS release. -/
structure Touch where
  line : Nat
  bytes : Nat
  seq : Nat
  gives : Nat := 0
  launch : Nat := 0
  warp : Option Nat := none
  rel : Bool := false
deriving DecidableEq, Repr

/-- A breakpoint of a port (16 R398). -/
structure BPoint where
  pc : Word := 0#32
  armed : Bool := false
  mask : DWord := 0#64
  val : DWord := 0#64
deriving DecidableEq, Repr

/-- A debug port (16 R398). -/
structure Port where
  plaunch : DWord := 0#64
  pwid : DWord := 0#64
  phandle : Nat := 0
  /-- commands written and not yet run: writing launch, word -/
  cmds : List (Nat × DWord) := []
  completed : Nat := 0
  result : Nat := 0
  bps : List BPoint := List.replicate 16 {}
  /-- the value of the latest view read -/
  data : DWord := 0#64
deriving DecidableEq, Repr

/-- A sample or trace ring (16 R404). -/
structure Ring where
  base : DWord := 0#64
  log : DWord := 0#64
  head : DWord := 0#64
  tail : Nat := 0
  drop : Nat := 0
deriving DecidableEq, Repr

/-- The debug window of a partition. -/
structure Window where
  part : Nat
  ports : List Port := List.replicate 16 {}
  speriod : DWord := 0#64
  /-- the core cycle at which the period was written -/
  periodAt : Nat := 0
  sring : Ring := {}
  tring : Ring := {}
deriving DecidableEq, Repr

/-- The fabric's management state (15 R381 to R388). -/
structure Fabric where
  pkg : Nat := 0
  routes : List Nat := []
  downLinks : List Nat := []
  blocked : List (Nat × Nat × Nat) := []
  /-- warps that wait for a package that no route reaches: warp, package, start in chip ticks -/
  lost : List (Nat × Nat × Nat) := []
deriving DecidableEq, Repr

/-- An entry of the Keeper's log (17 R421): 64 bytes. -/
structure LogRec where
  seq : Nat
  bytes : List Byte
deriving DecidableEq, Repr

/-- The counters of the lifetime record (17 R422). -/
structure Life where
  soft : List Nat := List.replicate 20 0
  hard : List Nat := List.replicate 20 0
  thermal : List Nat := List.replicate 9 0
  excursions : Nat := 0
  trips : Nat := 0
  droops : List Nat := List.replicate 4 0
  failures : List Nat := List.replicate 9 0
  copyFailed : Nat := 0
  promiseTraps : Nat := 0
  hours : Nat := 0
  resets : Nat := 0
deriving DecidableEq, Repr

/-- Lantern (17). -/
structure Lantern where
  meas : List (List Byte) := List.replicate 8 (List.replicate 32 0#8)
  log : List LogRec := []
  nextSeq : Nat := 0
  chain : List Byte := List.replicate 32 0#8
  /-- latest checkpoints, newest last: SEQ, chain, signature -/
  checkpoints : List (Nat × List Byte × List Byte) := []
  /-- chip time of the latest checkpoint -/
  lastCheck : Nat := 0
  sinceCheck : Nat := 0
  /-- Keeper requests waiting while Lantern hashes: type, partition, data -/
  queue : List (Nat × Nat × List Byte) := []
  /-- requests that found the queue full -/
  waiting : List (Nat × Nat × List Byte) := []
  /-- a checkpoint is due -/
  checkDue : Bool := false
  life : Life := {}
  vol : Life := {}
  /-- chip time at which the counters fold next; they fold at once for a machine check or a trip -/
  foldAt : Nat := 3600000000000
  foldNow : Bool := false
  /-- the second up to which the thermal histogram stands -/
  heatTo : Nat := 0
  fuseMin : Nat := 0
  /-- SHA-256 of the firmware public key, in fuses (R414) -/
  keyHash : List Byte := Config.keyHash
  /-- leaf indexes of the two levels of the identity key that are spent (R415), and the one committed for the next signature -/
  leafTop : Nat := 0
  leafLow : Nat := 0
  leaf : Option Nat := none
  boots : Nat := 0
  recovery : Bool := false
  lmAddr : DWord := 0#64
  lmArg : DWord := 0#64
  lmNonce : List Byte := List.replicate 32 0#8
  /-- mailbox commands that have been written: LMCMD, and what LMADDR, LMARG and LMNONCE held -/
  lmQueue : List (DWord × DWord × DWord × List Byte) := []
  lmDone : Nat := 0
  lmResult : Nat := 0
  slotA : Option Image := none
  slotB : Option Image := none
  tripped : Bool := false
  /-- every sensor has read below 90 degrees since the trip -/
  cool : Bool := false
  powered : Bool := true
deriving DecidableEq, Repr

end Sys2Proof.Machine
end

