-- ==== Sys2Proof/Machine/State.lean ====
section
/-! DEFINITION. The whole machine as plain data, its reset, and the reasons for a stop. -/

namespace Sys2Proof.Machine

/-- Why a step stops: never. Every behaviour that the manual leaves open takes free values (10 R287 among them), and every fault of
the manual is taken as the manual says. -/
inductive Fault : Type
deriving DecidableEq, Repr

/-- Why the model gives no next state. -/
inductive Refusal where
  /-- raised by an arm of exec that has no meaning yet. Safe. -/
  | notModelled (mnemonic : String)
deriving DecidableEq, Repr

/-- The state of the device. The issuing warp, its slot, cohort, core and launch stand in focus beside the lists of the others. -/
structure State where
  w : Warp := {}
  sl : Slot := {}
  c : Cohort := {}
  k : CoreS := {}
  l : Launch := {}
  warps : List Warp := []
  slots : List Slot := []
  cohorts : List Cohort := []
  cores : List CoreS := []
  launches : List Launch := []
  clusters : List Cluster := []
  dies : List Die := []
  parts : List Part := []
  vis : List VIface := (List.range 64).map fun i => { id := i }
  ctxs : List Ctx := []
  nextCtx : Nat := 1
  nextId : Nat := 1
  /-- fault-queue records that wait for room: partition, 64 bytes (15 R393) -/
  fqWait : List (Nat × List Byte) := []
  faults : List OpenFault := []
  nextToken : Nat := 1
  /-- bytes by physical address, ascending, none equal to what an unlisted address reads as -/
  mem : List Host.Cell := []
  claims : List Claim := []
  held : List HeldWrite := []
  convMsgs : List ConvMsg := []
  notices : List Notice := []
  convs : List ConvHome := []
  leases : List Lease := []
  /-- the latest logical time at which a write has been performed (11 R296) -/
  clock : Nat := 0
  /-- home records of stashed lines: line, cohort -/
  stashOwners : List (Nat × Nat) := []
  dir : List Region := []
  probes : List Probe := []
  /-- requests that wait behind a probe -/
  dirWait : List DirReq := []
  /-- the latest notice received: agent, line, sequence number -/
  notes : List (Nat × Nat × Nat) := []
  guests : List Guest := []
  bias : List (Nat × Bias) := []
  biasWait : List (Nat × DWord) := []
  /-- host writes that wait for a claim or for other agents -/
  hostWait : List HostWrite := []
  /-- sheaf marks: line, launch (16 R409) -/
  marks : List (Nat × Nat) := []
  xinv : List Xinv := []
  windows : List Window := []
  fabric : Fabric := {}
  lan : Lantern := {}
  /-- core cycles since power-on -/
  cyc : Nat := 0
  /-- outside happenings still to come, oldest first -/
  inputs : List Instr := []
  stepNo : Nat := 0
  /-- free values drawn -/
  fresh : Nat := 0
  /-- host accesses so far, and the latest writes and reads of bytes (10 R283) -/
  hostSeq : Nat := 0
  hostWrote : List Touch := []
  hostRead : List Touch := []
  /-- device accesses so far, the latest writes and reads of bytes, and the place up to which the host has acquired them -/
  devSeq : Nat := 0
  devWrote : List Touch := []
  devRead : List Touch := []
  hostAcq : Nat := 0
  /-- the place among the host's accesses at which it was granted a line that it may change: line, place -/
  hostOwn : List (Nat × Nat) := []
  /-- lines that L2 has given up and not filled again (11 R300) -/
  gone : List Nat := []
deriving DecidableEq, Repr

/-- The device right after the cold reset of 17 R413. -/
def State.reset : State := {}

end Sys2Proof.Machine
end

