-- ==== Sys2Proof/Machine/Ops.lean ====
section
/-! DEFINITION. The operations that every instruction shares: how a meaning ends, the focus, the frontier, stalls, the fault
queue, delivery of faults, entering and leaving trap mode (01 R24 to R27, 04 R104 R120, 08 R240 R241, 14 R361 to R367). -/

namespace Sys2Proof.Machine

abbrev Out := Host.Outcome State Fault Refusal

/-! Fault codes (14 R361). -/
def fcIllegal : Nat := 0x01
def fcOpnd : Nat := 0x02
def fcFetch : Nat := 0x03
def fcPcAlign : Nat := 0x04
def fcFrontier : Nat := 0x05
def fcExitBlock : Nat := 0x06
def fcRegQuota : Nat := 0x10
def fcRegLimit : Nat := 0x11
def fcRegShrink : Nat := 0x12
def fcQUnbound : Nat := 0x18
def fcQDir : Nat := 0x19
def fcQBind : Nat := 0x1A
def fcCanon : Nat := 0x20
def fcAlign : Nat := 0x21
def fcShared : Nat := 0x22
def fcStash : Nat := 0x23
def fcBarDiv : Nat := 0x28
def fcBarCount : Nat := 0x29
def fcQnt : Nat := 0x2C
def fcDetAtomic : Nat := 0x30
def fcSheaf : Nat := 0x31
def fcStale : Nat := 0x38
def fcBound : Nat := 0x39
def fcGive : Nat := 0x3A
def fcTKind : Nat := 0x40
def fcTRecord : Nat := 0x41
def fcTShape : Nat := 0x42
def fcTSpan : Nat := 0x43
def fcTMap : Nat := 0x44
def fcGranary : Nat := 0x45
def fcEngCmd : Nat := 0x48
def fcEngKey : Nat := 0x49
def fcRbDiv : Nat := 0x50
def fcRbDepth : Nat := 0x51
def fcRbMismatch : Nat := 0x52
def fcRbState : Nat := 0x53
def fcConvJoin : Nat := 0x54
def fcConvFull : Nat := 0x55
def fcBand : Nat := 0x58
def fcTbId : Nat := 0x59
def fcTbBlock : Nat := 0x5A
def fcTravelOp : Nat := 0x60
def fcTravelNoseg : Nat := 0x61
def fcCargo : Nat := 0x62

/-- How an instruction ends when it does not complete. -/
inductive Exc where
  /-- a program fault: code, address, the lanes it names (none for the issuing entry's), the access that met it -/
  | fault (code : Nat) (addr : DWord) (lanes : Option Mask) (acc : Access := {})
  /-- a stall that keeps nothing -/
  | stall (kind : StallKind) (cond : Cond)
  /-- a stall that keeps the state given (04 R120) -/
  | stallAt (s : State) (kind : StallKind) (cond : Cond)
  /-- a stall that keeps nothing of the instruction, but has sent probes or found a package out of reach -/
  | stallSide (probes : List Probe) (lost : List (Nat × Nat × Nat)) (kind : StallKind) (cond : Cond)
  /-- the open level fails: cause, RBABORT code (08 R226) -/
  | fail (cause abort : Nat)
  /-- the open level fails, from the state given: the group has discarded a command (07 R217) -/
  | failIn (s : State) (cause : Nat)
deriving DecidableEq, Repr

abbrev Op := Except Exc State

/-- Raise a program fault that names the issuing entry. -/
def raise {α : Type} (code : Nat) : Except Exc α := .error (.fault code 0#64 none)

/-- Raise a fault unless the condition holds. -/
def need (c : Bool) (code : Nat) : Except Exc Unit := if c then .ok () else raise code

/-- Chip time in ticks of 1 ns: 5 ticks for each 9 core cycles (00 R1 R7). -/
def State.now (s : State) : Nat := s.cyc * 5 / 9

/-! Focus. -/

/-- The warp, slot, cohort, core and launch in focus go back to the lists. -/
def State.unfocus (s : State) : State :=
  if s.w.resident then
    { s with warps := s.w :: s.warps, w := {}, slots := s.sl :: s.slots, sl := {}
             cohorts := s.c :: s.cohorts, c := {}, cores := s.k :: s.cores, k := {}
             launches := s.l :: s.launches, l := {} }
  else s

/-- Every warp of the device, the one in focus first. -/
def State.allWarps (s : State) : List Warp := if s.w.resident then s.w :: s.warps else s.warps
def State.allCohorts (s : State) : List Cohort := if s.w.resident then s.c :: s.cohorts else s.cohorts
def State.allCores (s : State) : List CoreS := if s.w.resident then s.k :: s.cores else s.cores
def State.allSlots (s : State) : List Slot := if s.w.resident then s.sl :: s.slots else s.slots
def State.allLaunches (s : State) : List Launch := if s.w.resident then s.l :: s.launches else s.launches

def sameSlot (w : Warp) (t : Slot) : Bool := t.core == w.core && t.quarter == w.quarter && t.slot == w.slot

/-- Bring a warp with its slot, cohort, core and launch into focus; unchanged when no such warp is resident. -/
def State.focus (s : State) (id : Nat) : State :=
  if s.w.resident && s.w.id == id then s else
  let s := s.unfocus
  match takeOut (fun w : Warp => w.id == id) s.warps with
  | (none, _) => s
  | (some w, ws) =>
    let t := takeOut (sameSlot w) s.slots
    let c := takeOut (fun c : Cohort => c.id == w.cid) s.cohorts
    let k := takeOut (fun k : CoreS => k.id == w.core) s.cores
    let cc := c.1.getD { id := w.cid, core := w.core }
    let l := takeOut (fun l : Launch => l.num == cc.launch) s.launches
    { s with w := w, warps := ws
             sl := t.1.getD { core := w.core, quarter := w.quarter, slot := w.slot }, slots := t.2
             c := cc, cohorts := c.2
             k := k.1.getD { id := w.core }, cores := k.2
             l := l.1.getD { num := cc.launch }, launches := l.2 }

/-- Change every warp that satisfies q. -/
def State.mapWarps (s : State) (q : Warp → Bool) (f : Warp → Warp) : State :=
  { s with w := if s.w.resident && q s.w then f s.w else s.w, warps := updWhere q f s.warps }

/-- Change the cohort with an identifier. -/
def State.mapCohort (s : State) (cid : Nat) (f : Cohort → Cohort) : State :=
  { s with c := if s.w.resident && s.c.id == cid then f s.c else s.c
           cohorts := updWhere (fun c => c.id == cid) f s.cohorts }

/-- Change what the saved units of contexts hold. -/
def State.mapSaved (s : State) (f : Saved → Saved) : State :=
  { s with ctxs := s.ctxs.map fun x => { x with saved := x.saved.map f } }
/-- Change the warps that satisfy a test, resident or saved. -/
def State.mapAnyWarps (s : State) (q : Warp → Bool) (f : Warp → Warp) : State :=
  (s.mapWarps q f).mapSaved fun v => { v with warps := updWhere q f v.warps }
/-- Change a cohort, resident or saved. -/
def State.mapAnyCohort (s : State) (cid : Nat) (f : Cohort → Cohort) : State :=
  (s.mapCohort cid f).mapSaved fun v => { v with cohorts := updWhere (fun c => c.id == cid) f v.cohorts }

/-- Change a core. -/
def State.mapCore (s : State) (id : Nat) (f : CoreS → CoreS) : State :=
  if s.w.resident && s.k.id == id then { s with k := f s.k }
  else if s.cores.any (fun k => k.id == id) then { s with cores := updWhere (fun k => k.id == id) f s.cores }
  else { s with cores := f { id := id } :: s.cores }

/-- Change a launch. -/
def State.mapLaunch (s : State) (num : Nat) (f : Launch → Launch) : State :=
  { s with l := if s.w.resident && s.l.num == num then f s.l else s.l
           launches := updWhere (fun l => l.num == num) f s.launches }

def State.cohort? (s : State) (cid : Nat) : Option Cohort := s.allCohorts.find? fun c => c.id == cid
def State.warp? (s : State) (id : Nat) : Option Warp := s.allWarps.find? fun w => w.id == id
def State.launch? (s : State) (num : Nat) : Option Launch := s.allLaunches.find? fun l => l.num == num
/-- The cohorts and warps saved with their contexts (14 R372). -/
def State.savedCohorts (s : State) : List Cohort := s.ctxs.flatMap fun x => x.saved.flatMap (·.cohorts)
def State.savedWarps (s : State) : List Warp := s.ctxs.flatMap fun x => x.saved.flatMap (·.warps)
/-- A cohort, a warp, resident or saved. -/
def State.anyCohort (s : State) (cid : Nat) : Option Cohort := (s.allCohorts ++ s.savedCohorts).find? fun c => c.id == cid
def State.anyWarp (s : State) (id : Nat) : Option Warp := (s.allWarps ++ s.savedWarps).find? fun w => w.id == id
def State.coreOf (s : State) (id : Nat) : CoreS := (s.allCores.find? fun k => k.id == id).getD { id := id }

/-- The cluster of a core, and its die (15: 8 cores in a cluster, 12 clusters on a die). -/
def clusterOf (core : Nat) : Nat := core / 8
def dieOf (core : Nat) : Nat := core / 96

def State.cluster (s : State) (id : Nat) : Cluster := (s.clusters.find? fun c => c.id == id).getD { id := id }
def State.mapCluster (s : State) (id : Nat) (f : Cluster → Cluster) : State :=
  if s.clusters.any (fun c => c.id == id) then { s with clusters := updWhere (fun c => c.id == id) f s.clusters }
  else { s with clusters := f { id := id } :: s.clusters }
def State.die (s : State) (id : Nat) : Die := (s.dies.find? fun d => d.id == id).getD { id := id }
def State.mapDie (s : State) (id : Nat) (f : Die → Die) : State :=
  if s.dies.any (fun d => d.id == id) then { s with dies := updWhere (fun d => d.id == id) f s.dies }
  else { s with dies := f { id := id } :: s.dies }
def State.part? (s : State) (id : Nat) : Option Part := s.parts.find? fun p => p.id == id
def State.mapPart (s : State) (id : Nat) (f : Part → Part) : State :=
  { s with parts := updWhere (fun p => p.id == id) f s.parts }
def State.vi? (s : State) (id : Nat) : Option VIface := s.vis.find? fun v => v.id == id
def State.mapVi (s : State) (id : Nat) (f : VIface → VIface) : State :=
  { s with vis := updWhere (fun v => v.id == id) f s.vis }
def State.ctx? (s : State) (num : Nat) : Option Ctx := s.ctxs.find? fun c => c.num == num
def State.mapCtx (s : State) (num : Nat) (f : Ctx → Ctx) : State :=
  { s with ctxs := updWhere (fun c => c.num == num) f s.ctxs }

/-- The live warps of a cohort that take part in its levels and barriers: handler warps do not (08 R233). -/
def State.liveWarps (s : State) (cid : Nat) : List Warp :=
  s.allWarps.filter fun w => w.cid == cid && !w.handler && w.holds != 0#32

/-- Every live warp of a cohort, its handler warps among them: the count of a barrier (06 R170). -/
def State.everyWarp (s : State) (cid : Nat) : List Warp := s.allWarps.filter fun w => w.cid == cid && w.holds != 0#32

/-- The live warps that the rules of the cohort speak of: the issuing warp alone in a travelling launch (13 R348). -/
def State.cohortWarps (s : State) : List Warp :=
  if s.l.travel then [s.w] else s.liveWarps s.c.id

/-- Change the volatile counters that the lifetime record takes up (17 R422). -/
def State.tally (s : State) (f : Life → Life) : State := { s with lan := { s.lan with vol := f s.lan.vol } }

/-! The frontier. -/

/-- The block priority of a PC (01 R25, 03 R83). -/
def prioOf (l : Launch) (pc : Word) : Nat :=
  match l.prios.find? fun t => decide (t.1 ≤ pc.toNat) && decide (pc.toNat < t.1 + 4 * t.2.1) with
  | some t => t.2.2
  | none => 0

/-- Entry a ranks above entry b (R25, 04 R112). -/
def ranksAbove (l : Launch) (a b : Entry) : Bool :=
  if a.parked != b.parked then b.parked
  else if prioOf l a.pc = prioOf l b.pc then decide (a.pc.toNat < b.pc.toNat)
  else decide (prioOf l b.pc < prioOf l a.pc)

/-- The highest-ranked entry. -/
def topEntry (l : Launch) : List Entry → Option Entry
  | [] => none
  | e :: t => match topEntry l t with
    | none => some e
    | some b => if ranksAbove l b e then some b else some e

/-- The segment of a travelling launch that holds a PC (13 R349). -/
def segOf (l : Launch) (pc : Word) : Option Nat :=
  (l.segs.zipIdx.find? fun t => decide (t.1.start ≤ pc.toNat) && decide (pc.toNat < t.1.start + t.1.len)).map (·.2)

/-- A PC lies in the segment pinned at a core, or the launch does not travel, or the warp is in trap mode (13 R347). -/
def atHome (l : Launch) (w : Warp) (pin : Option (Nat × Nat)) (pc : Word) : Bool :=
  !l.travel || w.trapMode || (match pin with
    | some (_, g) => segOf l pc == some g
    | none => true)

/-- The core has an entry's PC. -/
def staysHere (s : State) (pc : Word) : Bool := atHome s.l s.w s.k.pin pc

/-- The entry that issues next: the highest-ranked that is neither parked nor on its way to another core; an empty one when there
is none. -/
def State.cur (s : State) : Entry :=
  (topEntry s.l (s.w.front.filter fun e => !e.parked && staysHere s e.pc)).getD { pc := 0#32, mask := 0#32 }

/-- The PC of the instruction word of a group, and of the word after the group (03 R73). -/
def State.wordPc (s : State) (p : Px) : Word := s.cur.pc + BitVec.ofNat 32 (4 * p.count)
def State.nextPc (s : State) (p : Px) : Word := s.wordPc p + 4#32

/-- Put an entry into a frontier, merging equal PCs of one parking state (R25). -/
def addEntry (e : Entry) : List Entry → List Entry
  | [] => [e]
  | f :: t =>
    if f.pc = e.pc ∧ f.parked = e.parked then
      { f with mask := f.mask ||| e.mask, rbLanes := f.rbLanes ||| e.rbLanes, src := e.src, sos := f.sos || e.sos } :: t
    else f :: addEntry e t

/-- How many registers a warp holds bound that count against its quota (01 R16 R23). -/
def State.lowestFibre (s : State) (w : Warp) : Bool :=
  (s.allWarps.filter fun v => v.core == w.core && v.quarter == w.quarter && v.slot == w.slot && v.holds != 0#32).all
    fun v => decide (w.fibre ≤ v.fibre)
def State.boundCount (s : State) : Nat :=
  s.w.regs.length + (if s.lowestFibre s.w then s.sl.bandRegs.length else 0)

/-! Departure (13 R349 to R351). -/

/-- An earlier instruction of the warp in focus has not completed. -/
def unsettled (s : State) : Bool := s.held.any (fun h => h.warp == s.w.id) || s.k.seq.any fun o => o.warp == s.w.id

/-- Cargoes that stand in the core's outbound buffer (R355). -/
def outUsed (s : State) : Nat := (s.k.outb.filter fun c => !c.sent && c.placed).length

/-- What a transfer out of the segment needs before any lane moves (R349). When no other entry of the warp could go on issuing,
a full buffer stalls the instruction as a whole (R355). -/
def departCheck (s : State) (es others : List Entry) : Except Exc Unit :=
  let out := es.filter fun e => !staysHere s e.pc
  if out.isEmpty then .ok ()
  else if decide (s.c.levels.length > 0) && !s.w.handler then .error (.fail 6 0)
  else if out.any (fun e => (segOf s.l e.pc).isNone) then raise fcTravelNoseg
  else if decide (s.boundCount > 128) then raise fcCargo
  else if unsettled s then .error (.stall .memory .settled)
  else if decide (outUsed s + out.length > 64) && (es ++ others).all (fun e => e.parked || !staysHere s e.pc) then
    .error (.stall .queue (.outbound out.length))
  else .ok ()

/-- The replica of a segment that a cohort index selects (R351). -/
def replica (l : Launch) (seg i : Nat) : Option Nat := do
  let g ← l.segs[seg]?
  let n := g.cores.length
  if n = 0 then none else g.cores[(Nat.xor (i % 2 ^ 32) (i / 2 ^ 32 % 2 ^ 32)) % n]?

/-- The target core (R351). -/
def targetOf (s : State) (pc : Word) (widBase : DWord) : Option Nat := (segOf s.l pc).bind fun g => replica s.l g (widBase.toNat / 32)

/-- Names with the lanes that travel, ascending. -/
def carried (s : State) (m : Mask) : List (Nat × VReg) := s.w.regs.map fun r => (r.1, lanesOf fun n => if m.has n then r.2.get n else 0#32)

/-- The cargo of an entry that departs (R350); whether a JMPR `ret` made the entry. It stands in the buffer from the step that
takes its lanes out of the warp. -/
def cargoFor (s : State) (e : Entry) (target : Nat) (ret : Bool) : Cargo :=
  { sender := s.k.id, target := target, pc := e.pc, lanes := e.mask, widBase := s.w.wid.getD 0 0#64, names := carried s e.mask
    returning := ret, winbase := s.w.winbase, seq := 0, launch := s.l.num, cid := s.c.index
    fpmode := s.w.fpmode, fpflags := s.w.fpflags, trapen := s.w.trapen, timerLo := s.w.timerLo, timerCmp := s.w.timerCmp
    timerEn := s.w.timerEn, timerOne := s.w.timerOne, timerPend := s.w.timerPend, waitlim := s.w.waitlim, rbcause := s.w.rbcause
    rbcode := s.w.rbcode, quota := s.w.quota, chipHi := s.w.chipHi, sregs := s.w.sregs
    preds := s.w.preds.map fun p => p &&& e.mask, lnk := s.w.lnk
    warp := s.w.id, placed := false, sysRel := s.w.sysRel, hostSeen := s.w.hostSeen, hostPend := s.w.hostPend, hostGot := s.w.hostGot }

/-- Entries that leave the core, highest rank first. -/
def leaving (s : State) : List Entry :=
  if !s.l.travel || s.w.trapMode then []
  else
    let es := s.w.front.filter fun e => !e.parked && !staysHere s e.pc && (segOf s.l e.pc).isSome
    es.foldl (fun ys x => (ys.takeWhile fun y => ranksAbove s.l y x) ++ x :: ys.dropWhile fun y => ranksAbove s.l y x) []

/-- Lanes of the warp in focus whose cargo for a PC is built and has not left. -/
def boxed (s : State) (pc : Word) : Mask :=
  (s.k.outb.filter fun c => c.warp == s.w.id && !c.placed && c.pc == pc).foldl (fun m c => m ||| c.lanes) 0#32

/-- Build the cargoes of the lanes that leave and are in none yet (R349). -/
def sendOut (s : State) (ret : Bool) : State :=
  (leaving s).foldl (fun s e =>
    let m := e.mask &&& ~~~ boxed s e.pc
    match targetOf s e.pc (s.w.wid.getD 0 0#64) with
    | some t => if m = 0#32 then s else { s with k := { s.k with outb := s.k.outb ++ [cargoFor s { e with mask := m } t ret] } }
    | none => s) s

/-- The new entries depart, or stay; with SOS a departure without room yields the slot (R355). -/
def leave (s : State) (ret sos : Bool) : State :=
  if s.l.travel then
    let t := sendOut s ret
    let waits := t.k.outb.any fun c => c.warp == t.w.id && !c.placed
    { t with sl := { t.sl with passing := t.sl.passing || (sos && waits && decide (64 ≤ outUsed t) && !t.l.det) } }
  else s

/-- A control transfer: the issuing entry gives way to groups of lanes, each with its PC (04 R104). -/
def setFront (s : State) (groups : List (Word × Mask)) (sos : Bool := false) (ret : Bool := false) : Op :=
  let e := s.cur
  let new := (groups.filter fun g => g.2 != 0#32).map fun g => ({ pc := g.1, mask := g.2, src := e.pc } : Entry)
  let front := new.foldl (fun f x => addEntry x f) (s.w.front.erase e)
  if decide (front.length > 8) then raise fcFrontier
  else do
    departCheck s new (s.w.front.erase e)
    let t := { s with w := { s.w with front := front } }
    .ok (if new.all fun e => staysHere s e.pc then t else leave t ret sos)

/-- The whole issuing entry goes on at the word after the group. -/
def advance (p : Px) (s : State) : Op := setFront s [(s.nextPc p, s.cur.mask)] p.sos

/-! How an instruction ends. -/

/-- The group has completed: nothing is kept, the count of instructions advances, a single step ends (16 R399). -/
def finish (s : State) : State :=
  { s with w := { s.w with stall := none, keep := .none, asked := none, icount := s.w.icount + 1, bpSkip := none
                           haltReq := s.w.haltReq || s.w.stepping
                           haltWhy := if s.w.stepping then (4, 0) else s.w.haltWhy, stepping := false, trans := [] } }

/-- A stall that is a switch point of a deterministic launch (12 R335): a blocked queue operation or TLTAKE, a TLSYNC, a barrier,
an ENSURE or RBACCEPT that waits for others. -/
def switches : StallKind → Cond → Bool
  | .queue, .queue _ _ _ | .queue, .hand _ | .operand, .tiles _ | .regroup, _ => true
  | .barrier, .settled | .barrier, .opens => false
  | .barrier, _ => true
  | _, _ => false

/-- A stall on which SOS acts: not a fetch stall, and not the last arrival at a header, which does not wait (04 R120). -/
def yields : StallKind → Cond → Bool
  | .fetch, _ | _, .opens => false
  | _, _ => true

/-- The place of a request in its grant order: it keeps the one that it has. -/
def askedFor (s : State) (cond : Cond) : Option (Nat × Cond) :=
  if cond.ordered then some (match s.w.asked with
    | some a => if a.2.sameTurn cond then (a.1, cond) else (s.stepNo, cond)
    | none => (s.stepNo, cond))
  else s.w.asked

/-- The warp waits. With SOS, and outside deterministic launches, the slot passes on (04 R120 R121). -/
def stallWarp (s : State) (sos : Bool) (kind : StallKind) (cond : Cond) : State :=
  { s with w := { s.w with stall := some ⟨kind, cond⟩, asked := askedFor s cond }
           sl := { s.sl with passing := s.sl.passing || (sos && !s.l.det && yields kind cond) }
           c := { s.c with passing := s.c.passing || (s.l.det && switches kind cond) } }

/-- The warp in focus has asked for such a grant already. -/
def hasAsked (s : State) (cond : Cond) : Bool := s.w.asked.any fun b => b.2.sameTurn cond

/-- A request of a warp began before the one of its kind that the warp in focus has made. -/
def askedBefore (s : State) (v : Warp) (q : Cond → Bool) : Bool :=
  v.asked.any fun a => q a.2 && (!hasAsked s a.2 || s.w.asked.any fun b => decide (a.1 < b.1))

/-! The system fault queue (14 R364, 15 R391 R393). -/

/-- The interface that owns a partition. -/
def State.owner? (s : State) (part : Nat) : Option VIface := s.vis.find? fun v => v.part == some part && v.owner

/-- The window of this package is local memory (11 R294). -/
def localPa (s : State) (pa : Nat) : Nat :=
  let b := 0x1000000000000 + s.fabric.pkg * 0x10000000000
  if b ≤ pa ∧ pa < b + 0x9000000000 then pa - b else pa

def isHostPa (pa : Nat) : Bool := decide (0x8000000000000 ≤ pa)

/-- The fault-queue ring lies where it may: in the partition's device memory or in host memory, on a 4 KiB boundary (15 R391). -/
def fqPlaced (s : State) (part : Nat) (v : VIface) : Bool :=
  let b := v.fqBase.toNat
  let n := 64 * 2 ^ (v.fqCfg.toNat % 32)
  let mine := fun a : Nat => (s.part? part).any fun p => p.granules.contains (localPa s a / 2 ^ 30)
  decide (b % 4096 = 0) && ((isHostPa b && decide (b + n ≤ 2 ^ 52)) || (mine b && mine (b + n - 1)))
/-- Write the records that wait for a partition while there is room. -/
def fqFlush (s : State) : Nat → Nat → State
  | _, 0 => s
  | part, n + 1 =>
    match s.owner? part, s.fqWait.find? fun r => r.1 == part with
    | some v, some r =>
      let size := 2 ^ (v.fqCfg.toNat % 32)
      let used := (v.fqTail - v.fqHead).toNat
      if v.fqCfg.getLsbD 8 && fqPlaced s part v && decide (used < size) then
        fqFlush { s with mem := memPuts s.mem (placed (localPa s v.fqBase.toNat + 64 * (v.fqTail.toNat % size)) r.2)
                         fqWait := s.fqWait.erase r
                         vis := updWhere (fun x => x.id == v.id) (fun x => { x with fqTail := x.fqTail + 1#64 }) s.vis } part n
      else s
    | _, _ => s

/-- The launch number that programs and software see (12 R314). -/
def launchNo (num : Nat) : Nat := num / 16

/-- The 64 bytes of a record (R364). -/
def faultRecord (kind fcode source : Nat) (acc : Access) (token launch : Nat) (wid addr : DWord) (pc : Word) (lanes : Mask)
    (engine time : Nat) : List Byte :=
  let a := acc.rd.toNat + 2 * acc.wr.toNat + 4 * acc.fetch.toNat + 8 * acc.atomic.toNat
  [BitVec.ofNat 8 kind, BitVec.ofNat 8 fcode, BitVec.ofNat 8 source, BitVec.ofNat 8 a] ++ leBytes 4 token
    ++ leBytes 8 (launchNo launch) ++ leBytes 8 wid.toNat ++ leBytes 8 addr.toNat ++ leBytes 4 pc.toNat ++ leBytes 4 lanes.toNat
    ++ leBytes 4 engine ++ leBytes 4 0 ++ leBytes 8 time ++ leBytes 8 0

/-- Queue a record; the token names the fault, which is open from then on (R364 R365). -/
def queueFault (s : State) (part ctx launch kind fcode source : Nat) (acc : Access) (src : FaultSrc) (wid addr : DWord)
    (pc : Word) (lanes : Mask) (engine : Nat) : State :=
  let t := s.nextToken
  let s := { s with nextToken := t + 1
                    faults := s.faults ++ [⟨t, part, ctx, launch, kind, src⟩]
                    fqWait := s.fqWait ++ [(part, faultRecord kind fcode source acc t launch wid addr pc lanes engine s.now)] }
  fqFlush s part s.fqWait.length

/-- WID of the lowest lane of a mask. -/
def widOf (w : Warp) (m : Mask) : DWord := match m.lowest with
  | some l => w.wid.getD l 0#64
  | none => 0#64

/-- The fibre in focus freezes; a record of the kind goes to the fault queue (13 R343, 14 R363 R364). -/
def freezeFault (s : State) (kind code : Nat) (addr : DWord) (pc : Word) (lanes : Mask) (acc : Access := {}) : State :=
  let t := s.nextToken
  let s := queueFault s s.l.part s.l.ctx s.l.num kind code 0 acc (.warp s.w.id) (widOf s.w lanes) addr pc lanes 0
  { s with w := { s.w with frozen := some (.fault t kind) } }

/-! Trap mode. -/

/-- Entering the handler: the trap registers, the frontier set aside with the trapped entry, one entry of every live thread
at the handler's PC, the shadows taken (08 R240, 14 R366). -/
def trapNow (s : State) (t : TrapInfo) (e : Entry) : State :=
  { s with
    w := { s.w with
      trapMode := true
      trapWait := none
      aside := some (s.w.front.erase e, e)
      front := [{ pc := s.l.handlerPc, mask := s.w.holds, src := t.blame }]
      trapCause := BitVec.ofNat 16 (t.detail % 256 * 256 + t.cause)
      trapPc := t.pc &&& 0xFFFFFFFC#32
      trapBlame := t.blame
      trapAddr := t.addr
      trapLanes := t.lanes
      stall := none, keep := .none, asked := none }
    sl := { s.sl with holder := some s.w.id } }

/-- The trapped entry (14 R366): the one that the trap instruction issued from, which a SLEEPU has moved on to its TRAPPC (06 R174);
otherwise the one that issues next, and where all entries are parked or leave the core, the highest-ranked. -/
def trapped (s : State) (t : TrapInfo) : Entry :=
  match (if t.cause = 3 then s.w.front.find? fun e => e.pc == t.pc && !e.parked else none) with
  | some e => e
  | none => match topEntry s.l (s.w.front.filter fun e => !e.parked && staysHere s e.pc) with
    | some e => e
    | none => (topEntry s.l s.w.front).getD { pc := t.pc, mask := 0#32 }
/-- A trap: taken at once, or held until the slot's shadows are free (01 R24, 13 R342 R343). -/
def trapEnter (s : State) (t : TrapInfo) : State :=
  if s.sl.holder.isSome && s.sl.holder != some s.w.id || s.w.halted || s.w.haltReq then
    { s with w := { s.w with trapWait := some t, stall := none }
             sl := { s.sl with passing := s.sl.passing || s.sl.cur == s.w.fibre } }
  else trapNow s t (trapped s t)

/-- Zero the shadows of the slot in focus and give them up (08 R241). -/
def dropShadows (s : State) : State :=
  if s.sl.holder == some s.w.id then
    { s with sl := { s.sl with holder := none, shadow := List.replicate 8 (List.replicate 32 0#32) } }
  else s

/-- TRET: the frontier set aside comes back with the trapped entry at TRAPPC, without the threads that ended (R241). -/
def trapReturn (s : State) : State :=
  match s.w.aside with
  | none => s
  | some (es, e) =>
    let live := ((({ e with pc := s.w.trapPc, src := s.cur.pc } : Entry) :: es).map fun x =>
      { x with mask := x.mask &&& s.w.holds, rbLanes := x.rbLanes &&& s.w.holds }).filter fun x => x.mask != 0#32
    dropShadows { s with w := { s.w with trapMode := false, aside := none
                                         front := live.foldl (fun f x => addEntry x f) [] } }

/-! Failure of a level and delivery of faults. -/

/-- Mark the failure of the level at a depth of the cohort in focus; its rollback is a step of its own (08 R226).
A level that has failed does not fail again; an enclosing level's failure takes the place of an inner one's. A member of a
conversation tells the home (09 R268 R269 R270). -/
def failAt (s : State) (depth cause fcode abort : Nat) : State :=
  let mark := fun s : State => match s.c.failing with
    | some f => if depth < f.depth then { s with c := { s.c with failing := some ⟨depth, cause, fcode, abort⟩ } } else s
    | none => { s with c := { s.c with failing := some ⟨depth, cause, fcode, abort⟩ } }
  match s.c.conv with
  | some v =>
    if depth ≤ v.depth && cause != 5 && (v.own.isNone || v.rolled) then
      let s := { s with c := { s.c with conv := some { v with own := v.own.orElse fun _ => some (cause, fcode, abort) } } }
      if v.voted == some false then mark s
      else
        let s := { s with convMsgs := s.convMsgs ++ [.fail s.c.id v.pa v.member] }
        -- R269: after a true vote the member waits for the home's reply
        if v.voted == some true && depth == v.depth then s else mark s
    else mark s
  | none => mark s

/-- The depth of nesting that the warp in focus sees: none for a handler warp (08 R233). -/
def State.depth (s : State) : Nat := if s.w.handler then 0 else s.c.levels.length

/-- Deliver a fault with a code below 0xE0 on the first path that applies, orders 2 to 5 (14 R363). -/
def deliverAt (s : State) (pc : Word) (code : Nat) (addr : DWord) (lanes : Mask) (acc : Access := {}) : State :=
  if s.depth ≠ 0 then failAt s s.depth 3 code 0
  else if s.w.trapMode then freezeFault s 5 code addr pc lanes acc
  else if s.l.handlerPc ≠ 0#32 then trapEnter s ⟨1, code, pc, pc, addr, lanes⟩
  else freezeFault s 4 code addr pc lanes acc
/-- Deliver a fault of the group at the issuing entry. -/
def deliver (s : State) (code : Nat) (addr : DWord) (lanes : Option Mask) (acc : Access := {}) : State :=
  deliverAt s s.cur.pc code addr (lanes.getD s.cur.mask) acc

/-- Run a meaning: a fault, a stall and a failure act on the state as it stood before the group (R362). -/
def run (p : Px) (s : State) (r : Op) : Out :=
  match r with
  | .ok t => .next (finish t)
  | .error (.fault code addr lanes acc) => .next (deliver s code addr lanes acc)
  | .error (.stall kind cond) => .next (stallWarp s p.sos kind cond)
  | .error (.stallAt t kind cond) => .next (stallWarp t p.sos kind cond)
  | .error (.stallSide ps ls kind cond) =>
    .next (stallWarp { s with probes := ps, fabric := { s.fabric with lost := ls } } p.sos kind cond)
  | .error (.fail cause abort) => .next (failAt s s.depth cause 0 abort)
  | .error (.failIn t cause) => .next (failAt t t.depth cause 0 0)

/-- Run a meaning after which the issuing entry goes on at the next word. -/
def runNext (p : Px) (s : State) (r : Op) : Out := run p s (r >>= advance p)

/-! Lanes. -/

/-- The lanes that the guard lets pass (03 R65). -/
def guardMask (s : State) (p : Px) (g : BitVec 2) : Mask :=
  if g = 1#2 then s.w.preds.getD 0 0#32
  else if g = 2#2 then ~~~ (s.w.preds.getD 0 0#32)
  else if g = 3#2 then
    match p.guard with
    | some (n, neg) => if neg then ~~~ (s.w.preds.getD n.toNat 0#32) else s.w.preds.getD n.toNat 0#32
    | none => 0#32
  else 0xFFFFFFFF#32

/-- The guard of an A-format instruction, which only a GUARD word gives (R65). -/
def guardMaskA (s : State) (p : Px) : Mask := if p.guard.isSome then guardMask s p 3#2 else 0xFFFFFFFF#32

/-- The lanes of the issuing entry that hold a thread. -/
def State.lanes (s : State) : Mask := s.cur.mask &&& s.w.holds

/-- The active lanes of an instruction (04 R85). -/
def State.active (s : State) (p : Px) (g : BitVec 2) : Mask := s.lanes &&& guardMask s p g

end Sys2Proof.Machine
end

