-- ==== Sys2Proof/Machine/Regs.lean ====
section
/-! DEFINITION. The husk's log of first writes, and the registers of a warp (01 R12 to R24, 09 R251 to R254). -/

namespace Sys2Proof.Machine

/-! The log. -/

/-- Bytes of an entry in the husk (09 R252). -/
def LogEntry.size : LogEntry → Nat
  | .lnk _ _ => 136
  | .gln _ _ _ => 136
  | .took _ _ => 0
  | .gave _ _ => 0
  | _ => 8

/-- Two entries are about the same piece of state (R253). -/
def LogEntry.same : LogEntry → LogEntry → Bool
  | .reg w n _, .reg v m _ => w == v && n == m
  | .lnk w _, .lnk v _ => w == v
  | .uni w i _, .uni v j _ => w == v && i == j
  | .pred w i _, .pred v j _ => w == v && i == j
  | .csr w i _, .csr v j _ => w == v && i == j
  | .hmap w i _, .hmap v j _ => w == v && i == j
  | .qbind w i _, .qbind v j _ => w == v && i == j
  | .shw o _, .shw p _ => o == p
  | .gln _ p _, .gln _ q _ => p == q
  | _, _ => false

/-- Bytes of a level that stand on chip (false) or in the overflow region (true). -/
def Level.bytesIn (v : Level) (ovf : Bool) : Nat :=
  (if v.headOver == ovf then 32 else 0)
    + ((v.log.zipIdx.filter fun t => v.overs.getD t.2 false == ovf).map fun t => t.1.size).sum

/-- On-chip husk bytes that the cohorts of a core use (R251). -/
def huskUsed (s : State) (core : Nat) : Nat :=
  ((s.allCohorts.filter fun c => c.core == core && c.resident).map fun c => (c.levels.map fun v => v.bytesIn false).sum).sum

/-- Registers that levels of cohorts pin for warps (R253). -/
def pinCount (cs : List Cohort) (ws : List Nat) : Nat :=
  (cs.map fun c => (c.levels.map fun v =>
    (v.log.filter fun e => match e with
      | .reg w _ (some _) => ws.contains w
      | _ => false).length).sum).sum

/-- The warps of a launch in one slot of a saved unit, and the slots. -/
def slotWarps (v : Saved) (q t : Nat) : List Nat := (v.warps.filter fun w => w.quarter == q && w.slot == t).map (·.id)
def savedSlots (v : Saved) (l : Launch) : List (Nat × Nat) :=
  ((v.warps.filter fun w => v.cohorts.any fun c => c.id == w.cid && c.launch == l.num).map fun w => (w.quarter, w.slot)).dedup

/-- Chunks that the pins of one slot of a saved unit take beyond 128 (14 R373); none where the chunks fell short. -/
def pinChunks (v : Saved) (t : Nat × Nat) : Nat := ceilDiv (pinCount v.cohorts (slotWarps v t.1 t.2) - 128) 8

/-- The levels of a slot's cohorts that fail at resume, because no chunk was free for its pins. -/
def shortSlot (v : Saved) (t : Nat × Nat) : Bool := v.short.any fun x => x.1 == t

def savedChunks (v : Saved) (l : Launch) : Nat :=
  (((savedSlots v l).filter fun t => !shortSlot v t).map (pinChunks v)).sum

/-- Chunks of a launch's overflow region in use: those of open levels, resident or saved, the pins of saved slots, and a launch
level of so many entries (09 R251 R271). -/
def chunksUsed (s : State) (l : Launch) (entries : Nat) : Nat :=
  let saved := (s.ctxs.filter fun c => c.num == l.ctx).flatMap (·.saved)
  let cs := (s.allCohorts ++ saved.flatMap (·.cohorts)).filter fun c => c.launch == l.num
  ((cs.flatMap (·.levels)).map (·.chunks)).sum + (saved.map fun v => savedChunks v l).sum + ceilDiv (136 * entries) 1024

/-- The launch level has room for one more entry. -/
def checkRoom (s : State) (l : Launch) : Bool := decide (chunksUsed s l (l.checkLog.length + 1) ≤ l.huskKib)

/-- Where n bytes of a level of the cohort in focus go: on chip, into a chunk that the level holds, or into a further one; none when
the husk is full (R251 R254). -/
def huskPlace (s : State) (v : Level) (n : Nat) : Option (Bool × Nat) :=
  if huskUsed s s.k.id + n ≤ 65536 then some (false, 0)
  else if v.bytesIn true + n ≤ 1024 * v.chunks then some (true, 0)
  else if chunksUsed s s.l s.l.checkLog.length < s.l.huskKib then some (true, 1)
  else none

/-- Registers of a quarter that husk entries pin (R253). -/
def pinsIn (s : State) (core quarter : Nat) : Nat :=
  pinCount (s.allCohorts.filter fun c => c.core == core) ((s.allWarps.filter fun w => w.core == core && w.quarter == quarter).map (·.id))

/-- The registers that resident warps of a quarter reserve (01 R16). -/
def reservedIn (s : State) (core quarter : Nat) : Nat :=
  ((s.allWarps.filter fun w => w.core == core && w.quarter == quarter).map (·.quota)).sum

/-- The quarter's free pool (04 R117). -/
def freePool (s : State) : Nat :=
  992 - reservedIn s s.w.core s.w.quarter - pinsIn s s.w.core s.w.quarter

/-- A name lies in the slot's shared band (01 R23). -/
def inBand (s : State) (a : Nat) : Bool := decide (448 ≤ a) && s.sl.band.getLsbD ((a - 448) / 8)

/-- Two warps are fibres of one slot whose shared band holds the name. -/
def sameBand (s : State) (u v name : Nat) : Bool :=
  decide (448 ≤ name) && (s.warp? u).any fun a => (s.warp? v).any fun b =>
    a.core == b.core && a.quarter == b.quarter && a.slot == b.slot
      && s.allSlots.any fun t => sameSlot a t && t.band.getLsbD ((name - 448) / 8)

/-- A level has an entry for the same state (R253); a name of the shared band is one piece of state for all fibres of the slot. -/
def logged (s : State) (v : Level) (e : LogEntry) : Bool :=
  v.log.any fun x => x.same e || (match x, e with
    | .reg w n _, .reg u m _ => n == m && sameBand s w u n
    | _, _ => false)

/-- Append an entry to a level of the cohort, 0 the innermost, unless it has one for the same state. A husk that is full fails the
level with cause 4 (09 R253 R254). -/
def logInto (s : State) (i : Nat) (e : LogEntry) : Op :=
  match s.c.levels[i]? with
  | none => .ok s
  | some v =>
    if logged s v e then .ok s
    else match huskPlace s v e.size with
      | none => .error (.fail 4 0)
      | some (ovf, n) =>
        if (match e with | .reg _ _ (some _) => decide (freePool s = 0) | _ => false) then .error (.fail 4 0)
        else
          let v := { v with log := v.log ++ [e], overs := v.overs ++ [ovf], chunks := v.chunks + n }
          .ok { s with c := { s.c with levels := s.c.levels.set i v } }

/-- Append an entry to the current level. -/
def logEntry (s : State) (e : LogEntry) : Op := if s.depth = 0 then .ok s else logInto s 0 e

/-! Vector registers. -/

/-- The value in the lowest lane of a mask. -/
def wordAtLowest (m : Mask) (v : VReg) : Word := match m.lowest with
  | some l => v.get l
  | none => 0#32

def zeros : VReg := List.replicate 32 0#32

/-- The absolute name of a window code (01 R12). -/
def absName (s : State) (n : Nat) : Nat := s.w.winbase * 32 + n

/-- A window code that names a trap shadow (R24). -/
def isShadow (s : State) (n : Nat) : Bool := s.w.trapMode && decide (88 ≤ n) && decide (n < 96)

/-- The binding of an absolute name. -/
def boundReg (s : State) (a : Nat) : Option VReg := if inBand s a then assoc a s.sl.bandRegs else assoc a s.w.regs

/-- Read a window register: an unbound name reads 0 (R14). -/
def readV (s : State) (n : Nat) : VReg :=
  if isShadow s n then s.sl.shadow.getD (n - 88) zeros else (boundReg s (absName s n)).getD zeros

/-- The lanes of a mask take the new value, the others keep the old. -/
def mergeLanes (m : Mask) (old new : VReg) : VReg := lanesOf fun l => if m.has l then new.get l else old.get l

/-- Bind an absolute name to a value. -/
def bindReg (s : State) (a : Nat) (v : VReg) : State :=
  if inBand s a then { s with sl := { s.sl with bandRegs := assocPut a v s.sl.bandRegs } }
  else { s with w := { s.w with regs := assocPut a v s.w.regs } }

/-- Remove the binding of an absolute name. -/
def unbindReg (s : State) (a : Nat) : State :=
  if inBand s a then { s with sl := { s.sl with bandRegs := assocDel a s.sl.bandRegs } }
  else { s with w := { s.w with regs := assocDel a s.w.regs } }

/-- The quota that a first write of a name must respect: for a band name that of the lowest-numbered fibre (R17 R23). -/
def quotaFull (s : State) (a : Nat) : Bool :=
  if inBand s a then
    match (s.allWarps.filter fun v => v.core == s.w.core && v.quarter == s.w.quarter && v.slot == s.w.slot && v.holds != 0#32).find?
        (fun v => s.lowestFibre v) with
    | some v => decide (v.quota ≤ v.regs.length + s.sl.bandRegs.length)
    | none => true
  else decide (s.w.quota ≤ s.boundCount)

/-- Write a window register in the lanes of a mask. Without a lane nothing happens (04 R85); a first write needs quota
(01 R17). -/
def writeV (s : State) (n : Nat) (m : Mask) (v : VReg) : Op :=
  if m = 0#32 then .ok s
  else if isShadow s n then
    .ok { s with sl := { s.sl with shadow := s.sl.shadow.set (n - 88) (mergeLanes m (s.sl.shadow.getD (n - 88) zeros) v) } }
  else
    let a := absName s n
    let old := boundReg s a
    if old.isNone && quotaFull s a then raise fcRegQuota
    else do
      let t ← logEntry s (.reg s.w.id a old)
      .ok (bindReg t a (mergeLanes m (old.getD zeros) v))

/-- Kill a window name: it becomes unbound, with a log entry; band names and shadows are not killed (R15). -/
def killV (s : State) (n : Nat) : Op :=
  let a := absName s n
  if isShadow s n || inBand s a || (boundReg s a).isNone then .ok s
  else do
    let t ← logEntry s (.reg s.w.id a (boundReg s a))
    .ok (unbindReg t a)

/-! The old values of atomics that wait at their homes (09 R442). -/

/-- The registers that an operand of n words names. -/
def awaitOf (s : State) (o : Opnd) (n : Nat) : List Await :=
  match o with
  | .v i => (List.range n).map fun j => if isShadow s (i.val + j) then .shadow (i.val + j - 88) else .reg (absName s (i.val + j))
  | .s i => (List.range n).map fun j => .uni (i.val + j)
  | .lnk => [.lnk]
  | _ => []

/-- The registers, as the warp in focus sees them, to which an old value is still to come: its own, and those that its slot's fibres
share. -/
def awaited (s : State) : List Await :=
  s.held.flatMap fun h =>
    if h.warp == s.w.id then h.dest
    else h.dest.filter fun r => match r with
      | .reg n => sameBand s s.w.id h.warp n
      | _ => false

/-- A word comes to one lane of a register of a warp and its slot; a name that is bound no longer takes nothing. -/
def Await.put (r : Await) (l : Nat) (x : Word) (p : Warp × Slot) : Warp × Slot :=
  let set := fun v : VReg => lanesOf fun j => if j = l then x else v.get j
  match r with
  | .reg n =>
    if 448 ≤ n && p.2.band.getLsbD ((n - 448) / 8) then
      (p.1, match assoc n p.2.bandRegs with
        | some v => { p.2 with bandRegs := assocPut n (set v) p.2.bandRegs }
        | none => p.2)
    else match assoc n p.1.regs with
      | some v => ({ p.1 with regs := assocPut n (set v) p.1.regs }, p.2)
      | none => p
  | .shadow i => (p.1, { p.2 with shadow := p.2.shadow.modify i set })
  | .uni i => ({ p.1 with sregs := p.1.sregs.set i x }, p.2)
  | .lnk => ({ p.1 with lnk := set p.1.lnk }, p.2)

/-- The old values of some lanes come to the registers, low word first. -/
def deliverOld (dest : List Await) (olds : List (Nat × Nat)) (p : Warp × Slot) : Warp × Slot :=
  olds.foldl (fun p o => dest.zipIdx.foldl (fun p d => d.1.put o.1 (BitVec.ofNat 32 (o.2 / 2 ^ (32 * d.2))) p) p) p

/-! Uniform registers, predicates, lnk. -/

def readS (s : State) (i : Nat) : Word := s.w.sregs.getD i 0#32

def writeS (s : State) (i : Nat) (x : Word) : Op := do
  let t ← logEntry s (.uni s.w.id i (readS s i))
  .ok { t with w := { t.w with sregs := t.w.sregs.set i x } }

def readP (s : State) (i : Nat) : Mask := s.w.preds.getD i 0#32

/-- Predicate i takes new bits in the lanes of a mask. -/
def writeP (s : State) (i : Nat) (m v : Mask) : Op :=
  if m = 0#32 then .ok s
  else do
    let t ← logEntry s (.pred s.w.id i (readP s i))
    .ok { t with w := { t.w with preds := t.w.preds.set i ((readP s i &&& ~~~ m) ||| (v &&& m)) } }

def writeLnk (s : State) (m : Mask) (v : VReg) : Op :=
  if m = 0#32 then .ok s
  else do
    let t ← logEntry s (.lnk s.w.id s.w.lnk)
    .ok { t with w := { t.w with lnk := mergeLanes m s.w.lnk v } }

/-- A uniform pair s[2k]:s[2k+1], low half first (01 R19). -/
def readSPair (s : State) (i : Nat) : DWord := readS s (i + 1) ++ readS s i

end Sys2Proof.Machine
end

