-- ==== Sys2Proof/Machine/Access.lean ====
section
/-! DEFINITION. Accesses to global and to shared memory: translation, homes, claims, leases and L1 copies, stash lines, held
writes (06 R158 R159 R181, 09 R253 to R256 R440 to R442, 11 R288 to R301). -/

namespace Sys2Proof.Machine

/-- Bits [63:57] equal bit 56 (01 R32). -/
def canonVa (va : DWord) : Bool := let t := va.toNat / 2 ^ 56; t == 0 || t == 255

/-- The n bytes from an address upward are canonical. -/
def canonRange (va : DWord) (n : Nat) : Bool := canonVa va && canonVa (va + BitVec.ofNat 64 (n - 1))

/-- A TLB entry serves an access. -/
def TlbEntry.serves (e : TlbEntry) (ctx : Nat) (va : Nat) (acc : Access) : Bool :=
  e.ctx == ctx && decide (e.va ≤ va) && decide (va < e.va + e.size) && (!acc.wr || e.w) && (!(acc.rd || acc.fetch || acc.atomic) || e.r)
    && (!acc.atomic || e.w) && (!acc.fetch || !e.xd)

/-- The launch's husk overflow region, which no access reaches (09 R251). -/
def inHuskRegion (l : Launch) (va : DWord) : Bool :=
  decide (l.huskBase.toNat ≤ va.toNat) && decide (va.toNat < l.huskBase.toNat + 1024 * l.huskKib)

/-- The physical address and the page attribute of an address, when the core's TLB, or the waiting transfer of the warp, holds its
page. -/
def transl (s : State) (va : DWord) (acc : Access) : Option (Nat × Nat) :=
  if inHuskRegion s.l va then none
  else match (s.k.tlb ++ s.w.trans).find? fun e => e.serves s.l.ctx va.toNat acc with
  | some e => some (e.pa + (va.toNat - e.va), e.attr)
  | none => none

/-- The package whose memory a physical address names, when it is another one. -/
def remotePkg (pa : Nat) : Option Nat :=
  if 0x1000000000000 ≤ pa ∧ pa < 0x8000000000000 then some ((pa - 0x1000000000000) / 0x10000000000) else none

/-- A request reaches every line: a route leads to each package that holds one (15 R388). -/
def routed (s : State) (lines : List Nat) : Bool :=
  lines.all fun n => (remotePkg (128 * n)).all fun p => s.fabric.routes.getD p 0 != 0

/-- The index of a line within the memory that it lies in: the package's, another's (11 R299), the host's (09 R440). -/
def lineNo (line : Nat) : Nat :=
  let pa := line * 128
  let pa := if isHostPa pa then pa - 0x8000000000000 else if (remotePkg pa).isSome then (pa - 0x1000000000000) % 0x10000000000 else pa
  pa / 128 % 2 ^ 33
/-- The home slice of a line of local memory, numbered within the package (11 R298); of a guest line the proxy slice (R299). -/
def sliceOf (line : Nat) : Nat :=
  let n := lineNo line
  let h := n / 12
  48 * (n % 12 / 3) + (Nat.xor (Nat.xor h (h / 64)) (h / 4096)) % 48
/-- The channel of a local line's stack (R298). -/
def channelOf (line : Nat) : Nat := (line % 2 ^ 33 / 12) % 192
/-- The slice at a line's true home, told apart by package: a claim on a line of another package is held there (09 R255). -/
def homeSlice (line : Nat) : Nat := match remotePkg (128 * line) with
  | some p => 192 * (p + 1) + sliceOf line
  | none => sliceOf line

/-! Claims. -/

/-- The cohort is a member of a claim: it holds it, or shares its conversation (09 R256, 10 R285). -/
def Claim.memberOf (x : Claim) (c : Cohort) : Bool :=
  x.cid == c.id || (match x.conv, c.conv with
    | some p, some v => p == v.pa
    | _, _ => false)

/-- A claim of others stands on the line. -/
def claimedByOther (s : State) (line : Nat) : Bool := s.claims.any fun x => x.line == line && !x.memberOf s.c

/-- The engines and tile transfers that wait at homes: the place of each in the order of arrival, its lines. -/
def engineQueues (s : State) : List (Nat × List Nat) :=
  (s.clusters.flatMap fun c => c.chans.flatMap fun h => h.cmds.filterMap (·.queued))
    ++ (s.allCores.flatMap fun k => k.seq.filterMap (·.queued)) ++ s.dies.flatMap fun d => d.thr.cmds.filterMap (·.queued)
/-- The places of the writes that wait at the home of a line (R256 R259). -/
def lineWaiters (s : State) (line : Nat) : List Nat :=
  ((s.held.filter fun h => h.line == line).map (·.id))
    ++ ((s.hostWait.filter fun h => decide (h.pa / 128 ≤ line) && decide (128 * line < h.pa + h.bytes.length)).map (·.id))
    ++ ((engineQueues s).filter fun q => q.2.contains line).map (·.1)
/-- A write of another agent came to the line before; a write with no place yet comes after all that wait. -/
def behindOthers (s : State) (line : Nat) (place : Option Nat) : Bool :=
  (lineWaiters s line).any fun n => place.all fun m => decide (n < m)
/-- A write to the line waits at its home: a claim of others stands on it, or earlier writes wait there and no claim of its own lets
it pass (R256 R259). -/
def mustWait (s : State) (line : Nat) : Bool :=
  claimedByOther s line || (behindOthers s line none && !(s.claims.any fun x => x.line == line && x.memberOf s.c))
/-- A cohort, resident or saved, is not a member of some claim on a line. -/
def claimedAgainst (s : State) (line cid : Nat) : Bool :=
  match s.anyCohort cid with
  | some c => s.claims.any fun x => x.line == line && !x.memberOf c
  | none => s.claims.any fun x => x.line == line && x.cid != cid
/-- Place a claim for the cohort in focus; a home slice holds 2,048 (R255). -/
def placeClaim (s : State) (line : Nat) : Op :=
  if s.claims.any (fun x => x.line == line && x.cid == s.c.id) then .ok s
  else if decide ((s.claims.filter fun x => homeSlice x.line == homeSlice line).length ≥ 2048) then .error (.fail 4 0)
  else .ok { s with claims := s.claims ++ [⟨line, s.l.num, s.c.id, s.c.conv.map (·.pa)⟩] }

/-! Stash lines and the value at the home. -/

/-- The shared memory of a cohort holds the current bytes of a stashed line: the owner (11 R301). -/
def stashOwner (s : State) (line : Nat) : Option Nat := assoc line s.stashOwners

/-- The byte that a device agent reads at the home: forwarded from the stash owner when there is one (R301). -/
def homeByte (s : State) (pa : Nat) : Byte :=
  match stashOwner s (pa / 128) with
  | none => memGet s.mem pa
  | some cid => match s.cohort? cid with
    | none => memGet s.mem pa
    | some c => match c.stash.find? fun t => t.pa == pa / 128 * 128 with
      | some t => memGet c.shared (128 * t.line + pa % 128)
      | none => memGet s.mem pa

/-! The debug window (16 R396). -/

/-- The partition and the window offset that a physical address names, when it lies in a debug window. -/
def windowOf (s : State) (pa : Nat) : Option (Nat × Nat) :=
  (s.parts.find? fun p => p.debugWin.any fun g => decide (g * 2 ^ 30 ≤ pa) && decide (pa < (g + 1) * 2 ^ 30)).map
    fun p => (p.id, pa % 2 ^ 30)

/-- Ordinary memory of the window: the buffer area. -/
def inBuffer (off : Nat) : Bool := decide (0x20000000 ≤ off) && decide (off < 0x40000000)

/-- An address whose accesses the window serves in its own way. -/
def windowSpecial (s : State) (pa : Nat) : Bool := match windowOf s pa with
  | some (_, off) => !inBuffer off
  | none => false

/-- What every access but an aligned LDG reads at an address, and the bytes that every one but an aligned STG may write: a window answers
0 and discards. -/
def engineByte (s : State) (pa : Nat) : Byte := if windowSpecial s pa then 0#8 else homeByte s pa
def engineBytes (s : State) (bs : List (Nat × Byte)) : List (Nat × Byte) := bs.filter fun b => !windowSpecial s b.1

def homeLine (s : State) (line : Nat) : List Byte := (List.range 128).map fun i => homeByte s (128 * line + i)

/-- Write a stash line of a cohort back to its home; it stays stashed and clean. -/
def writeBack (s : State) (c : Cohort) (t : StashLine) : State :=
  if t.dirty then
    { (s.mapCohort c.id fun d => { d with stash := updWhere (fun x => x.pa == t.pa) (fun x => { x with dirty := false }) d.stash }) with
      mem := memPuts s.mem (placed t.pa (memGets c.shared (128 * t.line) 128)) }
  else s

/-- The owner gives a stash line up: written back if dirty, and absent from then on (R301). -/
def recallLine (s : State) (line : Nat) : State :=
  match stashOwner s line with
  | none => s
  | some cid => match s.cohort? cid with
    | none => { s with stashOwners := assocDel line s.stashOwners }
    | some c => match c.stash.find? fun t => t.pa == 128 * line with
      | none => { s with stashOwners := assocDel line s.stashOwners }
      | some t =>
        let s := writeBack s c t
        { (s.mapCohort cid fun d => { d with stash := d.stash.filter fun x => x.pa != t.pa }) with
          stashOwners := assocDel line s.stashOwners }

/-- Write back every dirty stash line of the cohort in focus (10 R284). -/
def writeBackAll (s : State) : State := s.c.stash.foldl (fun s t => writeBack s s.c t) s

/-! The directory of caching agents. -/

def regionOf (s : State) (line : Nat) : Option Region :=
  s.dir.find? fun r => decide (r.base ≤ 128 * line) && decide (128 * line < r.base + r.size)

def biasOf (s : State) (page : Nat) : Bias := (assoc page s.bias).getD .dev
/-- The agents that hold a line of a region: the host holds none of a page in DEV, whatever its region says (11 R307). -/
def holders (s : State) (r : Region) (line : Nat) : List Nat := r.vec.filter fun a => a != 64 || biasOf s (line / 32) != .dev
/-- Agents that must give way before a device access at the home (11 R303 R307). -/
def agentsAgainst (s : State) (line : Nat) (wr : Bool) : List Nat :=
  match regionOf s line with
  | none => []
  | some r => if wr || r.st == .e then holders s r line else []

/-- Ask them with probes, one for each (R303). -/
def askAgents (s : State) (line : Nat) (wr : Bool) : State :=
  (agentsAgainst s line wr).foldl (fun s a =>
    if s.probes.any (fun p => p.agent == a && p.line == line) then s
    else { s with probes := s.probes ++ [{ agent := a, line := line, inval := wr }] }) s

/-- What stands in the way of device reads (false) and writes (true) of lines: the state after the agents of the first such line have
been asked. -/
def askFor (s : State) (ls : List (Nat × Bool)) : Option State :=
  (ls.find? fun t => !(agentsAgainst s t.1 t.2).isEmpty).map fun t => askAgents s t.1 t.2
/-- Asking sends a probe that was not under way. -/
def asksMore (s u : State) : Bool := decide (u.probes.length ≠ s.probes.length)
/-- A device access to the lines may go on: routes reach them, no agent, no foreign stash (for writes) stands against it. -/
def linesReady (s : State) (lines : List Nat) (wr : Bool) : Except Exc Unit :=
  match lines.find? (fun n => match remotePkg (128 * n) with
      | some p => s.fabric.routes.getD p 0 == 0
      | none => false) with
  | some n =>
    let p := (remotePkg (128 * n)).getD 0
    .error (.stallSide s.probes ((s.fabric.lost.filter fun t => t.1 != s.w.id) ++ [(s.w.id, p, s.now)]) .memory (.route p))
  | none =>
    match lines.find? fun n => !(agentsAgainst s n wr).isEmpty with
    | some n => .error (.stallSide (askAgents s n wr).probes s.fabric.lost .memory (.agents n wr))
    | none =>
      match lines.find? fun n => wr && (match stashOwner s n with
          | some cid => cid != s.c.id
          | none => false) with
      | some n => .error (.stall .memory (.unstashed n))
      | none => .ok ()

/-! Leases and L1 copies (11 R295 R296). -/

/-- The largest clock of the cores, plus 16: what the fill of a line that L2 has given up takes (R300). The cores of every die count, since
each of them may hold a lease of the line: DEDUCED, log 54. -/
def fillTime (s : State) : Nat := (s.allCores.map (·.pts)).foldl max 0 + 16
/-- The partition that a line is tagged with: the holder of its granule; for a line of other memory, that of the launch in focus (R298). -/
def linePart (s : State) (line : Nat) : Nat :=
  match (if 128 * line < 0x9000000000 then s.parts.find? fun p => p.granules.contains (128 * line / 2 ^ 30) else none) with
  | some p => p.id
  | none => s.l.part
def leaseOf (s : State) (line : Nat) : Lease :=
  match s.leases.find? fun x => x.line == line with
  | some x => x
  | none => if s.gone.contains line then ⟨line, fillTime s, fillTime s, linePart s line⟩ else ⟨line, 0, 0, linePart s line⟩
/-- The set of its slice that a line falls into: the slice's 8,192 lines stand in 16 ways (R298). DESIGN CHOICE, log 59: the manual
gives no index. -/
def l2Set (line : Nat) : Nat × Nat := (sliceOf line, lineNo line / 576 % 512)
/-- The ways of a set that a partition's lines may take (15 R394). -/
def waysOf (s : State) (part : Nat) : Nat := max 1 (((s.part? part).map (·.l2ways)).getD 16)
/-- A line's entry at its home takes new times; a set whose ways for the partition are full gives one of its lines up. -/
def setLease (s : State) (line wts rts : Nat) : State :=
  let new : Lease := ⟨line, wts, rts, linePart s line⟩
  let others := s.leases.filter fun x => x.line != line
  let same := others.filter fun x => l2Set x.line == l2Set line && x.part == new.part
  let s := { s with gone := s.gone.filter (· != line), clock := max s.clock wts }
  if same.length < waysOf s new.part then { s with leases := new :: others }
  else
    let v := same.getD (Config.victim s.fresh % same.length) new
    { s with leases := new :: others.erase v, gone := v.line :: s.gone, fresh := s.fresh + 1 }
/-- L2 gives a line up: its home has lost its timestamps, and a fill takes others (11 R300). -/
def l2Evict (s : State) (line : Nat) : State :=
  if s.leases.any fun x => x.line == line then
    { s with leases := s.leases.filter fun x => x.line != line, gone := line :: s.gone.filter (· != line) }
  else s
/-- The page attribute and the policy keep a copy of the line in L2 (R293): none of a UC page, none that a store with NT leaves. -/
def inL2 (attr policy : Nat) (store : Bool) : Bool := attr != 2 && !(store && policy == 4)

/-- The latest place among accesses. -/
def latest (xs : List Touch) : Nat := xs.foldl (fun n x => max n x.seq) 0
/-- The place up to which an acquire of these host writes orders the host's accesses. -/
def given (xs : List Touch) : Nat := xs.foldl (fun n x => max n (max x.seq x.gives)) 0
/-- A number that grows with every write of a line, the host's too: what a WAITA watches (R296). -/
def lineStamp (s : State) (line : Nat) : Nat := (leaseOf s line).wts + given (s.hostWrote.filter fun x => x.line == line)

/-- The core in focus has met an agent that everything performed so far precedes (10 R279 R280): its clock follows. -/
def catchUp (s : State) : State := { s with k := { s.k with pts := max s.k.pts s.clock } }
/-- Every L1 copy of the core is marked expired (R296, SYS acquire). -/
def expireL1 (s : State) : State := { s with k := { s.k with l1 := [] } }
/-! Races (10 R286 R287): from the first one on, the launch's results have no bounds, and free steps show it. -/
/-- The launch in focus has met a race. -/
def markRace (s : State) (race : Bool) : State := if race then { s with l := { s.l with raced := true } } else s
/-- A launch out of focus has met one. -/
def markRaceOf (s : State) (launch : Nat) (race : Bool) : State :=
  if race then s.mapLaunch launch fun l => { l with raced := true } else s
/-- Case 1: a read of lines that claims of others stand on. -/
def raceRead (s : State) (lines : List Nat) : State := markRace s (lines.any fun n => claimedByOther s n)
/-- The byte lies in a conversation object that a member has joined. -/
def inConv (s : State) (pa : Nat) : Bool := s.convs.any fun v => decide (v.pa ≤ pa) && decide (pa < v.pa + 64)
/-- Case 3: a plain write there. -/
def raceConv (s : State) (pas : List Nat) : State := markRace s (pas.any (inConv s))
/-- The address lies in a continuation queue of a launch of a context that has not ended: a plain write there is a race (12 R317). -/
def contQueueOf (s : State) (ctx : Nat) (va : DWord) : Bool :=
  s.allLaunches.any fun l => l.ctx == ctx && decide (l.cqBase.toNat ≤ va.toNat)
    && decide (va.toNat < l.cqBase.toNat + l.cqCnt * (64 + 32 * 2 ^ l.cqLog))
def inContQueue (s : State) (va : DWord) : Bool := contQueueOf s s.l.ctx va
/-- The distinct lines of physical addresses, in order of first appearance. -/
def linesOf (pas : List Nat) : List Nat := (pas.map (· / 128)).reverse.dedup.reverse
/-- The bytes of a line among addresses, a bit for each. -/
def byteBits (line : Nat) (pas : List Nat) : Nat := pas.foldl (fun b a => if a / 128 = line then b ||| 2 ^ (a % 128) else b) 0
/-- An access to bytes, line by line. -/
def touched (pas : List Nat) (x : Touch) : List Touch := (linesOf pas).map fun n => { x with line := n, bytes := byteBits n pas }
/-- The accesses that share a byte with these addresses. -/
def meets (xs : List Touch) (pas : List Nat) : List Touch :=
  xs.filter fun x => pas.any fun a => a / 128 == x.line && x.bytes.testBit (a % 128)
/-- A later access of these bytes replaces the others there. -/
def cover (pas : List Nat) (xs : List Touch) : List Touch :=
  let lines := linesOf pas
  updWhere (fun x => lines.contains x.line) (fun x => { x with bytes := x.bytes - (x.bytes &&& byteBits x.line pas) }) xs
/-- The accesses of which bytes are left then. -/
def uncover (pas : List Nat) (xs : List Touch) : List Touch := if pas.isEmpty then xs else (cover pas xs).filter fun x => x.bytes != 0
/-- Some of the accesses stand after a place, so that no pair of R284 orders them. -/
def after (xs : List Touch) (pas : List Nat) (seen : Nat) : Bool := (meets xs pas).any fun x => decide (seen < x.seq)
/-- A plain device read takes its place, for a later host write to meet. -/
def recordRead (s : State) (launch : Nat) (warp : Option Nat) (pas : List Nat) : State :=
  if pas.isEmpty then s
  else { s with devSeq := s.devSeq + 1
                devRead := touched pas { line := 0, bytes := 0, seq := s.devSeq + 1, launch := launch, warp := warp }
                  ++ uncover pas (s.devRead.filter fun x => x.warp == warp) ++ s.devRead.filter fun x => x.warp != warp }
/-- Case 4, reads of a warp: a SYS acquire orders what stands before the host write that it returns; another read that meets a host
write awaits a SYS acquire fence. A read served by an L1 copy returns no later host write than the copy shows (11 R297). -/
def noteRead (s : State) (pas : List Nat) (acq : Bool) (upTo : Option Nat := none) : State :=
  let met := meets s.hostWrote pas
  let h := latest met
  let got := given (met.filter fun x => upTo.all fun n => decide (x.seq ≤ n))
  if acq then { s with w := { s.w with hostSeen := max s.w.hostSeen got } }
  else recordRead { s with w := { s.w with hostPend := if s.w.hostSeen < h then max s.w.hostPend h else s.w.hostPend
                                           hostGot := max s.w.hostGot got } } s.l.num (some s.w.id) pas
/-- The read half of an atomic: one that is no acquire leaves the order to its write. -/
def noteAtomic (s : State) (pas : List Nat) (acq : Bool) : State := if acq then noteRead s pas true else s
/-- A SYS acquire fence makes SYS acquires of the warp's earlier reads (R284). -/
def noteFence (s : State) : State :=
  { s with w := { s.w with hostSeen := max s.w.hostSeen s.w.hostGot, hostPend := 0 }
           devRead := s.devRead.filter fun x => x.warp != some s.w.id }
/-- Reads of an engine command with ACQ stand after everything that its pusher has made and seen: the lines' leases reach that time
(10 R280). -/
def leaseReads (s : State) (lines : List Nat) : State :=
  lines.foldl (fun s n =>
    let y := leaseOf s n
    setLease s n y.wts (max y.rts s.clock)) s

/-- The place of a device write among the accesses of the device, as the host meets it (10 R283). -/
def noteFor (s : State) (launch : Nat) (pas : List Nat) (rel : Bool) : State :=
  { s with devSeq := if pas.isEmpty then s.devSeq else s.devSeq + 1
           devWrote := touched pas { line := 0, bytes := 0, seq := s.devSeq + 1, launch := launch, rel := rel } ++ uncover pas s.devWrote
           devRead := uncover pas s.devRead
           hostRead := uncover pas s.hostRead
           hostWrote := if pas.isEmpty then s.hostWrote else cover pas s.hostWrote }
/-- A plain device write meets a host access that nothing orders before it. -/
def unordered (s : State) (pas : List Nat) (rel : Bool) (seen : Nat) : Bool :=
  !rel && (after s.hostWrote pas seen || after s.hostRead pas seen)
/-- Case 4, writes of a warp: one that meets an unordered host access, or follows an unordered read, is a race. -/
def noteWrite (s : State) (pas : List Nat) (rel : Bool) : State :=
  noteFor (markRace s (!pas.isEmpty && (s.w.hostPend != 0 || unordered s pas rel s.w.hostSeen))) s.l.num pas rel
/-- The host accesses that stand before those of an engine: those before its pushing warp's. -/
def engineSeen (s : State) (launch warp : Nat) : Nat := match s.anyWarp warp with
  | some w => w.hostSeen
  | none => ((s.launch? launch).map (·.hostAt)).getD 0
/-- Case 4, reads of an engine command: no fence of a warp orders them; with ACQ at SYS scope the command's reads are ordered. -/
def engineReads (s : State) (launch warp : Nat) (pas : List Nat) (acq : Bool) : State :=
  if acq then s
  else recordRead (markRaceOf s launch (after s.hostWrote pas (engineSeen s launch warp))) launch none pas
/-- Case 4, writes of an engine command. -/
def engineWrites (s : State) (launch warp : Nat) (pas : List Nat) (rel : Bool) : State :=
  noteFor (markRaceOf s launch (unordered s pas rel (engineSeen s launch warp))) launch pas rel

/-- The page attribute and the policy let the line into L1 (R293): WB with DFLT, KEEP or STRM. -/
def inL1 (attr policy : Nat) : Bool := attr == 0 && decide (policy ≤ 2)

/-- The copies of a full set that go first: those of STRM, then those of DFLT, then those of KEEP (R293). -/
def firstOut (set : List L1Line) : List L1Line :=
  let strm := set.filter fun y => y.policy == 2
  let dflt := set.filter fun y => y.policy != 1
  if !strm.isEmpty then strm else if !dflt.isEmpty then dflt else set
/-- Put a line into L1; a full set of 16 ways gives one copy up. -/
def l1Put (s : State) (x : L1Line) : State :=
  let others := s.k.l1.filter fun y => !(y.pa == x.pa && y.part == x.part)
  let set := others.filter fun y => y.pa / 128 % 64 == x.pa / 128 % 64
  if set.length < 16 then { s with k := { s.k with l1 := x :: others } }
  else
    let out := firstOut set
    let v := out.getD (Config.victim s.fresh % out.length) x
    { s with k := { s.k with l1 := x :: others.erase v }, fresh := s.fresh + 1 }
/-- The L1 copy that serves a load of a line by the core in focus: one whose lease holds (R296). Stash lines are not held in L1 (R295). -/
def l1Hit (s : State) (line : Nat) (cached : Bool) : Option L1Line :=
  if cached && (stashOwner s line).isNone then
    s.k.l1.find? fun x => x.pa == 128 * line && x.part == s.l.part && decide (s.k.pts ≤ x.rts)
  else none
/-- A load of a line by the core in focus: served from such a copy, otherwise at the home; L2 keeps the line, or does not (R293 R296). -/
def loadLine (s : State) (line : Nat) (cached : Bool) (policy : Nat := 0) (kept : Bool := true) : List Byte × State :=
  match l1Hit s line cached with
  | some x => (x.data, { s with k := { s.k with pts := max s.k.pts x.wts } })
  | none =>
    let d := homeLine s line
    let y := leaseOf s line
    let rts := max y.rts (s.k.pts + 16)
    let s := setLease s line y.wts rts
    let s := if kept then s else l2Evict s line
    let s := { s with k := { s.k with pts := max s.k.pts y.wts } }
    (d, if cached && (stashOwner s line).isNone then l1Put s ⟨128 * line, s.l.part, d, y.wts, rts, policy, s.hostSeq⟩ else s)

/-- The lines of another package or of the host that this package now holds (11 R299 R306). -/
def noteGuest (s : State) (line : Nat) (wr : Bool) : State :=
  if isHostPa (128 * line) || (remotePkg (128 * line)).isSome then
    let old := (s.guests.find? fun g => g.line == line).getD ⟨line, false, false, []⟩
    let cl := clusterOf s.k.id
    { s with guests := ⟨line, old.excl || wr, old.dirty || wr, if old.clusters.contains cl then old.clusters else old.clusters ++ [cl]⟩
               :: s.guests.filter fun g => g.line != line }
  else s
/-- Perform bytes at the home of one line, at the logical time of R296; an L1 copy of the core is updated. An atomic is performed at
the true home, and takes no ownership of a guest line (R295 R299). -/
def performAt (s : State) (line : Nat) (bs : List (Nat × Byte)) (rel : Bool := false) (atomic : Bool := false) : State :=
  let y := leaseOf s line
  let t := max s.k.pts (y.rts + 1)
  let s := noteWrite (setLease s line t t) (bs.map (·.1)) (rel || s.w.sysRel)
  let s := if atomic then s else noteGuest s line true
  let s := { s with mem := memPuts s.mem bs }
  let s := match s.c.stash.find? (fun x : StashLine => x.pa == 128 * line) with
    | some x =>
      let sh := memPuts s.c.shared (bs.map fun b : Nat × Byte => (128 * x.line + b.1 % 128, b.2))
      { s with c := { s.c with shared := sh } }
    | none => s
  let d := homeLine s line
  { s with k := { s.k with pts := t
                           l1 := updWhere (fun x => x.pa == 128 * line) (fun x => { x with data := d, wts := t, rts := t, host := s.hostSeq }) s.k.l1 } }

/-- A check-mode launch logs the first write of a line at its launch level (R271). -/
def checkLine (s : State) (launch : Nat) (va : DWord) (line : Nat) : State :=
  match s.launch? launch with
  | some l =>
    if l.check && !l.checkLost && !(l.checkLog.any fun t => t.2.1 == 128 * line) then
      if checkRoom s l then
        s.mapLaunch launch fun l => { l with checkLog := l.checkLog ++ [(va &&& ~~~ 127#64, 128 * line, homeLine s line)] }
      else s.mapLaunch launch fun l => { l with checkLost := true }
    else s
  | none => s

/-- The first write of a line at the open level of a depth, counted from the outermost: its entry and its claim (09 R253 R255);
outside levels the launch level logs. -/
def logLineAt (s : State) (depth : Nat) (va : DWord) (line : Nat) : Op :=
  if depth = 0 then .ok (checkLine s s.l.num va line)
  else do
    let t ← placeClaim s line
    logInto t (s.c.levels.length - depth) (.gln (va &&& ~~~ 127#64) (128 * line) (homeLine s line))
/-- The first write of a line at the current level. -/
def logLine (s : State) (va : DWord) (line : Nat) : Op := logLineAt s s.depth va line

/-- One byte to be stored: its virtual and physical address and its value. -/
structure StoreByte where
  va : DWord
  pa : Nat
  val : Byte
deriving DecidableEq, Repr

/-- A write of the warp in focus waits at its home. -/
def holdWrite (s : State) (line : Nat) (va : DWord) (bytes : List (Nat × Byte)) (atoms : List HeldAtom)
    (rel : Bool := false) (kept : Bool := true) (ats : Bool := false) (dest : List Await := []) (acq : Bool := false) : State :=
  { s with held := s.held ++
             [⟨s.nextId, s.w.id, s.c.id, s.k.id, line, va, bytes, s.depth, atoms, rel || s.w.sysRel, kept, ats, dest, acq⟩]
           nextId := s.nextId + 1 }
/-- The line stays in L2 after an access, or does not (R293). -/
def keepL2 (s : State) (line : Nat) (kept : Bool) : State := if kept then s else l2Evict s line
/-- Perform or hold the bytes of one store, line by line (09 R442). -/
def storeLines (s : State) (bs : List StoreByte) (rel : Bool) (kept : Nat → Bool) : List Nat → Op
  | [] => .ok s
  | n :: t => do
    let mine := bs.filter fun b => b.pa / 128 == n
    let va := (mine.head?.map (·.va)).getD 0#64
    let vals := mine.map fun b => (b.pa, b.val)
    if mustWait s n then storeLines (holdWrite s n va vals [] rel (kept n)) bs rel kept t
    else do
      let s ← logLine s va n
      storeLines (keepL2 (performAt s n vals rel) n (kept n)) bs rel kept t

/-- Bytes that an engine or the device itself writes at their homes: each line's logical time moves past its leases, and a
stash line gives way. -/
def homePerform (s : State) (bs : List (Nat × Byte)) : State :=
  let s := (linesOf (bs.map (·.1))).foldl (fun s n =>
    let t := max s.clock ((leaseOf s n).rts + 1)
    setLease (recallLine s n) n t t) s
  { s with mem := memPuts s.mem bs }
/-- Such a write of an engine or the tile path: the package takes ownership of a guest line (R299). Atomics, conversation updates and
the steps of joins are performed at the true home, by homePerform. -/
def homeWrite (s : State) (bs : List (Nat × Byte)) : State :=
  (linesOf (bs.map (·.1))).foldl (fun s n => noteGuest s n true) (homePerform s bs)

/-! Shared memory. -/

/-- The stash mapping that covers a shared line. -/
def mapOf (c : Cohort) (line : Nat) : Option StashMap :=
  c.maps.find? fun m => decide (m.line ≤ line) && decide (line < m.line + m.lines)

/-- Bring the stash line under a shared line in, at its first touch (06 R181, 11 R301). -/
def stashFill (s : State) (line : Nat) (wr : Bool) : Op :=
  match mapOf s.c line with
  | none => .ok s
  | some m =>
    if s.c.stash.any fun t => t.line == line then .ok s
    else
      let va := m.base + BitVec.ofNat 64 (128 * (line - m.line))
      match transl s va { rd := true, wr := wr } with
      | none => .error (.stall .memory (.xlate va { rd := true, wr := wr } [] 1 4))
      | some (pa, _) => do
        let pa := localPa s pa
        let n := pa / 128
        linesReady s [n] true
        if wr && mustWait s n then .error (.stall .memory (.unclaimed n)) else .ok ()
        -- the package holds a guest line in E (R301); a stash line leaves L1 (R295)
        let s := noteGuest (raceRead s [n]) n (isHostPa pa || (remotePkg pa).isSome)
        .ok { s with
          k := { s.k with l1 := s.k.l1.filter fun x => x.pa != 128 * n }
          c := { s.c with shared := memPuts s.c.shared (placed (128 * line) (homeLine s n))
                          stash := s.c.stash ++ [⟨line, 128 * n, va, false, s.cyc⟩] }
          stashOwners := assocPut n s.c.id s.stashOwners }

def stashFills (s : State) (wr : Bool) : List Nat → Op
  | [] => .ok s
  | n :: t => do
    let s ← stashFill s n wr
    stashFills s wr t

/-- Log the shared words and stash lines that bytes at shared offsets touch (09 R252 R253). -/
def logShared (s : State) : List Nat → Op
  | [] => .ok s
  | o :: t => do
    let s ← match s.c.stash.find? fun x => x.line == o / 128 with
      | some x =>
        if s.depth = 0 then logLine s x.va (x.pa / 128)
        else do
          let u ← placeClaim s (x.pa / 128)
          logEntry u (.gln x.va x.pa (memGets s.c.shared (128 * x.line) 128))
      | none => logEntry s (.shw (o / 4 * 4) (BitVec.ofNat 32 (leNat (memGets s.c.shared (o / 4 * 4) 4))))
    logShared s t

/-- A write of a stash line stands in M as a store at its home would: the logical times move (R296). -/
def stashTime (s : State) (wr : Bool) (line : Nat) : State :=
  match s.c.stash.find? fun x => x.line == line with
  | some x =>
    let y := leaseOf s (x.pa / 128)
    if wr then
      let t := max s.k.pts (y.rts + 1)
      let s := setLease s (x.pa / 128) t t
      { s with k := { s.k with pts := t } }
    else
      let s := setLease s (x.pa / 128) y.wts (max y.rts (s.k.pts + 16))
      { s with k := { s.k with pts := max s.k.pts y.wts } }
  | none => s

/-- The global bytes behind shared offsets of stash lines. -/
def stashPlaces (s : State) (offs : List Nat) : List Nat :=
  offs.filterMap fun o => (s.c.stash.find? fun x => x.line == o / 128).map fun x => x.pa + o % 128
/-- A write at shared offsets reaches a continuation queue through a mapping: a race (12 R317). -/
def stashInQueue (s : State) (offs : List Nat) : Bool :=
  offs.any fun o => (mapOf s.c (o / 128)).any fun m => inContQueue s (m.base + BitVec.ofNat 64 (o - 128 * m.line))

/-- Write bytes at shared offsets; stash lines become dirty. -/
def sharedWrite (s : State) (bs : List (Nat × Byte)) (rel : Bool := false) : Op := do
  let s ← logShared s ((bs.map (·.1)))
  let lines := (bs.map (·.1 / 128)).dedup
  let s := lines.foldl (fun s n => stashTime s true n) s
  let s := noteWrite s (stashPlaces s (bs.map (·.1))) (rel || s.w.sysRel)
  .ok { s with c := { s.c with shared := memPuts s.c.shared bs
                               stash := updWhere (fun x => lines.contains x.line) (fun x => { x with dirty := true, lastUse := s.cyc })
                                 s.c.stash } }

/-- The header and entries of `.warp` queues that warps of the cohort have bound (06 R177): a plain store there is a race. -/
def queueRanges (s : State) : List (Nat × Nat) :=
  ((s.allWarps.filter fun w => w.cid == s.c.id).flatMap fun w => w.qbind.filterMap fun b => match b with
    | some (.warp off) => some (off, 16 + 128 * leNat (memGets s.c.shared off 2))
    | _ => none)
/-- A plain store there, case 2 of 10 R286, leaves the queue's contents undefined (R177): its counts and entries become free values. -/
def raceQueue (before : State) (s : State) (offs : List Nat) : State :=
  ((queueRanges before).filter fun r => offs.any fun o => decide (r.1 ≤ o) && decide (o < r.1 + r.2)).foldl (fun s r =>
    let free := (List.range (r.2 - 8)).map fun i => ((if i < 8 then r.1 + 4 + i else r.1 + 8 + i), Config.freeByte (s.fresh + i))
    -- the capacity stays, so that the queue stays within its bytes
    let cap := placed r.1 (memGets before.c.shared r.1 4)
    markRace { s with c := { s.c with shared := memPuts s.c.shared (cap ++ free) }, fresh := s.fresh + r.2 } true) s

/-- A memory instruction of a warp waits while writes of it are held (09 R442). -/
def noHeldWrites (s : State) : Except Exc Unit :=
  if s.held.any fun h => h.warp == s.w.id then .error (.stall .memory .noHeld) else .ok ()

end Sys2Proof.Machine
end

