-- ==== Sys2Proof/Machine/TileOps.lean ====
section
/-! DEFINITION. Tile handles, storage of tiles, the checks of matrix products and the entry into the matrix sequencer
(07 R182 to R193, R200, R201, R211). -/

namespace Sys2Proof.Machine

/-- The physical handle that a name maps to (01 R22). -/
def handleOf (s : State) (h : Nat) : Option Nat := s.w.hmap.getD h none
def tileAt (k : CoreS) (phys : Nat) : Option Tile := k.tiles.find? fun t => t.phys == phys
def tileOf (s : State) (h : Nat) : Option Tile := (handleOf s h).bind (tileAt s.k)

/-- The fifth check of issue: the names are bound (07 R186). -/
def needHandles (s : State) (hs : List Nat) : Except Exc Unit := need (hs.all fun h => (tileOf s h).isSome) fcStale

/-- Element width in bits of a format code (R184). -/
def fmtBits (f : Nat) : Nat := if f = 2 ∨ f = 4 then 4 else if f = 5 ∨ f = 6 then 16 else if f = 7 then 32 else 8

/-- A reservation record from four uniform words, with the check of R182 to R184 for a kind. -/
def readRecord (kind : TKind) (span : Bool) (w0 w1 w2 w3 : Word) : Option TRec :=
  let r : TRec := { spanlog := (w0.extractLsb' 12 2).toNat, blk := w0.getLsbD 8, fmt := (w0.extractLsb' 0 4).toNat
                    m := (w1.extractLsb' 16 16).toNat, n := (w1.extractLsb' 0 16).toNat
                    k := (w2.extractLsb' 0 16).toNat, scoff := w3.toNat }
  let wide := r.fmt == 5 || r.fmt == 6
  let clean := w0 &&& 0xFFFFCEF0#32 == 0#32 && w2 &&& 0xFFFF0000#32 == 0#32
    && (if span then r.spanlog == 1 || r.spanlog == 2 else r.spanlog == 0)
    && (r.blk || r.scoff == 0) && (!r.blk || !(wide || r.fmt == 7)) && decide (r.fmt ≤ 7)
  let k4 := !(r.fmt == 2 || r.fmt == 4) || r.k % 2 == 0
  let shape := match kind with
    | .a => decide (r.fmt ≤ 6) && decide (1 ≤ r.m) && decide (r.m ≤ 128) && decide (1 ≤ r.k) && decide (r.k ≤ 768) && r.n == 0 && k4
    | .b => decide (r.fmt ≤ 6) && decide (1 ≤ r.k) && decide (r.k ≤ 768) && r.m == 0 && r.n % 2 ^ r.spanlog == 0
        && decide (1 ≤ r.localN) && decide (r.localN ≤ (if wide then 128 else 256)) && k4
    | .c => r.fmt == 7 && decide (1 ≤ r.m) && decide (r.m ≤ 128) && r.k == 0 && r.n % 2 ^ r.spanlog == 0
        && decide (1 ≤ r.localN) && decide (r.localN ≤ 768) && decide (r.m * r.localN ≤ 65536)
  if clean && shape then some r else none

/-- Granules of the local share (R183). -/
def granulesOf (kind : TKind) (r : TRec) : Nat :=
  match kind with
  | .a => ceilDiv (r.m * ceilDiv (r.k * fmtBits r.fmt) 8 + (if r.blk then r.m * ceilDiv r.k 48 else 0)) 4096
  | .b => ceilDiv r.k 48
  | .c => ceilDiv (4 * r.m * r.localN) 4096

/-- Granules in use of a kind (and, for kind B, of a plane): each storage counts once. -/
def granulesUsed (k : CoreS) (kind : TKind) (plane : Nat) : Nat :=
  ((k.tiles.filter fun t => t.kind == kind && (kind != .b || t.plane == plane)).foldl
    (fun (a : List Nat × Nat) t => if a.1.contains t.store then a else (t.store :: a.1, a.2 + t.granules)) ([], 0)).2

def granulesMax (kind : TKind) : Nat := if kind = .b then 16 else 64

/-- The plane that takes a new storage of a kind, when one has room (R190). -/
def planeFor (k : CoreS) (kind : TKind) (g : Nat) : Option Nat :=
  let free := fun p => granulesMax kind - granulesUsed k kind p
  if kind = .b then
    let f0 := decide (g ≤ free 0)
    let f1 := decide (g ≤ free 1)
    if f0 && f1 then some (if granulesUsed k kind 1 < granulesUsed k kind 0 then 1 else 0)
    else if f0 then some 0 else if f1 then some 1 else none
  else if g ≤ free 0 then some 0 else none

/-- The least tile number and the least storage number that nothing uses. -/
def freshNum (used : List Nat) : Nat := ((List.range (used.length + 1)).find? fun n => !used.contains n).getD used.length
def freshPhys (k : CoreS) : Nat := freshNum (k.tiles.map (·.phys))
def freshStore (k : CoreS) : Nat := freshNum (k.tiles.map (·.store))

/-- The least of the core's 128 physical handles that no tile holds (R185). -/
def freeHandle (k : CoreS) : Option Nat := (List.range 128).find? fun n => !(k.tiles.any fun t => t.handle == some n)

/-- A husk entry pins a physical handle (09 R253). -/
def pinnedTile (s : State) (phys : Nat) : Bool :=
  s.allCohorts.any fun c => c.core == s.k.id && c.levels.any fun v => v.log.any fun e => match e with
    | .hmap _ _ (some p) => p == phys
    | .took _ p => p == phys
    | .gave _ p => p == phys
    | _ => false

/-- The handles that count against the launch's reservation on the core (R185): bound, pinned or in a hand-over. -/
def handlesUsed (s : State) : Nat :=
  let bound := (s.allWarps.filter fun w => w.core == s.k.id).flatMap fun w => w.hmap.filterMap id
  let hand := (s.allCohorts.filter fun c => c.core == s.k.id).flatMap fun c => c.hand.map (·.2)
  (s.k.tiles.filter fun t => t.launch == s.l.num && (bound.contains t.phys || hand.contains t.phys || pinnedTile s t.phys)).length

/-- The physical tiles that an entry of the sequencer reads. -/
def TileWork.reads : TileWork → List Nat
  | .load _ _ _ _ => []
  | .store src _ _ => [src]
  | .mm _ old acc steps _ => (if acc then [old] else []) ++ steps.flatMap fun t => [t.1, t.2]
  | .hadt _ src _ _ => [src]
def TileWork.writes : TileWork → Option Nat
  | .load dst _ _ _ => some dst
  | .store _ _ _ => none
  | .mm dst _ _ _ _ => some dst
  | .hadt dst _ _ _ => some dst

/-- Writes under way that hold one of the core's eight rename spares: the old handle of their name comes back when they retire
(R185 R188). -/
def sparesUsed (k : CoreS) : Nat :=
  (k.seq.filter fun o => o.old.isSome && (o.work.writes.bind (tileAt k)).any (·.handle.isSome)).length

/-- The handle that a rename takes; none when no spare is left. -/
def spareFor (k : CoreS) : Option Nat := if sparesUsed k < 8 then freeHandle k else none

/-- A tile that waits for a handle takes one when there is one. -/
def grantHandle (k : CoreS) (phys : Nat) : CoreS :=
  if (tileAt k phys).any (·.handle.isNone) then
    let h := if k.seq.any fun o => o.work.writes == some phys then spareFor k else freeHandle k
    { k with tiles := updWhere (fun t => t.phys == phys) (fun t => { t with handle := h }) k.tiles }
  else k

/-- Waiting tiles take what has become free, in the order of the sequencer's queue. -/
def grantHandles (k : CoreS) : CoreS := (k.seq.filterMap (·.work.writes) ++ k.tiles.map (·.phys)).foldl grantHandle k

/-- Pending reads of a tile. -/
def pendingReads (k : CoreS) (phys : Nat) : Nat := (k.seq.filter fun o => o.work.reads.contains phys).length

/-- The sequencer has room for one more entry (R187). -/
def needSeqRoom (s : State) : Except Exc Unit :=
  if s.k.seq.length < 32 then .ok () else .error (.stall .queue .seqRoom)

/-- A name maps to another handle, with the log entry (01 R22, 09 R252). -/
def setHandle (s : State) (h : Nat) (phys : Option Nat) : Op := do
  let t ← logEntry s (.hmap s.w.id h (handleOf s h))
  .ok { t with w := { t.w with hmap := t.w.hmap.set h phys } }

/-- A write of a bound handle: a fresh physical handle takes the name, and its storage is decided; without a spare the write waits
in the sequencer for its handle (R188). The new tile is pending under the number of the next sequencer entry. -/
def renameTile (s : State) (h : Nat) (pc : Word) : Except Exc (Nat × State) :=
  match tileOf s h with
  | none => raise fcStale
  | some t => do
    let pinned := decide (s.depth ≠ 0) && !((s.c.levels.head?.map (·.log)).getD []).any
      (fun e => e.same (.hmap s.w.id h none)) || pinnedTile s t.phys
    let busy := decide (pendingReads s.k t.phys ≠ 0)
    let fresh := planeFor s.k t.kind t.granules
    let phys := freshPhys s.k
    let new : Tile := { t with phys := phys, handle := spareFor s.k, data := none, scales := [], pend := some (pc, s.k.nextOp + 1)
                               freed := false, gang := none }
    let new ← if !pinned && !busy then .ok new
      else match fresh with
        | some p => .ok { new with store := freshStore s.k, plane := p }
        | none => if pinned then raise fcGranary else .ok new
    let s ← setHandle s h (some phys)
    .ok (phys, { s with k := { s.k with
      tiles := new :: updWhere (fun x => x.phys == t.phys) (fun x => { x with freed := true }) s.k.tiles } })

/-- An entry goes to the tail of the sequencer's queue; old is the tile that its write renames away from. -/
def enqueue (s : State) (pc : Word) (names : List Nat) (work : TileWork) (hold : Option Nat) (pages : List (Nat × Nat))
    (pattern : List (Option (Nat × Nat)) := []) (old : Option Nat := none) : State :=
  { s with k := { s.k with nextOp := s.k.nextOp + 1
                           seq := s.k.seq ++ [{ id := s.k.nextOp + 1, warp := s.w.id, cid := s.c.id, launch := s.l.num, pc := pc
                                                names := names, work := work, hold := hold, pages := pages
                                                pattern := pattern, old := old }] } }

/-- The steps of a loop descriptor: handle names for A and B (R200 R201). -/
def loopNames (ha hb : Nat) (d : Word) : List (Nat × Nat) :=
  let ainc := (d.extractLsb' 16 4).toNat
  let binc := (d.extractLsb' 20 4).toNat
  (List.range (d.extractLsb' 0 16).toNat).map fun j => ((ha + j * ainc) % 32, (hb + j * binc) % 32)

/-- The names that the steps of a descriptor reach: a descriptor repeats itself after 32 steps. -/
def loopDistinct (ha hb : Nat) (d : Word) : List (Nat × Nat) :=
  loopNames ha hb (if (d.extractLsb' 0 16).toNat ≤ 32 then d else (d &&& 0xFFFF0000#32) ||| 32#32)

/-- MMLOOP and RUN: the checks of R201 in order, the rename of C, and the entry into the sequencer. -/
def mmIssue (s : State) (pc : Word) (hc ha hb : Nat) (d : Word) (acc : Bool) (depth : Nat) (hold : Option Nat) : Op := do
  need (d.extractLsb' 24 8 == 0#8) fcTRecord
  let names := loopDistinct ha hb d
  needHandles s (names.flatMap fun t => [t.1, t.2])
  match tileOf s hc with
  | none => raise fcStale
  | some c => do
    let tiles := names.filterMap fun t => match tileOf s t.1, tileOf s t.2 with
      | some a, some b => some (a, b)
      | _, _ => none
    need (c.kind == .c && tiles.all fun t => t.1.kind == .a && t.2.kind == .b) fcTKind
    need (tiles.all fun t => t.1.record.m == c.record.m && t.1.record.k == t.2.record.k && t.2.record.localN == c.record.localN) fcTShape
    let wide := tiles.any fun t => t.2.record.fmt == 5 || t.2.record.fmt == 6
    need (decide (c.record.localN ≤ (if wide then 128 else 256))) fcTShape
    let spans := ((c :: tiles.flatMap fun t => [t.1, t.2]).map fun t => t.record.spanlog).filter (· ≠ 0)
    need (spans.all fun x => some x == spans.head?) fcTSpan
    needSeqRoom s
    let steps := (loopNames ha hb d).filterMap fun t => match handleOf s t.1, handleOf s t.2 with
      | some a, some b => some (a, b)
      | _, _ => none
    let (phys, t) ← renameTile s hc pc
    let all := loopNames ha hb ((d &&& 0xFFFF0000#32) ||| 32#32)
    let pattern := if hold.isSome then all.map fun t => (match handleOf s t.1, handleOf s t.2 with
        | some a, some b => some (a, b)
        | _, _ => none) else []
    .ok (enqueue t pc (hc :: names.flatMap fun t => [t.1, t.2]) (.mm phys c.phys acc steps depth) hold [] pattern (some c.phys))

end Sys2Proof.Machine
end

