-- ==== Sys2Proof/Machine/Queues.lean ====
section
/-! DEFINITION. Queue registers: pops, pushes, room, and what a push does to the engine behind the queue
(01 R21, 06 R175 to R178, 07 R207 R211 R212 R215 R216 R217). -/

namespace Sys2Proof.Machine

def QKind.canPop : QKind → Bool
  | .warp _ | .fibre _ | .copydone _ | .binres => true
  | _ => false
def QKind.canPush : QKind → Bool
  | .copydone _ | .binres => false
  | _ => true

/-- Number of the kind's SUB code (R175). -/
def QKind.sub : QKind → Nat
  | .warp _ => 1 | .fibre _ => 2 | .copy _ => 3 | .copydone _ => 4 | .mseq => 5
  | .bincmd => 6 | .binres => 7 | .cont _ => 8 | .amsend => 9

/-- Words of a copy command, from its header (07 R207). -/
def copyLen (h : Word) : Nat := 8 + 5 * (h.extractLsb' 25 3).toNat
/-- Words of a Thresher command, from its header (07 R212). -/
def thrLen (h : Word) : Nat :=
  match (h.extractLsb' 28 4).toNat with
  | 1 => 3 | 2 => 4 | 3 => 4 | _ => 1

/-- The words that a warp has pushed of a command that is not complete. -/
def openPart (len : Word → Nat) (ps : List (Nat × List Word)) (w : Nat) : Option (List Word) :=
  (ps.find? fun p => p.1 == w && decide (p.2.length < len (p.2.headD 0#32))).map (·.2)
/-- Add a word to the warp's open command, or start one. -/
def addPart (len : Word → Nat) (ps : List (Nat × List Word)) (w : Nat) (x : Word) : List (Nat × List Word) :=
  match openPart len ps w with
  | some ws => (ps.erase (w, ws)) ++ [(w, ws ++ [x])]
  | none => ps ++ [(w, [x])]
def partWords (ps : List (Nat × List Word)) : Nat := (ps.map fun p => p.2.length).sum

def State.chan (s : State) (ch : Nat) : Channel := (s.cluster (clusterOf s.w.core)).chans.getD ch {}
def State.setChan (s : State) (cluster ch : Nat) (f : Channel → Channel) : State :=
  s.mapCluster cluster fun c => { c with chans := c.chans.modify ch f }

/-- A continuation queue's header address, and its HEAD and TAIL, when its page is translated (12 R317). -/
def contBase (s : State) (q : Nat) : DWord := s.l.cqBase + BitVec.ofNat 64 (q * (64 + 32 * 2 ^ s.l.cqLog))
def rwAcc : Access := { rd := true, wr := true }
def devRead (s : State) (va : DWord) (n : Nat) : Except Exc Nat :=
  match transl s va rwAcc with
  | some (pa, _) => .ok (leNat ((List.range n).map fun i => engineByte s (localPa s pa + i)))
  | none => .error (.stall .memory (.xlate va rwAcc))
/-- A write of the device itself at the home of one line: no log, no claim. -/
def devWrite (s : State) (va : DWord) (bs : List Byte) : Op :=
  match transl s va rwAcc with
  | some (pa, _) => do
    linesReady s [localPa s pa / 128] true
    .ok (catchUp (homeWrite (checkLine s s.l.num va (localPa s pa / 128)) (engineBytes s (placed (localPa s pa) bs))))
  | none => .error (.stall .memory (.xlate va rwAcc))

/-- Entries or words that can be popped now. -/
def qAvail (s : State) (k : QKind) : Nat :=
  match k with
  | .warp o => (leNat (memGets s.c.shared (o + 8) 4) + 2 ^ 32 - leNat (memGets s.c.shared (o + 4) 4)) % 2 ^ 32
  | .fibre n => (s.sl.fq.getD n []).length
  | .copydone ch => (s.chan ch).words.length
  | .binres => ((s.die (dieOf s.w.core)).thr.results.filter fun r => r.1 == s.l.num).length
  | _ => 0

/-- Entries, words, records or messages that can be pushed now. -/
def qRoom (s : State) (k : QKind) : Nat :=
  match k with
  | .warp o => leNat (memGets s.c.shared o 2) - qAvail s k
  | .fibre n => 4 - (s.sl.fq.getD n []).length
  | .copy ch => 64 - partWords (s.chan ch).parts
  | .mseq => 32 - s.k.mseqParts.length
  | .bincmd => 32 - partWords (s.die (dieOf s.w.core)).thr.parts
  | .cont q => match devRead s (contBase s q) 8, devRead s (contBase s q + 8#64) 8 with
    | .ok h, .ok t => 2 ^ s.l.cqLog - (t - h)
    | _, _ => 0
  | .amsend => 8 - (s.k.am.filter fun m => !m.arrived).length
  | _ => 0

/-- Two warps that wait on queues of one kind wait on one queue. -/
def sameQueue (s : State) (v : Warp) : QKind → Bool
  | .warp _ => v.cid == s.w.cid
  | .fibre _ => v.core == s.w.core && v.quarter == s.w.quarter && v.slot == s.w.slot
  | .copy _ | .copydone _ => clusterOf v.core == clusterOf s.w.core
  | .mseq | .amsend => v.core == s.w.core
  | .bincmd => dieOf v.core == dieOf s.w.core
  | .binres => dieOf v.core == dieOf s.w.core && (s.cohort? v.cid).any fun c => c.launch == s.l.num
  | .cont _ => (s.cohort? v.cid).any fun c => c.launch == s.l.num

/-- Another warp has waited longer for the same turn (R176). -/
def earlierWaiter (s : State) (k : QKind) (push : Bool) : Bool :=
  s.warps.any fun v => sameQueue s v k && askedBefore s v fun c => match c with
    | .queue j p _ => j == k && p == push
    | _ => false

/-- The turn to pop or push n entries, or the stall (R21 R120 R176). A pop of the same instruction has made room already: DEDUCED,
log 62. -/
def qTurn (s : State) (k : QKind) (push : Bool) (n : Nat) : Except Exc Unit :=
  if earlierWaiter s k push || decide ((if push then qRoom s k else qAvail s k) < n) then .error (.stall .queue (.queue k push n))
  else .ok ()

/-- The shared lines of a `.warp` entry, brought in when they are stashed. -/
def queueFill (s : State) (o n : Nat) : Op :=
  if s.c.maps.isEmpty then .ok s else stashFills s true ((List.range (n / 128 + 2)).map fun i => o / 128 + i)

/-- Pop one entry: a vector, or a word in every lane (R176). The words of a `.warp` queue stand in the memory order after the warp's
earlier writes (10 R275 R277). -/
def qpopK (s : State) (k : QKind) : Except Exc (VReg × State) := do
  qTurn s k false 1
  match k with
  | .warp o => do
    noHeldWrites s
    let s ← queueFill s o 16
    let cap := leNat (memGets s.c.shared o 2)
    let head := leNat (memGets s.c.shared (o + 4) 4)
    let at_ := o + 16 + 128 * (head % cap)
    let s ← queueFill s at_ 128
    let v := lanesOf fun l => BitVec.ofNat 32 (leNat (memGets s.c.shared (at_ + 4 * l) 4))
    let s ← sharedWrite s (placed (o + 4) (leBytes 4 (head + 1)))
    .ok (v, s)
  | .fibre n =>
    let q := s.sl.fq.getD n []
    .ok (q.headD zeros, { s with sl := { s.sl with fq := s.sl.fq.set n q.tail } })
  | .copydone ch =>
    .ok (splat (((s.chan ch).words.head?.map (·.2)).getD 0#32), catchUp (s.setChan (clusterOf s.w.core) ch fun c => { c with words := c.words.tail }))
  | .binres =>
    let d := dieOf s.w.core
    match (s.die d).thr.results.find? fun r => r.1 == s.l.num with
    | some r => .ok (splat r.2, catchUp <| s.mapDie d fun x => { x with thr := { x.thr with results := x.thr.results.erase r } })
    | none => .error (.stall .queue (.queue k false 1))
  | _ => raise fcQDir

/-- A hold key of a launch is in use on a die, by a command that is there or saved with its context (07 R213). -/
def keyInUse (s : State) (die launch key : Nat) : Bool :=
  let run := fun o : TileOp => o.launch == launch && o.hold == some key
  let copy := fun m : CopyCmd => m.launch == launch && m.stage == .held && m.key == some key
  (s.allCores.any fun k => dieOf k.id == die && k.seq.any run)
    || (s.clusters.any fun c => c.id / 12 == die && c.chans.any fun h => h.cmds.any copy)
    || s.ctxs.any fun x => x.saved.any fun v => dieOf v.core == die && (v.seq.any run || v.heldCmds.any fun m => copy m.2)

/-- A sequencer command whose second word is pushed: the checks and the run of R211. -/
def mseqRunOp (s : State) (w0 w1 : Word) : Op := do
  let hold := w0.getLsbD 11
  let key := (w0.extractLsb' 0 8).toNat
  need (w0.extractLsb' 28 4 == 1#4 && w0.extractLsb' 8 3 == 0#3 && (hold || key == 0)) fcEngCmd
  if hold && keyInUse s (dieOf s.w.core) s.l.num key then raise fcEngKey
  else
    let hc := (w0.extractLsb' 23 5).toNat
    let ha := (w0.extractLsb' 18 5).toNat
    let hb := (w0.extractLsb' 13 5).toNat
    needHandles s [hc, ha, hb]
    mmIssue s s.cur.pc hc ha hb w1 (w0.getLsbD 12) 0 (if hold then some key else none)

/-- The value of a one-word push: the lowest active lane, or else the lowest lane that holds a thread (R176). -/
def pushWord (s : State) (m : Mask) (v : VReg) : Word :=
  match m.lowest with
  | some l => v.get l
  | none => wordAtLowest s.w.holds v

/-- The words of the records of a `.cont` push (R176). -/
def contRecords (m : Mask) (v : VReg) : List (List Byte) :=
  ([0, 1, 2, 3].filter fun g => m.has (8 * g)).map fun g =>
    (List.range 8).flatMap fun i => leBytes 4 (v.get (8 * g + i)).toNat

/-- Place records in a continuation queue, in order (12 R317). -/
def contPlace (s : State) (q : Nat) : List (List Byte) → Op
  | [] => .ok s
  | r :: rs => do
    let tail ← devRead s (contBase s q + 8#64) 8
    let s ← devWrite s (contBase s q + BitVec.ofNat 64 (64 + 32 * (tail % 2 ^ s.l.cqLog))) r
    let s ← devWrite s (contBase s q + 8#64) (leBytes 8 (tail + 1))
    contPlace s q rs

/-- Push one entry (R176); the command words, records and messages are those of chapter 07. What another agent is to see after the push,
the pusher's held writes, comes first (10 R279). -/
def qpushK (s : State) (k : QKind) (m : Mask) (v : VReg) : Op :=
  let x := pushWord s m v
  match k with
  | .warp o => do
    qTurn s k true 1
    noHeldWrites s
    let s ← queueFill s o 16
    let cap := leNat (memGets s.c.shared o 2)
    let tail := leNat (memGets s.c.shared (o + 8) 4)
    let at_ := o + 16 + 128 * (tail % cap)
    let s ← queueFill s at_ 128
    let s ← sharedWrite s (placed at_ ((List.range 32).flatMap fun l => leBytes 4 (v.get l).toNat))
    sharedWrite s (placed (o + 8) (leBytes 4 (tail + 1)))
  | .fibre n => do
    qTurn s k true 1
    noHeldWrites s
    .ok { s with sl := { s.sl with fq := s.sl.fq.modify n fun q => q ++ [v] } }
  | .copy ch => do
    qTurn s k true 1
    let cl := clusterOf s.w.core
    let words := (openPart copyLen (s.chan ch).parts s.w.id).getD [] ++ [x]
    let h := words.headD 0#32
    -- a copy with a global destination fails an open block at its last word and is discarded (R217)
    if decide (s.depth ≠ 0) && decide (words.length = copyLen h) && !h.getLsbD 21 then
      .error (.failIn (s.setChan cl ch fun c => { c with parts := c.parts.filter fun p => p != (s.w.id, words.dropLast) }) 7)
    else .ok (s.setChan cl ch fun c => { c with parts := addPart copyLen c.parts s.w.id x })
  | .mseq =>
    match s.k.mseqParts.find? fun p => p.1 == s.w.id with
    | none => do
      qTurn s k true 1
      .ok { s with k := { s.k with mseqParts := s.k.mseqParts ++ [(s.w.id, x)] } }
    | some (w, w0) => do
      qTurn s k true 1
      let t ← mseqRunOp s w0 x
      .ok { t with k := { t.k with mseqParts := t.k.mseqParts.erase (w, w0) } }
  | .bincmd => do
    qTurn s k true 1
    let d := dieOf s.w.core
    let ps := (s.die d).thr.parts
    let words := (openPart thrLen ps s.w.id).getD [] ++ [x]
    let h := words.headD 0#32
    let op := (h.extractLsb' 28 4).toNat
    if decide (s.depth ≠ 0) && decide (words.length = thrLen h) && (op == 1 || op == 4) then
      .error (.failIn (s.mapDie d fun y => { y with thr := { y.thr with parts := ps.filter fun p => p != (s.w.id, words.dropLast) } }) 7)
    else .ok (s.mapDie d fun y => { y with thr := { y.thr with parts := addPart thrLen ps s.w.id x } })
  | .cont q =>
    let rs := contRecords m v
    if rs.isEmpty then .ok s
    else do
      let _ ← devRead s (contBase s q) 8
      qTurn s k true rs.length
      noHeldWrites s
      contPlace s q rs
  | .amsend => do
    qTurn s k true 1
    noHeldWrites s
    .ok { s with k := { s.k with am := s.k.am ++ [{ launch := s.l.num, sender := s.c.index, target := v.get 1 ++ v.get 0
                                                    handler := v.get 2, count := v.get 3
                                                    payload := (List.range 28).map fun i => v.get (4 + i) }] } }
  | _ => raise fcQDir

/-- The binding of a queue register (R21). -/
def qBinding (s : State) (q : Nat) : Except Exc QKind :=
  match s.w.qbind.getD q none with
  | some k => .ok k
  | none => raise fcQUnbound

/-- Pop through a queue register. It waits before a later operand is found unbound: DEDUCED, log 62. -/
def qpop (s : State) (q : Nat) : Except Exc (VReg × State) := do
  let k ← qBinding s q
  need k.canPop fcQDir
  qpopK s k

/-- Push through a queue register. -/
def qpush (s : State) (q : Nat) (m : Mask) (v : VReg) : Op := do
  let k ← qBinding s q
  need k.canPush fcQDir
  qpushK s k m v

end Sys2Proof.Machine
end

