-- ==== Sys2Proof/Machine/Operands.lean ====
section
/-! DEFINITION. Operand forms: reads, pairs and groups, the PERM word, kill bits, destinations (01 R15 R19 R20 R21, 03 R64 R69 R71,
04 R85 to R88, 05 R124 R153, 06 R156). -/

namespace Sys2Proof.Machine

/-- A code that may be read. -/
def readable (o : Opnd) : Except Exc Unit := need (!o.isBad) fcOpnd

/-- A code that may be written: not lid, not ctl, not 124 to 127 (01 R20). -/
def writable (o : Opnd) : Except Exc Unit :=
  match o with
  | .lid | .ctl | .bad _ => raise fcOpnd
  | _ => .ok ()

/-- A uniform code or zero. -/
def uniOrZero (o : Opnd) : Except Exc Unit :=
  match o with
  | .s _ | .zero => .ok ()
  | _ => raise fcOpnd

/-- Not a queue. -/
def notQueue (o : Opnd) : Except Exc Unit := need (!o.isQ) fcOpnd

/-- A pair operand (04 R87). -/
def pairOk (o : Opnd) : Except Exc Unit :=
  match o with
  | .v n => need (n.val % 2 == 0) fcOpnd
  | .s n => need (n.val % 2 == 0) fcOpnd
  | .zero => .ok ()
  | _ => raise fcOpnd

/-- A four-name group of a `.b128` access (06 R156). -/
def quadOk (o : Opnd) : Except Exc Unit :=
  match o with
  | .v n => need (n.val % 4 == 0) fcOpnd
  | .s n => need (n.val % 4 == 0) fcOpnd
  | .zero => .ok ()
  | _ => raise fcOpnd

/-- An even uniform pair or zero. -/
def uniPairOk (o : Opnd) : Except Exc Unit :=
  match o with
  | .s n => need (n.val % 2 == 0) fcOpnd
  | .zero => .ok ()
  | _ => raise fcOpnd

/-- The low half of chip time (01 R19). -/
def ctlWord (s : State) : Word := BitVec.ofNat 32 s.now

/-- Read an operand; a queue register pops (R19 R21). -/
def readOpnd (s : State) (o : Opnd) : Except Exc (VReg × State) :=
  match o with
  | .v n => .ok (readV s n.val, s)
  | .s n => .ok (splat (readS s n.val), s)
  | .q n => qpop s n.val
  | .zero => .ok (zeros, s)
  | .lid => .ok (lanesOf fun l => BitVec.ofNat 32 l, s)
  | .lnk => .ok (s.w.lnk, s)
  | .ctl => .ok (splat (ctlWord s), s)
  | .bad _ => raise fcOpnd

/-- The source lane of a PERM pattern (03 R71). -/
def permLane (pat : BitVec 4) (k : BitVec 5) (l : Nat) : Nat :=
  match pat.toNat with
  | 1 => Nat.xor l k.toNat
  | 2 => l / 8 * 8 + (l + k.toNat) % 8
  | 3 => 31 - l
  | 4 => k.toNat
  | _ => l

/-- A value of another lane: 0 from a lane that holds no thread (05 R124). -/
def fromLane (s : State) (v : VReg) (l : Nat) : Word := if s.w.holds.has l then v.get l else 0#32

/-- The permuted operand; uniform operands, zero and ctl stay (R71 R153). -/
def permuted (s : State) (o : Opnd) (pat : BitVec 4) (k : BitVec 5) (v : VReg) : VReg :=
  if pat = 0#4 then v
  else match o with
  | .s _ | .zero | .ctl => v
  | _ => lanesOf fun l => fromLane s v (permLane pat k l)

def readA (s : State) (p : Px) (o : Opnd) : Except Exc (VReg × State) := do
  let (v, t) ← readOpnd s o
  match p.perm with
  | some m => .ok (permuted s o m.aPat m.aPar v, t)
  | none => .ok (v, t)
def readB (s : State) (p : Px) (o : Opnd) : Except Exc (VReg × State) := do
  let (v, t) ← readOpnd s o
  match p.perm with
  | some m => .ok (permuted s o m.bPat m.bPar v, t)
  | none => .ok (v, t)

/-- The i-th register of a vector or uniform group; zero reads 0 (R87). -/
def readNth (s : State) (o : Opnd) (i : Nat) : VReg :=
  match o with
  | .v n => readV s (n.val + i)
  | .s n => splat (readS s (n.val + i))
  | _ => zeros

/-- A pair's 64-bit value in a lane. -/
def pairAt (lo hi : VReg) (l : Nat) : DWord := hi.get l ++ lo.get l

/-- A pair operand with a PERM word applied to both halves. -/
def readPair (s : State) (o : Opnd) (perm : Option (BitVec 4 × BitVec 5)) : VReg × VReg :=
  match perm with
  | some (pat, k) => (permuted s o pat k (readNth s o 0), permuted s o pat k (readNth s o 1))
  | none => (readNth s o 0, readNth s o 1)
def permA (p : Px) : Option (BitVec 4 × BitVec 5) := p.perm.map fun m => (m.aPat, m.aPar)
def permB (p : Px) : Option (BitVec 4 × BitVec 5) := p.perm.map fun m => (m.bPat, m.bPar)

/-- Kill n consecutive names of an operand when its bit is set; only vector names are killed (01 R15). -/
def kill (o : Opnd) (bit : Bool) (n : Nat) (s : State) : Op :=
  match o with
  | .v i => if bit then (List.range n).foldlM (fun s j => killV s (i.val + j)) s else .ok s
  | _ => .ok s

/-- Write a 32-bit result (R19 R85): a vector in the active lanes, a uniform from the lowest, a push, or nothing. -/
def writeD (s : State) (o : Opnd) (m : Mask) (v : VReg) : Op :=
  match o with
  | .v n => writeV s n.val m v
  | .s n => match m.lowest with
    | some l => writeS s n.val (v.get l)
    | none => .ok s
  | .q n => qpush s n.val m (lanesOf fun l => fromLane s v l)
  | .zero => .ok s
  | .lnk => writeLnk s m v
  | _ => raise fcOpnd

/-- Write the registers of a pair or group, low half first (R87). -/
def writeGroup (s : State) (o : Opnd) (m : Mask) (vs : List VReg) : Op :=
  match o with
  | .v n => vs.zipIdx.foldlM (fun s t => writeV s (n.val + t.2) m t.1) s
  | .s n => match m.lowest with
    | some l => vs.zipIdx.foldlM (fun s t => writeS s (n.val + t.2) (t.1.get l)) s
    | none => .ok s
  | _ => .ok s

/-- The two words of a 64-bit result per lane. -/
def splitPair (f : Nat → DWord) : List VReg :=
  [lanesOf fun l => (f l).extractLsb' 0 32, lanesOf fun l => (f l).extractLsb' 32 32]

/-- The value of an operand in the lowest lane of the issuing entry that holds a thread. -/
def lowestOf (s : State) (v : VReg) : Word := wordAtLowest s.lanes v

end Sys2Proof.Machine
end

