-- ==== Sys2Proof/Machine/Integer.lean ====
section
/-! DEFINITION. Integer, immediate, compare and predicate instructions (04 R85 to R103). -/

namespace Sys2Proof.Machine

/-! Shared shapes. -/

/-- Format R: D ← op A B per active lane. -/
def alu2 (p : Px) (f : RForm) (op : Word → Word → Word) (s : State) : Out :=
  runNext p s (do
    readable f.a; readable f.b; writable f.d
    let (a, t) ← readA s p f.a
    let (b, t) ← readB t p f.b
    let t ← kill f.a f.ka 1 t
    let t ← kill f.b f.kb 1 t
    writeD t f.d (s.active p f.g) (lanesOf fun l => op (a.get l) (b.get l)))

/-- Format R with D read before it is written (R88): D ← op A B D. -/
def alu3 (p : Px) (f : RForm) (op : Word → Word → Word → Word) (s : State) : Out :=
  runNext p s (do
    readable f.a; readable f.b; writable f.d; notQueue f.d
    let (a, t) ← readA s p f.a
    let (b, t) ← readB t p f.b
    let (d, t) ← readOpnd t f.d
    let t ← kill f.a f.ka 1 t
    let t ← kill f.b f.kb 1 t
    writeD t f.d (s.active p f.g) (lanesOf fun l => op (a.get l) (b.get l) (d.get l)))

/-- Format R on pairs (R87): pair D ← op (pair A) (pair B). -/
def alu64 (p : Px) (f : RForm) (op : DWord → DWord → DWord) (s : State) : Out :=
  runNext p s (do
    pairOk f.a; pairOk f.b; pairOk f.d
    let a := readPair s f.a (permA p)
    let b := readPair s f.b (permB p)
    let t ← kill f.a f.ka 2 s
    let t ← kill f.b f.kb 2 t
    writeGroup t f.d (s.active p f.g) (splitPair fun l => op (pairAt a.1 a.2 l) (pairAt b.1 b.2 l)))

/-- Format U: D ← op A. -/
def alu1 (p : Px) (f : UForm) (op : Word → Word) (s : State) : Out :=
  runNext p s (do
    readable f.a; writable f.d
    let (a, t) ← readA s p f.a
    let t ← kill f.a f.ka 1 t
    writeD t f.d (s.active p f.g) (lanesOf fun l => op (a.get l)))

/-- Format I without reading D. -/
def aluSet (p : Px) (f : IForm) (v : Word) (s : State) : Out :=
  runNext p s (do
    writable f.d
    writeD s f.d (s.active p f.g) (splat v))

/-- Format I on D itself (03 R69). -/
def aluI (p : Px) (d : Opnd) (g : BitVec 2) (op : Word → Word) (s : State) : Out :=
  runNext p s (do
    readable d; writable d; notQueue d
    let (a, t) ← readOpnd s d
    writeD t d (s.active p g) (lanesOf fun l => op (a.get l)))

/-- The immediate value: completed by XIMM, else the extension given (03 R68). -/
def immVal (p : Px) (imm : BitVec 16) (short : Word) : Word :=
  match p.ximm with
  | some x => x ++ imm
  | none => short

/-! The computations of R90 to R95. -/

def shlW (a b : Word) : Word := if 32 ≤ b.toNat then 0#32 else a <<< b.toNat
def shrW (a b : Word) : Word := if 32 ≤ b.toNat then 0#32 else a >>> b.toNat
def sarW (a b : Word) : Word := if 32 ≤ b.toNat then (if a.msb then 0xFFFFFFFF#32 else 0#32) else a.sshiftRight b.toNat
/-- R92: the pair A:D shifted right by B[4:0]. -/
def shfrW (a b d : Word) : Word := ((a ++ d : DWord) >>> (b.toNat % 32)).extractLsb' 0 32
/-- The field descriptor of R93: position and effective length. -/
def fieldPos (b : Word) : Nat := b.toNat % 32
def fieldLen (b : Word) : Nat := min ((b.extractLsb' 8 6).toNat) (32 - fieldPos b)
def onesW (m : Nat) : Word := BitVec.ofNat 32 (2 ^ m - 1)
def bfeW (a b : Word) : Word :=
  let m := fieldLen b
  let f := (a >>> fieldPos b) &&& onesW m
  if b.getLsbD 16 && decide (0 < m) && f.getLsbD (m - 1) then f ||| ~~~ (onesW m) else f
def bfiW (a b d : Word) : Word :=
  let mask := onesW (fieldLen b) <<< fieldPos b
  (d &&& ~~~ mask) ||| ((a <<< fieldPos b) &&& mask)
def smin (a b : Word) : Word := if a.slt b then a else b
def smax (a b : Word) : Word := if a.slt b then b else a
def uminW (a b : Word) : Word := if a.ult b then a else b
def umaxW (a b : Word) : Word := if a.ult b then b else a
def mulhs (a b : Word) : Word := narrow 32 (a.toInt * b.toInt / 2 ^ 32)
def mulhu (a b : Word) : Word := BitVec.ofNat 32 (a.toNat * b.toNat / 2 ^ 32)
def countBits (f : Nat → Bool) : Nat := ((List.range 32).filter f).length
def popcW (a : Word) : Word := BitVec.ofNat 32 (countBits fun i => a.getLsbD i)
def clzW (a : Word) : Word := BitVec.ofNat 32 (((List.range 32).find? fun i => a.getLsbD (31 - i)).getD 32)
def ctzW (a : Word) : Word := BitVec.ofNat 32 (((List.range 32).find? fun i => a.getLsbD i).getD 32)
def brevW (a : Word) : Word := maskOf fun i => a.getLsbD (31 - i)
def bswapW (a : Word) : Word := a.extractLsb' 0 8 ++ a.extractLsb' 8 8 ++ a.extractLsb' 16 8 ++ a.extractLsb' 24 8

/-- Field Fk of a WID (01 R8 R9): widths F0 to F5 from bit 0 upward. -/
def widField (l : Launch) (k : Nat) (w : DWord) : Word :=
  let ws := [5, l.f1, l.f2, l.f3, l.f4, l.f5]
  BitVec.ofNat 32 (w.toNat / 2 ^ ((ws.take k).sum) % 2 ^ (ws.getD k 0))

/-! The instructions. -/

def execIadd (p : Px) (f : RForm) (s : State) : Out := alu2 p f (fun a b => a + b) s
def execIsub (p : Px) (f : RForm) (s : State) : Out := alu2 p f (fun a b => a - b) s
def execImul (p : Px) (f : RForm) (s : State) : Out := alu2 p f (fun a b => a * b) s
def execImulhs (p : Px) (f : RForm) (s : State) : Out := alu2 p f mulhs s
def execImulhu (p : Px) (f : RForm) (s : State) : Out := alu2 p f mulhu s
def execImad (p : Px) (f : RForm) (s : State) : Out := alu3 p f (fun a b d => a * b + d) s
def execIadd64 (p : Px) (f : RForm) (s : State) : Out := alu64 p f (fun a b => a + b) s
def execIsub64 (p : Px) (f : RForm) (s : State) : Out := alu64 p f (fun a b => a - b) s
def execImin (p : Px) (f : RForm) (s : State) : Out := alu2 p f smin s
def execImax (p : Px) (f : RForm) (s : State) : Out := alu2 p f smax s
def execUmin (p : Px) (f : RForm) (s : State) : Out := alu2 p f uminW s
def execUmax (p : Px) (f : RForm) (s : State) : Out := alu2 p f umaxW s
def execAnd (p : Px) (f : RForm) (s : State) : Out := alu2 p f (fun a b => a &&& b) s
def execOr (p : Px) (f : RForm) (s : State) : Out := alu2 p f (fun a b => a ||| b) s
def execXor (p : Px) (f : RForm) (s : State) : Out := alu2 p f (fun a b => a ^^^ b) s
def execAndn (p : Px) (f : RForm) (s : State) : Out := alu2 p f (fun a b => a &&& ~~~ b) s
def execShl (p : Px) (f : RForm) (s : State) : Out := alu2 p f shlW s
def execShr (p : Px) (f : RForm) (s : State) : Out := alu2 p f shrW s
def execSar (p : Px) (f : RForm) (s : State) : Out := alu2 p f sarW s
def execShfr (p : Px) (f : RForm) (s : State) : Out := alu3 p f shfrW s
def execBfe (p : Px) (f : RForm) (s : State) : Out := alu2 p f bfeW s
def execBfi (p : Px) (f : RForm) (s : State) : Out := alu3 p f bfiW s
/-- IMAD64: D alone is a pair (R90). -/
def execImad64 (p : Px) (f : RForm) (s : State) : Out :=
  runNext p s (do
    readable f.a; readable f.b; pairOk f.d
    let (a, t) ← readA s p f.a
    let (b, t) ← readB t p f.b
    let d := readPair t f.d none
    let t ← kill f.a f.ka 1 t
    let t ← kill f.b f.kb 1 t
    writeGroup t f.d (s.active p f.g)
      (splitPair fun l => (a.get l).setWidth 64 * (b.get l).setWidth 64 + pairAt d.1 d.2 l))

def execMov (p : Px) (f : UForm) (s : State) : Out := alu1 p f (fun a => a) s
def execNot (p : Px) (f : UForm) (s : State) : Out := alu1 p f (fun a => ~~~ a) s
def execNeg (p : Px) (f : UForm) (s : State) : Out := alu1 p f (fun a => 0#32 - a) s
def execAbs (p : Px) (f : UForm) (s : State) : Out := alu1 p f (fun a => if a.msb then 0#32 - a else a) s
def execPopc (p : Px) (f : UForm) (s : State) : Out := alu1 p f popcW s
def execClz (p : Px) (f : UForm) (s : State) : Out := alu1 p f clzW s
def execCtz (p : Px) (f : UForm) (s : State) : Out := alu1 p f ctzW s
def execBrev (p : Px) (f : UForm) (s : State) : Out := alu1 p f brevW s
def execSx8 (p : Px) (f : UForm) (s : State) : Out := alu1 p f (fun a => (a.extractLsb' 0 8).signExtend 32) s
def execSx16 (p : Px) (f : UForm) (s : State) : Out := alu1 p f (fun a => (a.extractLsb' 0 16).signExtend 32) s
def execZx8 (p : Px) (f : UForm) (s : State) : Out := alu1 p f (fun a => (a.extractLsb' 0 8).setWidth 32) s
def execZx16 (p : Px) (f : UForm) (s : State) : Out := alu1 p f (fun a => (a.extractLsb' 0 16).setWidth 32) s
def execBswap (p : Px) (f : UForm) (s : State) : Out := alu1 p f bswapW s
def execMov64 (p : Px) (f : UForm) (s : State) : Out :=
  runNext p s (do
    pairOk f.a; pairOk f.d
    let a := readPair s f.a (permA p)
    let t ← kill f.a f.ka 2 s
    writeGroup t f.d (s.active p f.g) [a.1, a.2])

/-- WIDFk: one field of the WID that each thread received at its start (R95). -/
def widRead (p : Px) (f : UDForm) (k : Nat) (s : State) : Out :=
  runNext p s (do
    writable f.d
    writeD s f.d (s.active p f.g) (lanesOf fun l => widField s.l k (s.w.wid.getD l 0#64)))
def execWidf0 (p : Px) (f : UDForm) (s : State) : Out := widRead p f 0 s
def execWidf1 (p : Px) (f : UDForm) (s : State) : Out := widRead p f 1 s
def execWidf2 (p : Px) (f : UDForm) (s : State) : Out := widRead p f 2 s
def execWidf3 (p : Px) (f : UDForm) (s : State) : Out := widRead p f 3 s
def execWidf4 (p : Px) (f : UDForm) (s : State) : Out := widRead p f 4 s
def execWidf5 (p : Px) (f : UDForm) (s : State) : Out := widRead p f 5 s

def execMovi (p : Px) (f : IForm) (s : State) : Out := aluSet p f (immVal p f.imm (f.imm.signExtend 32)) s
def execMovhi (p : Px) (f : IForm) (s : State) : Out := aluI p f.d f.g (fun d => f.imm ++ d.extractLsb' 0 16) s
def execIaddi (p : Px) (f : IForm) (s : State) : Out := aluI p f.d f.g (fun d => d + immVal p f.imm (f.imm.signExtend 32)) s
def execAndi (p : Px) (f : IForm) (s : State) : Out := aluI p f.d f.g (fun d => d &&& immVal p f.imm (f.imm.setWidth 32)) s
def execOri (p : Px) (f : IForm) (s : State) : Out := aluI p f.d f.g (fun d => d ||| immVal p f.imm (f.imm.setWidth 32)) s
def execXori (p : Px) (f : IForm) (s : State) : Out := aluI p f.d f.g (fun d => d ^^^ immVal p f.imm (f.imm.setWidth 32)) s
/-- SHI: kinds 0 SHL, 1 SHR, 2 SAR (03 R68). -/
def execShi (p : Px) (d : Opnd) (kind : BitVec 2) (n : BitVec 5) (g : BitVec 2) (s : State) : Out :=
  aluI p d g (fun a => if kind = 0#2 then a <<< n.toNat else if kind = 1#2 then a >>> n.toNat else a.sshiftRight n.toNat) s

/-! Compares (R97). -/

/-- An integer condition: EQ, NE, LT, LE, GT, GE (03 R66). -/
def intCond (cc : BitVec 4) (lt eq : Bool) : Bool :=
  match cc.toNat with
  | 0 => eq | 1 => !eq | 2 => lt | 3 => lt || eq | 4 => !(lt || eq) | _ => !lt

def cmpInt (p : Px) (f : CForm) (lt : Word → Word → Bool) (s : State) : Out :=
  runNext p s (do
    readable f.a; readable f.b
    let (a, t) ← readA s p f.a
    let (b, t) ← readB t p f.b
    let t ← kill f.a f.ka 1 t
    let t ← kill f.b f.kb 1 t
    writeP t f.pd.toNat (s.active p f.g) (maskOf fun l => intCond f.cc (lt (a.get l) (b.get l)) (a.get l == b.get l)))

def execIcmp (p : Px) (f : CForm) (s : State) : Out := cmpInt p f BitVec.slt s
def execUcmp (p : Px) (f : CForm) (s : State) : Out := cmpInt p f BitVec.ult s

/-! Predicates (R98 to R103): every lane of the issuing entry that holds a thread counts. -/

def execSel (p : Px) (f : SelForm) (s : State) : Out :=
  runNext p s (do
    readable f.a; readable f.b; writable f.d
    let (a, t) ← readOpnd s f.a
    let (b, t) ← readOpnd t f.b
    let q := readP s f.pn.toNat
    writeD t f.d s.lanes (lanesOf fun l => if q.has l then a.get l else b.get l))

def execPlog (p : Px) (pn : BitVec 3) (a : Opnd) (s : State) : Out :=
  runNext p s (do
    readable a
    let (v, t) ← readOpnd s a
    let bit := fun (l i : Nat) => ((readP s ((v.get l).extractLsb' i 3).toNat).has l).toNat
    writeP t pn.toNat s.lanes (maskOf fun l => (v.get l).getLsbD (4 * bit l 8 + 2 * bit l 12 + bit l 16)))

def execVote (p : Px) (pn : BitVec 3) (d : Opnd) (s : State) : Out :=
  runNext p s (do
    writable d
    let m := s.lanes
    let q := readP s pn.toNat &&& m
    let any := q != 0#32
    let all := q == m
    writeD s d m (splat (BitVec.ofNat 32 (any.toNat + 2 * all.toNat + 4 * (all || !any).toNat))))

def execBallot (p : Px) (pn : BitVec 3) (d : Opnd) (s : State) : Out :=
  runNext p s (do
    writable d
    writeD s d s.lanes (splat (readP s pn.toNat &&& s.lanes)))

def execPmov (p : Px) (pn : BitVec 3) (d : Opnd) (s : State) : Out :=
  runNext p s (do
    writable d
    let q := readP s pn.toNat
    writeD s d s.lanes (lanesOf fun l => BitVec.ofNat 32 (q.has l).toNat))

def execPmovPred (p : Px) (pn : BitVec 3) (a b : Opnd) (s : State) : Out :=
  runNext p s (do
    readable a; readable b
    let (x, t) ← readOpnd s a
    let (y, t) ← readOpnd t b
    writeP t pn.toNat s.lanes (maskOf fun l => (x.get l).getLsbD ((y.get l).toNat % 32)))

end Sys2Proof.Machine
end

