-- ==== Sys2Proof/Machine/Trace.lean ====
section
/-! DEFINITION. Records of the sample and trace rings (16 R397 R404 R405 R407). -/

namespace Sys2Proof.Machine

/-- The physical address of a partition's debug window. -/
def windowBase (s : State) (part : Nat) : Option Nat := ((s.part? part).bind (·.debugWin)).map fun g => g * 2 ^ 30

/-- A ring's fields hold allowed values and the ring fits the buffer area (R404). -/
def Ring.ok (r : Ring) : Bool :=
  let n := r.log.toNat
  decide (6 ≤ n) && decide (n ≤ 23) && r.base.toNat % 4096 == 0 && decide (r.base.toNat + 64 * 2 ^ n ≤ 0x20000000)

/-- Offer a record to a ring: written at TAIL, or counted in DROP. -/
def ringPut (s : State) (part : Nat) (tracing : Bool) (rec64 : List Byte) : State :=
  match windowBase s part, s.windows.find? fun x => x.part == part with
  | some base, some win =>
    let r := if tracing then win.tring else win.sring
    let fits := r.ok && decide ((BitVec.ofNat 64 r.tail - r.head).toNat < 2 ^ r.log.toNat)
    let s := if fits then homePerform s (placed (base + 0x20000000 + r.base.toNat + 64 * (r.tail % 2 ^ r.log.toNat)) rec64) else s
    let r := if fits then { r with tail := r.tail + 1 } else { r with drop := r.drop + 1 }
    { s with windows := updWhere (fun x => x.part == part) (fun x => if tracing then { x with tring := r } else { x with sring := r })
               s.windows }
  | _, _ => s

/-- The 64 bytes of a record (R405). -/
def ringRecord (code kind depth flags val launch : Nat) (wid : DWord) (pc blame : Word) (lanes : Mask) (value : Word)
    (time addr : Nat) : List Byte :=
  [BitVec.ofNat 8 code, BitVec.ofNat 8 kind, BitVec.ofNat 8 depth, BitVec.ofNat 8 flags] ++ leBytes 4 val ++ leBytes 8 (launchNo launch)
    ++ leBytes 8 wid.toNat ++ leBytes 4 pc.toNat ++ leBytes 4 blame.toNat ++ leBytes 4 lanes.toNat ++ leBytes 4 value.toNat
    ++ leBytes 8 time ++ leBytes 8 addr ++ leBytes 8 0

/-- FLAGS of a record for the warp in focus. -/
def recFlags (s : State) : Nat := s.w.trapMode.toNat + 2 * (decide (s.depth ≠ 0)).toNat + 4 * s.l.det.toNat

/-- A trace record of the warp in focus at an entry, with a blame PC, while its launch is claimed with tracing (R405 R407). -/
def traceAt (s : State) (e : Entry) (blame : Word) (code kind depth val : Nat) (value : Word) : State :=
  if s.l.claimer.isSome && s.l.trace then
    ringPut s s.l.part true (ringRecord code kind depth (recFlags s) val s.l.num (widOf s.w s.w.holds) e.pc blame e.mask value s.now 0)
  else s
/-- One of the issuing group. -/
def traceRec (s : State) (code kind depth val : Nat) (value : Word) : State := traceAt s s.cur s.cur.pc code kind depth val value

/-- The depth at which an instruction that may approximate runs (16 R410). -/
def apxDepth (s : State) (level : Nat) : Nat :=
  if s.l.det || s.l.exact then 0 else min level (s.cluster (clusterOf s.w.core)).gov

end Sys2Proof.Machine
end

