-- ==== Sys2Proof/Machine/System.lean ====
section
/-! DEFINITION. Control and status registers, system, debug and fibre instructions (01 R23 R28 to R31, 08 R233 to R247). -/

namespace Sys2Proof.Machine

/-! CSRs (01 R28). -/

/-- The fibres of the slot in focus, as a mask by index. -/
def fibreMask (s : State) (q : Warp → Bool) : Nat :=
  ((s.allWarps.filter fun w => w.core == s.w.core && w.quarter == s.w.quarter && w.slot == s.w.slot && w.holds != 0#32 && q w).map
    fun w => 2 ^ w.fibre).sum % 16

/-- A fault keeps the fibre from issuing (13 R343): frozen, or a fault's trap that waits for the shadows. That another trap that
waits shows as running: DEDUCED, log 67. -/
def isFrozen (w : Warp) : Bool := w.frozen.isSome || (match w.trapWait with
  | some t => t.cause == 1
  | none => false)

def fibreStat (s : State) : Word :=
  BitVec.ofNat 32 (s.w.fibre % 4 + 16 * fibreMask s (fun w => !w.stopped && !isFrozen w) + 256 * fibreMask s isFrozen
    + 4096 * fibreMask s (·.stopped) + 65536 * s.sl.band.toNat)

def rbStat (s : State) : Word :=
  if s.depth = 0 then 0#32
  else BitVec.ofNat 32 (s.depth + 16 * ((s.c.levels.head?.map (·.alt)).getD 0 % 8) + 128 * s.c.conv.isSome.toNat)

def timerCtl (w : Warp) : Word := BitVec.ofNat 32 (w.timerEn.toNat + 2 * w.timerOne.toNat + 4 * w.timerPend.toNat)

/-- The value that a read of a listed CSR returns. -/
def csrValue (s : State) (num : Nat) : Option Word :=
  match num with
  | 0x000 => some (s.w.fpmode.setWidth 32)
  | 0x001 => some (s.w.fpflags.setWidth 32)
  | 0x002 => some (s.w.trapen.setWidth 32)
  | 0x010 => some (BitVec.ofNat 32 s.now)
  | 0x011 => some (if s.w.trapMode then s.w.trapHi else s.w.chipHi)
  | 0x012 => some s.w.timerLo
  | 0x013 => some (s.w.timerCmp.extractLsb' 32 32)
  | 0x014 => some (timerCtl s.w)
  | 0x020 => some (rbStat s)
  | 0x021 => some (s.w.rbcause.setWidth 32)
  | 0x022 => some (s.w.rbcode.setWidth 32)
  | 0x023 => some (if s.w.handler then 0#32 else (s.c.conv.map (·.ident)).getD 0#32)
  | 0x030 => some (BitVec.ofNat 32 s.w.winbase)
  | 0x031 => some (BitVec.ofNat 32 (s.w.quota % 512 + 65536 * (s.boundCount % 512)))
  | 0x040 => some s.w.waitlim
  | 0x050 => some (fibreStat s)
  | 0x060 => some (BitVec.ofNat 32 (s.l.det.toNat + 2 * s.l.check.toNat + 4 * s.l.exact.toNat))
  | 0x800 => some (s.w.trapCause.setWidth 32)
  | 0x801 => some s.w.trapPc
  | 0x802 => some (s.w.trapAddr.extractLsb' 0 32)
  | 0x803 => some (s.w.trapAddr.extractLsb' 32 32)
  | 0x804 => some s.w.trapLanes
  | 0x805 => some s.w.trapBlame
  | _ => none

/-- The CSRs that a write may change. -/
def csrWritable (num : Nat) : Bool := [0x000, 0x001, 0x002, 0x012, 0x013, 0x014, 0x030, 0x040, 0x801].contains num

/-- The bits that a write of a writable CSR must leave 0 are 0; a window base lies in 0 to 13. -/
def csrBits (num : Nat) (x : Word) : Bool :=
  match num with
  | 0x000 | 0x002 => decide (x.toNat < 16)
  | 0x001 => decide (x.toNat < 32)
  | 0x014 => decide (x.toNat < 8)
  | 0x030 => decide (x.toNat ≤ 13)
  | 0x801 => decide (x.toNat % 4 = 0)
  | _ => true

/-- The value that the log keeps of a CSR (09 R252): TIMERCMP high keeps the whole committed comparator; PEND is not kept. -/
def csrOld (w : Warp) (num : Nat) : DWord :=
  match num with
  | 0x000 => w.fpmode.setWidth 64
  | 0x001 => w.fpflags.setWidth 64
  | 0x002 => w.trapen.setWidth 64
  | 0x012 => w.timerLo.setWidth 64
  | 0x013 => w.timerCmp
  | 0x014 => BitVec.ofNat 64 (w.timerEn.toNat + 2 * w.timerOne.toNat)
  | 0x030 => BitVec.ofNat 64 w.winbase
  | 0x031 => BitVec.ofNat 64 w.quota
  | 0x040 => w.waitlim.setWidth 64
  | _ => 0#64

/-- A warp whose writable CSR has taken a value that csrBits allows. -/
def csrSet (w : Warp) (num : Nat) (x : Word) : Warp :=
  match num with
  | 0x000 => { w with fpmode := x.extractLsb' 0 4 }
  | 0x001 => { w with fpflags := x.extractLsb' 0 5 }
  | 0x002 => { w with trapen := x.extractLsb' 0 4 }
  | 0x012 => { w with timerLo := x }
  | 0x013 => { w with timerCmp := x ++ w.timerLo }
  | 0x014 => { w with timerEn := x.getLsbD 0, timerOne := x.getLsbD 1, timerPend := w.timerPend && !x.getLsbD 2 }
  | 0x030 => { w with winbase := x.toNat }
  | 0x040 => { w with waitlim := x }
  | 0x801 => { w with trapPc := x }
  | _ => w

def csrWrite (s : State) (num : Nat) (x : Word) : Op := do
  need (csrWritable num) fcOpnd
  need (csrBits num x) fcOpnd
  let t ← if num < 0x800 then logEntry s (.csr s.w.id num (csrOld s.w num)) else .ok s
  .ok { t with w := csrSet t.w num x }

/-- A read of CHIPT_LO latches the upper half, in trap mode into the trap latch (R30). -/
def csrLatch (s : State) (num : Nat) : State :=
  if num = 0x010 then
    let hi : Word := BitVec.ofNat 32 (s.now / 2 ^ 32)
    if s.w.trapMode then { s with w := { s.w with trapHi := hi } } else { s with w := { s.w with chipHi := hi } }
  else s

/-- The number is listed, and below 0x800 outside trap mode (R28). -/
def csrListed (s : State) (num : Nat) : Except Exc Unit :=
  need ((csrValue s num).isSome && (s.w.trapMode || decide (num < 0x800))) fcIllegal

def execMfsr (p : Px) (d : Opnd) (csr : BitVec 12) (s : State) : Out :=
  runNext p s (do
    csrListed s csr.toNat
    writable d
    writeD (csrLatch s csr.toNat) d s.lanes (splat ((csrValue s csr.toNat).getD 0#32)))

def execMtsr (p : Px) (d : Opnd) (csr : BitVec 12) (s : State) : Out :=
  runNext p s (do
    csrListed s csr.toNat
    readable d
    need (csrWritable csr.toNat) fcOpnd
    let (v, t) ← readOpnd s d
    csrWrite t csr.toNat (lowestOf s v))

/-! Traps (R240, 14 R366). -/

def execTrap (p : Px) (code : BitVec 8) (s : State) : Out :=
  if s.w.trapMode then run p s (raise fcIllegal)
  else if s.l.handlerPc = 0#32 then
    .next (freezeFault s 4 (Config.trapFcode code.toNat) 0#64 s.cur.pc s.cur.mask)
  else .next (trapEnter (finish s) ⟨6, code.toNat, s.nextPc p, s.cur.pc, 0#64, s.cur.mask⟩)

/-- Ask for a halt after the instruction, for the claiming debugger: kind and code of its record (16 R400 R405). -/
def askHalt (s : State) (kind code : Nat) : State := { s with w := { s.w with haltReq := true, haltWhy := (kind, code) } }

def execBrk (p : Px) (code : BitVec 8) (s : State) : Out :=
  if !s.w.trapMode && s.w.trapen.getLsbD 3 && s.l.handlerPc != 0#32 then
    .next (trapEnter (finish s) ⟨5, code.toNat, s.nextPc p, s.cur.pc, 0#64, s.cur.mask⟩)
  else runNext p s (.ok (if s.l.claimer.isSome then askHalt s 2 code.toNat else s))

def execHaltself (p : Px) (s : State) : Out :=
  runNext p s (.ok (if s.l.claimer.isSome then askHalt s 3 0 else s))

/-- MARK (R245): D's pop is its only effect on the warp. The record names the instruction word's own PC (03 R73). -/
def execMark (p : Px) (d : Opnd) (code : BitVec 12) (s : State) : Out :=
  runNext p s (do
    readable d
    let (v, t) ← readOpnd s d
    .ok (traceAt t { s.cur with pc := s.wordPc p } (s.wordPc p) 2 0 0 code.toNat (wordAtLowest s.w.holds v)))

/-- TBSET (R242). -/
def execTbset (p : Px) (d : Opnd) (v : Bool) (s : State) : Out :=
  runNext p s (do
    need d.isS fcOpnd
    need (decide (s.depth = 0)) fcTbBlock
    let (x, t) ← readOpnd s d
    let id := (lowestOf s x).toNat
    need (decide (id < 32) && id != 0 && s.l.tbufs.any fun b => b.id == id) fcTbId
    noHeldWrites t
    .ok { t with l := { t.l with tbufs := updWhere (fun b => b.id == id) (fun b => { b with full := v }) t.l.tbufs } })

/-! Fibres (R234 to R237, 01 R23). -/

/-- Change the fibres of the slot in focus that a mask names. -/
def mapFibres (s : State) (mask : BitVec 4) (f : Warp → Warp) : State :=
  s.mapWarps (fun w => w.core == s.w.core && w.quarter == s.w.quarter && w.slot == s.w.slot && mask.getLsbD w.fibre) f

def execFibreStart (p : Px) (mask : BitVec 4) (s : State) : Out :=
  runNext p s (.ok (mapFibres s mask fun w => { w with stopped := false }))

def execFibreStop (p : Px) (mask : BitVec 4) (s : State) : Out :=
  runNext p s (do
    need (!mask.getLsbD s.w.fibre) fcOpnd
    .ok (mapFibres s mask fun w => { w with stopped := true }))

def execFibreSelf (p : Px) (d : Opnd) (s : State) : Out :=
  runNext p s (do
    writable d
    writeD s d s.lanes (splat (BitVec.ofNat 32 s.w.fibre)))

def execFibreState (p : Px) (d : Opnd) (s : State) : Out :=
  runNext p s (do
    writable d
    writeD s d s.lanes (splat (fibreStat s)))

/-- The slot's band becomes b: names that join take the issuing fibre's bindings, names that leave stay with it. -/
def setBand (s : State) (b : BitVec 8) : State :=
  let isIn := fun (m : BitVec 8) (a : Nat) => decide (448 ≤ a) && m.getLsbD ((a - 448) / 8)
  let stay := s.sl.bandRegs.filter fun r => isIn b r.1
  let leave := s.sl.bandRegs.filter fun r => !isIn b r.1
  let joining := s.w.regs.filter fun r => isIn b r.1
  let drop := fun w : Warp => { w with regs := w.regs.filter fun r => !isIn b r.1 }
  let s := s.mapWarps (fun w => w.core == s.w.core && w.quarter == s.w.quarter && w.slot == s.w.slot) drop
  { s with
    w := { s.w with regs := leave.foldl (fun m r => assocPut r.1 r.2 m) s.w.regs }
    sl := { s.sl with band := b, bandRegs := joining.foldl (fun m r => assocPut r.1 r.2 m) stay } }

/-- The names that count against a fibre's quota (01 R23). -/
def boundOf (s : State) (w : Warp) : Nat := w.regs.length + (if s.lowestFibre w then s.sl.bandRegs.length else 0)

def execFibreWin (p : Px) (a : Opnd) (s : State) : Out :=
  runNext p s (do
    uniOrZero a
    need (!s.l.travel && decide (s.depth = 0)) fcBand
    let x := lowestOf s (readNth s a 0)
    need (decide (x.toNat < 256)) fcBand
    let t := setBand s (x.extractLsb' 0 8)
    let here := fun (u : State) => u.allWarps.filter fun w =>
      w.core == s.w.core && w.quarter == s.w.quarter && w.slot == s.w.slot && w.holds != 0#32
    need ((here t).all fun w => decide (boundOf t w ≤ w.quota) ||
      (here s).any fun v => v.id == w.id && decide (boundOf t w ≤ boundOf s v)) fcRegQuota
    .ok t)

end Sys2Proof.Machine
end

