-- ==== Sys2Proof/Machine/Debug.lean ====
section
/-! DEFINITION. The debug window: its areas, the views of a halted warp, its port registers (16 R396 to R401 R404, 14 R374). -/

namespace Sys2Proof.Machine

def State.window (s : State) (part : Nat) : Window := (s.windows.find? fun x => x.part == part).getD { part := part }
def State.mapWindow (s : State) (part : Nat) (f : Window → Window) : State :=
  if s.windows.any (fun x => x.part == part) then { s with windows := updWhere (fun x => x.part == part) f s.windows }
  else { s with windows := f { part := part } :: s.windows }
def State.port (s : State) (part p : Nat) : Port := (s.window part).ports.getD p {}
def State.mapPort (s : State) (part p : Nat) (f : Port → Port) : State :=
  s.mapWindow part fun x => { x with ports := x.ports.modify p f }

/-- The resident warp that holds the thread PWID of PLAUNCH (R399). -/
def portWarp (s : State) (part : Nat) (q : Port) : Option Warp :=
  s.allWarps.find? fun w => (match s.cohort? w.cid with
    | some c => c.launch == 16 * q.plaunch.toNat + part
    | none => false) && w.holds.lanes.any fun l => w.wid.getD l 0#64 == q.pwid

/-- Bytes of a tile as a view shows it: lines, then scale lines (R401, 02 R39). -/
def packBytes (bits : Nat) (cs : List Nat) : List Byte :=
  (List.range (ceilDiv (cs.length * bits) 8)).map fun i =>
    if bits = 4 then BitVec.ofNat 8 (cs.getD (2 * i) 0 % 16 + 16 * (cs.getD (2 * i + 1) 0 % 16))
    else BitVec.ofNat 8 (cs.getD (8 * i / bits) 0 / 2 ^ (8 * i % bits))
def unpackBytes (bits n : Nat) (bs : List Byte) : List Nat :=
  (List.range n).map fun i => leNat bs / 2 ^ (bits * i) % 2 ^ bits

/-- Lines of a tile and elements of a line. -/
def tileLines (t : Tile) : Nat := match t.kind with | .b => t.record.localN | _ => t.record.m
def tileLineLen (t : Tile) : Nat := match t.kind with | .c => t.record.localN | _ => t.record.k
def lineBytes (t : Tile) : Nat := ceilDiv (tileLineLen t * fmtBits t.record.fmt) 8
def scaleLen (t : Tile) : Nat := if t.record.blk then ceilDiv t.record.k 48 else 0

/-- A tile with its contents; one that nothing has filled has free values of its format. -/
def drawTile (s : State) (t : Tile) : Tile × State :=
  match t.data with
  | some _ => (t, s)
  | none =>
    let n := tileLines t * tileLineLen t
    let k := tileLines t * scaleLen t
    ({ t with
       data := some ((List.range n).map fun i => BitVec.ofNat 32 ((Config.freeTile (s.fresh + i)).toNat % 2 ^ fmtBits t.record.fmt))
       scales := (List.range k).map fun i => (Config.freeTile (s.fresh + n + i)).toNat % 256 }, { s with fresh := s.fresh + n + k })

def tileImage (t : Tile) : List Byte :=
  let d := t.data.getD []
  (List.range (tileLines t)).flatMap (fun i =>
    packBytes (fmtBits t.record.fmt) ((List.range (tileLineLen t)).map fun j => (d.getD (i * tileLineLen t + j) 0#32).toNat))
    ++ t.scales.map fun x => BitVec.ofNat 8 x

/-- A tile after a change of its image. -/
def tileOfImage (t : Tile) (img : List Byte) : Tile :=
  let n := lineBytes t
  let cs := (List.range (tileLines t)).flatMap fun i => unpackBytes (fmtBits t.record.fmt) (tileLineLen t) ((img.drop (i * n)).take n)
  { t with data := some (cs.map fun c => BitVec.ofNat 32 c)
           scales := ((img.drop (tileLines t * n)).take (tileLines t * scaleLen t)).map (·.toNat) }

/-- What an instruction keeps in its wait, as numbers. -/
def Keep.nums : Keep → List Nat
  | .none => [0]
  | .bar n p h => [1, n, p, h.toNat]
  | .fbar m p h => [2, m.toNat, p, h.toNat]
  | .waita a b xs => 3 :: a :: b :: xs.flatMap fun x => [x.1, x.2]
  | .sleep a b => [4, a, b]
  | .status n => [5, n]
  | .conv a => [6, match a with | Option.none => 0 | Option.some Option.none => 1 | Option.some (Option.some c) => c + 2]
/-- The contents of STATE (R374): resident, stopped, frozen, trap mode, halted; the stall kind with its kept state; the open TOKEN. -/
def stateNums (w : Warp) : List Nat :=
  [w.resident.toNat, w.stopped.toNat, (isFrozen w).toNat, w.trapMode.toNat, w.halted.toNat,
    match w.frozen with | some (.xlate t _ _ _ _) => t | some (.fault t _) => t | none => 0,
    match w.stall with | some x => x.kind.ctorIdx + 1 | none => 0] ++ w.keep.nums

/-- The fibre section of the warp in focus up to its opaque part; what NAMEMAP has for a bound name: in a view 0 (R401). -/
def fibBytes (s : State) (index : Nat → Nat := fun _ => 0) : List Byte :=
  let w := s.w
  let name := fun a => if inBand s a then 0xFFFE else if (assoc a w.regs).isSome then index a else 0xFFFF
  let entries := fun (es : List Entry) => (List.range 8).flatMap fun i =>
    match es[i]? with
    | some e => leBytes 4 e.pc.toNat ++ leBytes 4 e.mask.toNat
    | none => leBytes 8 0
  (List.range 512).flatMap (fun a => leBytes 2 (name a))
    ++ w.sregs.flatMap (fun x => leBytes 4 x.toNat) ++ w.preds.flatMap (fun x => leBytes 4 x.toNat)
    ++ w.lnk.flatMap (fun x => leBytes 4 x.toNat)
    ++ (List.range 32).flatMap (fun i => leBytes 4 ((csrValue s (Config.csrAt i)).getD 0#32).toNat)
    ++ entries w.front ++ entries (match w.aside with | some (es, e) => e :: es | none => [])
    ++ w.remap.map (fun x => BitVec.ofNat 8 x)
    ++ w.hmap.map (fun h => match h.bind fun p => (tileAt s.k p).bind (·.handle) with | some p => BitVec.ofNat 8 p | none => 0xFF#8)
    ++ w.qbind.flatMap (fun b => match b with
        | some k => leBytes 4 k.sub ++ leBytes 4 (match k with | .warp o => o | .fibre n => n | .copy c => c | .copydone c => c | .cont q => q | _ => 0)
        | none => leBytes 8 0)
    ++ (List.range 32).map (Config.stateByte (stateNums w))

/-- A field of n bytes at an offset in little-endian bytes. -/
def fieldAt (bs : List Byte) (off n : Nat) : Nat := leNat ((bs.drop off).take n)

/-- Bytes of the registers of a port (R398). -/
def portBytes (q : Port) : List Byte :=
  leBytes 8 q.plaunch.toNat ++ leBytes 8 q.pwid.toNat ++ leBytes 8 q.phandle ++ leBytes 8 0
    ++ leBytes 8 ((decide (q.cmds ≠ [])).toNat + 256 * (q.result % 256) + 2 ^ 32 * (q.completed % 2 ^ 32))
    ++ leBytes 216 0 ++ q.bps.flatMap fun b =>
      leBytes 4 b.pc.toNat ++ leBytes 4 b.armed.toNat ++ leBytes 8 b.mask.toNat ++ leBytes 8 b.val.toNat ++ leBytes 8 0

def ringBytes (r : Ring) : List Byte :=
  leBytes 8 r.base.toNat ++ leBytes 8 r.log.toNat ++ leBytes 8 r.head.toNat ++ leBytes 8 r.tail ++ leBytes 8 r.drop
/-- Bytes of the control page (R404). -/
def controlBytes (x : Window) : List Byte :=
  leBytes 8 x.speriod.toNat ++ ringBytes x.sring ++ leBytes 16 0 ++ ringBytes x.tring

/-- Record result 3 or 5 of a view access in PSTAT (R401). -/
def viewResult (s : State) (part p n : Nat) : State := s.mapPort part p fun q => { q with result := n }

/-- The warp that a view may act on: halted; for SHVIEW its whole cohort halted. -/
def viewWarp (s : State) (part : Nat) (q : Port) (whole : Bool) : Option Warp :=
  match portWarp s part q with
  | some w => if w.halted && (!whole || (s.everyWarp w.cid).all (·.halted)) then some w else none
  | none => none

/-- The tile that TILEVIEW shows: bound to PHANDLE and not pending. -/
def viewTile (s : State) (w : Warp) (q : Port) : Option Tile :=
  match (w.hmap.getD q.phandle none).bind (tileAt (s.coreOf w.core)) with
  | some t => if t.pend.isNone then some t else none
  | none => none

/-- Offsets of a port above its registers that no view takes (R398). -/
def noView (o : Nat) : Bool := decide (0x20800 ≤ o) && decide (o < 0x40000) || decide (0xC0000 ≤ o)

/-- A read of n bytes at a window offset (R397 to R401). -/
def winRead (s : State) (part off n : Nat) : Nat × State :=
  if off < 0x10000000 then
    let p := off / 0x1000000
    let o := off % 0x1000000
    let q := s.port part p
    if o < 0x10000 then (fieldAt (portBytes q) o n, s)
    else
      let whole := decide (0x40000 ≤ o) && decide (o < 0x80000)
      if noView o then (0, s)
      else match viewWarp s part q whole with
      | none => (0, viewResult s part p 3)
      | some w =>
        if o < 0x20000 then
          let a := (o - 0x10000) / 128
          let v := (boundReg (s.focus w.id) a).getD zeros
          (fieldAt (v.flatMap fun x => leBytes 4 x.toNat) (o % 128) n, s)
        else if o < 0x20800 then
          let b := fibBytes (s.focus w.id)
          let f := o - 0x20000
          (leNat ((List.range n).map fun i => if f + i < b.length then b.getD (f + i) 0#8 else Config.viewByte s.stepNo (f + i)), s)
        else if o < 0x80000 then
          match s.cohort? w.cid with
          | some c => (leNat ((List.range n).map fun i => if o - 0x40000 + i < c.sharedSize then memGet c.shared (o - 0x40000 + i) else 0#8), s)
          | none => (0, s)
        else match viewTile s w q with
          | some t =>
            if t.data.isSome then (fieldAt (tileImage t) (o - 0x80000) n, s)
            else (leNat ((List.range n).map fun i => Config.viewByte s.stepNo (o + i)), s)
          | none => (0, s)
  -- a record stands before the TAIL that counts it (R404)
  else if off < 0x10001000 then (fieldAt (controlBytes (s.window part)) (off - 0x10000000) n, catchUp s)
  else (0, s)
/-- A value with n bytes from a byte place on replaced. -/
def patch (len old at_ n val : Nat) : Nat :=
  leNat ((List.range len).map fun i => if at_ ≤ i && i < at_ + n then BitVec.ofNat 8 (val / 2 ^ (8 * (i - at_))) else BitVec.ofNat 8 (old / 2 ^ (8 * i)))

/-- A register of 8 bytes after a write of n bytes at an offset within it. -/
def patch8 (old : DWord) (off n val : Nat) : DWord := BitVec.ofNat 64 (patch 8 old.toNat (off % 8) n val)

/-- A write of port registers (R398). -/
def portWrite (s : State) (part p o n val : Nat) (writer : Nat) : State :=
  s.mapPort part p fun q =>
    if o < 8 then { q with plaunch := patch8 q.plaunch o n val }
    else if o < 16 then { q with pwid := patch8 q.pwid o n val }
    else if o < 24 then { q with phandle := (patch8 (BitVec.ofNat 64 q.phandle) o n val).toNat % 32 }
    else if o < 32 then { q with cmds := q.cmds ++ [(writer, patch8 0#64 o n val)] }
    else if 0x100 ≤ o ∧ o < 0x300 then
      { q with bps := q.bps.modify ((o - 0x100) / 32) fun b =>
          let f := o % 32
          if f < 4 then { b with pc := BitVec.ofNat 32 (patch 4 b.pc.toNat f (min n 4) val) }
          else if f < 8 then b
          else if f < 16 then { b with mask := patch8 b.mask f n val }
          else if f < 24 then { b with val := patch8 b.val f n val }
          else b }
    else q

/-- A write of the fibre section of the warp in focus: uniform registers, predicates, lnk, writable CSRs, the PCs of FRONT. -/
def fibWrite (s : State) (f val : Nat) : State :=
  let x : Word := BitVec.ofNat 32 val
  if f < 0x400 then s
  else if f < 0x440 then { s with w := { s.w with sregs := s.w.sregs.set ((f - 0x400) / 4) x } }
  else if f < 0x460 then { s with w := { s.w with preds := s.w.preds.set ((f - 0x440) / 4) x } }
  else if f < 0x4E0 then { s with w := { s.w with lnk := s.w.lnk.set ((f - 0x460) / 4) x } }
  else if f < 0x560 then
    let num := Config.csrAt ((f - 0x4E0) / 4)
    if csrWritable num && csrBits num x then { s with w := csrSet s.w num x } else s
  else if f < 0x5A0 && f % 8 == 0 then
    { s with w := { s.w with front := s.w.front.modify ((f - 0x560) / 8) fun e => { e with pc := x, src := x } } }
  else s

/-- A write of n bytes through a view of the warp in focus (R401). -/
def viewWrite (s : State) (part p o n val : Nat) : State :=
  if o < 0x20000 then
    let a := (o - 0x10000) / 128
    let old := boundReg s a
    if old.isNone && quotaFull s a then viewResult s part p 5
    else
      let v := old.getD zeros
      bindReg s a (lanesOf fun l =>
        if o % 128 / 4 ≤ l ∧ l < o % 128 / 4 + n / 4 then BitVec.ofNat 32 (val / 2 ^ (32 * (l - o % 128 / 4))) else v.get l)
  else if o < 0x20800 then
    (List.range (n / 4)).foldl (fun s i => fibWrite s (o - 0x20000 + 4 * i) (val / 2 ^ (32 * i) % 2 ^ 32)) s
  else if o < 0x80000 then
    let bs := ((List.range n).filter fun i => decide (o - 0x40000 + i < s.c.sharedSize)).map fun i =>
      (o - 0x40000 + i, (BitVec.ofNat 8 (val / 2 ^ (8 * i)) : Byte))
    let lines := (bs.map (·.1 / 128)).dedup
    let s := lines.foldl (fun s n => stashTime s true n) s
    { s with c := { s.c with shared := memPuts s.c.shared bs
                             stash := updWhere (fun x => lines.contains x.line) (fun x => { x with dirty := true, lastUse := s.cyc }) s.c.stash } }
  else match viewTile s s.w (s.port part p) with
    | some t =>
      let (t, s) := drawTile s t
      let img := tileImage t
      let at_ := o - 0x80000
      let img := (List.range img.length).map fun i =>
        if at_ ≤ i && i < at_ + n then BitVec.ofNat 8 (val / 2 ^ (8 * (i - at_))) else img.getD i 0#8
      { s with k := { s.k with tiles := updWhere (fun x => x.phys == t.phys) (fun _ => tileOfImage t img) s.k.tiles } }
    | none => s

/-- Bring a warp into focus for an operation, and the old one back. -/
def within (s : State) (w : Nat) (f : State → State) : State :=
  let old := if s.w.resident then some s.w.id else none
  let t := f (s.focus w)
  match old with
  | some i => t.focus i
  | none => t

/-- A write of n bytes at a window offset by a warp of a launch. -/
def winWrite (s : State) (part off n val writer : Nat) : State :=
  if off < 0x10000000 then
    let p := off / 0x1000000
    let o := off % 0x1000000
    if o < 0x10000 then portWrite s part p o n val writer
    else if noView o then s
    else match viewWarp s part (s.port part p) (decide (0x40000 ≤ o) && decide (o < 0x80000)) with
      | none => viewResult s part p 3
      | some w => within s w.id fun t => viewWrite t part p o n val
  else if off < 0x10001000 then
    let o := off - 0x10000000
    s.mapWindow part fun x =>
      let ring := fun (r : Ring) (f : Nat) =>
        if f < 8 then { r with base := patch8 r.base f n val }
        else if f < 16 then { r with log := patch8 r.log f n val }
        else if f < 24 then { r with head := patch8 r.head f n val }
        else r
      if o < 8 then { x with speriod := patch8 x.speriod o n val, periodAt := s.cyc }
      else if o < 0x30 then { x with sring := ring x.sring (o - 8) }
      else if 0x40 ≤ o ∧ o < 0x68 then { x with tring := ring x.tring (o - 0x40) }
      else x
  else s

end Sys2Proof.Machine
end

