-- ==== Sys2Proof/Machine/Flags.lean ====
section
/-! DEFINITION. Number formats, exact values, rounding, and the floating flags (02 R34 to R53, 05 R125 to R136). -/

namespace Sys2Proof.Machine

/-- A wide format (R34). -/
structure Fmt where
  ebits : Nat
  mbits : Nat
  bias : Nat
deriving DecidableEq, Repr

def f32 : Fmt := ⟨8, 23, 127⟩
def f16 : Fmt := ⟨5, 10, 15⟩
def b16 : Fmt := ⟨8, 7, 127⟩

/-- The value of a code: a NaN, an infinity, or (−1)^neg × m × 2^e exactly. -/
inductive Num where
  | nan (signalling : Bool)
  | inf (neg : Bool)
  | fin (neg : Bool) (m : Nat) (e : Int)
deriving DecidableEq, Repr

/-- FPFLAGS bits: NV 4, DZ 3, OF 2, UF 1, NX 0 (01 R28). -/
abbrev Flags := BitVec 5
def noFlags : Flags := 0#5
def flNV : Flags := 16#5
def flDZ : Flags := 8#5
def flOF : Flags := 4#5
def flUF : Flags := 2#5
def flNX : Flags := 1#5

/-- Rounding modes: 0 RNE, 1 RZ, 2 RU, 3 RD. -/
abbrev Mode := BitVec 2

/-- The rounding and the flushes in force for an instruction (R40). -/
structure FEnv where
  mode : Mode
  flush32 : Bool
  flush16 : Bool
deriving DecidableEq, Repr

def fenv (s : State) (p : Px) : FEnv :=
  match p.rnd with
  | some (m, ov) => ⟨m, !ov && s.w.fpmode.getLsbD 2, !ov && s.w.fpmode.getLsbD 3⟩
  | none => ⟨s.w.fpmode.extractLsb' 0 2, s.w.fpmode.getLsbD 2, s.w.fpmode.getLsbD 3⟩

def FEnv.flushOf (v : FEnv) (f : Fmt) : Bool := if f.ebits = 8 ∧ f.mbits = 23 then v.flush32 else v.flush16

def Fmt.width (f : Fmt) : Nat := 1 + f.ebits + f.mbits
/-- The canonical NaN (R34). -/
def Fmt.nan (f : Fmt) : Nat := (2 ^ (f.ebits + 1) - 1) * 2 ^ (f.mbits - 1)
def Fmt.inf (f : Fmt) (neg : Bool) : Nat := neg.toNat * 2 ^ (f.ebits + f.mbits) + (2 ^ f.ebits - 1) * 2 ^ f.mbits
def Fmt.maxFinite (f : Fmt) (neg : Bool) : Nat := f.inf neg - 1
def Fmt.zero (f : Fmt) (neg : Bool) : Nat := neg.toNat * 2 ^ (f.ebits + f.mbits)

/-- The value of a code of a wide format; a flushed subnormal reads as a zero of its sign (R34 R41). -/
def Fmt.read (f : Fmt) (flush : Bool) (x : Nat) : Num :=
  let frac := x % 2 ^ f.mbits
  let ex := x / 2 ^ f.mbits % 2 ^ f.ebits
  let neg := x / 2 ^ (f.ebits + f.mbits) % 2 == 1
  if ex = 2 ^ f.ebits - 1 then (if frac = 0 then .inf neg else .nan (frac / 2 ^ (f.mbits - 1) == 0))
  else if ex = 0 then (if flush then .fin neg 0 0 else .fin neg frac (1 - (f.bias : Int) - f.mbits))
  else .fin neg (2 ^ f.mbits + frac) ((ex : Int) - f.bias - f.mbits)

def Num.isNan : Num → Bool | .nan _ => true | _ => false
def Num.isSig : Num → Bool | .nan b => b | _ => false
def Num.isZero : Num → Bool | .fin _ m _ => m == 0 | _ => false
def Num.neg : Num → Bool | .nan _ => false | .inf n => n | .fin n _ _ => n
def Num.negate : Num → Num | .nan b => .nan b | .inf n => .inf (!n) | .fin n m e => .fin (!n) m e

/-- m × 2^k rounded to an integer in a mode, for a number of the sign given; and whether it was inexact. -/
def roundInt (mode : Mode) (neg : Bool) (m : Nat) (k : Int) : Nat × Bool :=
  match k with
  | .ofNat n => (m * 2 ^ n, false)
  | .negSucc n =>
    let d := 2 ^ (n + 1)
    let q := m / d
    let r := m % d
    let up := if mode = 0#2 then decide (d < 2 * r) || (2 * r == d && q % 2 == 1)
      else if mode = 2#2 then r != 0 && !neg
      else if mode = 3#2 then r != 0 && neg else false
    (if up then q + 1 else q, r != 0)

/-- The overflow table (R42). -/
def overflowTo (f : Fmt) (mode : Mode) (neg : Bool) : Nat :=
  let toInf := mode == 0#2 || (mode == 2#2 && !neg) || (mode == 3#2 && neg)
  if toInf then f.inf neg else f.maxFinite neg

/-- Round (−1)^neg × m × 2^e to a wide format (R41 R42). -/
def Fmt.round (f : Fmt) (mode : Mode) (flush : Bool) (neg : Bool) (m : Nat) (e : Int) : Nat × Flags :=
  if m = 0 then (f.zero neg, noFlags)
  else
    let top : Int := e + Nat.log2 m
    let emin : Int := 1 - (f.bias : Int)
    let q1 := top - f.mbits
    let r1 := roundInt mode neg m (e - q1)
    -- the exponent after rounding with an unbounded range
    let top1 := if r1.1 = 2 ^ (f.mbits + 1) then top + 1 else top
    if top1 < emin then
      if flush then (f.zero neg, flUF ||| flNX)
      else
        let r := roundInt mode neg m (e - (emin - f.mbits))
        (f.zero neg + r.1, if r.2 then flUF ||| flNX else noFlags)
    else if top1 > (f.bias : Int) then (overflowTo f mode neg, flOF ||| flNX)
    else
      let q := if top < emin then emin - f.mbits else q1
      let r := roundInt mode neg m (e - q)
      -- r.1 lies in [2^mbits, 2^(mbits + 1)]; the carry runs into the exponent field
      (f.zero neg + ((q + f.mbits + f.bias - 1).toNat) * 2 ^ f.mbits + r.1, if r.2 then flNX else noFlags)

/-- Deliver a value in a format. -/
def Fmt.deliver (f : Fmt) (mode : Mode) (flush : Bool) : Num → Nat × Flags
  | .nan _ => (f.nan, noFlags)
  | .inf n => (f.inf n, noFlags)
  | .fin n m e => f.round mode flush n m e

/-- NV for a signalling operand (R44). -/
def nvSig (xs : List Num) : Flags := if xs.any Num.isSig then flNV else noFlags

/-- A signed dyadic as an integer on the grid 2^g. -/
def onGrid (neg : Bool) (m : Nat) (e g : Int) : Int :=
  let v : Int := (m * 2 ^ (e - g).toNat : Nat)
  if neg then -v else v

/-- The exact sum of addends with the sign rule of a zero (R46) and the invalid case infinity − infinity (R44). -/
def sumNums (mode : Mode) (xs : List Num) : Num × Flags :=
  let hasInf := fun b => xs.any fun x => x == .inf b
  if hasInf true && hasInf false then (.nan false, flNV)
  else if xs.any Num.isNan then (.nan false, noFlags)
  else if hasInf true then (.inf true, noFlags)
  else if hasInf false then (.inf false, noFlags)
  else
      let g := xs.foldl (fun (g : Int) x => match x with
        | .fin _ m e => if m = 0 then g else min g e
        | _ => g) 0
      let total := xs.foldl (fun (t : Int) x => match x with
        | .fin n m e => if m = 0 then t else t + onGrid n m e g
        | _ => t) 0
      if total = 0 then
        let zero := xs.all Num.isZero
        if zero && xs.all (fun x => x.neg) then (.fin true 0 0, noFlags)
        else if zero && xs.all (fun x => !x.neg) then (.fin false 0 0, noFlags)
        else (.fin (mode == 3#2) 0 0, noFlags)
      else (.fin (decide (total < 0)) total.natAbs g, noFlags)

/-- A product, with the invalid case 0 × infinity (R44). A zero product has the XOR of the signs, of integer elements too (R52):
DEDUCED, log 68. -/
def mulNum (a b : Num) : Num × Flags :=
  match a, b with
  | .nan _, _ => (.nan false, noFlags)
  | _, .nan _ => (.nan false, noFlags)
  | .inf n, .inf k => (.inf (n != k), noFlags)
  | .inf n, .fin k m _ => if m = 0 then (.nan false, flNV) else (.inf (n != k), noFlags)
  | .fin k m _, .inf n => if m = 0 then (.nan false, flNV) else (.inf (n != k), noFlags)
  | .fin n m e, .fin k l d => (.fin (n != k) (m * l) (e + d), noFlags)

/-! Operations on codes of a wide format. -/

def fAdd (f : Fmt) (v : FEnv) (a b : Nat) : Nat × Flags :=
  let x := f.read (v.flushOf f) a
  let y := f.read (v.flushOf f) b
  let t := sumNums v.mode [x, y]
  let r := f.deliver v.mode (v.flushOf f) t.1
  (r.1, r.2 ||| t.2 ||| nvSig [x, y])

def fSub (f : Fmt) (v : FEnv) (a b : Nat) : Nat × Flags :=
  let x := f.read (v.flushOf f) a
  let y := (f.read (v.flushOf f) b).negate
  let t := sumNums v.mode [x, y]
  let r := f.deliver v.mode (v.flushOf f) t.1
  (r.1, r.2 ||| t.2 ||| nvSig [x, y])

def fMul (f : Fmt) (v : FEnv) (a b : Nat) : Nat × Flags :=
  let x := f.read (v.flushOf f) a
  let y := f.read (v.flushOf f) b
  let t := mulNum x y
  let r := f.deliver v.mode (v.flushOf f) t.1
  (r.1, r.2 ||| t.2 ||| nvSig [x, y])

def fFma (f : Fmt) (v : FEnv) (a b d : Nat) : Nat × Flags :=
  let x := f.read (v.flushOf f) a
  let y := f.read (v.flushOf f) b
  let z := f.read (v.flushOf f) d
  let t := mulNum x y
  let u := sumNums v.mode [t.1, z]
  let r := f.deliver v.mode (v.flushOf f) u.1
  (r.1, r.2 ||| t.2 ||| u.2 ||| nvSig [x, y, z])

/-- Order of two values that are not NaN: −0 below +0 (R45). -/
def numLt (a b : Num) : Bool :=
  match a, b with
  | .inf n, .inf k => n && !k
  | .inf n, .fin _ _ _ => n
  | .fin _ _ _, .inf k => !k
  | .fin n m e, .fin k l d =>
    let g := min e d
    let x := onGrid n m e g
    let y := onGrid k l d g
    decide (x < y) || (x == y && m == 0 && n && !k)
  | _, _ => false

/-- Equality of value: −0 equals +0 (05 R132). -/
def numEq (a b : Num) : Bool :=
  match a, b with
  | .inf n, .inf k => n == k
  | .fin n m e, .fin k l d =>
    let g := min e d
    onGrid n m e g == onGrid k l d g
  | _, _ => false

/-- The code of a value that needs no rounding: the operand itself, or a zero of its sign when it was flushed. -/
def keepCode (f : Fmt) (x : Num) (code : Nat) : Nat := if x.isZero then f.zero x.neg else code

/-- minimumNumber and maximumNumber (R45, 05 R127). -/
def fMinMax (f : Fmt) (flush : Bool) (wantMax : Bool) (a b : Nat) : Nat × Flags :=
  let x := f.read flush a
  let y := f.read flush b
  let r := if x.isNan && y.isNan then f.nan
    else if x.isNan then keepCode f y b
    else if y.isNan then keepCode f x a
    else if (if wantMax then numLt x y else numLt y x) then keepCode f y b else keepCode f x a
  (r, nvSig [x, y])

/-- A floating condition (03 R66, 05 R132 R133). -/
def fCmp (f : Fmt) (flush : Bool) (cc : BitVec 4) (a b : Nat) : Bool × Flags :=
  let x := f.read flush a
  let y := f.read flush b
  let un := x.isNan || y.isNan
  let lt := !un && numLt x y && !numEq x y
  let eq := !un && numEq x y
  let r := match cc.toNat with
    | 0 => eq | 1 => un || !eq | 2 => lt | 3 => lt || eq | 4 => !un && !(lt || eq) | 5 => !un && !lt
    | 6 => !un | _ => un
  let ordered := decide (2 ≤ cc.toNat) && decide (cc.toNat ≤ 5)
  (r, if ordered && un then flNV else nvSig [x, y])

/-! Narrow formats. -/

/-- The value of a narrow code: format codes of 07 R184 (R35 R36 R38); BF16 and FP16 without flush. -/
def narrowRead (fmt : Nat) (c : Nat) : Num :=
  match fmt with
  | 0 =>
    let ex := c / 8 % 16
    let m := c % 8
    let neg := c / 128 % 2 == 1
    if ex = 15 ∧ m = 7 then .nan false
    else if ex = 0 then .fin neg m (-9) else .fin neg (8 + m) ((ex : Int) - 10)
  | 1 =>
    let ex := c / 4 % 32
    let m := c % 4
    let neg := c / 128 % 2 == 1
    if ex = 31 then (if m = 0 then .inf neg else .nan false)
    else if ex = 0 then .fin neg m (-16) else .fin neg (4 + m) ((ex : Int) - 17)
  | 2 =>
    let ex := c / 2 % 4
    let m := c % 2
    let neg := c / 8 % 2 == 1
    if ex = 0 then .fin neg m (-1) else .fin neg (2 + m) ((ex : Int) - 2)
  | 3 => let m := c % 128; .fin (decide (m ≠ 0) && c / 128 % 2 == 1) m 0
  | 4 => let m := c % 8; .fin (decide (m ≠ 0) && c / 8 % 2 == 1) m 0
  | 5 => b16.read false c
  | 6 => f16.read false c
  | _ => f32.read false c

/-- The element code i of a 32-bit lane (R39). -/
def packedElem (bits i : Nat) (x : Word) : Nat := x.toNat / 2 ^ (bits * i) % 2 ^ bits

/-- Multiply a value by 2^k. -/
def Num.scale (k : Int) : Num → Num
  | .fin n m e => .fin n m (e + k)
  | x => x

/-- Parameters of a narrow target: mantissa grid at the bottom, mantissa bits, largest finite magnitude in grid units of
2^low, and the layout (R47 R48). -/
def quantGrid (fmt : Nat) : Int × Nat × Nat :=
  match fmt with
  | 0 => (-9, 3, 448 * 2 ^ 9)
  | 1 => (-16, 2, 57344 * 2 ^ 16)
  | 2 => (-1, 1, 12)
  | 3 => (0, 7, 127)
  | _ => (0, 3, 7)

/-- The code of a magnitude given in units of the target's bottom grid. -/
def quantCode (fmt : Nat) (neg : Bool) (u : Nat) : Nat :=
  let g := quantGrid fmt
  let sign := if fmt = 2 ∨ fmt = 4 then 8 else 128
  if fmt = 3 ∨ fmt = 4 then (if u = 0 then 0 else u + neg.toNat * sign)
  else
    let p := 2 ^ g.2.1
    if u < p then u + neg.toNat * sign
    else
      let sh := Nat.log2 u - g.2.1
      (sh + 1) * p + (u / 2 ^ sh - p) + neg.toNat * sign

/-- QNT of one value (R47 R48): scale code, target format, round toward zero, saturate. -/
def quantElem (x : Num) (scale fmt : Nat) (rz sat : Bool) : Nat :=
  let nanCode := match fmt with | 0 => 0x7F | 1 => 0x7E | _ => 0
  let ovf : Bool → Nat := fun neg => match fmt with
    | 0 => if sat then 0x7E + 128 * neg.toNat else 0x7F
    | 1 => (if sat then 0x7B else 0x7C) + 128 * neg.toNat
    | 2 => 7 + 8 * neg.toNat
    | 3 => 0x7F + 128 * neg.toNat
    | _ => 7 + 8 * neg.toNat
  if scale = 255 then nanCode
  else match x with
  | .nan _ => nanCode
  | .inf n => ovf n
  | .fin n m e =>
    let e := e - (scale : Int) + 127
    let g := quantGrid fmt
    if m = 0 then quantCode fmt n 0
    else
      let top : Int := e + Nat.log2 m
      let q : Int := if fmt = 3 ∨ fmt = 4 then 0 else max g.1 (top - g.2.1)
      let r := (roundInt (if rz then 1#2 else 0#2) n m (e - q)).1
      let u := r * 2 ^ (q - g.1).toNat
      if g.2.2 < u then ovf n else quantCode fmt n u

/-- DEQ of one code (R49). -/
def dequant (c fmt scale : Nat) (rz sat : Bool) : Nat :=
  let x := narrowRead fmt c
  if scale = 255 || x.isNan then f32.nan
  else match x with
  | .inf n => f32.inf n
  | y =>
    let mode : Mode := if rz then 1#2 else 0#2
    let r := f32.deliver mode false (y.scale ((scale : Int) - 127))
    if r.2 &&& flOF != noFlags then (if sat then f32.maxFinite y.neg else r.1) else r.1

/-! FPFLAGS. -/

/-- Accumulate flags (01 R29), logged as a write of the CSR when a bit is raised (09 R252). -/
def raiseFlags (s : State) (fl : Flags) : Op :=
  if fl = noFlags then .ok s
  else do
    let t ← logEntry s (.csr s.w.id 1 (s.w.fpflags.setWidth 64))
    .ok { t with w := { t.w with fpflags := t.w.fpflags ||| fl } }

/-- The flags of the active lanes. -/
def laneFlags (m : Mask) (f : Nat → Flags) : Flags := m.lanes.foldl (fun a l => a ||| f l) noFlags

/-- Half h of a lane. -/
def halfOf (x : Word) (h : Nat) : Nat := x.toNat / 2 ^ (16 * h) % 65536

/-- A computation on both halves of a lane (05 R128 R129). -/
def halves (f : Nat → Nat × Flags) : Word × Flags :=
  let lo := f 0
  let hi := f 1
  (BitVec.ofNat 32 (hi.1 * 65536 + lo.1), lo.2 ||| hi.2)

/-- A code as a lane's word. -/
def asWord (r : Nat × Flags) : Word × Flags := (BitVec.ofNat 32 r.1, r.2)

end Sys2Proof.Machine
end

