-- ==== Sys2Proof/Machine/Float.lean ====
section
/-! DEFINITION. Floating-point arithmetic, immediates, compares, unary operations, dot products and scaling
(05 R123 to R136 R139 R140). -/

namespace Sys2Proof.Machine

/-! Shared shapes: each active lane computes a word and its flags; the flags of the active lanes accumulate. -/

/-- Write a result with flags per lane. -/
def writeFlagged (s : State) (o : Opnd) (m : Mask) (f : Nat → Word × Flags) : Op := do
  let t ← writeD s o m (lanesOf fun l => (f l).1)
  raiseFlags t (laneFlags m fun l => (f l).2)

def fpu2 (p : Px) (f : RForm) (op : FEnv → Word → Word → Word × Flags) (s : State) : Out :=
  runNext p s (do
    readable f.a; readable f.b; writable f.d
    let (a, t) ← readA s p f.a
    let (b, t) ← readB t p f.b
    let t ← kill f.a f.ka 1 t
    let t ← kill f.b f.kb 1 t
    writeFlagged t f.d (s.active p f.g) fun l => op (fenv s p) (a.get l) (b.get l))

/-- D is read before it is written (R123). -/
def fpu3 (p : Px) (f : RForm) (op : FEnv → Word → Word → Word → Word × Flags) (s : State) : Out :=
  runNext p s (do
    readable f.a; readable f.b; writable f.d; notQueue f.d
    let (a, t) ← readA s p f.a
    let (b, t) ← readB t p f.b
    let (d, t) ← readOpnd t f.d
    let t ← kill f.a f.ka 1 t
    let t ← kill f.b f.kb 1 t
    writeFlagged t f.d (s.active p f.g) fun l => op (fenv s p) (a.get l) (b.get l) (d.get l))

def fpu1 (p : Px) (f : UForm) (op : FEnv → Word → Word × Flags) (s : State) : Out :=
  runNext p s (do
    readable f.a; writable f.d
    let (a, t) ← readA s p f.a
    let t ← kill f.a f.ka 1 t
    writeFlagged t f.d (s.active p f.g) fun l => op (fenv s p) (a.get l))

/-- Format I: D ← D op V (R130). -/
def fpuI (p : Px) (f : IForm) (v : Word) (op : FEnv → Word → Word → Word × Flags) (s : State) : Out :=
  runNext p s (do
    readable f.d; writable f.d; notQueue f.d
    let (a, t) ← readOpnd s f.d
    writeFlagged t f.d (s.active p f.g) fun l => op (fenv s p) (a.get l) v)

/-! Lane computations. -/

def on32 (op : FEnv → Nat → Nat → Nat × Flags) (v : FEnv) (a b : Word) : Word × Flags := asWord (op v a.toNat b.toNat)
def packed2 (op : FEnv → Nat → Nat → Nat × Flags) (v : FEnv) (a b : Word) : Word × Flags :=
  halves fun h => op v (halfOf a h) (halfOf b h)
def packed3 (op : FEnv → Nat → Nat → Nat → Nat × Flags) (v : FEnv) (a b d : Word) : Word × Flags :=
  halves fun h => op v (halfOf a h) (halfOf b h) (halfOf d h)
def minOf (f : Fmt) (v : FEnv) (a b : Nat) : Nat × Flags := fMinMax f (v.flushOf f) false a b
def maxOf (f : Fmt) (v : FEnv) (a b : Nat) : Nat × Flags := fMinMax f (v.flushOf f) true a b

/-! FP32, FP16 and BF16 arithmetic (R125 to R129). -/

def execFadd (p : Px) (f : RForm) (s : State) : Out := fpu2 p f (on32 (fAdd f32)) s
def execFsub (p : Px) (f : RForm) (s : State) : Out := fpu2 p f (on32 (fSub f32)) s
def execFmul (p : Px) (f : RForm) (s : State) : Out := fpu2 p f (on32 (fMul f32)) s
def execFfma (p : Px) (f : RForm) (s : State) : Out :=
  fpu3 p f (fun v a b d => asWord (fFma f32 v a.toNat b.toNat d.toNat)) s
def execFmin (p : Px) (f : RForm) (s : State) : Out := fpu2 p f (on32 (minOf f32)) s
def execFmax (p : Px) (f : RForm) (s : State) : Out := fpu2 p f (on32 (maxOf f32)) s
def execHadd2 (p : Px) (f : RForm) (s : State) : Out := fpu2 p f (packed2 (fAdd f16)) s
def execHmul2 (p : Px) (f : RForm) (s : State) : Out := fpu2 p f (packed2 (fMul f16)) s
def execHfma2 (p : Px) (f : RForm) (s : State) : Out := fpu3 p f (packed3 (fFma f16)) s
def execHmin2 (p : Px) (f : RForm) (s : State) : Out := fpu2 p f (packed2 (minOf f16)) s
def execHmax2 (p : Px) (f : RForm) (s : State) : Out := fpu2 p f (packed2 (maxOf f16)) s
def execBadd2 (p : Px) (f : RForm) (s : State) : Out := fpu2 p f (packed2 (fAdd b16)) s
def execBmul2 (p : Px) (f : RForm) (s : State) : Out := fpu2 p f (packed2 (fMul b16)) s
def execBfma2 (p : Px) (f : RForm) (s : State) : Out := fpu3 p f (packed3 (fFma b16)) s
def execBmin2 (p : Px) (f : RForm) (s : State) : Out := fpu2 p f (packed2 (minOf b16)) s
def execBmax2 (p : Px) (f : RForm) (s : State) : Out := fpu2 p f (packed2 (maxOf b16)) s

/-! Immediates (R130 R131, 03 R68). -/

/-- The immediate of FADDI and FMULI: the upper half of an FP32 pattern, completed by XIMM. -/
def imm32 (p : Px) (imm : BitVec 16) : Word := immVal p imm (imm ++ 0#16)
/-- The immediate of the packed forms and QSETI: one code in both halves, or the high half from XIMM. -/
def immPair (p : Px) (imm : BitVec 16) : Word := immVal p imm (imm ++ imm)

def execFaddi (p : Px) (f : IForm) (s : State) : Out := fpuI p f (imm32 p f.imm) (on32 (fAdd f32)) s
def execFmuli (p : Px) (f : IForm) (s : State) : Out := fpuI p f (imm32 p f.imm) (on32 (fMul f32)) s
def execHaddi2 (p : Px) (f : IForm) (s : State) : Out := fpuI p f (immPair p f.imm) (packed2 (fAdd f16)) s
def execHmuli2 (p : Px) (f : IForm) (s : State) : Out := fpuI p f (immPair p f.imm) (packed2 (fMul f16)) s
def execBaddi2 (p : Px) (f : IForm) (s : State) : Out := fpuI p f (immPair p f.imm) (packed2 (fAdd b16)) s
def execBmuli2 (p : Px) (f : IForm) (s : State) : Out := fpuI p f (immPair p f.imm) (packed2 (fMul b16)) s
def execQseti (p : Px) (f : IForm) (s : State) : Out := aluSet p f (immPair p f.imm) s

/-! Compares (R132 R133). -/

def execFcmp (p : Px) (f : CForm) (s : State) : Out :=
  runNext p s (do
    readable f.a; readable f.b
    let (a, t) ← readA s p f.a
    let (b, t) ← readB t p f.b
    let t ← kill f.a f.ka 1 t
    let t ← kill f.b f.kb 1 t
    let m := s.active p f.g
    let r := fun l => fCmp f32 (fenv s p).flush32 f.cc (a.get l).toNat (b.get l).toNat
    let t ← writeP t f.pd.toNat m (maskOf fun l => (r l).1)
    raiseFlags t (laneFlags m fun l => (r l).2))

/-- HCMP2 and BCMP2: the low halves decide p[PD], the high halves p[PD + 1]. -/
def cmpHalves (p : Px) (f : CForm) (fmt : Fmt) (s : State) : Out :=
  runNext p s (do
    readable f.a; readable f.b; need (f.pd.toNat % 2 == 0) fcOpnd
    let (a, t) ← readA s p f.a
    let (b, t) ← readB t p f.b
    let t ← kill f.a f.ka 1 t
    let t ← kill f.b f.kb 1 t
    let m := s.active p f.g
    let r := fun h l => fCmp fmt (fenv s p).flush16 f.cc (halfOf (a.get l) h) (halfOf (b.get l) h)
    let t ← writeP t f.pd.toNat m (maskOf fun l => (r 0 l).1)
    let t ← writeP t (f.pd.toNat + 1) m (maskOf fun l => (r 1 l).1)
    raiseFlags t (laneFlags m fun l => (r 0 l).2 ||| (r 1 l).2))

def execHcmp2 (p : Px) (f : CForm) (s : State) : Out := cmpHalves p f f16 s
def execBcmp2 (p : Px) (f : CForm) (s : State) : Out := cmpHalves p f b16 s

/-! Unary operations (R134 to R136). -/

/-- The integral value of x rounded in a mode. -/
def integral (mode : Mode) (flush : Bool) (code : Nat) : Nat × Flags :=
  match f32.read flush code with
  | .nan b => (f32.nan, if b then flNV else noFlags)
  | .inf n => (f32.inf n, noFlags)
  | .fin n m e => (f32.round 0#2 false n (roundInt mode n m e).1 0).1 |> fun c => (c, noFlags)

def fractF (flush : Bool) (code : Nat) : Nat × Flags :=
  match f32.read flush code with
  | .nan b => (f32.nan, if b then flNV else noFlags)
  | .inf _ => (f32.nan, flNV)
  | .fin n m e =>
    let r := roundInt 3#2 n m e
    if !r.2 then (0, noFlags)
    else
      let t := sumNums 3#2 [.fin n m e, .fin (!n) r.1 0]
      f32.deliver 3#2 flush t.1

def satF (flush : Bool) (code : Nat) : Nat × Flags :=
  let x := f32.read flush code
  if x.isNan then (0, if x.isSig then flNV else noFlags)
  else if x.neg || x.isZero then (0, noFlags)
  else if numLt (.fin false 1 0) x then (0x3F800000, noFlags)
  else (code, noFlags)

/-- FCLASS never flushes (R135). -/
def classF (code : Nat) : Nat :=
  match f32.read false code with
  | .nan b => if b then 256 else 512
  | .inf n => if n then 1 else 128
  | .fin n m _ =>
    if m = 0 then (if n then 8 else 16)
    else if m < 2 ^ 23 then (if n then 4 else 32)
    else if n then 2 else 64

def execFabs (p : Px) (f : UForm) (s : State) : Out := alu1 p f (fun a => a &&& 0x7FFFFFFF#32) s
def execFneg (p : Px) (f : UForm) (s : State) : Out := alu1 p f (fun a => a ^^^ 0x80000000#32) s
def execFfloor (p : Px) (f : UForm) (s : State) : Out := fpu1 p f (fun v a => asWord (integral 3#2 v.flush32 a.toNat)) s
def execFceil (p : Px) (f : UForm) (s : State) : Out := fpu1 p f (fun v a => asWord (integral 2#2 v.flush32 a.toNat)) s
def execFtrunc (p : Px) (f : UForm) (s : State) : Out := fpu1 p f (fun v a => asWord (integral 1#2 v.flush32 a.toNat)) s
def execFrint (p : Px) (f : UForm) (s : State) : Out := fpu1 p f (fun v a => asWord (integral v.mode v.flush32 a.toNat)) s
def execFfract (p : Px) (f : UForm) (s : State) : Out := fpu1 p f (fun v a => asWord (fractF v.flush32 a.toNat)) s
def execFsat (p : Px) (f : UForm) (s : State) : Out := fpu1 p f (fun v a => asWord (satF v.flush32 a.toNat)) s
def execFclass (p : Px) (f : UForm) (s : State) : Out := alu1 p f (fun a => BitVec.ofNat 32 (classF a.toNat)) s
def execHabs2 (p : Px) (f : UForm) (s : State) : Out := alu1 p f (fun a => a &&& 0x7FFF7FFF#32) s
def execHneg2 (p : Px) (f : UForm) (s : State) : Out := alu1 p f (fun a => a ^^^ 0x80008000#32) s
def execBabs2 (p : Px) (f : UForm) (s : State) : Out := alu1 p f (fun a => a &&& 0x7FFF7FFF#32) s
def execBneg2 (p : Px) (f : UForm) (s : State) : Out := alu1 p f (fun a => a ^^^ 0x80008000#32) s

/-! Dot products (R139, 02 R52 R53) and FSCL (R140). -/

/-- Element i of a lane in a format of R184; FP16 and BF16 elements flush under HFLUSH. -/
def dotElem (fmt : Nat) (v : FEnv) (x : Word) (i : Nat) : Num :=
  match fmt with
  | 5 => b16.read v.flush16 (halfOf x i)
  | 6 => f16.read v.flush16 (halfOf x i)
  | 2 => narrowRead 2 (packedElem 4 i x)
  | 4 => narrowRead 4 (packedElem 4 i x)
  | k => narrowRead k (packedElem 8 i x)

def dot (fmt n : Nat) (v : FEnv) (a b d : Word) : Word × Flags :=
  let z := f32.read v.flush32 d.toNat
  let es := (List.range n).map fun i => (dotElem fmt v a i, dotElem fmt v b i)
  let ps := es.map fun t => mulNum t.1 t.2
  let t := sumNums v.mode (z :: ps.map (·.1))
  let r := f32.deliver v.mode v.flush32 t.1
  asWord (r.1, r.2 ||| t.2 ||| (ps.foldl (fun fl x => fl ||| x.2) noFlags) ||| nvSig (z :: es.flatMap fun t => [t.1, t.2]))

def execDp2h (p : Px) (f : RForm) (s : State) : Out := fpu3 p f (dot 6 2) s
def execDp2b (p : Px) (f : RForm) (s : State) : Out := fpu3 p f (dot 5 2) s
def execDp4e4 (p : Px) (f : RForm) (s : State) : Out := fpu3 p f (dot 0 4) s
def execDp4e5 (p : Px) (f : RForm) (s : State) : Out := fpu3 p f (dot 1 4) s
def execDp4s8 (p : Px) (f : RForm) (s : State) : Out := fpu3 p f (dot 3 4) s
def execDp8e2 (p : Px) (f : RForm) (s : State) : Out := fpu3 p f (dot 2 8) s
def execDp8s4 (p : Px) (f : RForm) (s : State) : Out := fpu3 p f (dot 4 8) s

/-- A scaling by 2^n; beyond ±1000 every n gives the same rounded result, since FP32 spans fewer binades. -/
def scaleF (v : FEnv) (a b : Word) : Word × Flags :=
  let x := f32.read v.flush32 a.toNat
  let n := max (-1000) (min 1000 b.toInt)
  let r := f32.deliver v.mode v.flush32 (x.scale n)
  asWord (r.1, r.2 ||| nvSig [x])
def execFscl (p : Px) (f : RForm) (s : State) : Out := fpu2 p f scaleF s

end Sys2Proof.Machine
end

