-- ==== Sys2Proof/Machine/Walk.lean ====
section
/-! DEFINITION. Page-table walks (11 R289 to R291 R294). -/

namespace Sys2Proof.Machine

/-- What a walk finds: a page, or a fault of kind 1 not mapped or 3 format (14 R364). -/
inductive Walked where
  | page (e : TlbEntry)
  | bad (kind : Nat)
deriving DecidableEq, Repr

/-- Bits [hi:lo] of an entry. -/
def pteBits (e hi lo : Nat) : Nat := e / 2 ^ lo % 2 ^ (hi + 1 - lo)

/-- The address lies in the physical map (R294). -/
def inPhysMap (pa : Nat) : Bool :=
  decide (pa < 0x9000000000)
    || (decide (0x1000000000000 ≤ pa) && decide (pa < 0x1400000000000) && decide (pa % 0x10000000000 < 0x9000000000))
    || (decide (0x8000000000000 ≤ pa) && decide (pa < 0x10000000000000))

/-- An 8-byte entry at its home. -/
def readPte (s : State) (pa : Nat) : Nat := leNat ((List.range 8).map fun i => engineByte s (localPa s pa + i))

/-- Bytes that a leaf maps at a level. -/
def leafSize (level : Nat) : Nat := 4096 * 512 ^ level

/-- The entry breaks R290 at its level. -/
def pteBroken (level e : Nat) : Bool :=
  let leaf := pteBits e 5 5 == 1
  let c64 := pteBits e 4 4 == 1
  pteBits e 62 52 != 0 || pteBits e 11 9 != 0 || pteBits e 3 3 != 0 || decide (2 < pteBits e 8 6)
    || (if leaf then decide (3 ≤ level) || (c64 && level != 0) || pteBits e 51 12 * 4096 % leafSize level != 0
        else level == 0 || pteBits e 8 6 != 0 || pteBits e 63 63 != 0 || c64 || pteBits e 2 1 != 0)
    || !inPhysMap (pteBits e 51 12 * 4096)

/-- The 16 entries of a 64 KiB page agree (R290). -/
def c64Ok (s : State) (table i : Nat) : Bool :=
  let b := i / 16 * 16
  let e0 := readPte s (table + 8 * b)
  pteBits e0 51 12 % 16 == 0 && (List.range 16).all fun j => readPte s (table + 8 * (b + j)) == e0 + j * 4096

/-- Walk from a table of a level down. -/
def walkFrom (s : State) (ctx va : Nat) : Nat → Nat → Walked
  | 0, table =>
    let i := va / 4096 % 512
    let e := readPte s (table + 8 * i)
    if e % 2 = 0 then .bad 1
    else if pteBroken 0 e then .bad 3
    else
      let c64 := pteBits e 4 4 == 1
      if c64 && !c64Ok s table i then .bad 3
      else
        let size := if c64 then 65536 else 4096
        .page { ctx := ctx, va := va / size * size, size := size, pa := pteBits e 51 12 * 4096 / size * size
                r := pteBits e 1 1 == 1, w := pteBits e 2 2 == 1, xd := pteBits e 63 63 == 1, attr := pteBits e 8 6 }
  | level + 1, table =>
    let e := readPte s (table + 8 * (va / leafSize (level + 1) % 512))
    if e % 2 = 0 then .bad 1
    else if pteBroken (level + 1) e then .bad 3
    else if pteBits e 5 5 = 0 then walkFrom s ctx va level (pteBits e 51 12 * 4096)
    else
      let size := leafSize (level + 1)
      .page { ctx := ctx, va := va / size * size, size := size, pa := pteBits e 51 12 * 4096
              r := pteBits e 1 1 == 1, w := pteBits e 2 2 == 1, xd := pteBits e 63 63 == 1, attr := pteBits e 8 6 }

/-- Walk a context's page table (R289). -/
def walk (s : State) (ctx : Nat) (va : DWord) : Walked :=
  match s.ctx? ctx with
  | some c => walkFrom s ctx (va.toNat) 4 c.root
  | none => .bad 1

/-- What a walk answers to an access: the page, or the kind of fault; the husk overflow region is forbidden (09 R251). -/
def walkFor (s : State) (l : Launch) (va : DWord) (acc : Access) : Walked :=
  if inHuskRegion l va then .bad 2
  else match walk s l.ctx va with
  | .page e => if e.serves e.ctx va.toNat acc then .page e else .bad 2
  | r => r

/-- Lines of the entries that a walk reads, from a table of a level down. -/
def walkLinesFrom (s : State) (va : Nat) : Nat → Nat → List Nat
  | 0, table => [localPa s (table + 8 * (va / 4096 % 512)) / 128]
  | level + 1, table =>
    let a := table + 8 * (va / leafSize (level + 1) % 512)
    let e := readPte s a
    localPa s a / 128 ::
      (if e % 2 = 0 || pteBroken (level + 1) e || pteBits e 5 5 == 1 then [] else walkLinesFrom s va level (pteBits e 51 12 * 4096))
/-- The reads of page-table entries that walks to addresses make: coherent loads at their homes (R291). -/
def walkReads (s : State) (ctx : Nat) (vas : List DWord) : List (Nat × Bool) :=
  match s.ctx? ctx with
  | some c => (vas.flatMap fun va => walkLinesFrom s va.toNat 4 c.root).dedup.map fun n => (n, false)
  | none => []
/-- A local page belongs to a partition: its 1 GiB granule (15 R394). Host memory and other packages are not granules. -/
def ownedPage (s : State) (part pa : Nat) : Bool :=
  let q := localPa s pa
  decide (0x9000000000 ≤ q) || (match s.part? part with
    | some p => p.granules.contains (q / 2 ^ 30)
    | none => false)
/-- Memory of this package that a partition holds, or memory outside it; what no partition holds stays scrubbed (15 R394). -/
def heldGranule (s : State) (pa : Nat) : Bool :=
  decide (0x9000000000 ≤ localPa s pa) || s.parts.any fun p => p.granules.contains (localPa s pa / 2 ^ 30)
/-- A walk that also finds the page of another partition: kind 7 (14 R368). -/
def walkOwned (s : State) (l : Launch) (va : DWord) (acc : Access) : Walked :=
  match walkFor s l va acc with
  | .page e => if ownedPage s l.part (e.pa + (va.toNat - e.va)) then .page e else .bad 7
  | r => r

end Sys2Proof.Machine
end

