-- ==== Sys2Proof/Machine/Memory.lean ====
section
/-! DEFINITION. Loads, stores, atomics and fences (06 R154 to R168, 10 R276 R277 R284, 12 R336, 16 R396 R409). -/

namespace Sys2Proof.Machine

/-- Bytes of an access size (R156). -/
def szBytes (sz : BitVec 3) : Nat :=
  match sz.toNat with
  | 0 | 1 => 1 | 2 | 3 => 2 | 4 => 4 | 5 => 8 | _ => 16

/-- The data operand of a load or store, by size (R156). -/
def dataOk (sz : BitVec 3) (t : Opnd) (load : Bool) : Except Exc Unit :=
  match szBytes sz with
  | 8 => pairOk t
  | 16 => quadOk t
  | _ => do
    notQueue t
    if load then writable t else readable t

/-- The address operand (R155). -/
def addrOk (wa : Bool) (a : Opnd) : Except Exc Unit :=
  if wa then pairOk a
  else do
    readable a
    notQueue a

/-- The global address of each lane (R155). -/
def globalAddr (s : State) (wa : Bool) (sb : BitVec 3) (a : Opnd) : Except Exc (Nat → DWord) :=
  if wa then
    let v := readPair s a none
    .ok fun l => pairAt v.1 v.2 l
  else do
    let (v, _) ← readOpnd s a
    .ok fun l => readSPair s (2 * sb.toNat) + (v.get l).setWidth 64

/-- The shared offset of each lane. -/
def sharedAddr (s : State) (sb : BitVec 3) (a : Opnd) : Except Exc (Nat → Nat) := do
  let (v, _) ← readOpnd s a
  .ok fun l => (readS s (2 * sb.toNat) + v.get l).toNat

/-- A fault of the lanes that meet a condition: their mask, and the address of the lowest (R158). -/
def laneFault (code : Nat) (m : Mask) (bad : Nat → Bool) (addr : Nat → DWord) (acc : Access) : Except Exc Unit :=
  let x := maskOf fun l => m.has l && bad l
  match x.lowest with
  | none => .ok ()
  | some l => .error (.fault code (addr l) (some x) acc)

/-- The place of every byte of every active lane; a page that is not at hand stalls (R158 R288). -/
def placeLanes (s : State) (m : Mask) (addr : Nat → DWord) (n : Nat) (acc : Access) : Except Exc (List (Nat × DWord × Nat × Nat)) :=
  (m.lanes.flatMap fun l => (List.range n).map fun i => (l, addr l + BitVec.ofNat 64 i)).mapM fun b =>
    match transl s b.2 acc with
    | some (pa, attr) => .ok (b.1, b.2, localPa s pa, attr)
    | none => .error (.stall .memory (.xlate b.2 acc (m.lanes.map fun l => (l, addr l)) n))

/-- The checks of a global access: canonical addresses, then pages (R158). -/
def checkGlobal (s : State) (m : Mask) (addr : Nat → DWord) (n : Nat) (acc : Access) :
    Except Exc (List (Nat × DWord × Nat × Nat)) := do
  laneFault fcCanon m (fun l => !canonRange (addr l) n) addr acc
  placeLanes s m addr n acc

/-- The bytes of lanes whose place lies in a debug window outside its buffer area are not memory (16 R396). -/
def special (s : State) (bs : List (Nat × DWord × Nat × Nat)) (l : Nat) : Option (Nat × Nat) :=
  match bs.find? fun b => b.1 == l with
  | some b => if windowSpecial s b.2.2.1 then windowOf s b.2.2.1 else none
  | none => none

/-- The attribute of the page that a line of placed bytes lies in. -/
def attrAt (bs : List (Nat × DWord × Nat × Nat)) (line : Nat) : Nat :=
  ((bs.find? fun b => b.2.2.1 / 128 == line).map (·.2.2.2)).getD 0

/-- Load the distinct lines of placed bytes, each once: from L1 or at its home as attribute and policy say (11 R293); its bytes take
their place against the host's accesses. -/
def loadLines (s : State) (bs : List (Nat × DWord × Nat × Nat)) (toL1 : Bool) (policy : Nat) (acq : Bool) :
    List Nat → List (Nat × List Byte) × State
  | [] => ([], s)
  | n :: t =>
    let cached := toL1 && inL1 (attrAt bs n) policy
    let u := noteRead (noteGuest s n false) ((bs.map (·.2.2.1)).filter (· / 128 == n)) acq ((l1Hit s n cached).map (·.host))
    let r := loadLine u n cached policy (inL2 (attrAt bs n) policy false)
    let v := loadLines r.2 bs toL1 policy acq t
    ((n, r.1) :: v.1, v.2)

/-- A byte of loaded lines. -/
def lineByte (ls : List (Nat × List Byte)) (pa : Nat) : Byte := ((assoc (pa / 128) ls).getD []).getD (pa % 128) 0#8

/-- What a load writes (R156): the registers, from the little-endian number of each lane. -/
def loadWrite (s : State) (sz : BitVec 3) (t : Opnd) (m : Mask) (f : Nat → Nat) : Op :=
  match sz.toNat with
  | 0 | 2 | 4 => writeD s t m (lanesOf fun l => BitVec.ofNat 32 (f l))
  | 1 => writeD s t m (lanesOf fun l => (BitVec.ofNat 8 (f l)).signExtend 32)
  | 3 => writeD s t m (lanesOf fun l => (BitVec.ofNat 16 (f l)).signExtend 32)
  | 5 => writeGroup s t m (splitPair fun l => BitVec.ofNat 64 (f l))
  | _ => writeGroup s t m ((List.range 4).map fun i => lanesOf fun l => BitVec.ofNat 32 (f l / 2 ^ (32 * i)))

/-- The number whose low bytes a store writes. -/
def storeValue (s : State) (sz : BitVec 3) (t : Opnd) : Except Exc (Nat → Nat) :=
  match szBytes sz with
  | 8 => .ok fun l => (pairAt (readNth s t 0) (readNth s t 1) l).toNat
  | 16 => .ok fun l => ((List.range 4).map fun i => (readNth s t i |>.get l).toNat * 2 ^ (32 * i)).sum
  | _ => do
    let (v, _) ← readOpnd s t
    .ok fun l => (v.get l).toNat

/-- Registers that a data operand names. -/
def dataCount (sz : BitVec 3) : Nat := match szBytes sz with | 8 => 2 | 16 => 4 | _ => 1

/-! MEMPOL (R160). -/

def memScope (p : Px) : Nat := (p.mempol.map fun m => m.scope.toNat).getD 0
def memPolicy (p : Px) : Nat := (p.mempol.map fun m => m.policy.toNat).getD 0
def isAcq (p : Px) : Bool := (p.mempol.map (·.acq)).getD false
def isRel (p : Px) : Bool := (p.mempol.map (·.rel)).getD false

/-- After an acquire: at SYS scope the core's leases end (10 R284, 11 R296). -/
def afterAcq (p : Px) (s : State) : State := if isAcq p && memScope p == 5 then expireL1 s else s

/-- Before a store or atomic: a SYS release writes the cohort's dirty stash lines back (10 R284). -/
def beforeRel (p : Px) (s : State) : State := if s.w.sysRel || (isRel p && memScope p == 5) then writeBackAll s else s
/-- The access is a SYS acquire, or a SYS release (R284). -/
def sysAcq (p : Px) : Bool := isAcq p && memScope p == 5
def sysRelease (p : Px) : Bool := isRel p && memScope p == 5

/-! LDG and STG. -/

/-- Every lane and byte that does not wait is performed in this one step: DESIGN CHOICE, log 70. -/
def execLdg (p : Px) (f : MForm) (s : State) : Out :=
  runNext p s (do
    dataOk f.sz f.t true
    addrOk f.wa f.a
    let m := s.active p f.g
    let n := szBytes f.sz
    let addr ← globalAddr s f.wa f.sb f.a
    let bs ← checkGlobal s m addr n { rd := true }
    noHeldWrites s
    let plain := bs.filter fun b => !windowSpecial s b.2.2.1
    let lines := linesOf (plain.map (·.2.2.1))
    linesReady s lines false
    let (ls, t) := loadLines (raceRead s lines) plain true (memPolicy p) (sysAcq p) lines
    -- accesses of a debug window, lane by lane
    let (ws, t) := m.lanes.foldl (fun (x : List (Nat × Nat) × State) l => match special s bs l with
      | some (part, off) =>
        if (n == 4 || n == 8) && (addr l).toNat % n == 0 then
          let r := winRead x.2 part off n
          (x.1 ++ [(l, r.1)], r.2)
        else (x.1 ++ [(l, 0)], x.2)
      | none => x) ([], t)
    let value := fun l => match assoc l ws with
      | some v => v
      | none => leNat ((bs.filter fun b => b.1 == l).map fun b => lineByte ls b.2.2.1)
    let t ← kill f.a f.ka (if f.wa then 2 else 1) (afterAcq p t)
    loadWrite t f.sz f.t m value)

def execStg (p : Px) (f : MForm) (s : State) : Out :=
  runNext p s (do
    dataOk f.sz f.t false
    addrOk f.wa f.a
    let m := s.active p f.g
    let n := szBytes f.sz
    let addr ← globalAddr s f.wa f.sb f.a
    let bs ← checkGlobal s m addr n { wr := true }
    noHeldWrites s
    let value ← storeValue s f.sz f.t
    let plain := bs.filter fun b => !windowSpecial s b.2.2.1
    let lines := linesOf (plain.map (·.2.2.1))
    linesReady s lines true
    let bytes := plain.map fun b => (⟨b.2.1, b.2.2.1, BitVec.ofNat 8 (value b.1 / 2 ^ (8 * (b.2.1 - addr b.1).toNat))⟩ : StoreByte)
    let t := markRace (raceConv s (bytes.map (·.pa))) (bytes.any fun b => inContQueue s b.va)
    let t ← storeLines (beforeRel p t) bytes (sysRelease p) (fun n => inL2 (attrAt plain n) (memPolicy p) true) lines
    -- a store with KEEP or STRM allocates its line (11 R295)
    let t := lines.foldl (fun t line =>
        if attrAt plain line == 0 && (memPolicy p == 1 || memPolicy p == 2) && !mustWait t line && (stashOwner t line).isNone then
          let y := leaseOf t line
          l1Put t ⟨128 * line, t.l.part, homeLine t line, y.wts, y.rts, memPolicy p, t.hostSeq⟩
        else t) t
    let t := m.lanes.foldl (fun t l => match special s bs l with
      | some (part, off) =>
        if (n == 4 || n == 8) && (addr l).toNat % n == 0 then winWrite t part off n (value l % 2 ^ (8 * n)) s.l.num else t
      | none => t) t
    let t ← kill f.a f.ka (if f.wa then 2 else 1) t
    kill f.t f.kt (dataCount f.sz) t)

/-! LDS and STS (R157 R158 R181). -/

/-- The global line behind a mapped shared line: its address and its number, when its page is at hand. -/
def stashHome (s : State) (line : Nat) : Option (DWord × Nat) :=
  match s.c.stash.find? fun x => x.line == line with
  | some x => some (x.va, x.pa / 128)
  | none => (mapOf s.c line).bind fun m =>
    let va := m.base + BitVec.ofNat 64 (128 * (line - m.line))
    (transl s va { rd := true, wr := true }).map fun t => (va, localPa s t.1 / 128)
/-- A write to the shared line waits at its home. -/
def waitsBehind (s : State) (line : Nat) : Bool := (stashHome s line).any fun h => mustWait s h.2
/-- The checks of a shared access, the fill of stash lines, and the races of their global lines. With hold, the lines at which a
write waits are left to wait at their homes (09 R442); without, the instruction waits before it issues. -/
def sharedReady (s : State) (m : Mask) (off : Nat → Nat) (n : Nat) (wr : Bool) (acq : Bool := false) (hold : Bool := false)
    (kind : Access := { rd := !wr, wr := wr }) : Op := do
  laneFault fcShared m (fun l => decide (s.c.sharedSize < off l + n)) (fun l => BitVec.ofNat 64 (off l)) kind
  laneFault fcStash m (fun l => mapOf s.c (off l / 128) != mapOf s.c ((off l + n - 1) / 128)) (fun l => BitVec.ofNat 64 (off l)) kind
  noHeldWrites s
  let lines := (m.lanes.flatMap fun l => [off l / 128, (off l + n - 1) / 128]).reverse.dedup.reverse
  let global := (m.lanes.filterMap fun l => (mapOf s.c (off l / 128)).map fun x =>
    (l, x.base + BitVec.ofNat 64 (off l - 128 * x.line)))
  match stashFills s wr (lines.filter fun q => !(hold && waitsBehind s q)) with
  | .error (.stall k (.xlate va acc _ _ src)) => .error (.stall k (.xlate va acc global n src))
  | .error e => .error e
  | .ok t => do
    let pas := (t.c.stash.filter fun x => lines.contains x.line).map fun x => x.pa / 128
    if wr then
      match (if hold then none else pas.find? fun q => mustWait t q) with
      | some q => .error (.stall .memory (.unclaimed q))
      | none => .ok t
    else
      let offs := m.lanes.flatMap fun l => (List.range n).map (off l + ·)
      .ok (lines.foldl (fun u q => stashTime u false q) (noteRead (raceRead t pas) (stashPlaces t offs) acq))

/-- Bytes at mapped shared offsets wait at the homes of their lines. -/
def holdShared (s : State) (bytes : List (Nat × Byte)) (rel : Bool) : State :=
  ((bytes.map (·.1 / 128)).reverse.dedup.reverse).foldl (fun s q => match stashHome s q with
    | some (va, n) => holdWrite s n va ((bytes.filter fun b => b.1 / 128 == q).map fun b => (128 * n + b.1 % 128, b.2)) [] rel
    | none => s) s
def execLds (p : Px) (f : MForm) (s : State) : Out :=
  runNext p s (do
    dataOk f.sz f.t true
    addrOk false f.a
    let m := s.active p f.g
    let n := szBytes f.sz
    let off ← sharedAddr s f.sb f.a
    let t ← sharedReady s m off n false (sysAcq p)
    let u ← kill f.a f.ka 1 (afterAcq p t)
    loadWrite u f.sz f.t m fun l => leNat (memGets t.c.shared (off l) n))

def execSts (p : Px) (f : MForm) (s : State) : Out :=
  runNext p s (do
    dataOk f.sz f.t false
    addrOk false f.a
    let m := s.active p f.g
    let n := szBytes f.sz
    let off ← sharedAddr s f.sb f.a
    let t ← sharedReady s m off n true false true
    let value ← storeValue s f.sz f.t
    let bytes := m.lanes.flatMap fun l => (List.range n).map fun i => (off l + i, (BitVec.ofNat 8 (value l / 2 ^ (8 * i)) : Byte))
    let raced := markRace (raceConv (beforeRel p t) (stashPlaces t (bytes.map (·.1)))) (stashInQueue t (bytes.map (·.1)))
    let u ← sharedWrite raced (bytes.filter fun b => !waitsBehind t (b.1 / 128)) (sysRelease p)
    let u := holdShared u (bytes.filter fun b => waitsBehind t (b.1 / 128)) (sysRelease p)
    let t ← kill f.a f.ka 1 (raceQueue s u (bytes.map (·.1)))
    kill f.t f.kt (dataCount f.sz) t)

/-- The source number by which a stall of PREF says that its walk reports no fault. -/
def prefSource : Nat := 9
/-! LDC (R161) and PREF (R162). -/

/-- T of LDC: uniform, or zero, by size. -/
def ldcData (sz : BitVec 3) (t : Opnd) : Except Exc Unit :=
  match szBytes sz with
  | 8 => uniPairOk t
  | 16 => match t with
    | .s n => need (n.val % 4 == 0) fcOpnd
    | .zero => .ok ()
    | _ => raise fcOpnd
  | _ => uniOrZero t

/-- The constant path: a line that it holds, or the line at its home, by a free choice. -/
def constLine (s : State) (line : Nat) : List Byte × State :=
  let fresh := homeLine s line
  match s.k.cpath.find? fun x => x.1 == s.l.num && x.2.1 == line with
  | some x => (if Config.ldcOld s.fresh then x.2.2 else fresh, { s with fresh := s.fresh + 1 })
  | none => (fresh, { s with k := { s.k with cpath := (s.l.num, line, fresh) :: s.k.cpath } })

def execLdc (p : Px) (f : MForm) (s : State) : Out :=
  runNext p s (do
    ldcData f.sz f.t
    if f.wa then uniPairOk f.a else uniOrZero f.a
    let m := s.active p f.g
    match m.lowest with
    | none => .ok s
    | some l => do
      let n := szBytes f.sz
      let addr ← globalAddr s f.wa f.sb f.a
      -- every active lane has the address of the uniform operand
      let _ ← checkGlobal s m addr n { rd := true }
      let bs ← placeLanes s (1#32 <<< l) addr n { rd := true }
      let lines := linesOf (bs.map (·.2.2.1))
      noHeldWrites s
      linesReady s lines false
      let (ls, t) := lines.foldl (fun (x : List (Nat × List Byte) × State) line =>
        let r := constLine x.2 line
        (x.1 ++ [(line, r.1)], r.2)) ([], raceRead s lines)
      loadWrite t f.sz f.t m fun _ => leNat (bs.map fun b => if windowSpecial s b.2.2.1 then 0#8 else lineByte ls b.2.2.1))

def execPref (p : Px) (f : PrefForm) (s : State) : Out :=
  runNext p s (do
    addrOk f.wa f.a
    let m := s.active p f.g
    let addr ← globalAddr s f.wa f.sb f.a
    let want := (m.lanes.flatMap fun l => [addr l, addr l + 127#64]).filter canonVa
    -- a page that is mapped and permitted and not in the TLB is walked for (11 R288); one of another partition is a violation (14 R368)
    match want.find? fun a => (transl s a { rd := true }).isNone && ((askFor s (walkReads s s.l.ctx [a])).isSome
        || (match walkOwned s s.l a { rd := true } with
          | .page _ => true
          | .bad k => k == 7)) with
    | some a => .error (.stall .memory (.xlate a { rd := true } [] 1 prefSource))
    | none => .ok ()
    let places := (want.filterMap fun a => (transl s a { rd := true }).map fun t => (localPa s t.1 / 128, t.2)).filter fun x =>
      !windowSpecial s (128 * x.1)
    -- copies that other agents hold are asked for; what claims of others stand on comes no nearer than L2; no clock moves
    let t := places.foldl (fun t x =>
      if !routed t [x.1] then t
      else if !(agentsAgainst t x.1 false).isEmpty then askAgents t x.1 false
      else
        let r := (loadLine (noteGuest t x.1 false) x.1 (inL1 x.2 (memPolicy p) && !claimedByOther t x.1) (memPolicy p)
          (inL2 x.2 (memPolicy p) false)).2
        { r with k := { r.k with pts := t.k.pts } }) s
    kill f.a f.ka (if f.wa then 2 else 1) t)

/-! Atomics (R163 to R166). -/

def rneEnv : FEnv := ⟨0#2, false, false⟩

/-- The new value of an atomic (R164): m and B, and the CAS replacement. -/
def atomNew (aop : Nat) (m : Nat) (b : DWord) (b2 : Word) : Nat :=
  let x : Word := BitVec.ofNat 32 m
  let y : Word := b.extractLsb' 0 32
  match aop with
  | 0 => (x + y).toNat
  | 1 => ((BitVec.ofNat 64 m : DWord) + b).toNat
  | 2 => (fAdd f32 rneEnv m y.toNat).1
  | 3 => (packed2 (fAdd f16) rneEnv x y).1.toNat
  | 4 => (packed2 (fAdd b16) rneEnv x y).1.toNat
  | 5 => (smin x y).toNat
  | 6 => (smax x y).toNat
  | 7 => (uminW x y).toNat
  | 8 => (umaxW x y).toNat
  | 9 => (fMinMax f32 false true m y.toNat).1
  | 10 => (fMinMax f32 false false m y.toNat).1
  | 11 => (x &&& y).toNat
  | 12 => (x ||| y).toNat
  | 13 => (x ^^^ y).toNat
  | 14 => y.toNat
  | _ => if x = y then b2.toNat else m

def aopBytes (aop : Nat) : Nat := if aop = 1 then 8 else 4

/-- B of an atomic: a pair for ADD64 and CAS. -/
def atomB (aop : Nat) (b : Opnd) : Except Exc Unit := if aop = 1 ∨ aop = 15 then pairOk b else readable b
/-- D of an atomic: a pair for ADD64. -/
def atomD (aop : Nat) (d : Opnd) : Except Exc Unit := if aop = 1 then pairOk d else writable d

/-- B per lane: 64 bits, and the CAS replacement. -/
def atomVals (s : State) (aop : Nat) (b : Opnd) : Except Exc ((Nat → DWord × Word) × State) :=
  if aop = 1 ∨ aop = 15 then
    let v := readPair s b none
    if aop = 1 then .ok (fun l => (pairAt v.1 v.2 l, 0#32), s)
    else .ok (fun l => ((v.1.get l).setWidth 64, v.2.get l), s)
  else do
    let (v, t) ← readOpnd s b
    .ok (fun l => ((v.get l).setWidth 64, 0#32), t)

/-- A floating add that reaches a marked line taints the launches that marked it (16 R409). -/
def taintLine (s : State) (launch line aop addr : Nat) : State :=
  if aop = 2 ∨ aop = 3 ∨ aop = 4 then
    (((s.marks.filter fun x => x.1 == line && x.2 != launch).map (·.2)).dedup).foldl (fun s n =>
      let s := s.mapLaunch n fun l => { l with taint := min (l.taint + 1) 0xFFFFFFFF }
      match s.launch? n with
      | some l =>
        if l.claimer.isSome && l.trace then
          let free := fun i : Nat => (BitVec.ofNat 32 (leNat ((List.range 4).map fun j => Config.viewByte s.stepNo (i + j))) : Word)
          ringPut s l.part true (ringRecord 5 0 0 (4 * l.det.toNat) aop l.num 0#64 (free 0x18) (free 0x1C) (free 0x20) 0#32 s.now addr)
        else s
      | none => s) s
  else s

/-- One lane's atomic at its home. That of an ATS taints no sheaf (16 R409). -/
def atomAt (s : State) (depth : Nat) (va : DWord) (pa aop : Nat) (b : DWord) (b2 : Word) (rel : Bool := false) (ats : Bool := false) :
    Except Exc (Nat × State) := do
  let n := aopBytes aop
  let s ← logLineAt s depth va (pa / 128)
  let s := if ats then s else taintLine s s.l.num (pa / 128) aop va.toNat
  let m := leNat ((List.range n).map fun i => homeByte s (pa + i))
  let s := markRace (raceConv s [pa]) (inContQueue s va)
  .ok (m, performAt s (pa / 128) (placed pa (leBytes n (atomNew aop m b b2))) rel true)

/-- The lanes of an atomic by their lines, and whether the line makes them wait (09 R442). -/
def splitWaiting (s : State) (places : List (Nat × DWord × Nat)) : List (Nat × DWord × Nat) × List (Nat × DWord × Nat) :=
  (places.filter fun x => !mustWait s (x.2.2 / 128), places.filter fun x => mustWait s (x.2.2 / 128))
/-- The lanes of an atomic that meet claimed lines wait at their homes, line by line. What D names takes their old values; of a uniform D
that is the lowest active lane's. -/
def holdAtoms (s : State) (aop : Nat) (val : Nat → DWord × Word) (p : Px) (places : List (Nat × DWord × Nat)) (kept : Nat → Bool)
    (ats : Bool := false) (d : Opnd := .zero) (m : Mask := 0#32) : State :=
  let dest := awaitOf s d (if aop = 1 then 2 else 1)
  let gives := fun l => !dest.isEmpty && (!d.isS || m.lowest == some l)
  (linesOf (places.map (·.2.2))).foldl (fun s n =>
    let mine := places.filter fun x => x.2.2 / 128 == n
    holdWrite s n ((mine.head?.map (·.2.1)).getD 0#64) []
      (mine.map fun x => ⟨x.1, x.2.1, x.2.2, aop, (val x.1).1, (val x.1).2, gives x.1⟩) (sysRelease p) (kept n) ats
      (if mine.any fun x => gives x.1 then dest else []) (sysAcq p)) s
/-- The bytes of an atomic's places. -/
def atomBytes (n : Nat) (places : List (Nat × DWord × Nat)) : List Nat := places.flatMap fun x => (List.range n).map (x.2.2 + ·)
/-- The active lanes in ascending order, each seeing what the one before left (R165). -/
def atomLanes (s : State) (aop : Nat) (val : Nat → DWord × Word) (rel : Bool := false) :
    List (Nat × DWord × Nat) → Except Exc (List (Nat × Nat) × State)
  | [] => .ok ([], s)
  | (l, va, pa) :: t => do
    let (m, s) ← atomAt s s.depth va pa aop (val l).1 (val l).2 rel
    let (r, s) ← atomLanes s aop val rel t
    .ok ((l, m) :: r, s)

/-! The sheaf (R166, 12 R336, 16 R409). -/

/-- The AOPs whose entries merge, and drain at BAR.FLUSH. -/
def flushable (aop : Nat) : Bool := aop == 0 || aop == 1 || (decide (5 ≤ aop) && decide (aop ≤ 13))

/-- Two operands of one AOP combined into one. -/
def sheafMerge (aop : Nat) (a b : DWord) : DWord := BitVec.ofNat 64 (atomNew aop a.toNat b 0#32)

/-- Place one lane's entry: merged, or new with a mark on its line. -/
def sheafPut (s : State) (l : Nat) (va : DWord) (pa aop : Nat) (b : DWord) (b2 : Word) (rel : Bool) : Op :=
  let merges := fun x : SheafEntry => x.launch == s.l.num && x.index == s.c.index && x.pa == pa && x.aop == aop
  let rel := rel || s.w.sysRel
  if flushable aop && s.k.sheaf.any merges then
    let join := fun x : SheafEntry => { x with b := sheafMerge aop x.b b, rel := x.rel || rel, seen := min x.seen s.w.hostSeen }
    .ok { s with k := { s.k with sheaf := updWhere merges join s.k.sheaf } }
  else if 1024 ≤ s.k.sheaf.length then raise fcSheaf
  else
    let line := pa / 128
    let marked := s.marks.contains (line, s.l.num)
    if !marked && decide (1024 ≤ (s.marks.filter fun x => homeSlice x.1 == homeSlice line).length) then raise fcSheaf
    else .ok { s with marks := if marked then s.marks else s.marks ++ [(line, s.l.num)]
                      k := { s.k with sheaf := s.k.sheaf ++
                        [⟨s.l.num, s.c.index, s.w.lidx, l, s.w.icount, va, pa, aop, b, b2, rel, s.w.hostSeen⟩] } }

def sheafPuts (s : State) (aop : Nat) (val : Nat → DWord × Word) (rel : Bool) : List (Nat × DWord × Nat) → Op
  | [] => .ok s
  | (l, va, pa) :: t => do
    let s ← logLine s va (pa / 128)
    let s ← sheafPut s l va pa aop (val l).1 (val l).2 rel
    sheafPuts s aop val rel t

/-- The old values go to a queue, all lanes in one push: such an atomic waits before it issues (log 70). -/
def pushes (d : Option Opnd) : Bool := d.any (·.isQ)

/-- ATG and REDG: checks, then the sheaf or the home. D is none for REDG. -/
def globalAtomic (p : Px) (d : Option Opnd) (a b : Opnd) (aopc : BitVec 4) (s : State) : Out :=
  runNext p s (do
    let aop := aopc.toNat
    pairOk a
    atomB aop b
    match d with
    | some o => atomD aop o
    | none => .ok ()
    let quiet := match d with
      | some o => o == .zero
      | none => true
    if s.l.det && !quiet then raise fcDetAtomic
    else
      let m := s.lanes &&& guardMaskA s p
      let n := aopBytes aop
      let addr ← globalAddr s true 0#3 a
      let bs ← checkGlobal s m addr n { atomic := true }
      laneFault fcAlign m (fun l => (addr l).toNat % n != 0) addr { atomic := true }
      noHeldWrites s
      let (val, t) ← atomVals s aop b
      let firsts := (m.lanes.filterMap fun l => bs.find? fun x => x.1 == l).filter fun x => !windowSpecial s x.2.2.1
      let places := firsts.map fun x => (x.1, x.2.1, x.2.2.1)
      let lines := linesOf (places.map (·.2.2))
      let blocked := lines.find? fun q => mustWait t q
      let kept := fun q => inL2 (attrAt bs q) 0 true
      let keepAll := fun u : State => lines.foldl (fun u q => keepL2 u q (kept q)) u
      if s.l.det then do
        -- inside a level the atomic logs and claims its lines as a store does (R166)
        if s.depth = 0 then .ok () else
          match blocked with
          | some q => .error (.stall .memory (.unclaimed q))
          | none => linesReady t lines true
        let u ← sheafPuts (beforeRel p t) aop val (sysRelease p) places
        .ok (afterAcq p u)
      else do
        linesReady t lines true
        let (now, later) := splitWaiting t places
        match (if pushes d then blocked else none) with
        | some q => .error (.stall .memory (.unclaimed q))
        | none => do
          let (r, t) ← atomLanes (noteAtomic (beforeRel p t) (atomBytes n now) (sysAcq p)) aop val (sysRelease p) now
          let t := afterAcq p (keepAll t)
          let old := fun l => (assoc l r).getD 0
          match d with
          | some o => do
            let t ← loadWrite t (if aop = 1 then 5#3 else 4#3) o m old
            .ok (holdAtoms t aop val p later kept false o m)
          | none => .ok (holdAtoms t aop val p later kept))

def execAtg (p : Px) (f : AForm) (s : State) : Out := globalAtomic p (some f.d) f.a f.b f.aop s
def execRedg (p : Px) (f : ARForm) (s : State) : Out := globalAtomic p none f.a f.b f.aop s

/-- The lanes of a shared atomic. -/
def sharedAtoms (s : State) (aop : Nat) (off : Nat → Nat) (val : Nat → DWord × Word) (rel : Bool := false) :
    List Nat → Except Exc (List (Nat × Nat) × State)
  | [] => .ok ([], s)
  | l :: t => do
    let n := aopBytes aop
    let m := leNat (memGets s.c.shared (off l) n)
    let s ← sharedWrite s (placed (off l) (leBytes n (atomNew aop m (val l).1 (val l).2))) rel
    let (r, s) ← sharedAtoms s aop off val rel t
    .ok ((l, m) :: r, s)

def execAts (p : Px) (f : AForm) (s : State) : Out :=
  runNext p s (do
    let aop := f.aop.toNat
    addrOk false f.a
    atomB aop f.b
    atomD aop f.d
    let m := s.lanes &&& guardMaskA s p
    let n := aopBytes aop
    let (a, _) ← readOpnd s f.a
    let off := fun l => (a.get l).toNat
    let t ← sharedReady s m off n true (sysAcq p) (!pushes (some f.d)) { atomic := true }
    laneFault fcAlign m (fun l => off l % n != 0) (fun l => BitVec.ofNat 64 (off l)) { atomic := true }
    let (val, t) ← atomVals t aop f.b
    let waits := fun l => waitsBehind t (off l / 128)
    let later := (m.lanes.filter waits).filterMap fun l => (stashHome t (off l / 128)).map fun h =>
      (l, h.1 + BitVec.ofNat 64 (off l % 128), 128 * h.2 + off l % 128)
    let now := m.lanes.filter fun l => !waits l
    let homes := stashPlaces t (now.flatMap fun l => (List.range n).map (off l + ·))
    let raced := markRace (raceConv t homes) (stashInQueue t (m.lanes.map off))
    let (r, t) ← sharedAtoms (noteAtomic (beforeRel p raced) homes (sysAcq p)) aop off val (sysRelease p) now
    let old := fun l => (assoc l r).getD 0
    let t ← loadWrite (afterAcq p t) (if aop = 1 then 5#3 else 4#3) f.d m old
    .ok (holdAtoms t aop val p later (fun _ => true) true f.d m))

/-! Fences (R167 R168): among device agents they add a wait; at SYS scope they act on leases and on later releases. -/

def fence (p : Px) (scope : BitVec 3) (g : BitVec 2) (acq rel : Bool) (s : State) : Out :=
  runNext p s (
    if s.active p g = 0#32 then .ok s
    else do
      if rel then noHeldWrites s else .ok ()
      let sys := scope == 5#3
      let t := if acq && sys then noteFence (expireL1 s) else s
      -- FULL orders earlier stores before later loads toward the host too (R284)
      let t := if acq && rel && sys then writeBackAll t else t
      .ok (if rel && sys then { t with w := { t.w with sysRel := true } } else t))

def execFenceFull (p : Px) (scope : BitVec 3) (g : BitVec 2) (s : State) : Out := fence p scope g true true s
def execFenceAcq (p : Px) (scope : BitVec 3) (g : BitVec 2) (s : State) : Out := fence p scope g true false s
def execFenceRel (p : Px) (scope : BitVec 3) (g : BitVec 2) (s : State) : Out := fence p scope g false true s
/-- FENCE.ENG: held writes are performed first, so that engines see them; the core's clock follows the engines' writes. -/
def execFenceEng (p : Px) (_scope : BitVec 3) (g : BitVec 2) (s : State) : Out :=
  runNext p s (
    if s.active p g = 0#32 then .ok s
    else do
      noHeldWrites s
      .ok (catchUp s))

end Sys2Proof.Machine
end

