-- ==== Sys2Proof/Machine/Sync.lean ====
section
/-! DEFINITION. Barriers, waits on memory and time, queue bindings, stash mappings (06 R169 to R181, 12 R337). -/

namespace Sys2Proof.Machine

/-! Draining the sheaf (12 R337). -/

/-- Keys in order: cohort index, logical warp, lane, instruction count. -/
def keyLess : List Nat → List Nat → Bool
  | a :: as, b :: bs => decide (a < b) || (a == b && keyLess as bs)
  | _, _ => false
def SheafEntry.key (x : SheafEntry) : List Nat := [x.index, x.lidx, x.lane, x.count]
def sortEntries (xs : List SheafEntry) : List SheafEntry :=
  xs.foldl (fun ys x => (ys.takeWhile fun y => !keyLess x.key y.key) ++ x :: ys.dropWhile fun y => !keyLess x.key y.key) []

/-- The bytes of an entry. -/
def SheafEntry.places (x : SheafEntry) : List Nat := (List.range (aopBytes x.aop)).map (x.pa + ·)
/-- One entry is applied at its true home as one access. -/
def sheafApply (s : State) (x : SheafEntry) : State :=
  let s := taintLine (checkLine s x.launch x.va (x.pa / 128)) x.launch (x.pa / 128) x.aop x.va.toNat
  let m := leNat (x.places.map (homeByte s))
  let s := markRaceOf s x.launch (x.places.any (inConv s) || contQueueOf s (((s.launch? x.launch).map (·.ctx)).getD 0) x.va
    || unordered s x.places x.rel x.seen)
  homePerform (noteFor s x.launch x.places x.rel) (placed x.pa (leBytes (aopBytes x.aop) (atomNew x.aop m x.b x.b2)))
/-- The entries of every sheaf buffer, and those saved with a context (14 R372). -/
def sheafEntries (s : State) : List SheafEntry :=
  s.allCores.flatMap (·.sheaf) ++ s.ctxs.flatMap fun c => c.saved.flatMap (·.sheaf)
/-- Drain the entries that satisfy q, on every core, in ascending key order; marks of lines without entries clear. -/
def drainSheaf (s : State) (q : SheafEntry → Bool) : State :=
  let s := (sortEntries ((sheafEntries s).filter q)).foldl sheafApply s
  let keep := fun k : CoreS => { k with sheaf := k.sheaf.filter fun x => !q x }
  let keepIn := fun c : Ctx => { c with saved := c.saved.map fun v => { v with sheaf := v.sheaf.filter fun x => !q x } }
  let s := { s with k := keep s.k, cores := s.cores.map keep, ctxs := s.ctxs.map keepIn }
  { s with marks := s.marks.filter fun m => (sheafEntries s).any fun x => x.pa / 128 == m.1 && x.launch == m.2 }

/-- The entries that a BAR.FLUSH completion of the cohort in focus drains. -/
def flushes (s : State) (x : SheafEntry) : Bool := x.launch == s.l.num && x.index == s.c.index && flushable x.aop
/-- The lines that the drain writes. -/
def flushLines (s : State) : List Nat := linesOf (((sheafEntries s).filter (flushes s)).map (·.pa))
/-- The drain may be made: no claim of others, no earlier write and no agent stands at its lines (09 R256, 11 R303). -/
def flushFree (s : State) : Bool :=
  (flushLines s).all fun n => !mustWait s n && (agentsAgainst s n true).isEmpty && routed s [n]
/-- The drain; a SYS release among the entries writes the cohort's stash lines back first (10 R284). -/
def flushDrain (s : State) : State :=
  let s := if ((sheafEntries s).filter (flushes s)).any (·.rel) then writeBackAll s else s
  catchUp (drainSheaf s (flushes s))

/-! Named barriers (R170 R171). -/

def State.bar (s : State) (name : Nat) : Bar := s.c.bars.getD name {}

/-- The number that governs an arrival or a phase: its own, or the live warps of the cohort. -/
def barNumber (s : State) (count : Option Nat) : Nat := count.getD (s.everyWarp s.c.id).length

/-- A warp's arrival counts in the current phase. -/
def barRecord (s : State) (name wid : Nat) (count : Option Nat) (flush : Bool) : State :=
  let b := s.bar name
  let b := { b with arrived := b.arrived ++ [wid], count := if b.arrived.isEmpty then count else b.count, flush := b.flush || flush }
  let s := { s with c := { s.c with bars := s.c.bars.set name b } }
  s.mapWarps (fun w => w.id == wid) fun w =>
    { w with barLast := assocPut name b.phase w.barLast
             keep := match w.keep with
               | .bar n _ true => if n == name then .bar n b.phase false else w.keep
               | k => k }

/-- Held arrivals count in the new phase, in order; one whose number differs is left for its warp to raise the fault. -/
def barHeld (s : State) (name : Nat) : List (Nat × Option Nat × Bool) → State
  | [] => s
  | (wid, count, flush) :: t =>
    let b := s.bar name
    if !b.arrived.isEmpty && barNumber s b.count != barNumber s count then
      barHeld (s.mapWarps (fun w => w.id == wid) fun w => { w with keep := .none, stall := none }) name t
    else barHeld (barRecord s name wid count flush) name t

/-- The arrivals reach the number that governs the phase. -/
def barFull (s : State) (name : Nat) : Bool :=
  let b := s.bar name
  !b.arrived.isEmpty && decide (barNumber s b.count ≤ b.arrived.length)
/-- The phase waits for its drain. -/
def barDrains (s : State) (name : Nat) : Bool := barFull s name && (s.bar name).flush && s.l.det
/-- Complete the phase while its arrivals reach the number that governs it; a BAR.FLUSH waits until its drain can be made. -/
def barSettle (s : State) (name : Nat) : Nat → State
  | 0 => s
  | n + 1 =>
    let b := s.bar name
    if barFull s name && (!(b.flush && s.l.det) || flushFree s) then
      let s := if b.flush && s.l.det then flushDrain s else s
      let s := { s with c := { s.c with bars := s.c.bars.set name { phase := b.phase + 1 } } }
      barSettle (barHeld s name b.held) name n
    else s

/-- The count that D gives; none for `zero`. -/
def barD (s : State) (d : Opnd) : Option Nat := if d == .zero then none else some (lowestOf s (readNth s d 0)).toNat
/-- D's count is 0, or above the live warps of the cohort: BAR.COUNT in every form (R171). -/
def barLimits (s : State) (d : Opnd) : Except Exc Unit :=
  need (decide (0 < barNumber s (barD s d)) && decide (barNumber s (barD s d) ≤ (s.everyWarp s.c.id).length)) fcBarCount
/-- The checks of an arrival (R171), and the arrival. -/
def barArrival (s : State) (d : Opnd) (name : Nat) (flush : Bool) : Op := do
  let b := s.bar name
  let count := barD s d
  let n := barNumber s count
  barLimits s d
  need (b.arrived.isEmpty || barFull s name || barNumber s b.count == n) fcBarCount
  if b.arrived.contains s.w.id || barFull s name then
    let b := { b with held := b.held ++ [(s.w.id, count, flush)] }
    .ok { s with c := { s.c with bars := s.c.bars.set name b }, w := { s.w with keep := .bar name b.phase true } }
  else
    let s := { s with w := { s.w with keep := .bar name b.phase false } }
    .ok (barSettle (barRecord s name s.w.id count flush) name 64)

/-- A phase of the cohort in focus that waits for its drain, and what it does next: the drain, or asking the agents that stand against
it. -/
def flushNext (s : State) (name : Nat) : Option State :=
  if !barDrains s name then none
  else match askFor s ((flushLines s).map fun n => (n, true)) with
  | some u => if asksMore s u then some u else none
  | none => if flushFree s then some (barSettle s name 64) else none

/-- The phase under way keeps a count that D gave, and the live warps have fallen below it (R171). -/
def barShort (s : State) (name : Nat) : Bool :=
  let b := s.bar name
  !b.arrived.isEmpty && !barFull s name && b.count.any fun n => decide ((s.everyWarp s.c.id).length < n)

/-- Wait on the phase that the warp keeps; an arrival that is not held may go on at once. A wait that goes over to a phase which can no
longer complete, since warps have ended before the held arrival issued again, takes BAR.COUNT. -/
def barWait (s : State) (name : Nat) (wait : Bool) : Op :=
  match s.w.keep with
  | .bar _ phase held =>
    if !held && wait && decide ((s.bar name).phase ≤ phase) && barShort s name then raise fcBarCount
    else if held || (wait && decide ((s.bar name).phase ≤ phase)) then .error (.stallAt s .barrier (.bar name phase)) else .ok s
  | _ => .ok s
def barOp (p : Px) (d : Opnd) (name : BitVec 4) (g : BitVec 2) (wait flush : Bool) (s : State) : Out :=
  runNext p s (do
    uniOrZero d
    need (!s.l.travel) fcTravelOp
    if s.active p g = 0#32 then .ok s
    else do
      need (s.cur.mask == s.w.holds) fcBarDiv
      noHeldWrites s
      match s.w.keep with
      | .bar _ _ _ => barWait s name.toNat wait
      | _ => do
        let t ← barArrival s d name.toNat flush
        barWait t name.toNat wait)

def execBarSync (p : Px) (d : Opnd) (name : BitVec 4) (g : BitVec 2) (s : State) : Out := barOp p d name g true false s
def execBarArrive (p : Px) (d : Opnd) (name : BitVec 4) (g : BitVec 2) (s : State) : Out := barOp p d name g false false s
def execBarFlush (p : Px) (d : Opnd) (name : BitVec 4) (g : BitVec 2) (s : State) : Out := barOp p d name g true true s
def execBarWait (p : Px) (d : Opnd) (name : BitVec 4) (g : BitVec 2) (s : State) : Out :=
  runNext p s (do
    uniOrZero d
    need (!s.l.travel) fcTravelOp
    if s.active p g = 0#32 then .ok s
    else do
      need (s.cur.mask == s.w.holds) fcBarDiv
      barLimits s d
      noHeldWrites s
      match assoc name.toNat s.w.barLast with
      | some phase =>
        if (s.bar name.toNat).phase ≤ phase then .error (.stall .barrier (.bar name.toNat phase)) else .ok s
      | none => .ok s)

/-! Fibre barriers (R172). -/

def State.fbar (s : State) (mask : BitVec 4) : FBar := (s.sl.fbars.find? fun b => b.mask == mask).getD { mask := mask }
def State.setFbar (s : State) (b : FBar) : State :=
  { s with sl := { s.sl with fbars := b :: s.sl.fbars.filter fun x => x.mask != b.mask } }

/-- The fibre of the slot in focus with an index takes a new kept state for an arrival in a phase. -/
def fbarNote (s : State) (mask : BitVec 4) (fibre phase : Nat) : State :=
  s.mapWarps (fun w => w.core == s.w.core && w.quarter == s.w.quarter && w.slot == s.w.slot && w.fibre == fibre && w.holds != 0#32)
    fun w => { w with fbarLast := assocPut mask.toNat phase w.fbarLast
                      keep := match w.keep with
                        | .fbar m _ true => if m == mask then .fbar m phase false else w.keep
                        | k => k }

/-- Complete the phase while every fibre of the mask has arrived; held arrivals count in the next. -/
def fbarSettle (s : State) (mask : BitVec 4) : Nat → State
  | 0 => s
  | n + 1 =>
    let b := s.fbar mask
    if [0, 1, 2, 3].all fun i => !mask.getLsbD i || b.arrived.contains i then
      let t := s.setFbar { mask := mask, phase := b.phase + 1, arrived := b.held }
      fbarSettle (b.held.foldl (fun u i => fbarNote u mask i (b.phase + 1)) t) mask n
    else s

def fbarWait (s : State) (mask : BitVec 4) (wait : Bool) : Op :=
  match s.w.keep with
  | .fbar _ phase held =>
    if held || (wait && decide ((s.fbar mask).phase ≤ phase)) then .error (.stallAt s .barrier (.fbar mask phase)) else .ok s
  | _ => .ok s

def fbarChecks (s : State) : Except Exc Unit := do
  need (s.cur.mask == s.w.holds) fcBarDiv
  noHeldWrites s

def fbarOp (p : Px) (mask : BitVec 4) (g : BitVec 2) (wait : Bool) (s : State) : Out :=
  runNext p s (do
    need (mask.getLsbD s.w.fibre) fcOpnd
    if s.active p g = 0#32 then .ok s
    else do
      fbarChecks s
      match s.w.keep with
      | .fbar _ _ _ => fbarWait s mask wait
      | _ =>
        let b := s.fbar mask
        if b.arrived.contains s.w.fibre then
          let t := s.setFbar { b with held := b.held ++ [s.w.fibre] }
          fbarWait { t with w := { t.w with keep := .fbar mask b.phase true } } mask wait
        else
          let t := s.setFbar { b with arrived := b.arrived ++ [s.w.fibre] }
          let t := { t with w := { t.w with keep := .fbar mask b.phase false, fbarLast := assocPut mask.toNat b.phase t.w.fbarLast } }
          fbarWait (fbarSettle t mask 8) mask wait)

def execFbarSync (p : Px) (mask : BitVec 4) (g : BitVec 2) (s : State) : Out := fbarOp p mask g true s
def execFbarArrive (p : Px) (mask : BitVec 4) (g : BitVec 2) (s : State) : Out := fbarOp p mask g false s
def execFbarWait (p : Px) (mask : BitVec 4) (g : BitVec 2) (s : State) : Out :=
  runNext p s (do
    need (mask.getLsbD s.w.fibre) fcOpnd
    if s.active p g = 0#32 then .ok s
    else do
      fbarChecks s
      match assoc mask.toNat s.w.fbarLast with
      | some phase => if (s.fbar mask).phase ≤ phase then .error (.stall .barrier (.fbar mask phase)) else .ok s
      | none => .ok s)

/-! WAITA (R173). -/

/-- One check of every active lane at the homes: the words, the watched lines, and the state after. -/
def waitaCheck (s : State) (m : Mask) (addr : Nat → DWord) (acq : Bool) : Except Exc ((Nat → Word) × List (Nat × Nat) × State) := do
  let bs ← checkGlobal s m addr 4 { rd := true }
  laneFault fcAlign m (fun l => (addr l).toNat % 4 != 0) addr { rd := true }
  noHeldWrites s
  let plain := bs.filter fun b => !windowSpecial s b.2.2.1
  let lines := linesOf (plain.map (·.2.2.1))
  linesReady s lines false
  let (ls, t) := loadLines (raceRead s lines) plain false 0 acq lines
  .ok (fun l => BitVec.ofNat 32 (leNat ((plain.filter fun b => b.1 == l).map fun b => lineByte ls b.2.2.1)),
    lines.map fun n => (n, lineStamp t n), t)

def execWaita (p : Px) (f : RForm) (s : State) : Out :=
  runNext p s (do
    pairOk f.a; readable f.b; writable f.d; notQueue f.d
    let m := s.active p f.g
    let a := readPair s f.a (permA p)
    let addr := fun l => pairAt a.1 a.2 l
    if m = 0#32 then do
      let t ← kill f.a f.ka 2 s
      kill f.b f.kb 1 t
    else do
      let (w, watch, t) ← waitaCheck s m addr (sysAcq p)
      -- the queue entry of B leaves the queue when the wait ends
      let (b, u) ← readB t p f.b
      let start := match s.w.keep with
        | .waita st _ _ => st
        | _ => s.now
      let done := m.lanes.all fun l => w l != b.get l
      if done || decide (s.w.waitlim.toNat ≤ s.now - start) then do
        let u ← kill f.a f.ka 2 (afterAcq p u)
        let u ← kill f.b f.kb 1 u
        writeD u f.d m (splat (if done then 0#32 else 1#32))
      else .error (.stallAt { t with w := { t.w with keep := .waita start s.now watch } } .wait .status))

/-! SLEEPU (R174). -/

/-- Copy commands of the warp in focus that were promised by a time and have not written their completion. -/
def lateCmds (s : State) (deadline : Nat) : List CopyCmd :=
  s.clusters.flatMap fun c => c.chans.flatMap fun h => h.cmds.filter fun m =>
    m.warp == s.w.id && m.stage != .held && m.promise != 0 && decide (m.promise ≤ deadline)

/-- A bound completion queue holds a word. -/
def wakeWord (s : State) : Bool := s.w.qbind.any fun b => match b with
  | some (.copydone ch) => decide (0 < qAvail s (.copydone ch))
  | _ => false

/-- The late command with the earliest promise. -/
def firstLate : List CopyCmd → Option CopyCmd
  | [] => none
  | c :: t => match firstLate t with
    | none => some c
    | some d => if d.promise < c.promise then some d else some c

def execSleepu (p : Px) (f : UForm) (s : State) : Out :=
  let m := s.active p f.g
  let body : Except Exc (State × Option CopyCmd) := do
    uniPairOk f.a
    writable f.d
    if m = 0#32 then .ok (s, none)
    else
      let v := readPair s f.a none
      let start := match s.w.keep with
        | .sleep st _ => st
        | _ => s.now
      let deadline := match s.w.keep with
        | .sleep _ d => d
        | _ => (pairAt v.1 v.2 0).toNat
      if deadline ≤ s.now then do
        let late := lateCmds s deadline
        let t ← writeD s f.d m (splat (if late.isEmpty then 0#32 else 2#32))
        .ok (t, firstLate late)
      else if wakeWord s then do
        let t ← writeD s f.d m (splat 1#32)
        .ok (t, none)
      else .error (.stallAt { s with w := { s.w with keep := .sleep start deadline } } .wait .status)
  match body with
  | .ok (t, some c) =>
    if s.w.trapen.getLsbD 1 && s.l.handlerPc != 0#32 && !s.w.trapMode then
      match advance p t with
      | .ok u => .next (trapEnter ((finish u).tally fun x => { x with promiseTraps := x.promiseTraps + 1 }) ⟨3, c.tag, s.nextPc p, s.cur.pc, c.record, m⟩)
      | e => run p s e
    else runNext p s (.ok t)
  | .ok (t, none) => runNext p s (.ok t)
  | .error e => runNext p s (.error e)

/-! QBIND and QSTAT (R175 R177 R179). -/

/-- Bind or unbind: the register, the argument's check, the log. -/
def qbind (p : Px) (f : UForm) (mk : State → Nat → Except Exc (Option QKind × State)) (s : State) : Out :=
  runNext p s (do
    uniOrZero f.a
    match f.d with
    | .q n =>
      if s.active p f.g = 0#32 then .ok s
      else do
        let (k, t) ← mk s (lowestOf s (readNth s f.a 0)).toNat
        let u ← logEntry t (.qbind s.w.id n.val (s.w.qbind.getD n.val none))
        .ok { u with w := { u.w with qbind := u.w.qbind.set n.val k } }
    | _ => raise fcOpnd)

/-- A kind whose argument must satisfy a test. -/
def qkind (ok : Bool) (k : Option QKind) (s : State) : Except Exc (Option QKind × State) :=
  if ok then .ok (k, s) else raise fcQBind

/-- The header of a `.warp` queue (R177). -/
def warpQueue (s : State) (o : Nat) : Except Exc (Option QKind × State) := do
  need (!s.l.travel) fcTravelOp
  need (o % 16 == 0 && decide (o + 16 ≤ s.c.sharedSize)) fcQBind
  let t ← queueFill s o 16
  let h := memGets t.c.shared o 16
  let cap := fieldLe h 0 2
  need (decide (1 ≤ cap) && decide (cap ≤ 2047) && fieldLe h 2 2 == 0 && fieldLe h 12 4 == 0
    && decide (o + 16 + 128 * cap ≤ t.c.sharedSize)) fcQBind
  .ok (some (.warp o), t)

def execQbindUnbind (p : Px) (f : UForm) (s : State) : Out := qbind p f (fun s x => qkind (x == 0) none s) s
def execQbindWarp (p : Px) (f : UForm) (s : State) : Out := qbind p f warpQueue s
def execQbindFibre (p : Px) (f : UForm) (s : State) : Out := qbind p f (fun s x => qkind (decide (x < 4)) (some (.fibre x)) s) s
def execQbindCopy (p : Px) (f : UForm) (s : State) : Out := qbind p f (fun s x => qkind (decide (x < 8)) (some (.copy x)) s) s
def execQbindCopydone (p : Px) (f : UForm) (s : State) : Out := qbind p f (fun s x => qkind (decide (x < 8)) (some (.copydone x)) s) s
def execQbindMseq (p : Px) (f : UForm) (s : State) : Out :=
  qbind p f (fun s x => do
    need (!s.l.travel) fcTravelOp
    qkind (x == 0) (some .mseq) s) s
def execQbindBincmd (p : Px) (f : UForm) (s : State) : Out := qbind p f (fun s x => qkind (x == 0) (some .bincmd) s) s
def execQbindBinres (p : Px) (f : UForm) (s : State) : Out := qbind p f (fun s x => qkind (x == 0) (some .binres) s) s
def execQbindCont (p : Px) (f : UForm) (s : State) : Out := qbind p f (fun s x => qkind (decide (x < s.l.cqCnt)) (some (.cont x)) s) s
def execQbindAmsend (p : Px) (f : UForm) (s : State) : Out := qbind p f (fun s x => qkind (x == 0) (some .amsend) s) s

def execQstat (p : Px) (d : Opnd) (q : BitVec 3) (g : BitVec 2) (s : State) : Out :=
  runNext p s (do
    writable d
    match s.w.qbind.getD q.toNat none with
    | none => writeD s d (s.active p g) (splat 0#32)
    | some k => do
      match k with
      | .cont n => do
        let _ ← devRead s (contBase s n) 8
        .ok ()
      | _ => .ok ()
      let avail := if k.canPop then min (qAvail s k) 4095 else 0
      let room := if k.canPush then min (qRoom s k) 65535 else 0
      writeD s d (s.active p g) (splat (BitVec.ofNat 32 ((k.sub + 1) * 2 ^ 28 + avail * 2 ^ 16 + room))))

/-! STMAP (R180). -/

/-- First line and number of lines of a range word, when its zero bits are 0. -/
def rangeWord (x : Word) : Option (Nat × Nat) :=
  if x.toNat % 128 = 0 ∧ x.toNat / 2 ^ 30 = 0 then some (x.toNat / 128 % 2 ^ 11, x.toNat / 2 ^ 18 % 2 ^ 12 + 1) else none

def stmap (p : Px) (d : Opnd) (g : BitVec 2) (op : State → Nat → Nat → Op) (s : State) : Out :=
  runNext p s (do
    need d.isS fcOpnd
    if s.active p g = 0#32 then .ok s
    else match rangeWord (lowestOf s (readNth s d 0)) with
      | some (line, n) => do
        need (decide (line + n ≤ 2048)) fcStash
        op s line n
      | none => raise fcStash)

/-- A page that a mapping may not cover: uncacheable, or in a debug window (11 R293, 16 R396). -/
def noStash (s : State) (va : DWord) : Bool :=
  match walk s s.l.ctx va with
  | .page e => e.attr == 2 || (windowOf s (localPa s (e.pa + (va.toNat - e.va)))).isSome
  | .bad _ => false

/-- The pages that a mapping of n lines covers, by one address of each. -/
def mapPages (base : DWord) (n : Nat) : List DWord :=
  (List.range (n * 128 / 4096 + 2)).map fun i => base + BitVec.ofNat 64 (min (4096 * i) (128 * n - 1))
def execStmapMap (p : Px) (d a : Opnd) (g : BitVec 2) (s : State) : Out :=
  match a with
  | .s k =>
    if k.val % 2 = 0 then
      stmap p d g (fun s line n => do
        let base := readSPair s k.val
        let overlap := s.c.maps.any fun m => decide (m.line < line + n) && decide (line < m.line + m.lines)
        need (base.toNat % 128 == 0 && canonRange base (128 * n) && decide (128 * (line + n) ≤ s.c.sharedSize) && !overlap
          && decide (s.c.maps.length < 16)) fcStash
        -- the page table is read as every walk reads it (11 R291)
        linesReady s ((walkReads s s.l.ctx (mapPages base n)).map (·.1)) false
        need (!(mapPages base n).any (noStash s)) fcStash
        .ok { s with c := { s.c with maps := s.c.maps ++ [⟨line, n, base⟩] } }) s
    else runNext p s (raise fcOpnd)
  | _ => runNext p s (raise fcOpnd)

/-- Write the dirty lines of a shared range back. -/
def flushRange (s : State) (line n : Nat) : State :=
  s.c.stash.foldl (fun u t => if line ≤ t.line ∧ t.line < line + n then writeBack u u.c t else u) s

/-- Ownership of the lines of a range ends. -/
def dropRange (s : State) (line n : Nat) : State :=
  let gone := s.c.stash.filter fun t => decide (line ≤ t.line) && decide (t.line < line + n)
  { s with stashOwners := s.stashOwners.filter fun o => !(gone.any fun t => t.pa / 128 == o.1)
           c := { s.c with stash := s.c.stash.filter fun t => !(decide (line ≤ t.line) && decide (t.line < line + n)) } }

def execStmapUnmap (p : Px) (f : UDForm) (s : State) : Out :=
  stmap p f.d f.g (fun s line n => do
    need (s.c.maps.any fun m => m.line == line && m.lines == n) fcStash
    let t := dropRange (flushRange s line n) line n
    .ok { t with c := { t.c with maps := t.c.maps.filter fun m => !(m.line == line && m.lines == n) } }) s

def execStmapFlush (p : Px) (f : UDForm) (s : State) : Out :=
  stmap p f.d f.g (fun s line n => do
    need ((List.range n).all fun i => (mapOf s.c (line + i)).isSome) fcStash
    .ok (flushRange s line n)) s

end Sys2Proof.Machine
end

