-- ==== Sys2Proof/Machine/Ends.lean ====
section
/-! DEFINITION. The end of a warp, what it changes for the others of its cohort and slot, and the completion of REGROUP
(04 R109 R112 to R114, 06 R170 R171, 07 R188 R192). -/

namespace Sys2Proof.Machine

/-! Tiles without a name (07 R188 R192). -/

/-- Nothing needs the tile any more. -/
def tileDead (s : State) (t : Tile) : Bool :=
  t.freed && t.pend.isNone
    && !(s.k.seq.any fun o => o.work.reads.contains t.phys || o.work.writes == some t.phys || o.old == some t.phys)
    && !pinnedTile s t.phys
/-- Free the storage of the dead tiles of the core in focus; writes that wait for a handle take theirs. -/
def sweepTiles (s : State) : State := { s with k := grantHandles { s.k with tiles := s.k.tiles.filter fun t => !tileDead s t } }

/-- A physical tile has lost its name. -/
def freeTile (s : State) (phys : Nat) : State :=
  sweepTiles { s with k := { s.k with tiles := updWhere (fun t => t.phys == phys) (fun t => { t with freed := true }) s.k.tiles } }

/-! Hand-over lists (07 R193 R194): a number names the giver and the taker by logical warp index. -/

def handList (giver taker : Nat) : Nat := giver * 65536 + taker

/-- The entries of the incoming lists of a warp are released as TLFREE releases a name. -/
def dropIncoming (s : State) (lidx : Nat) : State :=
  let gone := s.c.hand.filter fun h => h.1 % 65536 == lidx
  gone.foldl (fun s h => freeTile s h.2) { s with c := { s.c with hand := s.c.hand.filter fun h => h.1 % 65536 != lidx } }

/-! The end of a warp. -/

/-- The live fibres of the slot of a warp. -/
def slotFibres (s : State) (w : Warp) : List Warp :=
  s.allWarps.filter fun v => v.core == w.core && v.quarter == w.quarter && v.slot == w.slot && v.holds != 0#32

/-- The warp in focus, whose last lane has left, gives up its slot, quota, bindings and handle names (R109); in trap mode the
shadows too (R111). Its record stays until its cohort completes. -/
def endWarp (s : State) (pc : Word) : State :=
  -- an unordered read of a host write that nothing has ordered since (10 R286)
  let s := dropShadows (markRace s (s.w.hostPend != 0))
  let hs := s.w.hmap.filterMap id
  let s := { s with w := { s.w with holds := 0#32, regs := [], quota := 0, qbind := List.replicate 8 none
                                    hmap := List.replicate 32 none, front := [], aside := none, trapMode := false, trapWait := none
                                    stall := none, keep := .none, timerEn := false, timerPend := false, exitPc := pc }
                    sl := { s.sl with passing := s.sl.passing || s.sl.cur == s.w.fibre } }
  let s := dropIncoming (hs.foldl freeTile s) s.w.lidx
  if (slotFibres s s.w).isEmpty then
    { s with sl := { core := s.w.core, quarter := s.w.quarter, slot := s.w.slot, cur := s.sl.cur } }
  else s

/-! What the end of a warp changes for its cohort. -/

/-- Warps that wait on a phase that can no longer complete take BAR.COUNT (06 R171). -/
def barStarve (s : State) (name phase : Nat) : State :=
  let ws := (s.everyWarp s.c.id).filter fun w => match w.stall with
    | some ⟨.barrier, .bar n q⟩ => n == name && q == phase
    | _ => false
  ws.foldl (fun s w => within s w.id fun s => deliver { s with w := { s.w with stall := none, keep := .none, asked := none } } fcBarCount 0#64 none) s

/-- The live warps of the cohort have become fewer (R170 R171). -/
def barRecount (s : State) (name : Nat) : State :=
  let b := s.bar name
  if b.arrived.isEmpty then s
  else match b.count with
    | none => barSettle s name 64
    | some n => if (s.everyWarp s.c.id).length < n && !barFull s name then barStarve s name b.phase else s

/-- A TLTAKE that waits on the empty list of a giver that has ended takes HANDLE.GIVE (07 R194). -/
def handStarve (s : State) (giver : Nat) : State :=
  let ws := (s.everyWarp s.c.id).filter fun w => match w.stall with
    | some ⟨.queue, .hand n⟩ => n / 65536 == giver && !(s.c.hand.any fun h => h.1 == n)
    | _ => false
  ws.foldl (fun s w => within s w.id fun s =>
    deliver { s with w := { s.w with stall := none, keep := .none, asked := none } } fcGive 0#64 none) s

/-! REGROUP (R112 to R114). -/

/-- Every live thread of the cohort is parked at a REGROUP; frozen ones, also those whose trap waits for the shadows (01 R24), are waited
for. -/
def regrouped (ws : List Warp) : Bool :=
  !ws.isEmpty && ws.all fun w => w.frozen.isNone && w.trapWait.isNone && !w.front.isEmpty && w.front.all fun e => e.parked && e.rbLanes == 0#32

/-- The CSR values that compaction compares (R113). -/
def regroupKey (w : Warp) : List Nat :=
  [w.quota, w.winbase, w.fpmode.toNat, w.trapen.toNat, w.timerLo.toNat, w.timerCmp.toNat / 2 ^ 32, w.timerEn.toNat + 2 * w.timerOne.toNat,
   w.waitlim.toNat, w.trapPc.toNat] ++ w.sregs.map (·.toNat)

/-- A thread on its way: target, warp, lane. -/
structure Parked where
  pc : Word
  w : Warp
  lane : Nat
deriving DecidableEq, Repr

/-- The order of R114: rank of the target, logical warp, lane. -/
def parkedLess (l : Launch) (a b : Parked) : Bool :=
  if a.pc = b.pc then decide (a.w.lidx < b.w.lidx) || (a.w.lidx == b.w.lidx && decide (a.lane < b.lane))
  else ranksAbove l { pc := a.pc, mask := 0#32 } { pc := b.pc, mask := 0#32 }

def putParked (l : Launch) (x : Parked) : List Parked → List Parked
  | [] => [x]
  | y :: t => if parkedLess l x y then x :: y :: t else y :: putParked l x t

/-- The threads of warps that are parked, in the order of R114. -/
def parkedThreads (l : Launch) (ws : List Warp) : List Parked :=
  (ws.flatMap fun w => w.front.flatMap fun e => e.mask.lanes.map fun n => (⟨e.pc, w, n⟩ : Parked)).foldl
    (fun xs x => putParked l x xs) []

/-- Deal a list out in pieces of 32. -/
def deal32 {α : Type} (xs : List α) : List (List α) :=
  (List.range (ceilDiv xs.length 32)).map fun i => (xs.drop (32 * i)).take 32

/-- The unparked frontier of a new warp. -/
def newFront (ts : List Parked) : List Entry :=
  ts.zipIdx.foldl (fun f t => addEntry { pc := t.1.pc, mask := 1#32 <<< t.2, src := t.1.pc } f) []

/-- What the n-th thread of a piece gives; a lane without a thread gets z. -/
def fromThread {α : Type} (ts : List Parked) (z : α) (f : Parked → α) (n : Nat) : α := match ts[n]? with
  | some t => f t
  | none => z

/-- The names bound in a warp that gave the piece a thread, ascending. -/
def pieceNames (ts : List Parked) : List Nat :=
  ((ts.flatMap fun t => t.w.regs.map (·.1)).foldl (fun m a => assocPut a () m) []).map (·.1)

/-- The warp that takes the threads of one piece, in the place of an old warp (R114). Its remap table, and what R114 does not give
it anew: DEDUCED, log 43. -/
def newWarp (old : Warp) (i launched : Nat) (flags : BitVec 5) (ts : List Parked) : Warp :=
  { old with
    lidx := i
    handler := decide (launched ≤ i)
    wid := (List.range 32).map fun n => fromThread ts (old.wid.getD n 0#64) (fun t => t.w.wid.getD t.lane 0#64) n
    holds := maskOf fun n => decide (n < ts.length)
    remap := (List.range 32).map fun n => fromThread ts n (fun t => t.w.remap.getD t.lane t.lane) n
    regs := (pieceNames ts).map fun a => (a, lanesOf (fromThread ts 0#32 fun t => ((assoc a t.w.regs).getD zeros).get t.lane))
    preds := (List.range 8).map fun p => maskOf (fromThread ts false fun t => (t.w.preds.getD p 0#32).has t.lane)
    lnk := lanesOf (fromThread ts 0#32 fun t => t.w.lnk.get t.lane)
    fpflags := flags
    front := newFront ts }

/-- The conditions of R113 for compaction. -/
def compacts (s : State) (ws : List Warp) (pieces : List (List Parked)) : Bool :=
  let names := (ws.flatMap fun w => w.regs.map (·.1)).dedup
  !s.l.travel && s.c.levels.isEmpty
    && ws.all (fun w => !w.trapMode && !w.timerEn && w.hmap.all (·.isNone)
        && (s.allSlots.all fun t => !sameSlot w t || t.band == 0#8)
        && ws.all fun v => regroupKey w == regroupKey v && w.qbind == v.qbind && decide (names.length ≤ w.quota))
    && pieces.all fun ts => decide ((newFront ts).length ≤ 8)

def byLidx (ws : List Warp) : List Warp :=
  ws.foldl (fun ys x => (ys.takeWhile fun y => decide (y.lidx < x.lidx)) ++ x :: ys.dropWhile fun y => decide (y.lidx < x.lidx)) []

/-- The entries of the warp in focus whose REGROUP is complete depart when their PC lies elsewhere; where they may not yet, they stand at
their REGROUP again, which faults or waits as R349 says. -/
def departOr (s : State) : State :=
  match departCheck s (s.w.front.filter fun e => !e.parked) (s.w.front.filter (·.parked)) with
  | .ok () => leave s false false
  | .error _ =>
    let back := fun e : Entry => if e.parked || staysHere s e.pc then e else { e with pc := e.src }
    { s with w := { s.w with front := s.w.front.foldl (fun f e => addEntry (back e) f) [] } }

/-- REGROUP completes: compaction, or every thread goes on where it is. -/
def regroupDone (s : State) (ws : List Warp) : State :=
  let pieces := deal32 (parkedThreads s.l ws)
  if compacts s ws pieces then
    let flags := ws.foldl (fun f w => f ||| w.fpflags) 0#5
    let old := byLidx ws
    let s := (old.zip pieces).zipIdx.foldl (fun s t =>
      s.mapWarps (fun w => w.id == t.1.1.id) fun w => newWarp w t.2 s.c.warpsN flags t.1.2) s
    let gone := old.drop pieces.length
    let s := gone.foldl (fun s w => within s w.id fun s => endWarp s 0#32) s
    -- the cohort has fewer live warps (06 R170 R171)
    if gone.isEmpty then s else gone.foldl (fun s w => handStarve s w.lidx) ((List.range 16).foldl barRecount s)
  else
    departOr (s.mapWarps (fun w => ws.any fun v => v.id == w.id) fun w =>
      { w with front := w.front.foldl (fun f e => addEntry { e with parked := false, sos := false } f) [] })

/-- The live warps whose threads a REGROUP waits for; the warp alone in a travelling launch (13 R348). -/
def regroupWarps (s : State) : List Warp := if s.l.travel then [s.w] else s.everyWarp s.c.id

def regroupCheck (s : State) : State :=
  if regrouped (regroupWarps s) then regroupDone s (regroupWarps s) else s

/-- After threads of the cohort in focus have ended. -/
def lifeChange (s : State) (warpEnded : Bool) : State :=
  regroupCheck (if warpEnded && !s.l.travel then handStarve ((List.range 16).foldl barRecount s) s.w.lidx else s)

end Sys2Proof.Machine
end

