-- ==== Sys2Proof/Machine/Control.lean ====
section
/-! DEFINITION. Control transfers, the ends of threads, REGROUP, YIELD, the window and the quota (04 R104 to R119). -/

namespace Sys2Proof.Machine

/-! Branches and jumps (R105 to R108). -/

/-- The lanes that a B-format transfer takes (R105). -/
def taken (s : State) (f : BForm) : Mask :=
  let c := if f.n then ~~~ (s.w.preds.getD f.ps.toNat 0#32) else s.w.preds.getD f.ps.toNat 0#32
  let e := s.cur.mask
  match f.mode.toNat with
  | 0 => e &&& c
  | 1 => e
  | 2 => if e &&& c = 0#32 then 0#32 else e
  | _ => if e &&& c = e then e else 0#32

/-- PC of the word plus 4 times the displacement (03 R67). -/
def branchTarget (s : State) (p : Px) (f : BForm) : Word := s.wordPc p + 4#32 * f.disp.signExtend 32

/-- A conditional transfer; a link goes to the taken lanes. -/
def branch (p : Px) (f : BForm) (link : Bool) (s : State) : Out :=
  let t := taken s f
  run p s (do
    -- lnk goes along with lanes that leave the core
    let u ← if link then writeLnk s t (splat (s.nextPc p)) else .ok s
    setFront u [(branchTarget s p f, t), (s.nextPc p, s.cur.mask &&& ~~~ t)] p.sos)

def execBra (p : Px) (f : BForm) (s : State) : Out := branch p f false s
def execCall (p : Px) (f : BForm) (s : State) : Out := branch p f true s

/-- The groups of active lanes by target. -/
def byTarget (m : Mask) (v : VReg) : List (Word × Mask) :=
  ((m.lanes.map fun l => v.get l).dedup).map fun x => (x, maskOf fun l => m.has l && v.get l == x)

/-- Each active lane goes to its target, the others go on. -/
def jumpTo (p : Px) (m : Mask) (v : VReg) (s t : State) (ret : Bool := false) : Op := do
  need (m.lanes.all fun l => (v.get l).toNat % 4 == 0) fcPcAlign
  setFront t (byTarget m v ++ [(s.nextPc p, s.cur.mask &&& ~~~ m)]) p.sos ret

def execJmp (p : Px) (f : UAForm) (s : State) : Out :=
  run p s (do
    readable f.a
    let (v, t) ← readA s p f.a
    let t ← kill f.a f.ka 1 t
    jumpTo p (s.active p f.g) v s t)

def execCallr (p : Px) (f : UAForm) (s : State) : Out :=
  run p s (do
    readable f.a
    let (v, t) ← readA s p f.a
    let t ← kill f.a f.ka 1 t
    let t ← writeLnk t (s.active p f.g) (splat (s.nextPc p))
    jumpTo p (s.active p f.g) v s t)

def execRet (p : Px) (g : BitVec 2) (s : State) : Out := run p s (jumpTo p (s.active p g) s.w.lnk s s true)

/-! EXIT (R109 to R111). -/

/-- A warp whose live lanes are all parked at a REGROUP gives its turn up: a REGROUP stall, on which the SOS of a REGROUP acts
(R120), and a switch point of a deterministic launch (12 R335). -/
def parkedTurn (s : State) : State :=
  if s.w.holds != 0#32 && s.w.front.all (fun e => e.parked && e.rbLanes == 0#32) then
    { s with sl := { s.sl with passing := s.sl.passing || (s.w.front.any (·.sos) && !s.l.det) }
             c := { s.c with passing := s.c.passing || s.l.det } }
  else s
/-- The lanes of a mask end their threads at the PC of the word. -/
def endLanes (m : Mask) (pc : Word) (j f : Bool) (s : State) : State :=
  let s := { s with w := { s.w with holds := s.w.holds &&& ~~~ m }
                    c := { s.c with exitJ := s.c.exitJ || (j && m != 0#32), exitF := s.c.exitF || (f && m != 0#32) } }
  if m = 0#32 then s
  else if s.w.holds = 0#32 then lifeChange (endWarp s pc) true
  else parkedTurn (lifeChange s false)

def exitOp (p : Px) (g : BitVec 2) (j f : Bool) (s : State) : Out :=
  run p s (do
    need (s.depth == 0) fcExitBlock
    let m := s.active p g
    let t ← setFront s [(s.nextPc p, s.cur.mask &&& ~~~ m)] p.sos
    .ok (endLanes m s.cur.pc j f t))

def execExit (p : Px) (g : BitVec 2) (s : State) : Out := exitOp p g false false s
def execExitJ (p : Px) (g : BitVec 2) (s : State) : Out := exitOp p g true false s
def execExitF (p : Px) (g : BitVec 2) (s : State) : Out := exitOp p g false true s

/-! REGROUP (R112). -/

def execRegroup (p : Px) (a : Opnd) (_ka : Bool) (s : State) : Out :=
  run p s (do
    uniOrZero a
    let target := if a == .zero then s.nextPc p else lowestOf s (readNth s a 0)
    need (target.toNat % 4 == 0) fcPcAlign
    let e := s.cur
    let x : Entry := { pc := target, mask := e.mask, parked := true, src := e.pc, sos := p.sos }
    let front := addEntry x (s.w.front.erase e)
    need (decide (front.length ≤ 8)) fcFrontier
    departCheck s [x] (s.w.front.erase e)
    .ok (parkedTurn (regroupCheck { s with w := { s.w with front := front } })))

/-! TRET (08 R241). -/

def execTret (p : Px) (s : State) : Out :=
  run p s (do
    need s.w.trapMode fcIllegal
    let t := trapReturn s
    departCheck t (t.w.front.filter fun e => !e.parked) (t.w.front.filter (·.parked))
    -- entries outside the segment depart at the TRET, with the state as it is now (13 R347)
    let t := if t.l.travel then { t with k := { t.k with outb := t.k.outb.filter fun c => c.placed || c.warp != t.w.id } } else t
    .ok (parkedTurn (regroupCheck (leave t false p.sos))))

/-! YIELD (R115). -/

/-- The slot passes to its next ready fibre; in a deterministic launch the cohort passes to its next ready warp. -/
def yieldOp (p : Px) (fibre : Bool) (s : State) : Out :=
  runNext p s (.ok { s with sl := { s.sl with passing := s.sl.passing || (fibre && !s.l.det) }
                            c := { s.c with passing := s.c.passing || s.l.det } })

def execYieldFibre (p : Px) (s : State) : Out := yieldOp p true s
def execYieldSched (p : Px) (s : State) : Out := yieldOp p true s
def execYieldDet (p : Px) (s : State) : Out := yieldOp p false s

/-! Window and quota (R116 to R119). -/

def execWinb (p : Px) (imm : BitVec 16) (s : State) : Out := runNext p s (csrWrite s 0x030 (imm.setWidth 32))

/-- A warp of the quarter has waited longer for registers. -/
def earlierGrow (s : State) : Bool :=
  s.warps.any fun v => v.core == s.w.core && v.quarter == s.w.quarter && askedBefore s v fun c => match c with
    | .quota _ => true
    | _ => false

def setQuota (s : State) (q : Nat) : Op := do
  let t ← logEntry s (.csr s.w.id 0x031 (csrOld s.w 0x031))
  .ok { t with w := { t.w with quota := q } }

def execRgrow (p : Px) (d a : Opnd) (tryIt : Bool) (s : State) : Out :=
  runNext p s (do
    uniOrZero a
    writable d
    let k := (lowestOf s (readNth s a 0)).toNat
    let status := fun (s : State) (n : Nat) => writeD s d s.lanes (splat (BitVec.ofNat 32 n))
    if 256 < s.w.quota + k then (if tryIt then status s 2 else raise fcRegLimit)
    else if k = 0 then status s 0
    else if k ≤ freePool s && (!hasAsked s (.quota k) || !earlierGrow s) then do
      let t ← setQuota s (s.w.quota + k)
      status t 0
    else if tryIt then status s 1
    else .error (.stall .quota (.quota k)))

def execRshrink (p : Px) (a : Opnd) (s : State) : Out :=
  runNext p s (do
    uniOrZero a
    let k := (lowestOf s (readNth s a 0)).toNat
    need (s.depth == 0) fcRegShrink
    need (decide (k ≤ s.w.quota - s.boundCount)) fcRegShrink
    setQuota s (s.w.quota - k))

end Sys2Proof.Machine
end

