-- ==== Sys2Proof/WellFormed.lean ====
section
/-! DEFINITION. The well-formed instructions: those whose words pass the first three checks of R79 (03 R79), and the events. -/

namespace Sys2Proof

/-- The words before the instruction hold no reserved value, they may stand there, and its fields hold allowed values. -/
def Instr.wf (i : Instr) : Bool := i.px.valid && i.pxOk && i.fieldsOk

/-- The same as a proposition. -/
abbrev Instr.WellFormed (i : Instr) : Prop := i.wf = true

end Sys2Proof
end

