-- ==== Sys2Proof/Decode.lean ====
section
/-! DEFINITION. The decoder and the encoder of the instruction words and of the words before them (03 R62 to R77).
The decoder reads one group: zero to three words with OP 0x7F and the word they apply to. -/

namespace Sys2Proof

/-- Why the decoder refuses a group: the first three checks of R79. -/
inductive Reject where
  /-- the bytes end inside the group (R70) -/
  | noWord
  /-- OP 0x00 (R74) -/
  | opZero
  /-- four words with OP 0x7F, a kind twice, kind 7, a nonzero zero field, a reserved value (R70 R71) -/
  | badGroup
  /-- an unassigned SUB, FN or AOP value, a field that must hold 0 or 120 and does not, a lone ELSEBY or ELSEERR (R64 R75 R77) -/
  | unassigned
  /-- a word before the instruction that may not stand there, or a field value that the entry forbids (R65 R72 R79) -/
  | illFormed
deriving DecidableEq, Repr

/-! Field extraction. -/

def fld3 (w : Word) (lo : Nat) : BitVec 3 := w.extractLsb' lo 3
def gFld (w : Word) : BitVec 2 := w.extractLsb' 0 2
def opnd (w : Word) (lo : Nat) : Opnd := Opnd.ofCode (w.extractLsb' lo 7)

def rForm (w : Word) : RForm := ⟨opnd w 18, opnd w 11, opnd w 4, w.getLsbD 3, w.getLsbD 2, gFld w⟩
def uForm (w : Word) : UForm := ⟨opnd w 18, opnd w 11, w.getLsbD 3, gFld w⟩
def iForm (w : Word) : IForm := ⟨opnd w 18, w.extractLsb' 2 16, gFld w⟩
def cForm (w : Word) : CForm :=
  ⟨fld3 w 22, w.extractLsb' 18 4, opnd w 11, opnd w 4, w.getLsbD 3, w.getLsbD 2, gFld w⟩
def udForm (w : Word) : UDForm := ⟨opnd w 18, gFld w⟩
def selForm (w : Word) : SelForm := ⟨fld3 w 22, opnd w 15, opnd w 8, opnd w 1⟩
def mForm (w : Word) : MForm :=
  ⟨opnd w 18, opnd w 11, w.getLsbD 10, fld3 w 7, fld3 w 4, w.getLsbD 3, w.getLsbD 2, gFld w⟩
def prefForm (w : Word) : PrefForm := ⟨opnd w 11, w.getLsbD 10, fld3 w 7, w.getLsbD 3, gFld w⟩
def aForm (w : Word) : AForm := ⟨opnd w 18, opnd w 11, opnd w 4, w.extractLsb' 0 4⟩
def arForm (w : Word) : ARForm := ⟨opnd w 11, opnd w 4, w.extractLsb' 0 4⟩
def bForm (w : Word) : BForm := ⟨fld3 w 22, w.getLsbD 21, w.extractLsb' 19 2, w.extractLsb' 0 19⟩
def uaForm (w : Word) : UAForm := ⟨opnd w 11, w.getLsbD 3, gFld w⟩
def taForm (w : Word) : TaForm :=
  ⟨w.extractLsb' 20 5, w.extractLsb' 8 2, w.extractLsb' 4 4, w.getLsbD 3, w.getLsbD 2⟩
def mmForm (w : Word) : MmForm :=
  ⟨w.extractLsb' 20 5, w.extractLsb' 15 5, w.extractLsb' 10 5, w.extractLsb' 4 4, w.getLsbD 3, w.getLsbD 2⟩
def htForm (w : Word) : HtForm :=
  ⟨w.extractLsb' 20 5, w.extractLsb' 15 5, w.extractLsb' 8 2, w.extractLsb' 4 4, w.getLsbD 3⟩

/-- The bits that a row fixes hold its values. -/
def fixedAs (w mask bits : Word) : Bool := w &&& mask == bits

/-- OP 0x1 (R74 R75). -/
def decodeOp01 (p : Px) (w : Word) : Option Instr :=
  if fixedAs w 0xFE000000#32 0x02000000#32 then some (.iadd p (rForm w))
  else none

/-- OP 0x2 (R74 R75). -/
def decodeOp02 (p : Px) (w : Word) : Option Instr :=
  if fixedAs w 0xFE000000#32 0x04000000#32 then some (.isub p (rForm w))
  else none

/-- OP 0x3 (R74 R75). -/
def decodeOp03 (p : Px) (w : Word) : Option Instr :=
  if fixedAs w 0xFE000000#32 0x06000000#32 then some (.imul p (rForm w))
  else none

/-- OP 0x4 (R74 R75). -/
def decodeOp04 (p : Px) (w : Word) : Option Instr :=
  if fixedAs w 0xFE000000#32 0x08000000#32 then some (.imulhs p (rForm w))
  else none

/-- OP 0x5 (R74 R75). -/
def decodeOp05 (p : Px) (w : Word) : Option Instr :=
  if fixedAs w 0xFE000000#32 0x0A000000#32 then some (.imulhu p (rForm w))
  else none

/-- OP 0x6 (R74 R75). -/
def decodeOp06 (p : Px) (w : Word) : Option Instr :=
  if fixedAs w 0xFE000000#32 0x0C000000#32 then some (.imad p (rForm w))
  else none

/-- OP 0x7 (R74 R75). -/
def decodeOp07 (p : Px) (w : Word) : Option Instr :=
  if fixedAs w 0xFE000000#32 0x0E000000#32 then some (.iadd64 p (rForm w))
  else none

/-- OP 0x8 (R74 R75). -/
def decodeOp08 (p : Px) (w : Word) : Option Instr :=
  if fixedAs w 0xFE000000#32 0x10000000#32 then some (.isub64 p (rForm w))
  else none

/-- OP 0x9 (R74 R75). -/
def decodeOp09 (p : Px) (w : Word) : Option Instr :=
  if fixedAs w 0xFE000000#32 0x12000000#32 then some (.imin p (rForm w))
  else none

/-- OP 0xa (R74 R75). -/
def decodeOp0A (p : Px) (w : Word) : Option Instr :=
  if fixedAs w 0xFE000000#32 0x14000000#32 then some (.imax p (rForm w))
  else none

/-- OP 0xb (R74 R75). -/
def decodeOp0B (p : Px) (w : Word) : Option Instr :=
  if fixedAs w 0xFE000000#32 0x16000000#32 then some (.umin p (rForm w))
  else none

/-- OP 0xc (R74 R75). -/
def decodeOp0C (p : Px) (w : Word) : Option Instr :=
  if fixedAs w 0xFE000000#32 0x18000000#32 then some (.umax p (rForm w))
  else none

/-- OP 0xd (R74 R75). -/
def decodeOp0D (p : Px) (w : Word) : Option Instr :=
  if fixedAs w 0xFE000000#32 0x1A000000#32 then some (.and p (rForm w))
  else none

/-- OP 0xe (R74 R75). -/
def decodeOp0E (p : Px) (w : Word) : Option Instr :=
  if fixedAs w 0xFE000000#32 0x1C000000#32 then some (.or p (rForm w))
  else none

/-- OP 0xf (R74 R75). -/
def decodeOp0F (p : Px) (w : Word) : Option Instr :=
  if fixedAs w 0xFE000000#32 0x1E000000#32 then some (.xor p (rForm w))
  else none

/-- OP 0x10 (R74 R75). -/
def decodeOp10 (p : Px) (w : Word) : Option Instr :=
  if fixedAs w 0xFE000000#32 0x20000000#32 then some (.andn p (rForm w))
  else none

/-- OP 0x11 (R74 R75). -/
def decodeOp11 (p : Px) (w : Word) : Option Instr :=
  if fixedAs w 0xFE000000#32 0x22000000#32 then some (.shl p (rForm w))
  else none

/-- OP 0x12 (R74 R75). -/
def decodeOp12 (p : Px) (w : Word) : Option Instr :=
  if fixedAs w 0xFE000000#32 0x24000000#32 then some (.shr p (rForm w))
  else none

/-- OP 0x13 (R74 R75). -/
def decodeOp13 (p : Px) (w : Word) : Option Instr :=
  if fixedAs w 0xFE000000#32 0x26000000#32 then some (.sar p (rForm w))
  else none

/-- OP 0x14 (R74 R75). -/
def decodeOp14 (p : Px) (w : Word) : Option Instr :=
  if fixedAs w 0xFE000000#32 0x28000000#32 then some (.shfr p (rForm w))
  else none

/-- OP 0x15 (R74 R75). -/
def decodeOp15 (p : Px) (w : Word) : Option Instr :=
  if fixedAs w 0xFE000000#32 0x2A000000#32 then some (.bfe p (rForm w))
  else none

/-- OP 0x16 (R74 R75). -/
def decodeOp16 (p : Px) (w : Word) : Option Instr :=
  if fixedAs w 0xFE000000#32 0x2C000000#32 then some (.bfi p (rForm w))
  else none

/-- OP 0x17 (R74 R75). -/
def decodeOp17 (p : Px) (w : Word) : Option Instr :=
  if fixedAs w 0xFE000000#32 0x2E000000#32 then some (.imad64 p (rForm w))
  else none

/-- OP 0x18 (R74 R75). -/
def decodeOp18 (p : Px) (w : Word) : Option Instr :=
  if fixedAs w 0xFE03FFFC#32 0x3003C100#32 then some (.widf0 p (udForm w))
  else if fixedAs w 0xFE03FFFC#32 0x3003C110#32 then some (.widf1 p (udForm w))
  else if fixedAs w 0xFE03FFFC#32 0x3003C120#32 then some (.widf2 p (udForm w))
  else if fixedAs w 0xFE03FFFC#32 0x3003C130#32 then some (.widf3 p (udForm w))
  else if fixedAs w 0xFE03FFFC#32 0x3003C140#32 then some (.widf4 p (udForm w))
  else if fixedAs w 0xFE03FFFC#32 0x3003C150#32 then some (.widf5 p (udForm w))
  else if fixedAs w 0xFE0007F4#32 0x30000000#32 then some (.mov p (uForm w))
  else if fixedAs w 0xFE0007F4#32 0x30000010#32 then some (.not p (uForm w))
  else if fixedAs w 0xFE0007F4#32 0x30000020#32 then some (.neg p (uForm w))
  else if fixedAs w 0xFE0007F4#32 0x30000030#32 then some (.abs p (uForm w))
  else if fixedAs w 0xFE0007F4#32 0x30000040#32 then some (.popc p (uForm w))
  else if fixedAs w 0xFE0007F4#32 0x30000050#32 then some (.clz p (uForm w))
  else if fixedAs w 0xFE0007F4#32 0x30000060#32 then some (.ctz p (uForm w))
  else if fixedAs w 0xFE0007F4#32 0x30000070#32 then some (.brev p (uForm w))
  else if fixedAs w 0xFE0007F4#32 0x30000080#32 then some (.sx8 p (uForm w))
  else if fixedAs w 0xFE0007F4#32 0x30000090#32 then some (.sx16 p (uForm w))
  else if fixedAs w 0xFE0007F4#32 0x300000A0#32 then some (.zx8 p (uForm w))
  else if fixedAs w 0xFE0007F4#32 0x300000B0#32 then some (.zx16 p (uForm w))
  else if fixedAs w 0xFE0007F4#32 0x300000C0#32 then some (.bswap p (uForm w))
  else if fixedAs w 0xFE0007F4#32 0x300000D0#32 then some (.mov64 p (uForm w))
  else none

/-- OP 0x19 (R74 R75). -/
def decodeOp19 (p : Px) (w : Word) : Option Instr :=
  if fixedAs w 0xFE000000#32 0x32000000#32 then some (.movi p (iForm w))
  else none

/-- OP 0x1a (R74 R75). -/
def decodeOp1A (p : Px) (w : Word) : Option Instr :=
  if fixedAs w 0xFE000000#32 0x34000000#32 then some (.movhi p (iForm w))
  else none

/-- OP 0x1b (R74 R75). -/
def decodeOp1B (p : Px) (w : Word) : Option Instr :=
  if fixedAs w 0xFE000000#32 0x36000000#32 then some (.iaddi p (iForm w))
  else none

/-- OP 0x1c (R74 R75). -/
def decodeOp1C (p : Px) (w : Word) : Option Instr :=
  if fixedAs w 0xFE000000#32 0x38000000#32 then some (.andi p (iForm w))
  else none

/-- OP 0x1d (R74 R75). -/
def decodeOp1D (p : Px) (w : Word) : Option Instr :=
  if fixedAs w 0xFE000000#32 0x3A000000#32 then some (.ori p (iForm w))
  else none

/-- OP 0x1e (R74 R75). -/
def decodeOp1E (p : Px) (w : Word) : Option Instr :=
  if fixedAs w 0xFE000000#32 0x3C000000#32 then some (.xori p (iForm w))
  else none

/-- OP 0x1f (R74 R75). -/
def decodeOp1F (p : Px) (w : Word) : Option Instr :=
  if fixedAs w 0xFE03FE00#32 0x3E000000#32 then some (.shi p (opnd w 18) (w.extractLsb' 7 2) (w.extractLsb' 2 5) (gFld w))
  else none

/-- OP 0x20 (R74 R75). -/
def decodeOp20 (p : Px) (w : Word) : Option Instr :=
  if fixedAs w 0xFE000000#32 0x40000000#32 then some (.icmp p (cForm w))
  else none

/-- OP 0x21 (R74 R75). -/
def decodeOp21 (p : Px) (w : Word) : Option Instr :=
  if fixedAs w 0xFE000000#32 0x42000000#32 then some (.ucmp p (cForm w))
  else none

/-- OP 0x22 (R74 R75). -/
def decodeOp22 (p : Px) (w : Word) : Option Instr :=
  if fixedAs w 0xFE000000#32 0x44000000#32 then some (.fcmp p (cForm w))
  else none

/-- OP 0x23 (R74 R75). -/
def decodeOp23 (p : Px) (w : Word) : Option Instr :=
  if fixedAs w 0xFE000000#32 0x46000000#32 then some (.hcmp2 p (cForm w))
  else none

/-- OP 0x24 (R74 R75). -/
def decodeOp24 (p : Px) (w : Word) : Option Instr :=
  if fixedAs w 0xFE000000#32 0x48000000#32 then some (.bcmp2 p (cForm w))
  else none

/-- OP 0x25 (R74 R75). -/
def decodeOp25 (p : Px) (w : Word) : Option Instr :=
  if fixedAs w 0xFE000001#32 0x4A000000#32 then some (.sel p (selForm w))
  else none

/-- OP 0x26 (R74 R75). -/
def decodeOp26 (p : Px) (w : Word) : Option Instr :=
  if fixedAs w 0xFE3F80FF#32 0x4C3C00F0#32 then some (.plog p (fld3 w 22) (opnd w 8))
  else none

/-- OP 0x27 (R74 R75). -/
def decodeOp27 (p : Px) (w : Word) : Option Instr :=
  if fixedAs w 0xFE007FFF#32 0x4E0078F0#32 then some (.vote p (fld3 w 22) (opnd w 15))
  else none

/-- OP 0x28 (R74 R75). -/
def decodeOp28 (p : Px) (w : Word) : Option Instr :=
  if fixedAs w 0xFE007FFF#32 0x500078F0#32 then some (.ballot p (fld3 w 22) (opnd w 15))
  else none

/-- OP 0x29 (R74 R75). -/
def decodeOp29 (p : Px) (w : Word) : Option Instr :=
  if fixedAs w 0xFE3F8001#32 0x523C0000#32 then some (.pmovPred p (fld3 w 22) (opnd w 8) (opnd w 1))
  else if fixedAs w 0xFE007FFF#32 0x520078F0#32 then some (.pmov p (fld3 w 22) (opnd w 15))
  else none

/-- OP 0x2a (R74 R75). -/
def decodeOp2A (p : Px) (w : Word) : Option Instr :=
  if fixedAs w 0xFE000000#32 0x54000000#32 then some (.fadd p (rForm w))
  else none

/-- OP 0x2b (R74 R75). -/
def decodeOp2B (p : Px) (w : Word) : Option Instr :=
  if fixedAs w 0xFE000000#32 0x56000000#32 then some (.fsub p (rForm w))
  else none

/-- OP 0x2c (R74 R75). -/
def decodeOp2C (p : Px) (w : Word) : Option Instr :=
  if fixedAs w 0xFE000000#32 0x58000000#32 then some (.fmul p (rForm w))
  else none

/-- OP 0x2d (R74 R75). -/
def decodeOp2D (p : Px) (w : Word) : Option Instr :=
  if fixedAs w 0xFE000000#32 0x5A000000#32 then some (.ffma p (rForm w))
  else none

/-- OP 0x2e (R74 R75). -/
def decodeOp2E (p : Px) (w : Word) : Option Instr :=
  if fixedAs w 0xFE000000#32 0x5C000000#32 then some (.fmin p (rForm w))
  else none

/-- OP 0x2f (R74 R75). -/
def decodeOp2F (p : Px) (w : Word) : Option Instr :=
  if fixedAs w 0xFE000000#32 0x5E000000#32 then some (.fmax p (rForm w))
  else none

/-- OP 0x30 (R74 R75). -/
def decodeOp30 (p : Px) (w : Word) : Option Instr :=
  if fixedAs w 0xFE000000#32 0x60000000#32 then some (.hadd2 p (rForm w))
  else none

/-- OP 0x31 (R74 R75). -/
def decodeOp31 (p : Px) (w : Word) : Option Instr :=
  if fixedAs w 0xFE000000#32 0x62000000#32 then some (.hmul2 p (rForm w))
  else none

/-- OP 0x32 (R74 R75). -/
def decodeOp32 (p : Px) (w : Word) : Option Instr :=
  if fixedAs w 0xFE000000#32 0x64000000#32 then some (.hfma2 p (rForm w))
  else none

/-- OP 0x33 (R74 R75). -/
def decodeOp33 (p : Px) (w : Word) : Option Instr :=
  if fixedAs w 0xFE000000#32 0x66000000#32 then some (.hmin2 p (rForm w))
  else none

/-- OP 0x34 (R74 R75). -/
def decodeOp34 (p : Px) (w : Word) : Option Instr :=
  if fixedAs w 0xFE000000#32 0x68000000#32 then some (.hmax2 p (rForm w))
  else none

/-- OP 0x35 (R74 R75). -/
def decodeOp35 (p : Px) (w : Word) : Option Instr :=
  if fixedAs w 0xFE000000#32 0x6A000000#32 then some (.badd2 p (rForm w))
  else none

/-- OP 0x36 (R74 R75). -/
def decodeOp36 (p : Px) (w : Word) : Option Instr :=
  if fixedAs w 0xFE000000#32 0x6C000000#32 then some (.bmul2 p (rForm w))
  else none

/-- OP 0x37 (R74 R75). -/
def decodeOp37 (p : Px) (w : Word) : Option Instr :=
  if fixedAs w 0xFE000000#32 0x6E000000#32 then some (.bfma2 p (rForm w))
  else none

/-- OP 0x38 (R74 R75). -/
def decodeOp38 (p : Px) (w : Word) : Option Instr :=
  if fixedAs w 0xFE000000#32 0x70000000#32 then some (.bmin2 p (rForm w))
  else none

/-- OP 0x39 (R74 R75). -/
def decodeOp39 (p : Px) (w : Word) : Option Instr :=
  if fixedAs w 0xFE000000#32 0x72000000#32 then some (.bmax2 p (rForm w))
  else none

/-- OP 0x3a (R74 R75). -/
def decodeOp3A (p : Px) (w : Word) : Option Instr :=
  if fixedAs w 0xFE000000#32 0x74000000#32 then some (.faddi p (iForm w))
  else none

/-- OP 0x3b (R74 R75). -/
def decodeOp3B (p : Px) (w : Word) : Option Instr :=
  if fixedAs w 0xFE000000#32 0x76000000#32 then some (.fmuli p (iForm w))
  else none

/-- OP 0x3c (R74 R75). -/
def decodeOp3C (p : Px) (w : Word) : Option Instr :=
  if fixedAs w 0xFE000000#32 0x78000000#32 then some (.haddi2 p (iForm w))
  else none

/-- OP 0x3d (R74 R75). -/
def decodeOp3D (p : Px) (w : Word) : Option Instr :=
  if fixedAs w 0xFE000000#32 0x7A000000#32 then some (.hmuli2 p (iForm w))
  else none

/-- OP 0x3e (R74 R75). -/
def decodeOp3E (p : Px) (w : Word) : Option Instr :=
  if fixedAs w 0xFE000000#32 0x7C000000#32 then some (.baddi2 p (iForm w))
  else none

/-- OP 0x3f (R74 R75). -/
def decodeOp3F (p : Px) (w : Word) : Option Instr :=
  if fixedAs w 0xFE000000#32 0x7E000000#32 then some (.bmuli2 p (iForm w))
  else none

/-- OP 0x40 (R74 R75). -/
def decodeOp40 (p : Px) (w : Word) : Option Instr :=
  if fixedAs w 0xFE000000#32 0x80000000#32 then some (.qseti p (iForm w))
  else none

/-- OP 0x41 (R74 R75). -/
def decodeOp41 (p : Px) (w : Word) : Option Instr :=
  if fixedAs w 0xFE0007F4#32 0x82000000#32 then some (.fabs p (uForm w))
  else if fixedAs w 0xFE0007F4#32 0x82000010#32 then some (.fneg p (uForm w))
  else if fixedAs w 0xFE0007F4#32 0x82000020#32 then some (.ffloor p (uForm w))
  else if fixedAs w 0xFE0007F4#32 0x82000030#32 then some (.fceil p (uForm w))
  else if fixedAs w 0xFE0007F4#32 0x82000040#32 then some (.ftrunc p (uForm w))
  else if fixedAs w 0xFE0007F4#32 0x82000050#32 then some (.frint p (uForm w))
  else if fixedAs w 0xFE0007F4#32 0x82000060#32 then some (.ffract p (uForm w))
  else if fixedAs w 0xFE0007F4#32 0x82000070#32 then some (.fsat p (uForm w))
  else if fixedAs w 0xFE0007F4#32 0x82000080#32 then some (.fclass p (uForm w))
  else if fixedAs w 0xFE0007F4#32 0x82000100#32 then some (.habs2 p (uForm w))
  else if fixedAs w 0xFE0007F4#32 0x82000110#32 then some (.hneg2 p (uForm w))
  else if fixedAs w 0xFE0007F4#32 0x82000120#32 then some (.babs2 p (uForm w))
  else if fixedAs w 0xFE0007F4#32 0x82000130#32 then some (.bneg2 p (uForm w))
  else none

/-- OP 0x42 (R74 R75). -/
def decodeOp42 (p : Px) (w : Word) : Option Instr :=
  if fixedAs w 0xFE0007F4#32 0x84000000#32 then some (.rcp p (uForm w))
  else if fixedAs w 0xFE0007F4#32 0x84000010#32 then some (.rsq p (uForm w))
  else if fixedAs w 0xFE0007F4#32 0x84000020#32 then some (.sqrt p (uForm w))
  else if fixedAs w 0xFE0007F4#32 0x84000030#32 then some (.exp2 p (uForm w))
  else if fixedAs w 0xFE0007F4#32 0x84000040#32 then some (.log2 p (uForm w))
  else if fixedAs w 0xFE0007F4#32 0x84000050#32 then some (.sin p (uForm w))
  else if fixedAs w 0xFE0007F4#32 0x84000060#32 then some (.cos p (uForm w))
  else if fixedAs w 0xFE0007F4#32 0x84000070#32 then some (.tanh p (uForm w))
  else none

/-- OP 0x43 (R74 R75). -/
def decodeOp43 (p : Px) (w : Word) : Option Instr :=
  if fixedAs w 0xFE000000#32 0x86000000#32 then some (.dp2h p (rForm w))
  else none

/-- OP 0x44 (R74 R75). -/
def decodeOp44 (p : Px) (w : Word) : Option Instr :=
  if fixedAs w 0xFE000000#32 0x88000000#32 then some (.dp2b p (rForm w))
  else none

/-- OP 0x45 (R74 R75). -/
def decodeOp45 (p : Px) (w : Word) : Option Instr :=
  if fixedAs w 0xFE000000#32 0x8A000000#32 then some (.dp4e4 p (rForm w))
  else none

/-- OP 0x46 (R74 R75). -/
def decodeOp46 (p : Px) (w : Word) : Option Instr :=
  if fixedAs w 0xFE000000#32 0x8C000000#32 then some (.dp4e5 p (rForm w))
  else none

/-- OP 0x47 (R74 R75). -/
def decodeOp47 (p : Px) (w : Word) : Option Instr :=
  if fixedAs w 0xFE000000#32 0x8E000000#32 then some (.dp4s8 p (rForm w))
  else none

/-- OP 0x48 (R74 R75). -/
def decodeOp48 (p : Px) (w : Word) : Option Instr :=
  if fixedAs w 0xFE000000#32 0x90000000#32 then some (.dp8e2 p (rForm w))
  else none

/-- OP 0x49 (R74 R75). -/
def decodeOp49 (p : Px) (w : Word) : Option Instr :=
  if fixedAs w 0xFE000000#32 0x92000000#32 then some (.dp8s4 p (rForm w))
  else none

/-- OP 0x4a (R74 R75). -/
def decodeOp4A (p : Px) (w : Word) : Option Instr :=
  if fixedAs w 0xFE000000#32 0x94000000#32 then some (.fscl p (rForm w))
  else none

/-- OP 0x4b (R74 R75). -/
def decodeOp4B (p : Px) (w : Word) : Option Instr :=
  if fixedAs w 0xFE0007F4#32 0x96000000#32 then some (.f2i p (uForm w))
  else if fixedAs w 0xFE0007F4#32 0x96000010#32 then some (.f2iRz p (uForm w))
  else if fixedAs w 0xFE0007F4#32 0x96000020#32 then some (.f2u p (uForm w))
  else if fixedAs w 0xFE0007F4#32 0x96000030#32 then some (.f2uRz p (uForm w))
  else if fixedAs w 0xFE0007F4#32 0x96000040#32 then some (.i2f p (uForm w))
  else if fixedAs w 0xFE0007F4#32 0x96000050#32 then some (.u2f p (uForm w))
  else if fixedAs w 0xFE0007F4#32 0x96000060#32 then some (.f2hLo p (uForm w))
  else if fixedAs w 0xFE0007F4#32 0x96000070#32 then some (.f2hHi p (uForm w))
  else if fixedAs w 0xFE0007F4#32 0x96000080#32 then some (.f2bLo p (uForm w))
  else if fixedAs w 0xFE0007F4#32 0x96000090#32 then some (.f2bHi p (uForm w))
  else if fixedAs w 0xFE0007F4#32 0x960000A0#32 then some (.h2fLo p (uForm w))
  else if fixedAs w 0xFE0007F4#32 0x960000B0#32 then some (.h2fHi p (uForm w))
  else if fixedAs w 0xFE0007F4#32 0x960000C0#32 then some (.b2fLo p (uForm w))
  else if fixedAs w 0xFE0007F4#32 0x960000D0#32 then some (.b2fHi p (uForm w))
  else none

/-- OP 0x4c (R74 R75). -/
def decodeOp4C (p : Px) (w : Word) : Option Instr :=
  if fixedAs w 0xFE000000#32 0x98000000#32 then some (.qnt p (rForm w))
  else none

/-- OP 0x4d (R74 R75). -/
def decodeOp4D (p : Px) (w : Word) : Option Instr :=
  if fixedAs w 0xFE000000#32 0x9A000000#32 then some (.deq p (rForm w))
  else none

/-- OP 0x4e (R74 R75). -/
def decodeOp4E (p : Px) (w : Word) : Option Instr :=
  if fixedAs w 0xFE000000#32 0x9C000000#32 then some (.shfl p (rForm w))
  else none

/-- OP 0x4f (R74 R75). -/
def decodeOp4F (p : Px) (w : Word) : Option Instr :=
  if fixedAs w 0xFE000000#32 0x9E000000#32 then some (.xwr p (rForm w))
  else none

/-- OP 0x50 (R74 R75). -/
def decodeOp50 (p : Px) (w : Word) : Option Instr :=
  if fixedAs w 0xFE0007F4#32 0xA0000000#32 then some (.redlIadd p (uForm w))
  else if fixedAs w 0xFE0007F4#32 0xA0000010#32 then some (.redlSmin p (uForm w))
  else if fixedAs w 0xFE0007F4#32 0xA0000020#32 then some (.redlSmax p (uForm w))
  else if fixedAs w 0xFE0007F4#32 0xA0000030#32 then some (.redlUmin p (uForm w))
  else if fixedAs w 0xFE0007F4#32 0xA0000040#32 then some (.redlUmax p (uForm w))
  else if fixedAs w 0xFE0007F4#32 0xA0000050#32 then some (.redlAnd p (uForm w))
  else if fixedAs w 0xFE0007F4#32 0xA0000060#32 then some (.redlOr p (uForm w))
  else if fixedAs w 0xFE0007F4#32 0xA0000070#32 then some (.redlXor p (uForm w))
  else if fixedAs w 0xFE0007F4#32 0xA0000080#32 then some (.redlFadd p (uForm w))
  else if fixedAs w 0xFE0007F4#32 0xA0000090#32 then some (.redlFmin p (uForm w))
  else if fixedAs w 0xFE0007F4#32 0xA00000A0#32 then some (.redlFmax p (uForm w))
  else none

/-- OP 0x51 (R74 R75). -/
def decodeOp51 (p : Px) (w : Word) : Option Instr :=
  if fixedAs w 0xFE0007F4#32 0xA2000000#32 then some (.scanlIadd p (uForm w))
  else if fixedAs w 0xFE0007F4#32 0xA2000010#32 then some (.scanlIaddEx p (uForm w))
  else if fixedAs w 0xFE0007F4#32 0xA2000020#32 then some (.scanlFadd p (uForm w))
  else if fixedAs w 0xFE0007F4#32 0xA2000030#32 then some (.scanlSmax p (uForm w))
  else if fixedAs w 0xFE0007F4#32 0xA2000040#32 then some (.scanlOr p (uForm w))
  else none

/-- OP 0x52 (R74 R75). -/
def decodeOp52 (p : Px) (w : Word) : Option Instr :=
  if fixedAs w 0xFE000004#32 0xA4000000#32 then some (.ldg p (mForm w))
  else none

/-- OP 0x53 (R74 R75). -/
def decodeOp53 (p : Px) (w : Word) : Option Instr :=
  if fixedAs w 0xFE000000#32 0xA6000000#32 then some (.stg p (mForm w))
  else none

/-- OP 0x54 (R74 R75). -/
def decodeOp54 (p : Px) (w : Word) : Option Instr :=
  if fixedAs w 0xFE000404#32 0xA8000000#32 then some (.lds p (mForm w))
  else none

/-- OP 0x55 (R74 R75). -/
def decodeOp55 (p : Px) (w : Word) : Option Instr :=
  if fixedAs w 0xFE000400#32 0xAA000000#32 then some (.sts p (mForm w))
  else none

/-- OP 0x56 (R74 R75). -/
def decodeOp56 (p : Px) (w : Word) : Option Instr :=
  if fixedAs w 0xFE000004#32 0xAC000000#32 then some (.ldc p (mForm w))
  else none

/-- OP 0x57 (R74 R75). -/
def decodeOp57 (p : Px) (w : Word) : Option Instr :=
  if fixedAs w 0xFFFC0074#32 0xAFE00000#32 then some (.pref p (prefForm w))
  else none

/-- OP 0x58 (R74 R75). -/
def decodeOp58 (p : Px) (w : Word) : Option Instr :=
  if fixedAs w 0xFE000000#32 0xB0000000#32 then some (.atg p (aForm w))
  else none

/-- OP 0x59 (R74 R75). -/
def decodeOp59 (p : Px) (w : Word) : Option Instr :=
  if fixedAs w 0xFE000000#32 0xB2000000#32 then some (.ats p (aForm w))
  else none

/-- OP 0x5a (R74 R75). -/
def decodeOp5A (p : Px) (w : Word) : Option Instr :=
  if fixedAs w 0xFFFC0000#32 0xB5E00000#32 then some (.redg p (arForm w))
  else none

/-- OP 0x5b (R74 R75). -/
def decodeOp5B (p : Px) (w : Word) : Option Instr :=
  if fixedAs w 0xFFFFFE3C#32 0xB7E3C000#32 then some (.fenceFull p (fld3 w 6) (gFld w))
  else if fixedAs w 0xFFFFFE3C#32 0xB7E3C010#32 then some (.fenceAcq p (fld3 w 6) (gFld w))
  else if fixedAs w 0xFFFFFE3C#32 0xB7E3C020#32 then some (.fenceRel p (fld3 w 6) (gFld w))
  else if fixedAs w 0xFFFFFE3C#32 0xB7E3C030#32 then some (.fenceEng p (fld3 w 6) (gFld w))
  else none

/-- OP 0x5c (R74 R75). -/
def decodeOp5C (p : Px) (w : Word) : Option Instr :=
  if fixedAs w 0xFE03FF0C#32 0xB803C000#32 then some (.barSync p (opnd w 18) (w.extractLsb' 4 4) (gFld w))
  else if fixedAs w 0xFE03FF0C#32 0xB803C100#32 then some (.barArrive p (opnd w 18) (w.extractLsb' 4 4) (gFld w))
  else if fixedAs w 0xFE03FF0C#32 0xB803C200#32 then some (.barWait p (opnd w 18) (w.extractLsb' 4 4) (gFld w))
  else if fixedAs w 0xFE03FF0C#32 0xB803C300#32 then some (.barFlush p (opnd w 18) (w.extractLsb' 4 4) (gFld w))
  else none

/-- OP 0x5d (R74 R75). -/
def decodeOp5D (p : Px) (w : Word) : Option Instr :=
  if fixedAs w 0xFFFFFF0C#32 0xBBE3C000#32 then some (.fbarSync p (w.extractLsb' 4 4) (gFld w))
  else if fixedAs w 0xFFFFFF0C#32 0xBBE3C100#32 then some (.fbarArrive p (w.extractLsb' 4 4) (gFld w))
  else if fixedAs w 0xFFFFFF0C#32 0xBBE3C200#32 then some (.fbarWait p (w.extractLsb' 4 4) (gFld w))
  else none

/-- OP 0x5e (R74 R75). -/
def decodeOp5E (p : Px) (w : Word) : Option Instr :=
  if fixedAs w 0xFE000000#32 0xBC000000#32 then some (.waita p (rForm w))
  else none

/-- OP 0x5f (R74 R75). -/
def decodeOp5F (p : Px) (w : Word) : Option Instr :=
  if fixedAs w 0xFE0007F4#32 0xBE000000#32 then some (.sleepu p (uForm w))
  else none

/-- OP 0x60 (R74 R75). -/
def decodeOp60 (p : Px) (w : Word) : Option Instr :=
  if fixedAs w 0xFE0007F4#32 0xC0000000#32 then some (.qbindUnbind p (uForm w))
  else if fixedAs w 0xFE0007F4#32 0xC0000010#32 then some (.qbindWarp p (uForm w))
  else if fixedAs w 0xFE0007F4#32 0xC0000020#32 then some (.qbindFibre p (uForm w))
  else if fixedAs w 0xFE0007F4#32 0xC0000030#32 then some (.qbindCopy p (uForm w))
  else if fixedAs w 0xFE0007F4#32 0xC0000040#32 then some (.qbindCopydone p (uForm w))
  else if fixedAs w 0xFE0007F4#32 0xC0000050#32 then some (.qbindMseq p (uForm w))
  else if fixedAs w 0xFE0007F4#32 0xC0000060#32 then some (.qbindBincmd p (uForm w))
  else if fixedAs w 0xFE0007F4#32 0xC0000070#32 then some (.qbindBinres p (uForm w))
  else if fixedAs w 0xFE0007F4#32 0xC0000080#32 then some (.qbindCont p (uForm w))
  else if fixedAs w 0xFE0007F4#32 0xC0000090#32 then some (.qbindAmsend p (uForm w))
  else none

/-- OP 0x61 (R74 R75). -/
def decodeOp61 (p : Px) (w : Word) : Option Instr :=
  if fixedAs w 0xFE03FF8C#32 0xC203C000#32 then some (.qstat p (opnd w 18) (fld3 w 4) (gFld w))
  else none

/-- OP 0x62 (R74 R75). -/
def decodeOp62 (p : Px) (w : Word) : Option Instr :=
  if fixedAs w 0xFE03FFFC#32 0xC403C010#32 then some (.stmapUnmap p (udForm w))
  else if fixedAs w 0xFE03FFFC#32 0xC403C020#32 then some (.stmapFlush p (udForm w))
  else if fixedAs w 0xFE0007FC#32 0xC4000000#32 then some (.stmapMap p (opnd w 18) (opnd w 11) (gFld w))
  else none

/-- OP 0x63 (R74 R75). -/
def decodeOp63 (p : Px) (w : Word) : Option Instr :=
  if fixedAs w 0xFE000000#32 0xC6000000#32 then some (.bra p (bForm w))
  else none

/-- OP 0x64 (R74 R75). -/
def decodeOp64 (p : Px) (w : Word) : Option Instr :=
  if fixedAs w 0xFE000000#32 0xC8000000#32 then some (.call p (bForm w))
  else none

/-- OP 0x65 (R74 R75). -/
def decodeOp65 (p : Px) (w : Word) : Option Instr :=
  if fixedAs w 0xFFFFFFFC#32 0xCBE3C020#32 then some (.ret p (gFld w))
  else if fixedAs w 0xFFFC07F4#32 0xCBE00000#32 then some (.jmp p (uaForm w))
  else if fixedAs w 0xFFFC07F4#32 0xCBE00010#32 then some (.callr p (uaForm w))
  else none

/-- OP 0x66 (R74 R75). -/
def decodeOp66 (p : Px) (w : Word) : Option Instr :=
  if fixedAs w 0xFFFFFFFC#32 0xCDE3C000#32 then some (.exit p (gFld w))
  else if fixedAs w 0xFFFFFFFC#32 0xCDE3C010#32 then some (.exitJ p (gFld w))
  else if fixedAs w 0xFFFFFFFC#32 0xCDE3C020#32 then some (.exitF p (gFld w))
  else none

/-- OP 0x67 (R74 R75). -/
def decodeOp67 (p : Px) (w : Word) : Option Instr :=
  if fixedAs w 0xFFFC07F7#32 0xCFE00000#32 then some (.regroup p (opnd w 11) (w.getLsbD 3))
  else none

/-- OP 0x68 (R74 R75). -/
def decodeOp68 (p : Px) (w : Word) : Option Instr :=
  if fixedAs w 0xFFFFFFFF#32 0xD1E3C000#32 then some (.yieldFibre p)
  else if fixedAs w 0xFFFFFFFF#32 0xD1E3C010#32 then some (.yieldSched p)
  else if fixedAs w 0xFFFFFFFF#32 0xD1E3C020#32 then some (.yieldDet p)
  else none

/-- OP 0x69 (R74 R75). -/
def decodeOp69 (p : Px) (w : Word) : Option Instr :=
  if fixedAs w 0xFFFC0003#32 0xD3E00000#32 then some (.winb p (w.extractLsb' 2 16))
  else none

/-- OP 0x6a (R74 R75). -/
def decodeOp6A (p : Px) (w : Word) : Option Instr :=
  if fixedAs w 0xFE0007EF#32 0xD4000000#32 then some (.rgrow p (opnd w 18) (opnd w 11) (w.getLsbD 4))
  else none

/-- OP 0x6b (R74 R75). -/
def decodeOp6B (p : Px) (w : Word) : Option Instr :=
  if fixedAs w 0xFFFC07FF#32 0xD7E00000#32 then some (.rshrink p (opnd w 11))
  else none

/-- OP 0x6c (R74 R75). -/
def decodeOp6C (p : Px) (w : Word) : Option Instr :=
  if fixedAs w 0xFFFFFF0F#32 0xD9E3C000#32 then some (.fibreStart p (w.extractLsb' 4 4))
  else if fixedAs w 0xFFFFFF0F#32 0xD9E3C100#32 then some (.fibreStop p (w.extractLsb' 4 4))
  else if fixedAs w 0xFFFC07FF#32 0xD9E00200#32 then some (.fibreWin p (opnd w 11))
  else if fixedAs w 0xFE03FFFF#32 0xD803C300#32 then some (.fibreSelf p (opnd w 18))
  else if fixedAs w 0xFE03FFFF#32 0xD803C400#32 then some (.fibreState p (opnd w 18))
  else none

/-- OP 0x6d (R74 R75). -/
def decodeOp6D (p : Px) (w : Word) : Option Instr :=
  if fixedAs w 0xFE000000#32 0xDA000000#32 then some (.ensure p (opnd w 18) (w.extractLsb' 0 18))
  else none

/-- OP 0x70 (R74 R75). -/
def decodeOp70 (p : Px) (w : Word) : Option Instr :=
  if fixedAs w 0xFFFFFFFC#32 0xE1E3C000#32 then some (.rbend p (gFld w))
  else none

/-- OP 0x71 (R74 R75). -/
def decodeOp71 (p : Px) (w : Word) : Option Instr :=
  if fixedAs w 0xFE3FFFFF#32 0xE23C78F0#32 then some (.rbaccept p (fld3 w 22))
  else none

/-- OP 0x72 (R74 R75). -/
def decodeOp72 (p : Px) (w : Word) : Option Instr :=
  if fixedAs w 0xFFFC0003#32 0xE5E00000#32 then some (.rbabort p (w.extractLsb' 2 16))
  else none

/-- OP 0x73 (R74 R75). -/
def decodeOp73 (p : Px) (w : Word) : Option Instr :=
  if fixedAs w 0xFFFC07F4#32 0xE7E00000#32 then some (.convj p (uaForm w))
  else none

/-- OP 0x74 (R74 R75). -/
def decodeOp74 (p : Px) (w : Word) : Option Instr :=
  if fixedAs w 0xFE0FFC03#32 0xE8000000#32 then some (.tlalloc p (taForm w))
  else none

/-- OP 0x75 (R74 R75). -/
def decodeOp75 (p : Px) (w : Word) : Option Instr :=
  if fixedAs w 0xFE0FFFFF#32 0xEA000000#32 then some (.tlfree p (w.extractLsb' 20 5))
  else none

/-- OP 0x76 (R74 R75). -/
def decodeOp76 (p : Px) (w : Word) : Option Instr :=
  if fixedAs w 0xFE0FFF0F#32 0xEC000000#32 then some (.tlgive p (w.extractLsb' 20 5) (w.extractLsb' 4 4))
  else none

/-- OP 0x77 (R74 R75). -/
def decodeOp77 (p : Px) (w : Word) : Option Instr :=
  if fixedAs w 0xFE0FFF0F#32 0xEE000000#32 then some (.tltake p (w.extractLsb' 20 5) (w.extractLsb' 4 4))
  else none

/-- OP 0x78 (R74 R75). -/
def decodeOp78 (p : Px) (w : Word) : Option Instr :=
  if fixedAs w 0xFE0FFF0F#32 0xF0000000#32 then some (.tlload p (w.extractLsb' 20 5) (w.extractLsb' 4 4))
  else none

/-- OP 0x79 (R74 R75). -/
def decodeOp79 (p : Px) (w : Word) : Option Instr :=
  if fixedAs w 0xFE0FFF0F#32 0xF2000000#32 then some (.tlstore p (w.extractLsb' 20 5) (w.extractLsb' 4 4))
  else none

/-- OP 0x7a (R74 R75). -/
def decodeOp7A (p : Px) (w : Word) : Option Instr :=
  if fixedAs w 0xFE000303#32 0xF4000000#32 then some (.mmloop p (mmForm w))
  else none

/-- OP 0x7b (R74 R75). -/
def decodeOp7B (p : Px) (w : Word) : Option Instr :=
  if fixedAs w 0xFE007C07#32 0xF6000000#32 then some (.hadt p (htForm w))
  else none

/-- OP 0x7c (R74 R75). -/
def decodeOp7C (p : Px) (w : Word) : Option Instr :=
  if fixedAs w 0xFFFFFFFF#32 0xF8000001#32 then some (.tlsyncAll p)
  else if fixedAs w 0xFE0FFFFF#32 0xF8000000#32 then some (.tlsync p (w.extractLsb' 20 5))
  else none

/-- OP 0x7d (R74 R75). -/
def decodeOp7D (p : Px) (w : Word) : Option Instr :=
  if fixedAs w 0xFFFFFFFF#32 0xFBE0000C#32 then some (.tret p)
  else if fixedAs w 0xFFFFC03F#32 0xFBE00008#32 then some (.trap p (w.extractLsb' 6 8))
  else if fixedAs w 0xFE03FFBF#32 0xFA000014#32 then some (.tbset p (opnd w 18) (w.getLsbD 6))
  else if fixedAs w 0xFE00003F#32 0xFA000000#32 then some (.mfsr p (opnd w 18) (w.extractLsb' 6 12))
  else if fixedAs w 0xFE00003F#32 0xFA000004#32 then some (.mtsr p (opnd w 18) (w.extractLsb' 6 12))
  else none

/-- OP 0x7e (R74 R75). -/
def decodeOp7E (p : Px) (w : Word) : Option Instr :=
  if fixedAs w 0xFFFFFFFF#32 0xFDE00008#32 then some (.haltself p)
  else if fixedAs w 0xFFFFC03F#32 0xFDE00000#32 then some (.brk p (w.extractLsb' 6 8))
  else if fixedAs w 0xFE00003F#32 0xFC000004#32 then some (.mark p (opnd w 18) (w.extractLsb' 6 12))
  else none

/-- The instruction of one word: OP selects the family (03 R74). -/
def decodeWord (p : Px) (w : Word) : Option Instr :=
  match w.toNat / 2 ^ 25 with
  | 1 => decodeOp01 p w
  | 2 => decodeOp02 p w
  | 3 => decodeOp03 p w
  | 4 => decodeOp04 p w
  | 5 => decodeOp05 p w
  | 6 => decodeOp06 p w
  | 7 => decodeOp07 p w
  | 8 => decodeOp08 p w
  | 9 => decodeOp09 p w
  | 10 => decodeOp0A p w
  | 11 => decodeOp0B p w
  | 12 => decodeOp0C p w
  | 13 => decodeOp0D p w
  | 14 => decodeOp0E p w
  | 15 => decodeOp0F p w
  | 16 => decodeOp10 p w
  | 17 => decodeOp11 p w
  | 18 => decodeOp12 p w
  | 19 => decodeOp13 p w
  | 20 => decodeOp14 p w
  | 21 => decodeOp15 p w
  | 22 => decodeOp16 p w
  | 23 => decodeOp17 p w
  | 24 => decodeOp18 p w
  | 25 => decodeOp19 p w
  | 26 => decodeOp1A p w
  | 27 => decodeOp1B p w
  | 28 => decodeOp1C p w
  | 29 => decodeOp1D p w
  | 30 => decodeOp1E p w
  | 31 => decodeOp1F p w
  | 32 => decodeOp20 p w
  | 33 => decodeOp21 p w
  | 34 => decodeOp22 p w
  | 35 => decodeOp23 p w
  | 36 => decodeOp24 p w
  | 37 => decodeOp25 p w
  | 38 => decodeOp26 p w
  | 39 => decodeOp27 p w
  | 40 => decodeOp28 p w
  | 41 => decodeOp29 p w
  | 42 => decodeOp2A p w
  | 43 => decodeOp2B p w
  | 44 => decodeOp2C p w
  | 45 => decodeOp2D p w
  | 46 => decodeOp2E p w
  | 47 => decodeOp2F p w
  | 48 => decodeOp30 p w
  | 49 => decodeOp31 p w
  | 50 => decodeOp32 p w
  | 51 => decodeOp33 p w
  | 52 => decodeOp34 p w
  | 53 => decodeOp35 p w
  | 54 => decodeOp36 p w
  | 55 => decodeOp37 p w
  | 56 => decodeOp38 p w
  | 57 => decodeOp39 p w
  | 58 => decodeOp3A p w
  | 59 => decodeOp3B p w
  | 60 => decodeOp3C p w
  | 61 => decodeOp3D p w
  | 62 => decodeOp3E p w
  | 63 => decodeOp3F p w
  | 64 => decodeOp40 p w
  | 65 => decodeOp41 p w
  | 66 => decodeOp42 p w
  | 67 => decodeOp43 p w
  | 68 => decodeOp44 p w
  | 69 => decodeOp45 p w
  | 70 => decodeOp46 p w
  | 71 => decodeOp47 p w
  | 72 => decodeOp48 p w
  | 73 => decodeOp49 p w
  | 74 => decodeOp4A p w
  | 75 => decodeOp4B p w
  | 76 => decodeOp4C p w
  | 77 => decodeOp4D p w
  | 78 => decodeOp4E p w
  | 79 => decodeOp4F p w
  | 80 => decodeOp50 p w
  | 81 => decodeOp51 p w
  | 82 => decodeOp52 p w
  | 83 => decodeOp53 p w
  | 84 => decodeOp54 p w
  | 85 => decodeOp55 p w
  | 86 => decodeOp56 p w
  | 87 => decodeOp57 p w
  | 88 => decodeOp58 p w
  | 89 => decodeOp59 p w
  | 90 => decodeOp5A p w
  | 91 => decodeOp5B p w
  | 92 => decodeOp5C p w
  | 93 => decodeOp5D p w
  | 94 => decodeOp5E p w
  | 95 => decodeOp5F p w
  | 96 => decodeOp60 p w
  | 97 => decodeOp61 p w
  | 98 => decodeOp62 p w
  | 99 => decodeOp63 p w
  | 100 => decodeOp64 p w
  | 101 => decodeOp65 p w
  | 102 => decodeOp66 p w
  | 103 => decodeOp67 p w
  | 104 => decodeOp68 p w
  | 105 => decodeOp69 p w
  | 106 => decodeOp6A p w
  | 107 => decodeOp6B p w
  | 108 => decodeOp6C p w
  | 109 => decodeOp6D p w
  | 112 => decodeOp70 p w
  | 113 => decodeOp71 p w
  | 114 => decodeOp72 p w
  | 115 => decodeOp73 p w
  | 116 => decodeOp74 p w
  | 117 => decodeOp75 p w
  | 118 => decodeOp76 p w
  | 119 => decodeOp77 p w
  | 120 => decodeOp78 p w
  | 121 => decodeOp79 p w
  | 122 => decodeOp7A p w
  | 123 => decodeOp7B p w
  | 124 => decodeOp7C p w
  | 125 => decodeOp7D p w
  | 126 => decodeOp7E p w
  | _ => none

/-- One word with OP 0x7F joins those already read; a kind that is already there, and a nonzero zero field, are refused
(03 R70 R71). -/
def addPx (p : Px) (w : Word) : Option Px :=
  match (fld3 w 22).toNat with
  | 0 => if !p.sos && w.extractLsb' 0 22 == 0#22 then some { p with sos := true } else none
  | 1 => if p.perm.isNone && w.extractLsb' 0 4 == 0#4 then
      some { p with perm := some ⟨w.extractLsb' 18 4, w.extractLsb' 13 5, w.extractLsb' 9 4, w.extractLsb' 4 5⟩ }
    else none
  | 2 => if p.guard.isNone && w.extractLsb' 0 18 == 0#18 then
      some { p with guard := some (fld3 w 19, w.getLsbD 18) } else none
  | 3 => if p.mempol.isNone && w.extractLsb' 0 13 == 0#13 then
      some { p with mempol := some ⟨fld3 w 19, fld3 w 16, w.getLsbD 15, w.getLsbD 14, w.getLsbD 13⟩ }
    else none
  | 4 => if p.ximm.isNone && w.extractLsb' 16 6 == 0#6 then
      some { p with ximm := some (w.extractLsb' 0 16) } else none
  | 5 => if p.rnd.isNone && w.extractLsb' 0 19 == 0#19 then
      some { p with rnd := some (w.extractLsb' 20 2, w.getLsbD 19) } else none
  | 6 => if p.approx.isNone && w.extractLsb' 0 19 == 0#19 then
      some { p with approx := some (fld3 w 19) } else none
  | _ => none

/-- The word has OP 0x7F. -/
def isPxWord (w : Word) : Bool := w.extractLsb' 25 7 == 0x7F#7

/-- The words with OP 0x7F at the front, at most three, and the word after them. -/
def splitGroup : Nat → Px → List Word → Except Reject (Px × Word)
  | _, _, [] => .error .noWord
  | 0, p, w :: _ => if isPxWord w then .error .badGroup else .ok (p, w)
  | n + 1, p, w :: ws =>
    if isPxWord w then
      match addPx p w with
      | some p' => splitGroup n p' ws
      | none => .error .badGroup
    else .ok (p, w)

/-- The instruction of a group, or the reason it is none (03 R70 to R79, checks 1 to 3). -/
def decodeGroup (ws : List Word) : Except Reject Instr :=
  match splitGroup 3 Px.empty ws with
  | .error r => .error r
  | .ok (p, w) =>
    if w.extractLsb' 25 7 == 0#7 then .error .opZero
    else match decodeWord p w with
      | none => .error .unassigned
      | some i => if i.wf then .ok i else .error .illFormed

/-- The words that bytes in memory hold, each little-endian (03 R62). -/
def wordsOfBytes : List Byte → List Word
  | b0 :: b1 :: b2 :: b3 :: rest => (b3 ++ b2 ++ b1 ++ b0 : BitVec 32) :: wordsOfBytes rest
  | _ => []

/-- The four bytes of a word in memory order (03 R62). -/
def bytesOfWord (w : Word) : List Byte :=
  [w.extractLsb' 0 8, w.extractLsb' 8 8, w.extractLsb' 16 8, w.extractLsb' 24 8]

/-- The bytes of a list of words. -/
def bytesOfWords (ws : List Word) : List Byte := ws.flatMap bytesOfWord

/-- The decoder over any bytes: the instruction of the group at their front and the bytes after the group. -/
def decodeBytes (bs : List Byte) : Except Reject (Instr × List Byte) :=
  match decodeGroup (wordsOfBytes bs) with
  | .error r => .error r
  | .ok i => .ok (i, bs.drop (4 * (i.px.count + 1)))

/-- The decoder on an instruction whose bits are w, numbered as the opcode table numbers them: one 32-bit word, laid out
in memory little-endian. -/
def decodeTableWord (nbits w : Nat) : Option Instr :=
  if nbits ≤ 32 then
    match decodeBytes (bytesOfWord (BitVec.ofNat 32 w)) with
    | .ok (i, _) => some i
    | .error _ => none
  else none

/-! The encoder. -/

def b1 (b : Bool) : BitVec 1 := BitVec.ofBool b

/-- Format R, and U with the SUB code in place of B. -/
def encAbc (op : BitVec 7) (d a b : BitVec 7) (ka kb : Bool) (g : BitVec 2) : Word :=
  op ++ d ++ a ++ b ++ b1 ka ++ b1 kb ++ g

def encR (op : BitVec 7) (f : RForm) : Word := encAbc op f.d.code f.a.code f.b.code f.ka f.kb f.g
def encU (op sub : BitVec 7) (f : UForm) : Word := encAbc op f.d.code f.a.code sub f.ka false f.g
def encI (op : BitVec 7) (f : IForm) : Word := op ++ f.d.code ++ f.imm ++ f.g
def encC (op : BitVec 7) (f : CForm) : Word :=
  op ++ f.pd ++ f.cc ++ f.a.code ++ f.b.code ++ b1 f.ka ++ b1 f.kb ++ f.g
/-- Format P: a predicate and three operand codes. -/
def encP (op : BitVec 7) (pn : BitVec 3) (x y z : BitVec 7) : Word := op ++ pn ++ x ++ y ++ z ++ 0#1
def encM (op : BitVec 7) (f : MForm) : Word :=
  op ++ f.t.code ++ f.a.code ++ b1 f.wa ++ f.sb ++ f.sz ++ b1 f.ka ++ b1 f.kt ++ f.g
def encA (op d a b : BitVec 7) (aop : BitVec 4) : Word := op ++ d ++ a ++ b ++ aop
def encB (op : BitVec 7) (f : BForm) : Word := op ++ f.ps ++ b1 f.n ++ f.mode ++ f.disp
/-- Format T: three handle names and the F field. -/
def encT (op : BitVec 7) (h1 h2 h3 : BitVec 5) (f : BitVec 10) : Word := op ++ h1 ++ h2 ++ h3 ++ f
/-- Format S. -/
def encS (op : BitVec 7) (d : BitVec 7) (csr : BitVec 12) (fn : BitVec 4) : Word := op ++ d ++ csr ++ fn ++ 0#2

/-- The code of an unused operand field (03 R64). -/
def unused : BitVec 7 := 120#7

/-- The word of an instruction, from the tables of 03 R63 R74 R75 R76; an event has none. -/
def encodeWord : Instr → Option Word
  | .iadd _ f => some (encR 0x01#7 f)
  | .isub _ f => some (encR 0x02#7 f)
  | .imul _ f => some (encR 0x03#7 f)
  | .imulhs _ f => some (encR 0x04#7 f)
  | .imulhu _ f => some (encR 0x05#7 f)
  | .imad _ f => some (encR 0x06#7 f)
  | .iadd64 _ f => some (encR 0x07#7 f)
  | .isub64 _ f => some (encR 0x08#7 f)
  | .imin _ f => some (encR 0x09#7 f)
  | .imax _ f => some (encR 0x0A#7 f)
  | .umin _ f => some (encR 0x0B#7 f)
  | .umax _ f => some (encR 0x0C#7 f)
  | .and _ f => some (encR 0x0D#7 f)
  | .or _ f => some (encR 0x0E#7 f)
  | .xor _ f => some (encR 0x0F#7 f)
  | .andn _ f => some (encR 0x10#7 f)
  | .shl _ f => some (encR 0x11#7 f)
  | .shr _ f => some (encR 0x12#7 f)
  | .sar _ f => some (encR 0x13#7 f)
  | .shfr _ f => some (encR 0x14#7 f)
  | .bfe _ f => some (encR 0x15#7 f)
  | .bfi _ f => some (encR 0x16#7 f)
  | .imad64 _ f => some (encR 0x17#7 f)
  | .mov _ f => some (encU 0x18#7 0x00#7 f)
  | .not _ f => some (encU 0x18#7 0x01#7 f)
  | .neg _ f => some (encU 0x18#7 0x02#7 f)
  | .abs _ f => some (encU 0x18#7 0x03#7 f)
  | .popc _ f => some (encU 0x18#7 0x04#7 f)
  | .clz _ f => some (encU 0x18#7 0x05#7 f)
  | .ctz _ f => some (encU 0x18#7 0x06#7 f)
  | .brev _ f => some (encU 0x18#7 0x07#7 f)
  | .sx8 _ f => some (encU 0x18#7 0x08#7 f)
  | .sx16 _ f => some (encU 0x18#7 0x09#7 f)
  | .zx8 _ f => some (encU 0x18#7 0x0A#7 f)
  | .zx16 _ f => some (encU 0x18#7 0x0B#7 f)
  | .bswap _ f => some (encU 0x18#7 0x0C#7 f)
  | .mov64 _ f => some (encU 0x18#7 0x0D#7 f)
  | .widf0 _ f => some (encAbc 0x18#7 f.d.code unused 0x10#7 false false f.g)
  | .widf1 _ f => some (encAbc 0x18#7 f.d.code unused 0x11#7 false false f.g)
  | .widf2 _ f => some (encAbc 0x18#7 f.d.code unused 0x12#7 false false f.g)
  | .widf3 _ f => some (encAbc 0x18#7 f.d.code unused 0x13#7 false false f.g)
  | .widf4 _ f => some (encAbc 0x18#7 f.d.code unused 0x14#7 false false f.g)
  | .widf5 _ f => some (encAbc 0x18#7 f.d.code unused 0x15#7 false false f.g)
  | .movi _ f => some (encI 0x19#7 f)
  | .movhi _ f => some (encI 0x1A#7 f)
  | .iaddi _ f => some (encI 0x1B#7 f)
  | .andi _ f => some (encI 0x1C#7 f)
  | .ori _ f => some (encI 0x1D#7 f)
  | .xori _ f => some (encI 0x1E#7 f)
  | .shi _ d kind n g => some (0x1F#7 ++ d.code ++ 0#9 ++ kind ++ n ++ g)
  | .icmp _ f => some (encC 0x20#7 f)
  | .ucmp _ f => some (encC 0x21#7 f)
  | .fcmp _ f => some (encC 0x22#7 f)
  | .hcmp2 _ f => some (encC 0x23#7 f)
  | .bcmp2 _ f => some (encC 0x24#7 f)
  | .sel _ f => some (encP 0x25#7 f.pn f.d.code f.a.code f.b.code)
  | .plog _ pn a => some (encP 0x26#7 pn unused a.code unused)
  | .vote _ pn d => some (encP 0x27#7 pn d.code unused unused)
  | .ballot _ pn d => some (encP 0x28#7 pn d.code unused unused)
  | .pmov _ pn d => some (encP 0x29#7 pn d.code unused unused)
  | .pmovPred _ pn a b => some (encP 0x29#7 pn unused a.code b.code)
  | .fadd _ f => some (encR 0x2A#7 f)
  | .fsub _ f => some (encR 0x2B#7 f)
  | .fmul _ f => some (encR 0x2C#7 f)
  | .ffma _ f => some (encR 0x2D#7 f)
  | .fmin _ f => some (encR 0x2E#7 f)
  | .fmax _ f => some (encR 0x2F#7 f)
  | .hadd2 _ f => some (encR 0x30#7 f)
  | .hmul2 _ f => some (encR 0x31#7 f)
  | .hfma2 _ f => some (encR 0x32#7 f)
  | .hmin2 _ f => some (encR 0x33#7 f)
  | .hmax2 _ f => some (encR 0x34#7 f)
  | .badd2 _ f => some (encR 0x35#7 f)
  | .bmul2 _ f => some (encR 0x36#7 f)
  | .bfma2 _ f => some (encR 0x37#7 f)
  | .bmin2 _ f => some (encR 0x38#7 f)
  | .bmax2 _ f => some (encR 0x39#7 f)
  | .faddi _ f => some (encI 0x3A#7 f)
  | .fmuli _ f => some (encI 0x3B#7 f)
  | .haddi2 _ f => some (encI 0x3C#7 f)
  | .hmuli2 _ f => some (encI 0x3D#7 f)
  | .baddi2 _ f => some (encI 0x3E#7 f)
  | .bmuli2 _ f => some (encI 0x3F#7 f)
  | .qseti _ f => some (encI 0x40#7 f)
  | .fabs _ f => some (encU 0x41#7 0x00#7 f)
  | .fneg _ f => some (encU 0x41#7 0x01#7 f)
  | .ffloor _ f => some (encU 0x41#7 0x02#7 f)
  | .fceil _ f => some (encU 0x41#7 0x03#7 f)
  | .ftrunc _ f => some (encU 0x41#7 0x04#7 f)
  | .frint _ f => some (encU 0x41#7 0x05#7 f)
  | .ffract _ f => some (encU 0x41#7 0x06#7 f)
  | .fsat _ f => some (encU 0x41#7 0x07#7 f)
  | .fclass _ f => some (encU 0x41#7 0x08#7 f)
  | .habs2 _ f => some (encU 0x41#7 0x10#7 f)
  | .hneg2 _ f => some (encU 0x41#7 0x11#7 f)
  | .babs2 _ f => some (encU 0x41#7 0x12#7 f)
  | .bneg2 _ f => some (encU 0x41#7 0x13#7 f)
  | .rcp _ f => some (encU 0x42#7 0x00#7 f)
  | .rsq _ f => some (encU 0x42#7 0x01#7 f)
  | .sqrt _ f => some (encU 0x42#7 0x02#7 f)
  | .exp2 _ f => some (encU 0x42#7 0x03#7 f)
  | .log2 _ f => some (encU 0x42#7 0x04#7 f)
  | .sin _ f => some (encU 0x42#7 0x05#7 f)
  | .cos _ f => some (encU 0x42#7 0x06#7 f)
  | .tanh _ f => some (encU 0x42#7 0x07#7 f)
  | .dp2h _ f => some (encR 0x43#7 f)
  | .dp2b _ f => some (encR 0x44#7 f)
  | .dp4e4 _ f => some (encR 0x45#7 f)
  | .dp4e5 _ f => some (encR 0x46#7 f)
  | .dp4s8 _ f => some (encR 0x47#7 f)
  | .dp8e2 _ f => some (encR 0x48#7 f)
  | .dp8s4 _ f => some (encR 0x49#7 f)
  | .fscl _ f => some (encR 0x4A#7 f)
  | .f2i _ f => some (encU 0x4B#7 0x00#7 f)
  | .f2iRz _ f => some (encU 0x4B#7 0x01#7 f)
  | .f2u _ f => some (encU 0x4B#7 0x02#7 f)
  | .f2uRz _ f => some (encU 0x4B#7 0x03#7 f)
  | .i2f _ f => some (encU 0x4B#7 0x04#7 f)
  | .u2f _ f => some (encU 0x4B#7 0x05#7 f)
  | .f2hLo _ f => some (encU 0x4B#7 0x06#7 f)
  | .f2hHi _ f => some (encU 0x4B#7 0x07#7 f)
  | .f2bLo _ f => some (encU 0x4B#7 0x08#7 f)
  | .f2bHi _ f => some (encU 0x4B#7 0x09#7 f)
  | .h2fLo _ f => some (encU 0x4B#7 0x0A#7 f)
  | .h2fHi _ f => some (encU 0x4B#7 0x0B#7 f)
  | .b2fLo _ f => some (encU 0x4B#7 0x0C#7 f)
  | .b2fHi _ f => some (encU 0x4B#7 0x0D#7 f)
  | .qnt _ f => some (encR 0x4C#7 f)
  | .deq _ f => some (encR 0x4D#7 f)
  | .shfl _ f => some (encR 0x4E#7 f)
  | .xwr _ f => some (encR 0x4F#7 f)
  | .redlIadd _ f => some (encU 0x50#7 0x00#7 f)
  | .redlSmin _ f => some (encU 0x50#7 0x01#7 f)
  | .redlSmax _ f => some (encU 0x50#7 0x02#7 f)
  | .redlUmin _ f => some (encU 0x50#7 0x03#7 f)
  | .redlUmax _ f => some (encU 0x50#7 0x04#7 f)
  | .redlAnd _ f => some (encU 0x50#7 0x05#7 f)
  | .redlOr _ f => some (encU 0x50#7 0x06#7 f)
  | .redlXor _ f => some (encU 0x50#7 0x07#7 f)
  | .redlFadd _ f => some (encU 0x50#7 0x08#7 f)
  | .redlFmin _ f => some (encU 0x50#7 0x09#7 f)
  | .redlFmax _ f => some (encU 0x50#7 0x0A#7 f)
  | .scanlIadd _ f => some (encU 0x51#7 0x00#7 f)
  | .scanlIaddEx _ f => some (encU 0x51#7 0x01#7 f)
  | .scanlFadd _ f => some (encU 0x51#7 0x02#7 f)
  | .scanlSmax _ f => some (encU 0x51#7 0x03#7 f)
  | .scanlOr _ f => some (encU 0x51#7 0x04#7 f)
  | .ldg _ f => some (encM 0x52#7 f)
  | .stg _ f => some (encM 0x53#7 f)
  | .lds _ f => some (encM 0x54#7 f)
  | .sts _ f => some (encM 0x55#7 f)
  | .ldc _ f => some (encM 0x56#7 f)
  | .pref _ f => some (0x57#7 ++ unused ++ f.a.code ++ b1 f.wa ++ f.sb ++ 0#3 ++ b1 f.ka ++ 0#1 ++ f.g)
  | .atg _ f => some (encA 0x58#7 f.d.code f.a.code f.b.code f.aop)
  | .ats _ f => some (encA 0x59#7 f.d.code f.a.code f.b.code f.aop)
  | .redg _ f => some (encA 0x5A#7 unused f.a.code f.b.code f.aop)
  | .fenceFull _ scope g => some (0x5B#7 ++ unused ++ unused ++ 0#2 ++ scope ++ 0#2 ++ 0#2 ++ g)
  | .fenceAcq _ scope g => some (0x5B#7 ++ unused ++ unused ++ 0#2 ++ scope ++ 1#2 ++ 0#2 ++ g)
  | .fenceRel _ scope g => some (0x5B#7 ++ unused ++ unused ++ 0#2 ++ scope ++ 2#2 ++ 0#2 ++ g)
  | .fenceEng _ scope g => some (0x5B#7 ++ unused ++ unused ++ 0#2 ++ scope ++ 3#2 ++ 0#2 ++ g)
  | .barSync _ d name g => some (0x5C#7 ++ d.code ++ unused ++ 0#3 ++ name ++ 0#2 ++ g)
  | .barArrive _ d name g => some (0x5C#7 ++ d.code ++ unused ++ 1#3 ++ name ++ 0#2 ++ g)
  | .barWait _ d name g => some (0x5C#7 ++ d.code ++ unused ++ 2#3 ++ name ++ 0#2 ++ g)
  | .barFlush _ d name g => some (0x5C#7 ++ d.code ++ unused ++ 3#3 ++ name ++ 0#2 ++ g)
  | .fbarSync _ mask g => some (0x5D#7 ++ unused ++ unused ++ 0#3 ++ mask ++ 0#2 ++ g)
  | .fbarArrive _ mask g => some (0x5D#7 ++ unused ++ unused ++ 1#3 ++ mask ++ 0#2 ++ g)
  | .fbarWait _ mask g => some (0x5D#7 ++ unused ++ unused ++ 2#3 ++ mask ++ 0#2 ++ g)
  | .waita _ f => some (encR 0x5E#7 f)
  | .sleepu _ f => some (encU 0x5F#7 0x00#7 f)
  | .qbindUnbind _ f => some (encU 0x60#7 0x00#7 f)
  | .qbindWarp _ f => some (encU 0x60#7 0x01#7 f)
  | .qbindFibre _ f => some (encU 0x60#7 0x02#7 f)
  | .qbindCopy _ f => some (encU 0x60#7 0x03#7 f)
  | .qbindCopydone _ f => some (encU 0x60#7 0x04#7 f)
  | .qbindMseq _ f => some (encU 0x60#7 0x05#7 f)
  | .qbindBincmd _ f => some (encU 0x60#7 0x06#7 f)
  | .qbindBinres _ f => some (encU 0x60#7 0x07#7 f)
  | .qbindCont _ f => some (encU 0x60#7 0x08#7 f)
  | .qbindAmsend _ f => some (encU 0x60#7 0x09#7 f)
  | .qstat _ d q g => some (0x61#7 ++ d.code ++ unused ++ 0#4 ++ q ++ 0#2 ++ g)
  | .stmapMap _ d a g => some (encAbc 0x62#7 d.code a.code 0x00#7 false false g)
  | .stmapUnmap _ f => some (encAbc 0x62#7 f.d.code unused 0x01#7 false false f.g)
  | .stmapFlush _ f => some (encAbc 0x62#7 f.d.code unused 0x02#7 false false f.g)
  | .bra _ f => some (encB 0x63#7 f)
  | .call _ f => some (encB 0x64#7 f)
  | .jmp _ f => some (encAbc 0x65#7 unused f.a.code 0x00#7 f.ka false f.g)
  | .callr _ f => some (encAbc 0x65#7 unused f.a.code 0x01#7 f.ka false f.g)
  | .ret _ g => some (encAbc 0x65#7 unused unused 0x02#7 false false g)
  | .exit _ g => some (encAbc 0x66#7 unused unused 0x00#7 false false g)
  | .exitJ _ g => some (encAbc 0x66#7 unused unused 0x01#7 false false g)
  | .exitF _ g => some (encAbc 0x66#7 unused unused 0x02#7 false false g)
  | .regroup _ a ka => some (encAbc 0x67#7 unused a.code 0x00#7 ka false 0#2)
  | .yieldFibre _ => some (encAbc 0x68#7 unused unused 0x00#7 false false 0#2)
  | .yieldSched _ => some (encAbc 0x68#7 unused unused 0x01#7 false false 0#2)
  | .yieldDet _ => some (encAbc 0x68#7 unused unused 0x02#7 false false 0#2)
  | .winb _ imm => some (0x69#7 ++ unused ++ imm ++ 0#2)
  | .rgrow _ d a tryIt => some (0x6A#7 ++ d.code ++ a.code ++ 0#6 ++ b1 tryIt ++ 0#4)
  | .rshrink _ a => some (encAbc 0x6B#7 unused a.code 0x00#7 false false 0#2)
  | .fibreStart _ mask => some (0x6C#7 ++ unused ++ unused ++ 0#3 ++ mask ++ 0#4)
  | .fibreStop _ mask => some (0x6C#7 ++ unused ++ unused ++ 1#3 ++ mask ++ 0#4)
  | .fibreWin _ a => some (encAbc 0x6C#7 unused a.code 0x20#7 false false 0#2)
  | .fibreSelf _ d => some (encAbc 0x6C#7 d.code unused 0x30#7 false false 0#2)
  | .fibreState _ d => some (encAbc 0x6C#7 d.code unused 0x40#7 false false 0#2)
  | .ensure _ lc disp => some (0x6D#7 ++ lc.code ++ disp)
  | .rbend _ g => some (encAbc 0x70#7 unused unused 0x00#7 false false g)
  | .rbaccept _ pn => some (encP 0x71#7 pn unused unused unused)
  | .rbabort _ imm => some (0x72#7 ++ unused ++ imm ++ 0#2)
  | .convj _ f => some (encAbc 0x73#7 unused f.a.code 0x00#7 f.ka false f.g)
  | .tlalloc _ f => some (encT 0x74#7 f.h 0#5 0#5 (f.kind ++ f.s ++ b1 f.span ++ b1 f.nw ++ 0#2))
  | .tlfree _ h => some (encT 0x75#7 h 0#5 0#5 0#10)
  | .tlgive _ h s => some (encT 0x76#7 h 0#5 0#5 (0#2 ++ s ++ 0#4))
  | .tltake _ h s => some (encT 0x77#7 h 0#5 0#5 (0#2 ++ s ++ 0#4))
  | .tlload _ h s => some (encT 0x78#7 h 0#5 0#5 (0#2 ++ s ++ 0#4))
  | .tlstore _ h s => some (encT 0x79#7 h 0#5 0#5 (0#2 ++ s ++ 0#4))
  | .mmloop _ f => some (encT 0x7A#7 f.hc f.ha f.hb (0#2 ++ f.s ++ b1 f.acc ++ b1 f.apx ++ 0#2))
  | .hadt _ f => some (encT 0x7B#7 f.hd f.hs 0#5 (f.size ++ f.s ++ b1 f.q ++ 0#3))
  | .tlsync _ h => some (encT 0x7C#7 h 0#5 0#5 0#10)
  | .tlsyncAll _ => some (encT 0x7C#7 0#5 0#5 0#5 1#10)
  | .mfsr _ d csr => some (encS 0x7D#7 d.code csr 0#4)
  | .mtsr _ d csr => some (encS 0x7D#7 d.code csr 1#4)
  | .trap _ code => some (encS 0x7D#7 unused (0#4 ++ code) 2#4)
  | .tret _ => some (encS 0x7D#7 unused 0#12 3#4)
  | .tbset _ d v => some (encS 0x7D#7 d.code (0#11 ++ b1 v) 5#4)
  | .brk _ code => some (encS 0x7E#7 unused (0#4 ++ code) 0#4)
  | .mark _ d code => some (encS 0x7E#7 d.code code 1#4)
  | .haltself _ => some (encS 0x7E#7 unused 0#12 2#4)
  | .stallReissue _ => none
  | .levelOpen _ => none
  | .attemptLimitReached _ _ => none
  | .levelRollback _ => none
  | .convJoinMessage _ => none
  | .convVoteMessage _ => none
  | .convFailMessage _ => none
  | .convDoneMessage _ => none
  | .convCommitNotice _ => none
  | .convRollbackNotice _ => none
  | .convAdvanceNotice _ => none
  | .convExhaustNotice _ => none
  | .heldWritePerform _ => none
  | .timerFire _ => none
  | .timerTrapEntry _ => none
  | .shadowWaitTrapEntry _ => none
  | .waitaRecheck _ => none
  | .waitaTimeout _ => none
  | .sleepuDeadline _ => none
  | .sleepuCompletionWake _ => none
  | .tileSequencerStart _ _ => none
  | .tileInstrRetire _ _ => none
  | .aRowsBroadcastArrive _ _ => none
  | .copyCmd _ _ _ => none
  | .fillCmd _ _ _ => none
  | .copyCmdComplete _ _ _ => none
  | .copyPromiseExpiry _ _ _ => none
  | .mseqRun _ _ _ => none
  | .thresherOpen _ _ => none
  | .thresherCount _ _ => none
  | .thresherBind _ _ => none
  | .thresherClose _ _ => none
  | .amArrive _ _ => none
  | .handlerWarpSpawn _ => none
  | .cohortCompletion _ => none
  | .parentPlacement _ => none
  | .cohortDispatch _ => none
  | .launchQueueTail _ _ => none
  | .budgetEnd _ => none
  | .promiseDrainEnd _ => none
  | .preemptTrigger _ => none
  | .preemption _ _ => none
  | .contextResume _ _ => none
  | .launchEnd _ => none
  | .checkRunRestart _ => none
  | .cargoDeparture _ => none
  | .cargoRetry _ _ => none
  | .cargoLanding _ _ => none
  | .landedWarpStart _ => none
  | .segmentReplication _ => none
  | .stashIdleWriteback _ _ => none
  | .stashRecall _ => none
  | .dirReadRequest _ _ => none
  | .dirOwnershipRequest _ _ => none
  | .evictionNotice _ _ _ _ => none
  | .regionDone _ _ _ => none
  | .probeAnswer _ _ _ => none
  | .regionMerge _ _ => none
  | .hostMemRead _ _ => none
  | .hostMemWrite _ _ => none
  | .biasToDev _ _ => none
  | .biasToHost _ _ => none
  | .bisnpAnswer _ _ => none
  | .biasFlipTimeout _ => none
  | .pageWalk _ => none
  | .xinvCommand _ _ => none
  | .xinvComplete _ => none
  | .faultReplyRetry _ _ => none
  | .faultReplyUnserviceable _ _ => none
  | .faultReplyKill _ _ => none
  | .ctxCreate _ _ => none
  | .ctxDestroy _ _ => none
  | .contextReleaseScrub _ => none
  | .lqcfgWrite _ _ _ => none
  | .registerWrite _ _ _ => none
  | .machineCheck _ => none
  | .securityViolation _ _ => none
  | .contextKill _ => none
  | .attach _ => none
  | .detach _ => none
  | .halt _ => none
  | .haltc _ => none
  | .resume _ => none
  | .resumec _ => none
  | .step _ => none
  | .setbp _ => none
  | .clrbp _ => none
  | .warpHaltTakesEffect _ => none
  | .breakpointHit _ => none
  | .regviewWrite _ _ _ _ => none
  | .fibviewWrite _ _ _ _ => none
  | .shviewWrite _ _ _ _ => none
  | .tileviewWrite _ _ _ _ => none
  | .viewRead _ _ _ => none
  | .sample _ => none
  | .governorUpdate _ => none
  | .lmReport _ _ _ => none
  | .lmLogread _ _ => none
  | .lmLiferead _ _ => none
  | .logAppendRequest _ _ _ => none
  | .logCheckpoint => none
  | .lifetimeFold => none
  | .measExtend _ _ => none
  | .coldReset _ => none
  | .fuseRaise _ _ => none
  | .firmwareUpdate _ => none
  | .keeperRestart => none
  | .patrolScrub _ _ => none
  | .thermalTrip _ => none
  | .thermalRecovery => none
  | .nocInputBlocked _ _ _ => none
  | .stitch _ _ _ => none
  | .plLinkDown _ => none
  | .unreachableTimeout _ => none
  | .partitionConfig _ _ => none
  | .illegalInstruction => none
  | .ptsAdvance _ => none
  | .hostCacheSnoop _ _ => none
  | .agentProbe _ _ => none
  | .fqheadWrite _ _ => none
  | .routeTableSet _ _ => none
  | .voltageDroopEvent _ => none
  | .thermalExcursion _ => none
  | .powerLoss => none

/-- A word with OP 0x7F: kind and payload (03 R63 R71). -/
def encPx (kind : BitVec 3) (pay : BitVec 22) : Word := 0x7F#7 ++ kind ++ pay

/-- The words before an instruction, in ascending kind (03 R80). -/
def Px.words (p : Px) : List Word :=
  (if p.sos then [encPx 0#3 0#22] else [])
    ++ (match p.perm with | some m => [encPx 1#3 (m.aPat ++ m.aPar ++ m.bPat ++ m.bPar ++ 0#4)] | none => [])
    ++ (match p.guard with | some (n, neg) => [encPx 2#3 (n ++ b1 neg ++ 0#18)] | none => [])
    ++ (match p.mempol with
        | some m => [encPx 3#3 (m.scope ++ m.policy ++ b1 m.acq ++ b1 m.rel ++ b1 m.line ++ 0#13)]
        | none => [])
    ++ (match p.ximm with | some x => [encPx 4#3 (0#6 ++ x)] | none => [])
    ++ (match p.rnd with | some (m, ov) => [encPx 5#3 (m ++ b1 ov ++ 0#19)] | none => [])
    ++ (match p.approx with | some l => [encPx 6#3 (l ++ 0#19)] | none => [])

/-- The words of a group; none for an event. -/
def encode (i : Instr) : Option (List Word) := (encodeWord i).map fun w => i.px.words ++ [w]

end Sys2Proof
end

