-- ==== Sys2Proof/Machine/Fetch.lean ====
section
/-! DEFINITION. Fetching a prefix group (03 R62 R70 R73). -/

namespace Sys2Proof.Machine

/-- What a fetch finds. -/
inductive Fetched where
  /-- the PC lies outside the code section (R62) -/
  | outside
  /-- the page of a word is not in the TLB -/
  | miss (va : DWord)
  /-- another agent holds the line of a word (11 R303), or no route leads to it (15 R388) -/
  | busy (line : Nat)
  | words (ws : List Word)
deriving DecidableEq, Repr

def inCode (l : Launch) (pc : Nat) : Bool := decide (l.codeOff ≤ pc) && decide (pc + 4 ≤ l.codeOff + l.codeSize)

/-- The virtual address of a PC: a byte offset from the start of the code object (03 R82). -/
def codeVa (l : Launch) (pc : Nat) : DWord := l.code + BitVec.ofNat 64 pc

def fetchAcc : Access := { fetch := true }

/-- The pinned segment that a core fetches from outside trap mode (13 R347). -/
def pinnedSeg (s : State) : Option Segment :=
  if s.l.travel && !s.w.trapMode then s.k.pin.bind fun t => s.l.segs[t.2]? else none

/-- The word at a PC: of the pinned segment, or of the code object in memory. -/
def fetchWord (s : State) (pc : Nat) : Except Fetched Word :=
  match pinnedSeg s with
  | some g => .ok (BitVec.ofNat 32 (fieldLe g.bytes (pc - g.start) 4))
  | none =>
    match transl s (codeVa s.l pc) fetchAcc with
    | none => .error (.miss (codeVa s.l pc))
    | some (pa, _) =>
      let n := localPa s pa / 128
      if !(agentsAgainst s n false).isEmpty || !routed s [n] then .error (.busy n)
      else .ok (BitVec.ofNat 32 (leNat ((List.range 4).map fun i => engineByte s (localPa s pa + i))))

/-- The place holds a word to fetch: of the code section, and of the pinned segment where there is one. -/
def fetchable (s : State) (pc : Nat) : Bool :=
  inCode s.l pc && (pinnedSeg s).all fun g => decide (g.start ≤ pc) && decide (pc + 4 ≤ g.start + g.len)

/-- How a fetch that does not end goes on: the instruction waits. -/
def fetchStall (s : State) : Fetched → Exc
  | .miss va => .stall .fetch (.xlate va fetchAcc)
  | .busy n => match linesReady s [n] false with
    | .error (.stallSide ps lost _ c) => .stallSide ps lost .fetch c
    | _ => .stall .fetch .soon
  | _ => .stall .fetch .soon

/-- Up to n words from a PC on: a run of OP 0x7F words and the word after it; fewer when the code section ends. -/
def fetchWords (s : State) : Nat → Nat → List Word → Fetched
  | 0, _, ws => .words ws
  | n + 1, pc, ws =>
    if !fetchable s pc then .words ws
    else match fetchWord s pc with
      | .error f => f
      | .ok w => if isPxWord w then fetchWords s n (pc + 4) (ws ++ [w]) else .words (ws ++ [w])

/-- The group at a PC: at most three words with OP 0x7F and one more. -/
def fetchGroup (s : State) (pc : Nat) : Fetched :=
  if inCode s.l pc then fetchWords s 4 pc [] else .outside

/-- The instruction that a group stands for; a group that is none raises an illegal-instruction fault (03 R79). -/
def groupInstr (ws : List Word) : Instr :=
  match decodeGroup ws with
  | .ok i => i
  | .error _ => .illegalInstruction

end Sys2Proof.Machine
end

