-- ==== Sys2Proof/Machine/Recovery.lean ====
section
/-! DEFINITION. Recovery blocks: headers, verdicts, commit, rollback, exhaustion, held writes (08 R219 to R230, 09 R251 to R265 R442). -/

namespace Sys2Proof.Machine

/-! The warps of a cohort. -/

/-- The live launched warp of a cohort with the lowest index, or else any warp of it (08 R220). -/
def leadWarp (s : State) (cid : Nat) : Option Warp :=
  ((byLidx (s.liveWarps cid)).head?).orElse fun _ => s.allWarps.find? fun w => w.cid == cid

/-- Act with a cohort in focus, through its lead warp. -/
def asCohort (s : State) (cid : Nat) (f : State → State) : State :=
  match leadWarp s cid with
  | some w => f (s.focus w.id)
  | none => s

/-- A cohort with one of its warps in focus, to look at. -/
def leadOf (s : State) (cid : Nat) : Option State := (leadWarp s cid).map fun w => s.focus w.id

/-- The drain of a phase that has waited for it is made, or asks the agents that stand against it (06 R171, 12 R337). -/
def flushAgain (cid name : Nat) (s : State) : State := asCohort s cid fun u => (flushNext u name).getD u
def flushDue (s : State) (cid name : Nat) : Bool := (leadOf s cid).any fun u => (flushNext u name).isSome

/-- Act on every live launched warp of the cohort in focus. -/
def eachWarp (s : State) (f : State → State) : State :=
  (s.liveWarps s.c.id).foldl (fun s w => within s w.id f) s

/-- A warp goes on with one entry of every live thread, at a PC that the group at src has made. -/
def startAt (src pc : Word) (s : State) : State :=
  { s with w := { s.w with front := [{ pc := pc, mask := s.w.holds, src := src }], stall := none, keep := .none, asked := none } }

/-! The header (03 R77, 08 R219 R220). -/

/-- A word of the code section, fetched as an instruction is. -/
def codeWord (s : State) (pc : Word) : Except Exc (Option Word) :=
  if !fetchable s pc.toNat then .ok none
  else match fetchWord s pc.toNat with
    | .ok w => .ok (some w)
    | .error f => .error (fetchStall s f)

/-- The words after ENSURE: the alternates, the code of ELSEERR and its PC. -/
def parseHeader (s : State) : Nat → Word → List Word → Except Exc (List Word × Nat × Word)
  | 0, _, _ => raise fcIllegal
  | n + 1, pc, alts => do
    match ← codeWord s pc with
    | none => raise fcIllegal
    | some w =>
      let op := (w.extractLsb' 25 7).toNat
      let disp : Word := (w.extractLsb' 0 18).setWidth 32
      if op = 0x6F then
        if w.extractLsb' 0 9 = 0#9 then .ok (alts, (w.extractLsb' 9 16).toNat, pc) else raise fcIllegal
      else if op = 0x6E then
        if w.extractLsb' 18 7 = 0#7 ∧ disp ≠ 0#32 then parseHeader s n (pc + 4#32) (alts ++ [pc + 4#32 * disp]) else raise fcIllegal
      else raise fcIllegal

/-- Every live launched warp of the cohort has arrived at a header. -/
def headersFull (s : State) (c : Cohort) : Bool :=
  let ws := s.liveWarps c.id
  c.resident && c.failing.isNone && c.done.isNone && !ws.isEmpty && ws.all fun w => (assoc w.id c.headers).isSome

/-- ENSURE (R221): the header's checks, the arrival and the wait. The last arrival does not wait for others. -/
def execEnsure (p : Px) (lc : Opnd) (disp : BitVec 18) (s : State) : Out :=
  run p s (do
    let h := s.wordPc p
    need (disp != 0#18) fcIllegal
    let (alts, code, codePc) ← parseHeader s 8 (h + 4#32) []
    uniPairOk lc
    need lc.isS fcOpnd
    need (!s.w.trapMode) fcIllegal
    need (!s.w.handler) fcRbState
    need (s.cur.mask == s.w.holds) fcRbDiv
    need (decide (s.depth < 8)) fcRbDepth
    let v := readPair s lc none
    let level : Level := { header := h, test := h + 4#32 * disp.setWidth 32, alts := alts, code := code, codePc := codePc
                           limit := min (pairAt v.1 v.2 0).toNat (2 ^ 40), start := 0 }
    let t := { s with c := { s.c with headers := assocPut s.w.id level s.c.headers } }
    .error (.stallAt t .barrier (if headersFull t t.c then .opens else .never)))

/-- The level opens in every warp as one step, or the arrivals name more than one header (R221). Its LEVEL entry takes 32 bytes of
husk; a level that finds none opens and fails (09 R252 R254). -/
def openLevel (s : State) : State :=
  let ws := s.liveWarps s.c.id
  let heads := (ws.filterMap fun w => (assoc w.id s.c.headers).map (·.header)).dedup
  let level := assoc s.w.id s.c.headers
  let s := { s with c := { s.c with headers := [] } }
  match heads, level with
  | [_], some v =>
    let v := { v with start := s.cyc, seqFrom := s.k.nextOp }
    let place := huskPlace s { v with headOver := true } 32
    let v := match place with
      | some (ovf, n) => { v with headOver := ovf, chunks := n }
      | none => { v with headOver := true }
    let s := { s with c := { s.c with levels := v :: s.c.levels } }
    let pc := v.codePc + 4#32
    let s := eachWarp s fun s => startAt s.cur.pc pc (finish s)
    if place.isNone then failAt s s.c.levels.length 4 0 0
    else if staysHere s pc then s else failAt s s.c.levels.length 6 0 0
  | _, _ => eachWarp s fun s =>
    deliver { s with w := { s.w with stall := none, keep := .none, asked := none } } fcRbMismatch 0#64 none

def execLevelOpen (c : Nat) (s : State) : Out :=
  match s.cohort? c with
  | some x => .next (if headersFull s x then asCohort s c openLevel else s)
  | none => .next s

/-! RBEND (R223). -/

/-- The checks that RBEND, RBACCEPT and RBABORT share (R233). -/
def rbChecks (s : State) : Except Exc Unit := do
  need (!s.w.trapMode) fcIllegal
  need (decide (s.depth ≠ 0)) fcRbState

def execRbend (p : Px) (g : BitVec 2) (s : State) : Out :=
  run p s (do
    rbChecks s
    let test := (s.c.levels.head?.map (·.test)).getD 0#32
    let m := s.active p g
    let e := s.cur
    let rest := s.w.front.erase e
    let rest := if m = e.mask then rest else addEntry { pc := s.nextPc p, mask := e.mask &&& ~~~ m, src := e.pc } rest
    let front := if m = 0#32 then rest else addEntry { pc := test, mask := m, parked := true, rbLanes := m, src := e.pc } rest
    need (decide (front.length ≤ 8)) fcFrontier
    departCheck s (front.filter fun x => !x.parked) []
    let here := front.foldl (fun k x => k ||| x.rbLanes) 0#32
    let t := { s with w := { s.w with front := front } }
    if here = s.w.holds then do
      departCheck s [{ pc := test, mask := here }] []
      .ok { t with w := { t.w with front := [{ pc := test, mask := here, src := e.pc }] } }
    else .ok t)

/-! Commit (R225, 09 R258 R259 R274). -/

/-- An entry moves outward with its place in the husk, unless the outer level has one for the same state. -/
def mergeEntry (s : State) (o : Level) (e : LogEntry × Bool) : Level :=
  if logged s o e.1 then o else { o with log := o.log ++ [e.1], overs := o.overs ++ [e.2] }

/-- The log of a level joins that of the enclosing one; chunks in which an entry still stands stay with it (R258). -/
def mergeLevel (s : State) (v o : Level) : Level :=
  let entries := v.log.zipIdx.map fun t => (t.1, v.overs.getD t.2 false)
  let m := entries.foldl (mergeEntry s) o
  { m with chunks := o.chunks + (if (m.overs.drop o.log.length).any id then v.chunks else 0) }

/-- The lines of an outermost level join the launch level of a check-mode launch. -/
def checkMerge (s : State) (log : List LogEntry) : State :=
  if !s.l.check then s
  else log.foldl (fun s e => match e with
    | .gln va pa old =>
      if s.l.checkLost || s.l.checkLog.any (fun t => t.2.1 == pa) then s
      else if checkRoom s s.l then { s with l := { s.l with checkLog := s.l.checkLog ++ [(va, pa, old)] } }
      else { s with l := { s.l with checkLost := true } }
    | _ => s) s

/-- Every claim of the cohort in focus is released. -/
def releaseClaims (s : State) : State := { s with claims := s.claims.filter fun x => x.cid != s.c.id }

/-- Copy commands accepted at a depth belong to a level further out. -/
def relabelCopies (s : State) (cid d : Nat) : State :=
  let f := fun m : CopyCmd => if m.cid == cid && m.level.any (fun x => decide (d ≤ x)) then
      { m with level := if d ≤ 1 then none else some (d - 1) } else m
  { s with clusters := s.clusters.map fun c => { c with chans := c.chans.map fun h => { h with cmds := h.cmds.map f } } }

/-- The innermost level of the cohort in focus is accepted. -/
def commitLevel (s : State) : State :=
  match s.c.levels with
  | [] => s
  | v :: outer =>
    let d := s.c.levels.length
    let s := relabelCopies s s.c.id d
    let conv := if s.c.conv.any (fun x => x.depth == d) then none else s.c.conv
    match outer with
    | [] =>
      let s := checkMerge s v.log
      sweepTiles (releaseClaims { s with c := { s.c with levels := [], conv := conv } })
    | o :: os => sweepTiles { s with c := { s.c with levels := mergeLevel s v o :: os, conv := conv } }

/-- A warp goes on at the word after its RBACCEPT group. In a travelling launch that word may lie outside the segment: its lanes depart,
or an enclosing level fails, or the RBACCEPT raises the fault of a transfer (13 R349). -/
def passAccepted (pc : Word) (s : State) : State :=
  let e : Entry := { pc := pc, mask := s.w.holds }
  match departCheck s [e] [] with
  | .error (.fail cause _) => failAt s s.c.levels.length cause 0 0
  | .error (.fault code addr _ _) => deliver { s with w := { s.w with stall := none, keep := .none, asked := none } } code addr none
  | _ => (if staysHere s pc then id else fun s => leave s false false) (startAt s.cur.pc pc (finish s))

/-- Every warp goes on after its RBACCEPT group. -/
def resumeAccepted (s : State) : State :=
  eachWarp s fun s => match s.w.keep with
    | .status n => passAccepted (BitVec.ofNat 32 n) s
    | _ => s

def acceptLevel (s : State) : State := resumeAccepted (commitLevel s)

/-! The verdict (R224). -/

/-- The last verdict is recorded: the outcome, or the vote (09 R268). -/
def verdictOutcome (s : State) : State :=
  let d := s.c.levels.length
  let vs := (s.c.levels.head?.map (·.verdicts)).getD []
  let yes := vs.all (·.2)
  match s.c.conv with
  | some x =>
    if x.depth = d then
      { s with convMsgs := s.convMsgs ++ [.vote s.c.id x.pa x.member yes]
               c := { s.c with conv := some { x with voted := some yes, own := if yes then x.own else x.own.orElse fun _ => some (1, 0, 0) } } }
    else if yes then acceptLevel s else failAt s d 1 0 0
  | none => if yes then acceptLevel s else failAt s d 1 0 0

def execRbaccept (p : Px) (pn : BitVec 3) (s : State) : Out :=
  let checks : Except Exc Unit := do
    rbChecks s
    need (s.cur.mask == s.w.holds) fcRbDiv
    if unsettled s then .error (.stall .barrier .settled) else .ok ()
  match checks with
  | .error e => run p s (.error e)
  | .ok () =>
    let yes := s.w.holds &&& ~~~ (readP s pn.toNat) == 0#32
    match s.c.levels with
    | [] => .next s
    | v :: vs =>
      let t := { s with w := { s.w with keep := .status (s.nextPc p).toNat }
                        c := { s.c with levels := { v with verdicts := assocPut s.w.id yes v.verdicts } :: vs } }
      let last := (t.liveWarps t.c.id).all fun w => (assoc w.id (assocPut s.w.id yes v.verdicts)).isSome
      -- the last verdict waits for nothing, but for the other members of a conversation
      let waits := !last || t.c.conv.any fun x => x.depth == t.c.levels.length
      let u := stallWarp t p.sos .barrier (if waits then .never else .opens)
      .next (if last then verdictOutcome u else u)

/-- RBABORT (R230). -/
def execRbabort (p : Px) (imm : BitVec 16) (s : State) : Out :=
  run p s (do
    rbChecks s
    .error (.fail 8 imm.toNat))

/-! The cycle limit (R220, 09 R264). -/

/-- Depths whose attempt count has reached its limit. -/
def limitsReached (s : State) (c : Cohort) : List Nat :=
  (c.levels.zipIdx.filterMap fun t =>
    if t.1.limit ≠ 0 ∧ t.1.start + t.1.limit ≤ s.cyc then some (c.levels.length - t.2) else none)

/-- The cohort is being pre-empted: its core is among those that its context is still to be saved from (14 R370). -/
def beingSaved (s : State) (c : Cohort) : Bool :=
  (s.launch? c.launch).any fun l => (s.ctx? l.ctx).any fun x => x.preempt.contains c.core

/-- A depth that fails now: the outermost of those reached, which no failure already covers (R227). -/
def limitDepth (s : State) (c : Cohort) : Option Nat :=
  if !c.resident || c.done.isSome || beingSaved s c then none
  else match (limitsReached s c).reverse.head? with
  | some d =>
    let waiting := c.conv.any fun v => decide (v.depth ≤ d) && (v.rolled || v.own.isSome)
    if c.failing.any (fun f => decide (f.depth ≤ d)) || waiting then none else some d
  | none => none

def execAttemptLimitReached (c depth : Nat) (s : State) : Out :=
  match s.cohort? c with
  | some x => .next (if limitDepth s x = some depth then asCohort s c fun s => failAt s depth 2 0 0 else s)
  | none => .next s

/-! Rollback (R226 R228, 09 R260). -/

/-- The old value of a CSR comes back. -/
def csrRestore (w : Warp) (num : Nat) (old : DWord) : Warp :=
  match num with
  | 0x013 => { w with timerCmp := old }
  | 0x014 => { w with timerEn := old.getLsbD 0, timerOne := old.getLsbD 1 }
  | 0x031 => { w with quota := old.toNat }
  | _ => csrSet w num (old.setWidth 32)

/-- The lines that later claimers of the conversation have logged take the value that this member restores (R257). -/
def restoreLater (s : State) (pa : Nat) (old : List Byte) : State :=
  match s.c.conv with
  | none => s
  | some v =>
    let mine := fun x : Claim => x.line == pa / 128 && x.cid == s.c.id
    let later := ((s.claims.dropWhile fun x => !mine x).filter fun x => x.line == pa / 128 && x.conv == some v.pa && x.cid != s.c.id).map (·.cid)
    let fix := fun e : LogEntry => match e with
      | .gln va q o => if q == pa then .gln va q old else .gln va q o
      | e => e
    let fixed := updWhere (fun c => later.contains c.id)
      fun c : Cohort => { c with levels := c.levels.map fun l => { l with log := l.log.map fix } }
    { s with cohorts := fixed s.cohorts
             ctxs := s.ctxs.map fun x => { x with saved := x.saved.map fun v => { v with cohorts := fixed v.cohorts } } }

/-- Another cohort's stash line gives way to a write at its home. -/
def recallOther (s : State) (line : Nat) : State := if stashOwner s line == some s.c.id then s else recallLine s line

/-- Undo one entry (R260). -/
def undoEntry (s : State) (e : LogEntry) : State :=
  match e with
  | .reg w n old => within s w fun s => match old with
    | some v => bindReg s n v
    | none => unbindReg s n
  | .lnk w old => s.mapWarps (fun x => x.id == w) fun x => { x with lnk := old }
  | .uni w i old => s.mapWarps (fun x => x.id == w) fun x => { x with sregs := x.sregs.set i old }
  | .pred w i old => s.mapWarps (fun x => x.id == w) fun x => { x with preds := x.preds.set i old }
  | .csr w num old => s.mapWarps (fun x => x.id == w) fun x => csrRestore x num old
  | .hmap w h old => s.mapWarps (fun x => x.id == w) fun x => { x with hmap := x.hmap.set h old }
  | .qbind w q old => s.mapWarps (fun x => x.id == w) fun x => { x with qbind := x.qbind.set q old }
  | .shw off old => { s with c := { s.c with shared := memPuts s.c.shared (placed off (leBytes 4 old.toNat)) } }
  | .gln _ pa old => restoreLater (performAt (recallOther s (pa / 128)) (pa / 128) (placed pa old)) pa old
  | .took list phys => { s with c := { s.c with hand := (list, phys) :: s.c.hand } }
  | .gave list phys => { s with c := { s.c with hand := s.c.hand.erase (list, phys) } }

/-- Work of the levels in the matrix sequencer stops; the tiles that have a name again are free no more (R260 step 1). -/
def cancelTiles (s : State) (seqFrom : Nat) : State :=
  let hs := (s.allWarps.filter fun w => w.handler && w.cid == s.c.id).map (·.id)
  let gone := s.k.seq.filter fun o => o.cid == s.c.id && decide (seqFrom < o.id) && !hs.contains o.warp
  { s with k := { s.k with
      seq := s.k.seq.filter fun o => !gone.contains o
      tiles := s.k.tiles.map fun t => if gone.any (fun o => o.work.writes == some t.phys) then { t with pend := none } else t } }

/-- Every tile of the core is free or not as names and hand-over lists say. -/
def recountTiles (s : State) : State :=
  let bound := (s.allWarps.filter fun w => w.core == s.k.id).flatMap fun w => w.hmap.filterMap id
  let hand := (s.allCohorts.filter fun c => c.core == s.k.id).flatMap fun c => c.hand.map (·.2)
  sweepTiles { s with k := { s.k with tiles := s.k.tiles.map fun t => { t with freed := !(bound.contains t.phys || hand.contains t.phys) } } }

/-- A warp stops for the failure: out of trap mode, out of every wait, out of a translation fault (R226, 14 R443). -/
def stopForFailure (s : State) : State :=
  let s := dropShadows s
  let s := match s.w.frozen with
    | some (.xlate t _ _ _ _) => { s with faults := s.faults.filter fun f => f.token != t, w := { s.w with frozen := none } }
    | _ => s
  -- a single step whose group is discarded has ended (16 R399)
  { s with w := { s.w with trapMode := false, aside := none, trapWait := none, stall := none, keep := .none, asked := none, bpSkip := none
                           haltReq := s.w.haltReq || s.w.stepping, stepping := false
                           haltWhy := if s.w.stepping then (4, 0) else s.w.haltWhy } }

/-- Levels from the innermost up to the one at a depth. -/
def failedLevels (c : Cohort) (d : Nat) : List Level := c.levels.take (c.levels.length + 1 - d)

/-- Claims that no entry of an open level needs any more are released (R260 step 4). -/
def dropClaims (s : State) : State :=
  let need_ := s.c.levels.flatMap fun v => v.log.filterMap fun e => match e with
    | .gln _ pa _ => some (pa / 128)
    | _ => none
  { s with claims := s.claims.filter fun x => x.cid != s.c.id || need_.contains x.line }

/-- A CONVJ that has not retired is discarded (R226): its JOIN finds no joining cohort any more. -/
def dropJoin (s : State) : State :=
  { s with convMsgs := s.convMsgs.filter fun m => match m with
      | .join c _ _ _ _ => c != s.c.id
      | _ => true }

/-- Steps 1 and 3 to 5 of R260, down to the level at a depth, which stays open and empty. -/
def undoLevels (s : State) (f : Failing) : State :=
  let s := dropJoin s
  let vs := failedLevels s.c f.depth
  let s := s.tally fun x => { x with failures := x.failures.modify (f.cause - 1) (· + 1) }
  let from_ := (vs.getLast?.map (·.seqFrom)).getD 0
  let s := eachWarp s stopForFailure
  let s := cancelTiles { s with held := s.held.filter fun h => !(h.cid == s.c.id && decide (f.depth ≤ h.depth)) } from_
  let s := (vs.flatMap fun v => v.log.reverse).foldl undoEntry s
  let kept := match vs.getLast? with
    | some v => { v with log := [], overs := [], verdicts := [] } :: s.c.levels.drop vs.length
    | none => s.c.levels
  let s := relabelCopies { s with c := { s.c with levels := kept, headers := [] } } s.c.id f.depth
  let s := recountTiles (dropClaims s)
  eachWarp s fun s => { s with w := { s.w with rbcause := BitVec.ofNat 16 (f.cause + 256 * f.fcode) } }

/-- Every warp of the cohort ends, and with it the cohort (R229, 12 R333). -/
def endCohort (s : State) (e : Ending) : State :=
  let s := (s.everyWarp s.c.id).foldl (fun s w => within s w.id fun s => endWarp { s with w := { s.w with holds := 0#32, frozen := none } } s.cur.pc) s
  -- the freezes of its warps end; a machine check stays open for a kill until the launch ends (14 R365)
  let mine := fun f : OpenFault => f.kind != 6 && (match f.src with
    | .warp w => (s.warp? w).any fun x => x.cid == s.c.id
    | _ => false)
  { s with c := { s.c with done := some e, failing := none, headers := [], conv := none }, faults := s.faults.filter fun f => !mine f }

/-- A cohort that ended exhausted or over budget: the completion record names the lowest such index (12 R315). -/
def noteFail (s : State) (code : Nat) : State :=
  if s.l.failCoh.all fun i => decide (s.c.index ≤ i) then
    { s with l := { s.l with failCoh := some s.c.index, rbcode := BitVec.ofNat 16 code } }
  else s

/-- The level in head position has no alternate left (R229). -/
def exhaustLevel (s : State) : State :=
  match s.c.levels with
  | [] => s
  | v :: vs =>
    let code := match s.c.failing with
      | some f => if f.cause = 8 ∧ f.abort ≠ 0 then f.abort else v.code
      | none => v.code
    let conv := if s.c.conv.any (fun x => x.depth == s.c.levels.length) then none else s.c.conv
    let s := { s with c := { s.c with levels := vs, conv := conv, failing := none } }
    let s := if vs.isEmpty then releaseClaims s else s
    let s := eachWarp s fun s => { s with w := { s.w with rbcode := BitVec.ofNat 16 code } }
    if !vs.isEmpty then failAt s vs.length 9 0 0
    else if s.w.trapen.getLsbD 2 && s.l.handlerPc != 0#32 then
      eachWarp s fun s => trapEnter (startAt v.codePc v.header s) ⟨4, code % 256, v.header, v.codePc, 0#64, s.w.holds⟩
    else endCohort (noteFail s code) .exhausted

/-- The next alternate of the level in head position, or its exhaustion (R228). -/
def nextAttempt (s : State) : State :=
  match s.c.levels with
  | [] => s
  | v :: vs => match v.alts[v.alt]? with
    | some pc =>
      let s := { s with c := { s.c with failing := none
                                        levels := { v with alt := v.alt + 1, log := [], overs := [], verdicts := [], start := s.cyc
                                                           seqFrom := s.k.nextOp } :: vs } }
      let s := eachWarp s (startAt v.header pc)
      if staysHere s pc then s else failAt s s.c.levels.length 6 0 0
    | none => exhaustLevel s

/-- A copy command that the rollback waits for (R260 step 2). -/
def copiesOpen (s : State) (cid d : Nat) : Bool :=
  s.clusters.any fun c => c.chans.any fun h => h.cmds.any fun m =>
    m.cid == cid && m.stage != .held && m.final.isNone && m.level.any fun x => decide (d ≤ x)

/-- Agents that hold a line that the rollback restores are asked first (11 R303). -/
def rollAsks (s : State) (c : Cohort) (f : Failing) : Option State :=
  askFor s ((failedLevels c f.depth).flatMap fun v => v.log.filterMap fun e => match e with
    | .gln _ pa _ => some (pa / 128, true)
    | _ => none)
/-- The rollback of a cohort may run, or has agents to ask. -/
def mayRollBack (s : State) (c : Cohort) : Option Failing :=
  match c.failing with
  | some f =>
    if c.resident && !(c.conv.any fun x => x.rolled && decide (x.depth ≤ f.depth)) && !copiesOpen s c.id f.depth && (rollAsks s c f).all (asksMore s) then some f else none
  | none => none

/-- The cohort in focus leaves its conversation (09 R270). -/
def quitConv (s : State) : State := { s with c := { s.c with conv := none } }

/-- Rollback and dispatch; a conversation level waits for the common step (R228 R232, 09 R268 R270). -/
def rollBack (f : Failing) (s : State) : State :=
  let s := undoLevels s f
  match s.c.conv with
  | some x =>
    if f.depth = x.depth then
      let alt := (s.c.levels.head?.map fun v => decide (v.alt < v.alts.length)).getD false
      { s with convMsgs := s.convMsgs ++ [.done s.c.id x.pa x.member alt], c := { s.c with conv := some { x with rolled := true } } }
    else if f.depth < x.depth then
      nextAttempt (quitConv { s with convMsgs := s.convMsgs ++ [.done s.c.id x.pa x.member false] })
    else nextAttempt s
  | none => nextAttempt s

def execLevelRollback (c : Nat) (s : State) : Out :=
  match s.cohort? c with
  | some x => match mayRollBack s x with
    | some f => .next ((rollAsks s x f).getD (asCohort s c (rollBack f)))
    | none => .next s
  | none => .next s

/-! Writes held at claimed lines (09 R256 R442). -/

/-- Agents that hold the line against the write and have not been asked yet, and whether there are any at all (11 R303). -/
def mustAsk (s : State) (line : Nat) : Bool := (agentsAgainst s line true).any fun a => !(s.probes.any fun p => p.agent == a && p.line == line)

/-- The write at a place of the list may go on: its line is not claimed, no earlier write waits there, and no other agent holds the
line unasked. -/
def heldReady (s : State) (i : Nat) : Option HeldWrite :=
  match s.held[i]? with
  | some h =>
    if !claimedAgainst s h.line h.cid && (h.depth == 0 || (s.cohort? h.cid).isSome) && !behindOthers s h.line (some h.id)
        && routed s [h.line] && ((agentsAgainst s h.line true).isEmpty || mustAsk s h.line) then some h else none
  | none => none

/-- The bytes of its atomics. -/
def HeldWrite.atomPas (h : HeldWrite) : List Nat := h.atoms.flatMap fun a => (List.range (aopBytes a.aop)).map (a.pa + ·)

/-- Its lanes one after the other, with the old values that lanes deliver. -/
def heldAtoms (h : HeldWrite) : List HeldAtom → State → Except Exc (List (Nat × Nat) × State)
  | [], s => .ok ([], s)
  | a :: t, s => do
    let (m, s) ← atomAt s h.depth a.va a.pa a.aop a.b a.b2 h.rel h.ats
    let (r, s) ← heldAtoms h t s
    .ok (if a.gives then (a.lane, m) :: r else r, s)

/-- The warp in focus takes the old values of its atomic. -/
def takeOld (dest : List Await) (olds : List (Nat × Nat)) (s : State) : State :=
  let p := deliverOld dest olds (s.w, s.sl)
  { s with w := p.1, sl := p.2 }

/-- Perform it, after every write of the claim's holder (10 R279), and a SYS release after the stash lines that have become dirty
meanwhile (10 R284); a write of an open level is logged first, at that level. The old values of an atomic come to its registers
(R442), and a SYS acquire takes its place only now. -/
def performHeld (h : HeldWrite) (s : State) : State :=
  let s := catchUp (recallOther s h.line)
  let s := if h.rel then writeBackAll s else s
  let s := noteAtomic s h.atomPas h.acq
  let r : Op :=
    if h.atoms.isEmpty then (logLineAt s h.depth h.va h.line).map fun t => performAt t h.line h.bytes h.rel
    else (heldAtoms h h.atoms s).map fun r => takeOld h.dest r.1 (if h.acq then expireL1 r.2 else r.2)
  match r with
  | .ok t => keepL2 t h.line h.kept
  | .error _ => failAt s h.depth 4 0 0

/-- One lane of an atomic of a warp that is saved, with the old value. -/
def atomAway (h : HeldWrite) (launch : Nat) (s : State) (a : HeldAtom) : Nat × State :=
  let n := aopBytes a.aop
  let m := leNat ((List.range n).map fun i => homeByte s (a.pa + i))
  let s := if h.ats then s else taintLine s launch h.line a.aop a.va.toNat
  (m, homePerform s (placed a.pa (leBytes n (atomNew a.aop m a.b a.b2))))

/-- The old value comes to the registers of a saved warp (14 R370). -/
def takeOldAway (h : HeldWrite) (olds : List (Nat × Nat)) (s : State) : State :=
  let unit := fun v : Saved => match v.warps.find? fun w => w.id == h.warp with
    | some w =>
      let p := deliverOld h.dest olds (w, (v.slots.find? (sameSlot w)).getD {})
      { v with warps := updWhere (fun x => x.id == h.warp) (fun _ => p.1) v.warps, slots := updWhere (sameSlot w) (fun _ => p.2) v.slots }
    | none => v
  s.mapSaved unit

/-- Perform a write of a warp that is saved with its context: it has no clock of its own here. -/
def performAway (h : HeldWrite) (s : State) : State :=
  let launch := (s.savedCohorts.find? fun c => c.id == h.cid).map (·.launch)
  let s := match launch with
    | some n => engineWrites (checkLine s n h.va h.line) n h.warp
        (h.bytes.map (·.1) ++ h.atomPas) h.rel
    | none => s
  let s := if h.atoms.isEmpty then homeWrite s h.bytes
    else h.atoms.foldl (fun s a =>
      let r := atomAway h (launch.getD 0) s a
      if a.gives then takeOldAway h [(a.lane, r.1)] r.2 else r.2) s
  keepL2 s h.line h.kept

def execHeldWritePerform (i : Nat) (s : State) : Out :=
  match heldReady s i with
  | some h =>
    if mustAsk s h.line then .next (askAgents s h.line true)
    else
      let s := { s with held := s.held.eraseIdx i }
      .next (if (s.warp? h.warp).isSome then within s h.warp (performHeld h) else performAway h s)
  | none => .next s

end Sys2Proof.Machine
end

