-- ==== Sys2Proof/Machine/Convs.lean ====
section
/-! DEFINITION. Conversations: joining, the home's decisions, the members' replies (08 R231 R232, 09 R257 R266 to R270). -/

namespace Sys2Proof.Machine

/-! CONVJ (08 R231). -/

/-- A CONVJ whose entry has an active lane. -/
def convJoin (s : State) (va : DWord) : Op := do
  if !canonRange va 64 then .error (.fault fcCanon va none rwAcc)
  else if va.toNat % 64 ≠ 0 then .error (.fault fcAlign va none rwAcc)
  else
  match s.w.keep, s.c.conv with
  | .conv (some (some code)), _ => raise code
  | .conv (some none), _ => .ok (catchUp s)
  | .conv none, _ => .error (.stall .memory .status)
  | _, some v => need (v.va == va && v.depth == s.depth) fcConvJoin >>= fun _ => .ok s
  | _, none =>
    match transl s va { rd := true, wr := true } with
    | none => .error (.stall .memory (.xlate va { rd := true, wr := true } (s.lanes.lanes.map fun l => (l, va)) 64))
    | some (pa, _) => do
      let pa := localPa s pa
      noHeldWrites s
      linesReady s [pa / 128] true
      .error (.stallAt { s with convMsgs := s.convMsgs ++ [.join s.c.id s.w.id va pa s.depth]
                                w := { s.w with keep := .conv none } } .memory .status)

def execConvj (p : Px) (f : UAForm) (s : State) : Out :=
  runNext p s (do
    uniPairOk f.a
    need f.a.isS fcOpnd
    need (!s.w.trapMode) fcIllegal
    need (!s.w.handler) fcRbState
    if s.active p f.g = 0#32 then .ok s
    else do
      need (decide (s.depth ≠ 0)) fcRbState
      let v := readPair s f.a none
      convJoin s (pairAt v.1 v.2 0))

/-! The object at its home (09 R266). -/

/-- A little-endian field of the object. -/
def objGet (s : State) (pa off n : Nat) : Nat := leNat ((List.range n).map fun i => engineByte s (pa + off + i))
def objPut (s : State) (pa off n x : Nat) : State := homePerform s (engineBytes s (placed (pa + off) (leBytes n x)))

/-- A check-mode launch logs the home's updates of its object (09 R271). -/
def objLog (s : State) (h : ConvHome) : State := checkLine s h.launch h.va (h.pa / 128)

def bitsOf (x : Nat) : Nat := ((List.range 16).filter fun i => x.testBit i).length

/-- Why a JOIN is turned away (R231 R267). -/
def joinFault (s : State) (pa launch : Nat) : Option Nat :=
  let joined := objGet s pa 8 2
  let expect := objGet s pa 4 1
  let set_ := objGet s pa 0x14 4
  if objGet s pa 10 2 ≠ 0 then some fcConvJoin
  else if 16 ≤ bitsOf joined then some fcConvFull
  else if objGet s pa 0 4 = 0 ∨ expect = 0 ∨ 16 < expect ∨ objGet s pa 6 2 ≠ 0 ∨ objGet s pa 0x18 40 ≠ 0 ∨ objGet s pa 5 1 ≠ 0
      ∨ (set_ ≠ 0 ∧ set_ ≠ launch % 2 ^ 32) then some fcConvJoin
  else if expect ≤ bitsOf joined then some fcConvFull
  else none

/-- The waiting CONVJ of a warp, which may be saved with its context, has its answer. -/
def answerJoin (s : State) (w : Nat) (a : Option Nat) : State :=
  s.mapAnyWarps (fun x => x.id == w && x.keep == .conv none) fun x => { x with keep := .conv (some a), stall := none }

/-- A JOIN at the home; that of a cohort that has failed meanwhile is discarded with its CONVJ (R226). -/
def homeJoin (s : State) (cid w : Nat) (va : DWord) (pa depth : Nat) : State :=
  match s.anyCohort cid with
  | none => s
  | some c =>
    if c.levels.length < depth ∨ c.done.isSome ∨ c.failing.isSome then s
    else match c.conv with
    | some v => answerJoin s w (if v.pa = pa ∧ v.depth = depth then none else some fcConvJoin)
    | none => match joinFault s pa (launchNo c.launch) with
      | some code => answerJoin s w (some code)
      | none =>
        let joined := objGet s pa 8 2
        let m := bitsOf joined
        let old := (s.convs.find? fun h => h.pa == pa).getD { pa := pa, members := [], va := va, launch := c.launch }
        let s := objPut (objLog s old) pa 8 2 (joined + 2 ^ m)
        let s := if joined = 0 then objPut s pa 0x14 4 (launchNo c.launch) else s
        let v : Conv := { va := va, pa := pa, ident := BitVec.ofNat 32 (objGet s pa 0 4), member := m, depth := depth, serial := s.nextId }
        let s := { s with convs := { old with members := old.members ++ [(cid, m, v.serial)] } :: s.convs.filter (fun h => h.pa != pa)
                          nextId := s.nextId + 1 }
        answerJoin (s.mapAnyCohort cid fun c => { c with conv := some v }) w none

/-- A member has left the conversation (R270). -/
def hasLeft (s : State) (m : Nat × Nat × Nat) : Bool := !((s.anyCohort m.1).any fun c => c.conv.any fun v => v.serial == m.2.2)

/-- Send a verdict to every member that has not left. -/
def tellMembers (s : State) (h : ConvHome) (v : Verdict) : State :=
  { s with notices := s.notices ++ (h.members.filter fun m => !hasLeft s m).map fun m => ⟨m.1, m.2.2, v, h.pa⟩ }

/-- The object takes no further message (R266 R270). -/
def closeHome (s : State) (pa : Nat) : State := { s with convs := s.convs.filter fun h => h.pa != pa }

/-- The decisions after a vote (R268). -/
def homeDecide (s : State) (h : ConvHome) : State :=
  let joined := objGet s h.pa 8 2
  let voted := objGet s h.pa 10 2
  let yes := objGet s h.pa 12 2
  if voted = joined ∧ bitsOf joined = objGet s h.pa 4 1 ∧ yes = joined then
    tellMembers (closeHome (objPut s h.pa 5 1 2) h.pa) h .commit
  else if voted ≠ yes ∧ objGet s h.pa 5 1 = 0 then tellMembers (objPut s h.pa 5 1 1) h .rollback
  else s

/-- A vote, or a FAIL as a false vote. -/
def homeVote (s : State) (pa member : Nat) (yes : Bool) : State :=
  match s.convs.find? fun h => h.pa == pa with
  | none => s
  | some h =>
    let bit := 2 ^ member
    let s := objLog s h
    let s := objPut s pa 10 2 (Nat.lor (objGet s pa 10 2) bit)
    let y := objGet s pa 12 2
    let s := objPut s pa 12 2 (if yes then Nat.lor y bit else y - (if y.testBit member then bit else 0))
    homeDecide s h

/-- The end of a member's rollback. -/
def homeDone (s : State) (pa member : Nat) (alt : Bool) : State :=
  match s.convs.find? fun h => h.pa == pa with
  | none => s
  | some h =>
    let s := objLog s h
    let s := objPut s pa 14 2 (Nat.lor (objGet s pa 14 2) (2 ^ member))
    let h := { h with noAlt := h.noAlt || !alt }
    if objGet s pa 14 2 = objGet s pa 8 2 then
      let s := objPut (objPut (objPut s pa 10 2 0) pa 12 2 0) pa 14 2 0
      if h.noAlt then tellMembers (closeHome (objPut s pa 5 1 3) pa) h .exhaust
      else tellMembers (objPut (objPut s pa 0x10 4 (objGet s pa 0x10 4 + 1)) pa 5 1 0) h .advance
    else { s with convs := h :: s.convs.filter fun x => x.pa != pa }

def ConvMsg.cid : ConvMsg → Nat
  | .join c _ _ _ _ => c
  | .vote c _ _ _ => c
  | .fail c _ _ => c
  | .done c _ _ _ => c

/-- The object of a message. -/
def ConvMsg.pa : ConvMsg → Nat
  | .join _ _ _ pa _ => pa
  | .vote _ pa _ _ => pa
  | .fail _ pa _ => pa
  | .done _ pa _ _ => pa

/-- The core of a cohort. -/
def coreOfCohort (s : State) (cid : Nat) : Option Nat := (s.anyCohort cid).map (·.core)
/-- Messages between a cohort and the home of an object belong to one flow when their cores and slices are the same (15 R380). -/
def sameFlow (s : State) (a b pa pb : Nat) : Bool :=
  (a == b || ((coreOfCohort s a).isSome && coreOfCohort s a == coreOfCohort s b)) && homeSlice (pa / 128) == homeSlice (pb / 128)
/-- A message that may arrive next: the first of its flow. -/
def msgReady (s : State) (i : Nat) : Option ConvMsg :=
  match s.convMsgs[i]? with
  | some m => if (s.convMsgs.take i).any (fun x => sameFlow s x.cid m.cid x.pa m.pa) then none else some m
  | none => none

/-- The agents that hold the object's line are asked before the home acts on a message (11 R303). -/
def msgAsks (s : State) (m : ConvMsg) : Option State := askFor s [(m.pa / 128, true)]
/-- A message can be acted on, or can ask. -/
def msgFree (s : State) (i : Nat) : Bool := (msgReady s i).any fun m => (msgAsks s m).all (asksMore s)

/-- The message is acted on when no agent stands against it. -/
def onMsg (s : State) (i : Nat) (m : ConvMsg) (f : State → State) : Out :=
  match msgAsks s m with
  | some u => .next u
  | none => .next (f { s with convMsgs := s.convMsgs.eraseIdx i })

def execConvJoinMessage (i : Nat) (s : State) : Out :=
  match msgReady s i with
  | some (.join c w va pa d) => onMsg s i (.join c w va pa d) fun s => homeJoin s c w va pa d
  | _ => .next s
def execConvVoteMessage (i : Nat) (s : State) : Out :=
  match msgReady s i with
  | some (.vote c pa m yes) => onMsg s i (.vote c pa m yes) fun s => homeVote s pa m yes
  | _ => .next s
def execConvFailMessage (i : Nat) (s : State) : Out :=
  match msgReady s i with
  | some (.fail c pa m) => onMsg s i (.fail c pa m) fun s => homeVote s pa m false
  | _ => .next s
def execConvDoneMessage (i : Nat) (s : State) : Out :=
  match msgReady s i with
  | some (.done c pa m alt) => onMsg s i (.done c pa m alt) fun s => homeDone s pa m alt
  | _ => .next s

/-! The members (R232 R268 R269). -/

/-- A verdict that may arrive next: the first of its flow, for a cohort that is not saved. -/
def noticeReady (s : State) (i : Nat) (v : Verdict) : Option (Nat × Nat) :=
  let saved := fun c : Nat => s.savedCohorts.any fun x => x.id == c
  match s.notices[i]? with
  | some m =>
    if m.verdict = v ∧ !((s.notices.take i).any fun x => !saved x.cid && sameFlow s x.cid m.cid x.pa m.pa) ∧ !saved m.cid then some (m.cid, m.serial)
    else none
  | none => none

/-- A member acts on a verdict; one for a membership that it has left is dropped. -/
def onNotice (s : State) (i : Nat) (v : Verdict) (f : Conv → State → State) : Out :=
  match noticeReady s i v with
  | some (c, n) => .next (asCohort { s with notices := s.notices.eraseIdx i } c fun s => match s.c.conv with
    | some x => if x.serial = n then f x (catchUp s) else s
    | none => s)
  | none => .next s

def execConvCommitNotice (i : Nat) (s : State) : Out :=
  onNotice s i .commit (fun x s => if s.c.levels.length = x.depth && s.c.failing.isNone then acceptLevel s else s)
def execConvRollbackNotice (i : Nat) (s : State) : Out :=
  onNotice s i .rollback (fun x s =>
    let f := x.own.getD (5, 0, 0)
    if s.c.failing.any (fun y => decide (y.depth ≤ x.depth)) then s
    else { s with c := { s.c with failing := some ⟨x.depth, f.1, f.2.1, f.2.2⟩ } })
/-- The member's attempt is over; its next may be judged afresh. -/
def freshConv (x : Conv) : Conv := { x with voted := none, own := none, rolled := false }
/-- The member waits for the common step; one whose enclosing level has failed meanwhile leaves instead (R227 R270). -/
def awaitsStep (s : State) (x : Conv) : Bool := x.rolled && !(s.c.failing.any fun f => decide (f.depth < x.depth))
def execConvAdvanceNotice (i : Nat) (s : State) : Out :=
  onNotice s i .advance (fun x s => if awaitsStep s x then nextAttempt { s with c := { s.c with conv := some (freshConv x) } } else s)
def execConvExhaustNotice (i : Nat) (s : State) : Out :=
  onNotice s i .exhaust (fun x s => if awaitsStep s x then exhaustLevel s else s)

end Sys2Proof.Machine
end

