-- ==== Sys2Proof/Machine/Tiles.lean ====
section
/-! DEFINITION. Tile instructions, the matrix sequencer and its arithmetic (07 R182 to R206, 02 R54 to R61, 16 R412). -/

namespace Sys2Proof.Machine

/-! Gangs (01 R9, 07 R191). -/

/-- The F2 value of a cohort index, and the gang that it belongs to. -/
def f2Of (l : Launch) (index : Nat) : Nat := index % 2 ^ l.f2
def gangOf (l : Launch) (index : Nat) : Nat := index / 2 ^ l.f2

/-- The cohorts of the gang of the cohort in focus whose F2 value is below n. -/
def participants (s : State) (n : Nat) : List Cohort :=
  s.allCohorts.filter fun c => c.launch == s.l.num && gangOf s.l c.index == gangOf s.l s.c.index && decide (f2Of s.l c.index < n)
    && c.done.isNone

/-- The span of a tile may be allocated here (R191). -/
def spanOk (s : State) (r : TRec) : Bool :=
  decide (s.l.f3 ≠ 0) && decide (f2Of s.l s.c.index < 2 ^ r.spanlog)
    && !((participants s (2 ^ r.spanlog)).any fun c => c.id != s.c.id && c.core == s.c.core)

/-! Allocation and release (R190 R192). -/

/-- Numbers that a waiting TLALLOC keeps in its condition. -/
def kindNo : TKind → Nat
  | .a => 0 | .b => 1 | .c => 2
def kindOfNo (n : Nat) : TKind := if n = 0 then .a else if n = 1 then .b else .c

/-- The reservation has a handle. -/
def handleRoom (s : State) : Bool := decide (handlesUsed s < s.l.handles) && (freeHandle s.k).isSome

/-- The reservation and the granules are at hand. -/
def allocRoom (s : State) (kind : TKind) (g : Nat) : Bool := handleRoom s && (planeFor s.k kind g).isSome

/-- Another warp of the core has waited longer for an allocation. -/
def earlierAlloc (s : State) : Bool :=
  s.warps.any fun v => v.core == s.w.core && askedBefore s v fun c => match c with
    | .alloc _ _ => true
    | _ => false

/-- The counts of a handle name: allocations and broadcast loads of spanning A tiles since launch start (R197). -/
def allocCount (k : CoreS) (cid h : Nat) : Nat × Nat :=
  ((k.allocs.find? fun t => t.1 == cid && t.2.1 == h).map fun t => (t.2.2.1, t.2.2.2)).getD (0, 0)
def setCount (k : CoreS) (cid h a l : Nat) : CoreS :=
  { k with allocs := (cid, h, a, l) :: k.allocs.filter fun t => !(t.1 == cid && t.2.1 == h) }

/-- Bind a name to a new tile. -/
def allocTile (s : State) (h : Nat) (kind : TKind) (r : TRec) (g plane : Nat) : Op := do
  let phys := freshPhys s.k
  let rows := kind == .a && decide (r.spanlog ≠ 0) && decide (f2Of s.l s.c.index ≠ 0)
  let n := allocCount s.k s.c.id h
  let t : Tile := { phys := phys, handle := freeHandle s.k, launch := s.l.num, cid := s.c.id, kind := kind, record := r, plane := plane
                    store := freshStore s.k, granules := g
                    pend := if rows then some (s.cur.pc, 0) else none
                    gang := if rows then some (s.c.id, h, n.1 + 1) else none }
  let s ← setHandle s h (some phys)
  let k := { s.k with tiles := t :: s.k.tiles }
  .ok { s with k := if rows then setCount k s.c.id h (n.1 + 1) n.2 else k }

def execTlalloc (p : Px) (f : TaForm) (s : State) : Out :=
  runNext p s (do
    need (decide (f.s.toNat ≤ 12)) fcOpnd
    need (!s.l.travel) fcTravelOp
    let h := f.h.toNat
    let kind := kindOfNo f.kind.toNat
    let i := f.s.toNat
    need (handleOf s h).isNone fcBound
    match readRecord kind f.span (readS s i) (readS s (i + 1)) (readS s (i + 2)) (readS s (i + 3)) with
    | none => raise fcTRecord
    | some r => do
      need (!f.span || spanOk s r) fcTSpan
      needSeqRoom s
      let g := granulesOf kind r
      match planeFor s.k kind g with
      | some plane =>
        if handleRoom s && (!hasAsked s (.alloc (kindNo kind) g) || !earlierAlloc s) then do
          let t ← allocTile s h kind r g plane
          if f.nw then writeP t 7 s.w.holds 0xFFFFFFFF#32 else .ok t
        else if f.nw then writeP s 7 s.w.holds 0#32
        else .error (.stall .quota (.alloc (kindNo kind) g))
      | none => if f.nw then writeP s 7 s.w.holds 0#32 else .error (.stall .quota (.alloc (kindNo kind) g)))

def execTlfree (p : Px) (h : BitVec 5) (s : State) : Out :=
  runNext p s (do
    needHandles s [h.toNat]
    needSeqRoom s
    match handleOf s h.toNat with
    | some phys => do
      let t ← setHandle s h.toNat none
      .ok (freeTile t phys)
    | none => raise fcStale)

/-! Hand-over (R193 R194). -/

/-- Hand-over entries of the core in use: those on lists, and those that open levels have taken. -/
def handUsed (s : State) : Nat :=
  ((s.allCohorts.filter fun c => c.core == s.k.id).map fun c => c.hand.length + (c.levels.map fun v =>
    (v.log.filter fun e => match e with
      | .took _ _ => true
      | _ => false).length).sum).sum

/-- The value of a uniform register that holds a logical warp index. -/
def partner (s : State) (i : BitVec 4) : Nat := (readS s i.toNat).toNat

def liveIndex (s : State) (lidx : Nat) : Bool := (s.everyWarp s.c.id).any fun w => w.lidx == lidx

def execTlgive (p : Px) (h : BitVec 5) (i : BitVec 4) (s : State) : Out :=
  runNext p s (do
    needHandles s [h.toNat]
    need (!s.l.travel) fcTravelOp
    let to_ := partner s i
    need (to_ != s.w.lidx && liveIndex s to_) fcGive
    needSeqRoom s
    if 32 ≤ handUsed s then .error (.stall .queue .handRoom)
    else match handleOf s h.toNat with
    | some phys => do
      let t ← setHandle s h.toNat none
      let n := handList s.w.lidx to_
      let t ← logEntry t (.gave n phys)
      .ok { t with c := { t.c with hand := t.c.hand ++ [(n, phys)] } }
    | none => raise fcStale)

def execTltake (p : Px) (h : BitVec 5) (i : BitVec 4) (s : State) : Out :=
  runNext p s (do
    need (!s.l.travel) fcTravelOp
    need (handleOf s h.toNat).isNone fcBound
    let giver := partner s i
    need (giver != s.w.lidx && decide (giver < s.c.warpsN)) fcGive
    needSeqRoom s
    let n := handList giver s.w.lidx
    match s.c.hand.find? fun x => x.1 == n with
    | some x => do
      let t ← setHandle s h.toNat (some x.2)
      let t ← logEntry t (.took n x.2)
      .ok { t with c := { t.c with hand := t.c.hand.erase x } }
    | none => if liveIndex s giver then .error (.stall .queue (.hand n)) else raise fcGive)

/-! TLLOAD and TLSTORE (R195 to R198). -/

/-- Bytes of an element for alignment. -/
def elemBytes (f : Nat) : Nat := if f = 7 then 4 else if f = 5 ∨ f = 6 then 2 else 1

/-- The operand map at a shared offset, with the base of the local share; none when it breaks the first two checks of R196. -/
def readMap (s : State) (off : Nat) (t : Tile) : Option OpMap :=
  if off % 16 ≠ 0 ∨ s.c.sharedSize < off + 32 then none
  else
    let b := memGets s.c.shared off 32
    let base := fieldLe b 0 8
    let lstride := fieldLe b 8 4
    let sstride := fieldLe b 12 4
    let flags := fieldLe b 16 4
    let e := elemBytes t.record.fmt
    let shared := flags.testBit 0
    if flags / 64 ≠ 0 ∨ 5 < flags / 8 ∨ fieldLe b 20 8 ≠ 0 ∨ fieldLe b 28 4 ≠ 0 ∨ (shared ∧ base / 2 ^ 32 ≠ 0) then none
    else if base % e ≠ 0 ∨ lstride % e ≠ 0 ∨ (t.record.blk ∧ sstride = 0) then none
    else
      let c := if t.record.spanlog = 0 then 0 else f2Of s.l s.c.index * t.record.localN
      let add := match t.kind with
        | .b => c * lstride
        | .c => 4 * c
        | .a => 0
      let sadd := match t.kind with
        | .b => c * sstride
        | _ => 0
      some { base := BitVec.ofNat 64 (base + add), lstride := lstride, sstride := sstride
             scale := BitVec.ofNat 64 (base + t.record.scoff + sadd), shared := shared
             acq := flags.testBit 1, rel := flags.testBit 2, scope := flags / 8 }

/-- The runs of bytes of a tile in memory: address and length, line by line, then the scale lines. -/
def tileRuns (t : Tile) (m : OpMap) : List (DWord × Nat) :=
  ((List.range (tileLines t)).map fun j => (m.base + BitVec.ofNat 64 (j * m.lstride), lineBytes t))
    ++ (if t.record.blk then (List.range (tileLines t)).map fun j => (m.scale + BitVec.ofNat 64 (j * m.sstride), scaleLen t) else [])

/-- The first address of a run that is not in order. -/
def runFault (s : State) (m : OpMap) (wr : Bool) (rs : List (DWord × Nat)) : Except Exc Unit :=
  if m.shared then
    match rs.find? fun r => decide (s.c.sharedSize < r.1.toNat + r.2) with
    | some r => .error (.fault fcShared r.1 none { rd := !wr, wr := wr })
    | none => .ok ()
  else match rs.find? fun r => !canonRange r.1 r.2 with
    | some r => .error (.fault fcCanon r.1 none { rd := !wr, wr := wr })
    | none => .ok ()

/-- The pages of global runs: virtual and physical page address. -/
def runPages (s : State) (acc : Access) (rs : List (DWord × Nat)) : Except Exc (List (Nat × Nat)) :=
  ((rs.flatMap fun r => [r.1.toNat / 4096, (r.1 + BitVec.ofNat 64 (r.2 - 1)).toNat / 4096]).dedup).mapM fun v =>
    match transl s (BitVec.ofNat 64 (4096 * v)) acc with
    | some (pa, _) => .ok (4096 * v, localPa s pa)
    | none => .error (.stall .memory (.xlate (BitVec.ofNat 64 (4096 * v)) acc [] 1 2))

/-- The shared lines of runs. -/
def runLines (rs : List (DWord × Nat)) : List Nat :=
  (rs.flatMap fun r => (List.range (r.2 / 128 + 2)).filterMap fun i =>
    if 128 * (r.1.toNat / 128 + i) < r.1.toNat + r.2 then some (r.1.toNat / 128 + i) else none).dedup
/-- Bring the stash lines of shared runs in; a line at which a store is to wait is written at its home (09 R256). -/
def runFills (s : State) (wr : Bool) (rs : List (DWord × Nat)) : Op :=
  if s.c.maps.isEmpty then .ok s else stashFills s wr ((runLines rs).filter fun q => !(wr && waitsBehind s q))

/-- Physical address of a byte of a transfer. -/
def pageAddr (pages : List (Nat × Nat)) (va : DWord) : Nat :=
  ((assoc (va.toNat / 4096 * 4096) pages).getD 0) + va.toNat % 4096

/-- The places of a run's bytes: physical addresses, or shared offsets. -/
def runPlaces (m : OpMap) (pages : List (Nat × Nat)) (r : DWord × Nat) : List Nat :=
  (List.range r.2).map fun i => if m.shared then r.1.toNat + i else pageAddr pages (r.1 + BitVec.ofNat 64 i)

/-- Checks 1 to 4 of R196: the map, the pages, and the state with stash lines in. -/
def mapChecks (s : State) (t : Tile) (i : BitVec 4) (wr : Bool) : Except Exc (OpMap × List (Nat × Nat) × State) :=
  match readMap s (readS s i.toNat).toNat t with
  | none => raise fcTMap
  | some m => do
    let rs := tileRuns t m
    runFault s m wr rs
    if m.shared then do
      let u ← runFills s wr rs
      .ok (m, [], u)
    else do
      let pages ← runPages s { rd := !wr, wr := wr } rs
      .ok (m, pages, s)

def execTlload (p : Px) (h : BitVec 5) (i : BitVec 4) (s : State) : Out :=
  runNext p s (do
    needHandles s [h.toNat]
    match tileOf s h.toNat with
    | none => raise fcStale
    | some t => do
      let (m, pages, u) ← mapChecks s t i false
      let gang := t.kind == .a && decide (t.record.spanlog ≠ 0)
      need (!gang || f2Of s.l s.c.index == 0) fcTSpan
      needSeqRoom u
      let (phys, u) ← renameTile u h.toNat s.cur.pc
      let n := allocCount u.k u.c.id h.toNat
      let nth := if gang then n.2 + 1 else 0
      let u := if gang then { u with k := setCount u.k u.c.id h.toNat n.1 nth } else u
      .ok (enqueue u s.cur.pc [h.toNat] (.load phys m h.toNat nth) none pages [] (some t.phys)))

/-- The lines of global memory that runs write, each with an address in it: their own, or those behind mapped shared lines. -/
def runHomes (s : State) (m : OpMap) (pages : List (Nat × Nat)) (rs : List (DWord × Nat)) : List (Nat × DWord) :=
  if m.shared then (runLines rs).filterMap fun q => (stashHome s q).map fun h => (h.2, h.1)
  else
    let ps := rs.flatMap fun r => (runPlaces m pages r).zipIdx.map fun t => (t.1, r.1 + BitVec.ofNat 64 t.2)
    (linesOf (ps.map (·.1))).map fun n => (n, ((ps.find? fun t => t.1 / 128 == n).map (·.2)).getD 0#64)
/-- The log entries of a store at a level (R198): its lines, but for those at which it is to wait, and the other shared words. -/
def logRuns (s : State) (depth : Nat) (m : OpMap) (pages : List (Nat × Nat)) (rs : List (DWord × Nat)) : Op := do
  let s ← (runHomes s m pages rs).foldlM (fun s t => if mustWait s t.1 then .ok s else logLineAt s depth t.2 t.1) s
  if m.shared && depth != 0 then
    let os := (rs.flatMap fun r => runPlaces m pages r).filter fun o =>
      (o % 4 == 0 || rs.any fun r => r.1.toNat == o) && (mapOf s.c (o / 128)).isNone
    os.foldlM (fun s o => logInto s (s.c.levels.length - depth) (.shw (o / 4 * 4) (BitVec.ofNat 32 (leNat (memGets s.c.shared (o / 4 * 4) 4))))) s
  else .ok s

def execTlstore (p : Px) (h : BitVec 5) (i : BitVec 4) (s : State) : Out :=
  runNext p s (do
    needHandles s [h.toNat]
    match tileOf s h.toNat with
    | none => raise fcStale
    | some t => do
      let (m, pages, u) ← mapChecks s t i true
      needSeqRoom u
      let u ← if s.depth = 0 then Except.ok u else logRuns u s.depth m pages (tileRuns t m)
      .ok (enqueue u s.cur.pc [h.toNat] (.store t.phys m s.depth) none pages))

/-! MMLOOP, HADT, TLSYNC. -/

def execMmloop (p : Px) (f : MmForm) (s : State) : Out :=
  runNext p s (do
    needHandles s [f.hc.toNat, f.ha.toNat, f.hb.toNat]
    let depth := if f.apx then apxDepth s ((p.approx.map (·.toNat)).getD 1) else 0
    let t ← mmIssue s s.cur.pc f.hc.toNat f.ha.toNat f.hb.toNat (readS s f.s.toNat) f.acc depth none
    .ok (if depth = 0 then t else traceRec t 4 0 depth 0 0#32))

/-- The checks of a quantise record against the target (R204 R205 R206). -/
def quantOk (w : Word) (dst : TRec) : Bool :=
  w.toNat / 2 ^ 17 == 0 && !w.getLsbD 15 && decide (w.toNat / 4096 % 4 < 2) && decide (w.toNat / 256 % 16 ≤ 4)
    && w.toNat / 256 % 16 == dst.fmt && (dst.blk || (!w.getLsbD 16 && w.toNat % 256 == 0x7F))

def execHadt (p : Px) (f : HtForm) (s : State) : Out :=
  runNext p s (do
    need (f.q || f.s == 0#4) fcIllegal
    needHandles s [f.hd.toNat, f.hs.toNat]
    match tileOf s f.hd.toNat, tileOf s f.hs.toNat with
    | some d, some src => do
      need (src.kind == .c && (if f.q then d.kind == .a else d.kind == .c)) fcTKind
      let w := readS s f.s.toNat
      need (!f.q || quantOk w d.record) fcTRecord
      let n := 16 * 2 ^ f.size.toNat
      let ext := if f.q then d.record.k else d.record.n
      need (src.record.n % Nat.lcm 48 n == 0 && d.record.m == src.record.m && ext == src.record.n) fcTShape
      need (d.record.spanlog == 0 && src.record.spanlog == 0) fcTSpan
      needSeqRoom s
      let (phys, t) ← renameTile s f.hd.toNat s.cur.pc
      .ok (enqueue t s.cur.pc [f.hd.toNat, f.hs.toNat] (.hadt phys src.phys n (if f.q then some w else none)) none [] [] (some d.phys))
    | _, _ => raise fcStale)

/-- Wait for entries of the sequencer; what they wrote is seen from then on. -/
def tileSync (ops : List TileOp) (s : State) : Op :=
  if ops.isEmpty then .ok (catchUp s) else .error (.stall .operand (.tiles (ops.map (·.id))))

def execTlsync (p : Px) (h : BitVec 5) (s : State) : Out :=
  runNext p s (do
    needHandles s [h.toNat]
    needSeqRoom s
    tileSync (s.k.seq.filter fun o => o.warp == s.w.id && o.names.contains h.toNat) s)
def execTlsyncAll (p : Px) (s : State) : Out :=
  runNext p s (do
    needSeqRoom s
    tileSync (s.k.seq.filter fun o => o.warp == s.w.id) s)

/-! Matrix arithmetic. -/

/-- Serialised bits of an A format (00 R2). -/
def serialBits (f : Nat) : Nat := [4, 3, 2, 7, 3, 8, 11].getD f 8

/-- The b − s upper bits of an A element are kept (16 R412). -/
def keepPlanes (f depth : Nat) : Num → Num
  | .fin n m e =>
    let k := 2 ^ min depth (serialBits f - 1)
    .fin n (m / k * k) e
  | x => x

/-- A scaled element; scale code 0xFF is NaN (R54). -/
def scaled (code : Nat) (x : Num) : Num := if code = 255 then .nan false else x.scale ((code : Int) - 127)

/-- What a tile holds: element codes and scale codes, drawn freely where nothing has been written (R190). -/
structure TData where
  fmt : Nat
  len : Nat
  data : List Word
  scales : List Nat
  blk : Bool
deriving DecidableEq, Repr

/-- The contents of a tile for a read; a tile that nothing has filled gives free values of its format. -/
def tileData (s : State) (t : Tile) : TData × State :=
  let r := drawTile s t
  ({ fmt := t.record.fmt, len := tileLineLen t, data := r.1.data.getD [], scales := r.1.scales, blk := t.record.blk }, r.2)

/-- The scale code of an element. -/
def TData.scaleAt (t : TData) (line i : Nat) : Nat := if t.blk then t.scales.getD (line * ceilDiv t.len 48 + i / 48) 0x7F else 0x7F
def TData.code (t : TData) (line i : Nat) : Nat := (t.data.getD (line * t.len + i) 0#32).toNat
def TData.elem (t : TData) (line i : Nat) : Num := scaled (t.scaleAt line i) (narrowRead t.fmt (t.code line i))
def TData.elemA (t : TData) (depth line i : Nat) : Num :=
  scaled (t.scaleAt line i) (keepPlanes t.fmt depth (narrowRead t.fmt (t.code line i)))

def isWide (f : Nat) : Bool := f == 5 || f == 6

/-- The exponent of a nonzero finite product. -/
def prodTop : Num → Option Int
  | .fin _ m e => if m = 0 then none else some (e + Nat.log2 m)
  | _ => none

/-- Truncate to the unit 2^u, toward zero (R56). -/
def truncTo (u : Int) : Num → Num
  | .fin n m e => if u ≤ e then .fin n m e else .fin n (m / 2 ^ (u - e).toNat) u
  | x => x

/-- The products of a group of 48 as R56 keeps them. -/
def groupKeep (ps : List Num) : List Num :=
  match (ps.filterMap prodTop).foldl (fun (a : Option Int) x => some (match a with
    | some y => max x y
    | none => x)) none with
  | some top => ps.map (truncTo (top - 40))
  | none => ps

/-- The sum of one K-step's products (R55 to R58). -/
def stepSum (depth : Nat) (a b : TData) (m n : Nat) : Num :=
  let ps := (List.range a.len).map fun k => (mulNum (a.elemA depth m k) (b.elem n k)).1
  let ps := if isWide a.fmt || isWide b.fmt then
      (List.range (ceilDiv a.len 48)).flatMap fun g => groupKeep ((ps.drop (48 * g)).take 48)
    else ps
  match (sumNums 0#2 ps).1 with
  | .fin n m e => if m = 0 then .fin false 0 0 else .fin n m e
  | x => x

/-- One C element through the K-steps (R57 R58). -/
def mmElem (depth : Nat) (steps : List (TData × TData)) (m n : Nat) (c : Word) : Word :=
  steps.foldl (fun c t =>
    BitVec.ofNat 32 (f32.deliver 0#2 false (sumNums 0#2 [f32.read false c.toNat, stepSum depth t.1 t.2 m n]).1).1) c

/-- The contents of the tiles that the steps read. -/
def readTiles (s : State) : List Nat → List (Nat × TData) × State
  | [] => ([], s)
  | p :: ps =>
    match tileAt s.k p with
    | some t =>
      let r := tileData s t
      let u := readTiles r.2 ps
      ((p, r.1) :: u.1, u.2)
    | none => readTiles s ps

/-! Hadamard transform (R60). -/

def hadPair (x y : Word) : Word × Word :=
  (BitVec.ofNat 32 (fAdd f32 rneEnv x.toNat y.toNat).1, BitVec.ofNat 32 (fSub f32 rneEnv x.toNat y.toNat).1)

/-- One stage over a run. -/
def hadStage (j : Nat) (xs : List Word) : List Word :=
  (List.range xs.length).map fun i =>
    let b := 2 ^ j
    if i / b % 2 = 0 then (hadPair (xs.getD i 0#32) (xs.getD (i + b) 0#32)).1
    else (hadPair (xs.getD (i - b) 0#32) (xs.getD i 0#32)).2

/-- A run of n elements. -/
def hadRun (n : Nat) (xs : List Word) : List Word :=
  let stages := if n = 16 then 4 else if n = 32 then 5 else 6
  let k : Word := if n = 16 then 0x3E800000#32 else if n = 32 then 0x3E3504F3#32 else 0x3E000000#32
  (((List.range stages).foldl (fun xs j => hadStage j xs) xs).map fun x => BitVec.ofNat 32 (fMul f32 rneEnv x.toNat k.toNat).1)

/-- A row of runs. -/
def hadRow (n : Nat) (xs : List Word) : List Word :=
  (List.range (xs.length / n)).flatMap fun r => hadRun n ((xs.drop (n * r)).take n)

/-- The scale code that AUTO chooses for a group (R205). -/
def autoScale (fmt : Nat) (xs : List Num) : Nat :=
  let big : Num × Nat := match fmt with
    | 0 => (.fin false 7 6, 0) | 1 => (.fin false 7 13, 0) | 2 => (.fin false 3 1, 0)
    | 3 => (.fin false 127 0, 0) | _ => (.fin false 7 0, 0)
  if xs.any Num.isNan then 255
  else if xs.all Num.isZero then 0x7F
  else if xs.any fun x => x == .inf true || x == .inf false then 254
  else
    -- the least code E whose 2^(E − 127) × F is not below any magnitude
    let fits := fun (code : Nat) => xs.all fun x => match x, big.1 with
      | .fin _ m e, .fin _ f g =>
        let a : Int := e
        let b : Int := g + ((code : Int) - 127)
        let lo := min a b
        decide (m * 2 ^ (a - lo).toNat ≤ f * 2 ^ (b - lo).toNat)
      | _, _ => true
    ((List.range 255).find? fits).getD 254

/-- Quantise a row: codes and scale codes. -/
def quantRow (w : Word) (xs : List Word) : List Word × List Nat :=
  let fmt := w.toNat / 256 % 16
  let groups := (List.range (ceilDiv xs.length 48)).map fun g => (xs.drop (48 * g)).take 48
  let parts := groups.map fun g =>
    let ns := g.map fun x => f32.read false x.toNat
    let e := if w.getLsbD 16 then autoScale fmt ns else w.toNat % 256
    (ns.map fun x => (BitVec.ofNat 32 (quantElem x e fmt (w.toNat / 4096 % 4 == 1) (w.getLsbD 14)) : Word), e)
  (parts.flatMap (·.1), parts.map (·.2))

/-! The sequencer (R187 R202 R204). -/

/-- Matrix cycles of a K-step. -/
def stepCycles (k : CoreS) (depth : Nat) (t : Nat × Nat) : Nat := match tileAt k t.1 with
  | some a => a.record.m * (serialBits a.record.fmt - min depth (serialBits a.record.fmt - 1))
  | none => 0
/-- Core cycles that an entry takes: three for each matrix cycle. -/
def workTime (k : CoreS) : TileWork → Nat
  | .mm _ _ _ steps depth => 3 * ((steps.map (stepCycles k depth)).sum + 16)
  | .hadt _ src n _ => match tileAt k src with
    | some t => 3 * (t.record.m * 4 * (t.record.n / n) * (if n = 16 then 4 else if n = 32 then 5 else 6))
    | none => 0
  | _ => 0

/-- Nothing that the entry waits for is left: earlier entries of its warp have started, its operands have no pending write, its
result has a handle, an old storage that it overwrites has no reader, and an acquire has nothing held before it. -/
def startable (s : State) (k : CoreS) (o : TileOp) : Bool :=
  let before := k.seq.takeWhile fun x => x.id != o.id
  let ready := (o.work.reads.all fun p => (tileAt k p).all fun t => t.pend.isNone)
    && (o.work.writes.bind (tileAt k)).all fun t => t.handle.isSome
  let store := (o.work.writes.bind (tileAt k)).map (·.store)
  let readers := before.any fun x => x.work.reads.any fun p => (tileAt k p).any fun t => some t.store == store
  let acq := match o.work with
    | .load _ m _ _ => m.acq
    | .store _ m _ => m.acq
    | _ => false
  o.hold.isNone && !o.running && before.all (fun x => x.warp != o.warp || x.running || x.hold.isSome) && ready && !readers
    && !(acq && s.held.any fun h => h.warp == o.warp)

def seqOp (s : State) (core op : Nat) : Option TileOp := (s.coreOf core).seq.find? fun o => o.id == op

/-- The cohort with an index of a launch, resident or saved with its context. -/
def cohortAt (s : State) (launch index : Nat) : Option Cohort :=
  (s.allCohorts ++ s.ctxs.flatMap fun x => x.saved.flatMap (·.cohorts)).find? fun c => c.launch == launch && c.index == index

/-- The indexes of the participants other than 0 that a broadcast goes to: cohorts that have not completed, dispatched or not. -/
def othersOf (s : State) (o : TileOp) (t : Tile) : List Nat :=
  match s.launch? o.launch, s.cohort? o.cid with
  | some l, some c => ((List.range (2 ^ t.record.spanlog)).map fun i => gangOf l c.index * 2 ^ l.f2 + i).filter fun i =>
      i != c.index && !l.doneIdx.contains i && (decide (i < l.ncoh) || (cohortAt s l.num i).isSome)
  | _, _ => []

/-- What is left of a loop that a checkpoint has stopped (R218). -/
def TileOp.rest (o : TileOp) : TileWork :=
  match o.work with
  | .mm dst old acc steps d => .mm dst old acc (steps.drop o.doneSteps) d
  | w => w
def execTileSequencerStart (core op : Nat) (s : State) : Out :=
  let k := s.coreOf core
  match seqOp s core op with
  | some o =>
    .next (if startable s k o then s.mapCore core fun k =>
      { k with seq := updWhere (fun x => x.id == op) (fun x => { x with running := true, due := s.cyc + workTime k o.rest }) k.seq } else s)
  | none => .next s

/-- A byte of shared memory as the tile path meets it: of a mapping whose line is not stashed, the global byte. -/
def sharedHome (s : State) (c : Cohort) (off : Nat) : Option Nat :=
  match mapOf c (off / 128) with
  | some m =>
    if c.stash.any fun t => t.line == off / 128 then none
    else match s.launch? c.launch with
    | some l => match walk s l.ctx (m.base + BitVec.ofNat 64 (off - 128 * m.line)) with
      | .page e => some (localPa s (e.pa + ((m.base + BitVec.ofNat 64 (off - 128 * m.line)).toNat - e.va)))
      | .bad _ => none
    | none => none
  | none => none

/-- The bytes at the places of a run. -/
def placeBytes (s : State) (c : Cohort) (shared : Bool) (ps : List Nat) : List Byte :=
  ps.map fun a => if shared then (match sharedHome s c a with
    | some pa => engineByte s pa
    | none => memGet c.shared a) else engineByte s a

/-- Write bytes at places, for the cohort in focus; a stash line takes its place in the order as a store does. -/
def putPlaces (s : State) (shared : Bool) (bs : List (Nat × Byte)) : State :=
  if shared then
    let lines := (bs.map (·.1 / 128)).dedup
    let out := bs.filterMap fun b => (sharedHome s s.c b.1).map fun pa => (pa, b.2)
    let inside := bs.filter fun b => (sharedHome s s.c b.1).isNone
    let s := lines.foldl (fun s n => stashTime s true n) s
    let sh := memPuts s.c.shared inside
    homeWrite { s with c := { s.c with shared := sh
                                       stash := updWhere (fun x => lines.contains x.line) (fun x => { x with dirty := true, lastUse := s.cyc })
                                         s.c.stash } } out
  else homeWrite s (engineBytes s bs)

/-- The lines of global memory that a transfer touches: those behind mapped shared lines too, stashed or not. -/
def workLines (s : State) (k : CoreS) (o : TileOp) : List Nat :=
  let of_ := fun (p : Nat) (m : OpMap) => match tileAt k p with
    | some t => if m.shared then (match s.cohort? o.cid with
        | some c => ((runLines (tileRuns t m)).filterMap fun q => match c.stash.find? fun x => x.line == q with
            | some x => some (x.pa / 128)
            | none => (sharedHome s c (128 * q)).map (· / 128))
        | none => []) else linesOf ((tileRuns t m).flatMap (runPlaces m o.pages))
    | none => []
  match o.work with
  | .load d m _ _ => of_ d m
  | .store p m _ => of_ p m
  | _ => []

/-- A write of an engine or of the tile path, acting for a cohort, waits at the home (09 R256 R259 R441): a logged one at claims of
others, another one at every claim; and behind the writes that came there before it, but where the cohort's own claim lets it pass. -/
def engineWaits (s : State) (line cid : Nat) (logged : Bool) (queued : Option (Nat × List Nat)) : Bool :=
  let mine := logged && (s.anyCohort cid).any fun c => s.claims.any fun x => x.line == line && x.memberOf c
  (if logged then claimedAgainst s line cid else s.claims.any fun x => x.line == line)
    || (behindOthers s line (queued.map (·.1)) && !mine)

/-- What an engine's operation does next. -/
inductive CopyNext where
  | wait
  | go (s : State)
deriving DecidableEq, Repr
/-- Agents that hold lines against reads (false) or writes (true) are asked first; a line that no route reaches is waited for. -/
def askNext (s : State) (ls : List (Nat × Bool)) : Option CopyNext :=
  if !routed s (ls.map (·.1)) then some .wait else (askFor s ls).map fun u => if asksMore s u then .go u else .wait
/-- An operation waits at the homes of lines: the first time it takes its place there. -/
def queueUp (s : State) (queued : Option (Nat × List Nat)) (lines : List Nat) (put : State → Option (Nat × List Nat) → State) : CopyNext :=
  let n := (queued.map (·.1)).getD s.nextId
  if queued = some (n, lines) then .wait else .go (put { s with nextId := max s.nextId (n + 1) } (some (n, lines)))

/-- Change an entry of a core's sequencer. -/
def mapOp (s : State) (core op : Nat) (f : TileOp → TileOp) : State :=
  s.mapCore core fun k => { k with seq := updWhere (fun x => x.id == op) f k.seq }
/-- What stands before a transfer: agents and routes, and for a store the homes at which it waits. -/
def transferWaits (s : State) (k : CoreS) (o : TileOp) : Option CopyNext :=
  let lines := workLines s k o
  if !routed s lines && o.farSince.isNone then some (.go (mapOp s k.id o.id fun x => { x with farSince := some s.now }))
  else if routed s lines && o.farSince.isSome then some (.go (mapOp s k.id o.id fun x => { x with farSince := none }))
  else match o.work with
  | .load _ _ _ _ => askNext s (lines.map fun n => (n, false))
  | .store _ _ level =>
    match askNext s (lines.map fun n => (n, true)) with
    | some r => some r
    | none =>
      let at_ := lines.filter fun n => engineWaits s n o.cid (level != 0) o.queued
      if at_.isEmpty then none
      else some (queueUp s o.queued at_ fun s q => mapOp s k.id o.id fun x => { x with queued := q })
  | _ => none
/-- Every participant has the rows of a broadcast: they stand at the sender until they can go. -/
def rowsGone (s : State) (core op : Nat) : Bool := !((s.coreOf core).arrived.any fun r => r.id == op)

/-- The entry may retire, or has something to do first. -/
def retirable (s : State) (core : Nat) (o : TileOp) : Bool :=
  let k := s.coreOf core
  o.running && decide (o.due ≤ s.cyc) && transferWaits s k o != some .wait
    && (match o.work with
        | .load _ _ _ 0 => true
        | .load _ _ _ _ => decide (o.doneSteps = 0) || rowsGone s core o.id
        | _ => true)

/-- A tile is filled. -/
def fillTile (phys : Nat) (data : List Word) (scales : List Nat) (k : CoreS) : CoreS :=
  { k with tiles := updWhere (fun t => t.phys == phys) (fun t => { t with data := some data, scales := scales, pend := none }) k.tiles }

/-- The contents that a load reads. -/
def loadData (s : State) (c : Cohort) (t : Tile) (m : OpMap) (pages : List (Nat × Nat)) : List Word × List Nat :=
  let lines := (List.range (tileLines t)).flatMap fun j =>
    unpackBytes (fmtBits t.record.fmt) (tileLineLen t)
      (placeBytes s c m.shared (runPlaces m pages (m.base + BitVec.ofNat 64 (j * m.lstride), lineBytes t)))
  let scales := if t.record.blk then (List.range (tileLines t)).flatMap fun j =>
      (placeBytes s c m.shared (runPlaces m pages (m.scale + BitVec.ofNat 64 (j * m.sstride), scaleLen t))).map (·.toNat)
    else []
  (lines.map fun x => BitVec.ofNat 32 x, scales)

/-- The bytes that a store writes. -/
def storeBytes (t : Tile) (d : TData) (m : OpMap) (pages : List (Nat × Nat)) : List (Nat × Byte) :=
  let run := fun (r : DWord × Nat) (bs : List Byte) => (runPlaces m pages r).zip bs
  ((List.range (tileLines t)).flatMap fun j => run (m.base + BitVec.ofNat 64 (j * m.lstride), lineBytes t)
      (packBytes (fmtBits t.record.fmt) ((List.range (tileLineLen t)).map fun i => d.code j i)))
    ++ (if t.record.blk then (List.range (tileLines t)).flatMap fun j => run (m.scale + BitVec.ofNat 64 (j * m.sstride), scaleLen t)
          ((List.range (scaleLen t)).map fun g => BitVec.ofNat 8 (d.scaleAt j (48 * g))) else [])

/-- The entry leaves the queue, and what only it needed is freed. -/
def dropOp (op : Nat) (s : State) : State := sweepTiles { s with k := { s.k with seq := s.k.seq.filter fun o => o.id != op } }

/-- Send the rows of a broadcast to the other participants (R197). -/
def sendRows (s : State) (o : TileOp) (t : Tile) (name nth : Nat) (d : List Word × List Nat) : State :=
  { s with k := { s.k with arrived := s.k.arrived ++ (othersOf s o t).map fun i =>
      { id := o.id, launch := o.launch, index := i, name := name, nth := nth, data := d.1, scales := d.2 } } }

/-- The homes of the bytes of a transfer; stash lines' of the cohort in focus. -/
def tileHomes (s : State) (t : Tile) (m : OpMap) (pages : List (Nat × Nat)) : List Nat :=
  if m.shared then stashPlaces s ((tileRuns t m).flatMap fun r => (List.range r.2).map (r.1.toNat + ·))
  else (tileRuns t m).flatMap (runPlaces m pages)

/-- A transfer's shared bytes meet a bound queue, or its global bytes a conversation object or a continuation queue (10 R286, 12 R317). -/
def storeRaces (before s : State) (t : Tile) (m : OpMap) (as : List Nat) : State :=
  if m.shared then raceQueue before s as
  else markRace (raceConv s as) ((tileRuns t m).any fun r => inContQueue s r.1 || inContQueue s (r.1 + BitVec.ofNat 64 (r.2 - 1)))

/-- The work of an entry, with its warp in focus. -/
def performOp (o : TileOp) (s : State) : State :=
  match o.work with
  | .load dst m name nth =>
    match tileAt s.k dst with
    | some t =>
      let ready := updWhere (fun x => x.phys == dst) (fun x => { x with pend := none }) s.k.tiles
      if nth ≠ 0 ∧ o.doneSteps ≠ 0 then dropOp o.id { s with k := { s.k with tiles := ready } }
      else
        let lines := workLines s s.k o
        let d := loadData s s.c t m o.pages
        let u := engineReads { s with k := fillTile dst d.1 d.2 s.k } o.launch s.w.id (tileHomes s t m o.pages) (m.acq && m.scope == 5)
        let u := if m.acq then leaseReads u lines else u
        if nth = 0 then dropOp o.id u
        else
          let u := { u with k := { u.k with tiles := updWhere (fun x => x.phys == dst) (fun x => { x with pend := some (o.pc, o.id) }) u.k.tiles
                                            seq := updWhere (fun x => x.id == o.id) (fun x => { x with doneSteps := 1 }) u.k.seq } }
          sendRows u o t name nth d
    | none => dropOp o.id s
  | .store src m level =>
    match tileAt s.k src with
    | some t =>
      let (d, u) := tileData s t
      let bs := storeBytes t d m o.pages
      -- what the issue could not log, at its level or at the launch's (09 R271)
      match logRuns u level m o.pages (tileRuns t m) with
      | .error _ => dropOp o.id (failAt u level 4 0 0)
      | .ok u =>
        let u := storeRaces u (putPlaces u m.shared bs) t m (bs.map (·.1))
        let u := engineWrites u o.launch u.w.id (tileHomes u t m o.pages) false
        dropOp o.id (if m.rel && m.scope == 5 then writeBackAll u else u)
    | none => dropOp o.id s
  | .mm dst old acc steps depth =>
    match tileAt s.k dst with
    | some t =>
      let r := readTiles s (((if acc then [old] else []) ++ steps.flatMap fun x => [x.1, x.2]).dedup)
      let pairs := steps.filterMap fun x => match assoc x.1 r.1, assoc x.2 r.1 with
        | some a, some b => some (a, b)
        | _, _ => none
      let n := t.record.localN
      let c0 := fun i => if acc then (match assoc old r.1 with
        | some d => d.data.getD i 0#32
        | none => 0#32) else 0#32
      let data := (List.range (t.record.m * n)).map fun i => mmElem depth pairs (i / n) (i % n) (c0 i)
      dropOp o.id { r.2 with k := fillTile dst data [] r.2.k }
    | none => dropOp o.id s
  | .hadt dst src n quant =>
    match tileAt s.k dst, tileAt s.k src with
    | some t, some x =>
      let (d, u) := tileData s x
      let len := x.record.n
      let rows := (List.range t.record.m).map fun i => hadRow n ((List.range len).map fun j => d.data.getD (i * len + j) 0#32)
      let out : List Word × List Nat := match quant with
        | some w =>
          let qs : List (List Word × List Nat) := rows.map (quantRow w)
          (qs.flatMap (·.1), if t.record.blk then qs.flatMap (·.2) else [])
        | none => (rows.flatMap id, [])
      dropOp o.id { u with k := fillTile dst out.1 out.2 u.k }
    | _, _ => dropOp o.id s

/-- A transfer reads a line that a cohort outside its claim may yet roll back: a race (10 R286). -/
def transferRace (s : State) (k : CoreS) (o : TileOp) : Bool :=
  match o.work with
  | .load _ _ _ _ => (workLines s k o).any fun n => claimedAgainst s n o.cid
  | _ => false

def execTileInstrRetire (core op : Nat) (s : State) : Out :=
  match seqOp s core op with
  | some o =>
    let race := transferRace s (s.coreOf core) o
    .next (if retirable s core o then
      (match transferWaits s (s.coreOf core) o with
       | some (.go u) => u
       | _ => performOp o (markRace (s.focus o.warp) race))
    else s)
  | none => .next s

/-- Rows that meet the allocation they are for: a cohort and its tile. Rows for a participant that has not been dispatched, is saved,
or has not made the allocation yet wait (R197). -/
def rowsMeet (s : State) (core i : Nat) : Option (Rows × Option (Cohort × Nat)) :=
  match (s.coreOf core).arrived[i]? with
  | some r =>
    if !((s.launch? r.launch).any fun l => !l.doneIdx.contains r.index && !(l.stopAll && (cohortAt s r.launch r.index).isNone)) then some (r, none)
    else match s.allCohorts.find? fun c => c.launch == r.launch && c.index == r.index with
      | none => none
      | some c =>
        let k := s.coreOf c.core
        if c.done.isSome then some (r, none)
        else match k.tiles.find? fun t => t.gang == some (c.id, r.name, r.nth) with
          | some t => some (r, some (c, t.phys))
          | none => if (allocCount k c.id r.name).1 < r.nth then none else some (r, none)
  | none => none
/-- Rows that fill their tile next: those of one flow, from core to core, do so in the order in which they were sent (15 R380). -/
def rowsReady (s : State) (core i : Nat) : Option (Rows × Option (Cohort × Nat)) :=
  match rowsMeet s core i with
  | some (r, some (c, p)) =>
    if (List.range i).any fun j => (rowsMeet s core j).any fun x => x.2.any fun y => y.1.core == c.core then none else some (r, some (c, p))
  | x => x
/-- The rows fill the participant's tile; one that has lost its name meanwhile is free from then on (R192). -/
def fillRows (s : State) (r : Rows) (c : Cohort) (phys : Nat) : State :=
  let t := s.mapCore c.core (fillTile phys r.data r.scales)
  match s.allWarps.find? fun w => w.cid == c.id with
  | some w => within t w.id sweepTiles
  | none => t
def execARowsBroadcastArrive (core i : Nat) (s : State) : Out :=
  match rowsReady s core i with
  | some (r, dst) =>
    let t := s.mapCore core fun k => { k with arrived := k.arrived.eraseIdx i }
    .next (match dst with
      | some (c, phys) => fillRows t r c phys
      | none => t)
  | none => .next s

end Sys2Proof.Machine
end

