-- ==== Sys2Proof/Machine/Copy.lean ====
section
/-! DEFINITION. Copy commands: their checks, promises, transfers and records (07 R207 to R210 R217, 10 R280). -/

namespace Sys2Proof.Machine

/-! Translation for the engines. -/



/-- FCODE of a record of a kind (14 R361 R364). -/
def kindCode (kind : Nat) : Nat := if kind = 6 then 0xE0 else if kind = 7 then 0xE1 else 0x6F + kind

/-- Lantern is asked for a log entry: type, partition, data (17 R421). -/
def keeperLog (s : State) (type part : Nat) (data : List Byte) : State :=
  { s with lan := { s.lan with queue := s.lan.queue ++ [(type, part, data)] } }

/-- A security violation: the record, the log, and the kill of the context (14 R368). Its record is not open for a reply. -/
def violate (s : State) (l : Launch) (source : Nat) (acc : Access) (wid addr : DWord) (pc : Word) (lanes : Mask) (engine : Nat) : State :=
  let t := s.nextToken
  let s := queueFault s l.part l.ctx l.num 7 0xE1 source acc (.warp 0) wid addr pc lanes engine
  let s := keeperLog { s with faults := s.faults.filter fun f => f.token != t } 5 l.part []
  s.mapCtx l.ctx fun c => { c with killed := true }

/-! The command (R207). -/

def wordAt (ws : List Word) (i : Nat) : Word := ws.getD i 0#32
def dwordAt (ws : List Word) (i : Nat) : DWord := wordAt ws (i + 1) ++ wordAt ws i

def copyDims (ws : List Word) (n : Nat) : List CopyDim :=
  (List.range n).map fun d => { count := (wordAt ws (8 + 5 * d)).toNat, sstr := (dwordAt ws (9 + 5 * d)).toInt
                                dstr := (dwordAt ws (11 + 5 * d)).toInt }

/-- The command that complete words stand for. -/
def copyCmdOf (ws : List Word) (id warp cid launch : Nat) : CopyCmd :=
  let h := wordAt ws 0
  { id := id, warp := warp, cid := cid, launch := launch, fill := h.extractLsb' 28 4 == 2#4
    dims := copyDims ws (h.extractLsb' 25 3).toNat, esz := 2 ^ (h.extractLsb' 23 2).toNat
    srcSh := h.getLsbD 22, dstSh := h.getLsbD 21, acq := h.getLsbD 20, rel := h.getLsbD 19, scope := (h.extractLsb' 16 3).toNat
    key := if h.getLsbD 15 then some (h.extractLsb' 0 8).toNat else none, tag := (h.extractLsb' 0 8).toNat
    src := dwordAt ws 1, dst := dwordAt ws 3, record := dwordAt ws 5, count0 := (wordAt ws 7).toNat, stage := .accepted }

def CopyCmd.total (m : CopyCmd) : Nat := m.dims.foldl (fun n d => n * d.count) m.count0

/-- Offsets of element n from SRC and DST (R208). -/
def CopyCmd.offsets (m : CopyCmd) (n : Nat) : Int × Int :=
  let first : Int := ((n % m.count0 * m.esz : Nat) : Int)
  (m.dims.foldl (fun (t : Nat × Int × Int) d =>
    let i : Int := ((t.1 % d.count : Nat) : Int)
    (t.1 / d.count, t.2.1 + i * d.sstr, t.2.2 + i * d.dstr)) (n / m.count0, first, first)).2

/-- The first and the last byte that the elements reach, as signed addresses; none without elements. -/
def CopyCmd.extent (m : CopyCmd) (base : Int) (str : CopyDim → Int) : Option (Int × Int) :=
  if m.total = 0 then none
  else
    let steps := m.dims.map fun d => ((d.count - 1 : Nat) : Int) * str d
    some (base + (steps.map fun x => min 0 x).sum,
          base + (steps.map fun x => max 0 x).sum + ((m.count0 * m.esz - 1 : Nat) : Int))

/-- Every address of one side is canonical, or lies in the allocation (R209). -/
def sideOk (m : CopyCmd) (shared : Bool) (base : DWord) (str : CopyDim → Int) (size : Nat) : Bool :=
  if shared then
    match m.extent (base.toNat : Int) str with
    | none => true
    | some (lo, hi) => decide (0 ≤ lo) && decide (hi < size)
  else canonVa base && (match m.extent base.toInt str with
    | none => true
    | some (lo, hi) => decide (-(2 ^ 56 : Int) ≤ lo) && decide (hi < 2 ^ 56))

/-- The DETAIL of the first check that fails, in the table's order (R209). -/
def copyReject (s : State) (die : Nat) (h : Word) (m : CopyCmd) (size : Nat) : Option Nat :=
  let opc := (h.extractLsb' 28 4).toNat
  let unit := fun x : Int => decide (x % (m.esz : Int) = 0)
  if opc ≠ 1 ∧ opc ≠ 2 then some 1
  else if h.extractLsb' 8 7 ≠ 0#7 ∨ 6 ≤ m.scope then some 2
  else if !(m.fill || unit m.src.toNat) || !unit m.dst.toNat || !(m.dims.all fun d => unit d.sstr && unit d.dstr) then some 3
  else if m.record.toNat % 32 ≠ 0 ∨ !canonVa m.record then some 4
  else if m.key.any (keyInUse s die m.launch) then some 5
  else if !(m.fill || sideOk m m.srcSh m.src (·.sstr) size) || !sideOk m m.dstSh m.dst (·.dstr) size then some 6
  else none

/-- Acceptance: the promise (R210). -/
def acceptCopy (s : State) (cluster ch : Nat) (m : CopyCmd) : State :=
  s.setChan cluster ch fun c =>
    let p := max s.now c.last + 2000 + ceilDiv (m.total * m.esz) c.g
    { c with last := p, cmds := c.cmds ++ [{ m with stage := .accepted, promise := p, key := none }] }

/-- The first complete command of a channel. -/
def copyReady (s : State) (cluster ch : Nat) : Option (Nat × List Word) :=
  ((s.cluster cluster).chans.getD ch {}).parts.find? fun p => p.2.length == copyLen (p.2.headD 0#32)

/-- The command of a warp enters the channel's order. -/
def enterCopy (s : State) (cluster ch w : Nat) (ws : List Word) : State :=
  let x := (s.warp? w).getD {}
  let c := (s.cohort? x.cid).getD {}
  let m := copyCmdOf ws s.nextId w x.cid c.launch
  let s := { (s.setChan cluster ch fun g => { g with parts := g.parts.erase (w, ws) }) with nextId := s.nextId + 1 }
  let m := { m with level := if m.dstSh && !x.handler && !c.levels.isEmpty then some c.levels.length else none }
  match copyReject s (cluster / 12) (wordAt ws 0) m c.sharedSize with
  | some d => s.setChan cluster ch fun g => { g with cmds := g.cmds ++ [{ m with final := some (4, d, 0), key := none }] }
  | none =>
    if m.key.isSome then s.setChan cluster ch fun g => { g with cmds := g.cmds ++ [{ m with stage := .held }] }
    else acceptCopy s cluster ch m

def copyEnters (fill : Bool) (cluster ch w : Nat) (s : State) : Out :=
  match copyReady s cluster ch with
  | some (v, ws) => .next (if v == w && ((wordAt ws 0).extractLsb' 28 4 == 2#4) == fill then enterCopy s cluster ch w ws else s)
  | none => .next s

def execCopyCmd (cluster chan w : Nat) (s : State) : Out := copyEnters false cluster chan w s
def execFillCmd (cluster chan w : Nat) (s : State) : Out := copyEnters true cluster chan w s

/-! Records and completion words (R210). -/

/-- The first 16 bytes of a record. -/
def recordHead (m : CopyCmd) (state detail promise : Nat) : List Byte :=
  leBytes 4 (m.tag * 2 ^ 24 + state * 2 ^ 16 + detail * 2 ^ 8) ++ leBytes 4 0 ++ leBytes 8 promise

/-- The physical address of a virtual one, or the kind of fault. -/
def enginePa (s : State) (l : Launch) (va : DWord) (acc : Access) : Except Nat Nat :=
  match walkOwned s l va acc with
  | .page e => .ok (localPa s (e.pa + (va.toNat - e.va)))
  | .bad k => .error k

def wAcc : Access := { wr := true }
def rAcc : Access := { rd := true }

def mapCmd (s : State) (cluster ch id : Nat) (f : CopyCmd → CopyCmd) : State :=
  s.setChan cluster ch fun c => { c with cmds := updWhere (fun m => m.id == id) f c.cmds }

/-- A translation fault of a command (14 R364 R365), or a violation. -/
def copyFault (s : State) (cluster ch : Nat) (l : Launch) (m : CopyCmd) (kind : Nat) (va : DWord) (acc : Access) : State :=
  let engine := ch * 256 + m.tag
  if kind = 7 then violate s l 1 acc 0#64 va 0#32 0#32 engine
  else
    let t := s.nextToken
    let s := queueFault s l.part l.ctx l.num kind (kindCode kind) 1 acc (.copy cluster ch m.id) 0#64 va 0#32 0#32 engine
    mapCmd s cluster ch m.id fun x => { x with openFault := some (t, kind) }

/-- The completion word, held while the pusher's context is saved (R210, 14 R370). -/
def completionWord (m : CopyCmd) (state detail : Nat) : Word := BitVec.ofNat 32 (m.tag * 2 ^ 24 + state * 2 ^ 16 + detail * 2 ^ 8)
/-- A cohort is saved with its context. -/
def savedCohort (s : State) (cid : Nat) : Bool := s.ctxs.any fun c => c.saved.any fun v => v.cohorts.any fun x => x.id == cid
def savedWarp (s : State) (w : Nat) : Option Nat :=
  (s.ctxs.find? fun c => c.saved.any fun v => v.warps.any fun x => x.id == w).map (·.num)
/-- The channel's completion side holds 64 words (06 R175). -/
def doneFull (s : State) (cluster ch : Nat) : Bool := decide (64 ≤ ((s.cluster cluster).chans.getD ch {}).words.length)
/-- Push the completion word of a command; a full queue makes it wait. -/
def pushDone (s : State) (cluster ch : Nat) (m : CopyCmd) (state detail : Nat) : State :=
  let x := completionWord m state detail
  if doneFull s cluster ch && !savedCohort s m.cid then
    mapCmd s cluster ch m.id fun y => { y with final := some (state, detail, 0), record := 0#64, openFault := none }
  else
    let s := if state = 3 then s.tally fun y => { y with copyFailed := y.copyFailed + 1 } else s
    s.setChan cluster ch fun c =>
      let c := { c with cmds := c.cmds.filter fun y => y.id != m.id }
      if savedCohort s m.cid then { c with heldWords := c.heldWords ++ [(m.cid, x)] }
      else { c with words := c.words ++ [(m.cid, x)] }
/-- Act with the pushing warp in focus, when it is there. -/
def asPusher (s : State) (w : Nat) (f : State → State) : State := if (s.warp? w).isSome then within s w f else s
/-- Bytes of a copy record at its home; a check-mode launch logs the line (09 R271). The final one of a command with REL at SYS
scope is a SYS release (10 R284); the others race with nothing (R286). -/
def recordWrite (s : State) (m : CopyCmd) (pa : Nat) (bs : List Byte) (last : Bool) : State :=
  let s := homeWrite (checkLine s m.launch m.record (pa / 128)) (placed pa bs)
  if last && m.rel && m.scope == 5 then noteFor s m.launch ((List.range bs.length).map (pa + ·)) true else s
/-- A release at SYS scope writes the cohort's dirty stash lines back before the completion (10 R284). -/
def copyRelease (s : State) (m : CopyCmd) : State := if m.rel && m.scope == 5 then asPusher s m.warp writeBackAll else s
/-- What a write of the record meets on its way: the walk to its page, and its line (11 R291 R303). -/
def recordWay (s : State) (l : Launch) (m : CopyCmd) : List (Nat × Bool) :=
  if m.record = 0#64 ∨ m.lost then []
  else walkReads s l.ctx [m.record] ++ (match enginePa s l m.record wAcc with
    | .ok pa => [(pa / 128, true)]
    | .error _ => [])
/-- The line of the record at which its write waits: no level logs it, so every claim holds it up (09 R256 R441). -/
def recordWaits (s : State) (l : Launch) (m : CopyCmd) : List Nat :=
  if m.record = 0#64 ∨ m.lost then []
  else match enginePa s l m.record wAcc with
  | .ok pa => if engineWaits s (pa / 128) m.cid false m.queued then [pa / 128] else []
  | .error _ => []
/-- The command takes its place at the homes of lines, or waits there. -/
def queueCopy (s : State) (cluster ch : Nat) (m : CopyCmd) (lines : List Nat) : CopyNext :=
  queueUp s m.queued lines fun s q => mapCmd s cluster ch m.id fun x => { x with queued := q }
/-- The final record and the completion word; a record whose page system software cannot serve is left out. -/
def closeCopy (s : State) (cluster ch : Nat) (l : Launch) (m : CopyCmd) (state detail bytes : Nat) : State :=
  let promise := if state = 4 then 0 else m.promise
  let s := copyRelease s m
  if m.record = 0#64 ∨ m.lost then pushDone s cluster ch m state detail
  else match enginePa s l m.record wAcc with
  | .ok pa =>
    if askNext s (recordWay s l m) != none || !(recordWaits s l m).isEmpty then
      mapCmd s cluster ch m.id fun x => { x with final := some (state, detail, bytes), lost := m.lost, openFault := none, queued := m.queued }
    else pushDone (recordWrite s m pa (recordHead m state detail promise ++ leBytes 8 s.now ++ leBytes 8 bytes) true) cluster ch m state detail
  | .error k =>
    let s := mapCmd s cluster ch m.id fun x => { x with final := some (state, detail, bytes), lost := m.lost, openFault := none, queued := none }
    copyFault s cluster ch l m k m.record wAcc

/-! The transfer (R208). -/

/-- One byte to move: its element, where it comes from and goes to (true in shared memory), and the virtual destination. -/
structure CopyByte where
  elem : Nat
  src : Option (Bool × Nat)
  dst : Bool × Nat
  va : DWord
  fill : Byte
deriving DecidableEq, Repr

/-- A fault of a transfer: kind, address, access. -/
abbrev CopyStop := Nat × DWord × Access

def sidePa (s : State) (l : Launch) (sh : Bool) (va : DWord) (acc : Access) : Except CopyStop (Bool × Nat) :=
  if sh then .ok (true, va.toNat)
  else match enginePa s l va acc with
  | .ok pa => .ok (false, pa)
  | .error k => .error (k, va, acc)

/-- The bytes of element n. -/
def copyElem (s : State) (l : Launch) (m : CopyCmd) (n : Nat) : Except CopyStop (List CopyByte) :=
  let o := m.offsets n
  (List.range m.esz).mapM fun (j : Nat) => do
    let a := m.src + BitVec.ofInt 64 (o.1 + (j : Int))
    let b := m.dst + BitVec.ofInt 64 (o.2 + (j : Int))
    let src ← if m.fill then Except.ok none else (sidePa s l m.srcSh a rAcc).map some
    let dst ← sidePa s l m.dstSh b wAcc
    .ok ⟨n, src, dst, b, BitVec.ofNat 8 (m.src.toNat / 256 ^ j)⟩

/-- Every byte of the command, elements in a free order (R208). -/
def copyPlan (s : State) (l : Launch) (m : CopyCmd) : Except CopyStop (List CopyByte) := do
  let n := m.total
  let turn := Config.pick s.stepNo n % max n 1
  let bss ← (List.range n).mapM fun i => copyElem s l m ((i + turn) % n)
  .ok bss.flatten

/-- The bytes of the elements that can be reached, when the command has failed. -/
def reachable (s : State) (l : Launch) (m : CopyCmd) : List CopyByte :=
  (List.range m.total).flatMap fun i => match copyElem s l m i with
    | .ok bs => bs
    | .error _ => []

/-- The value that a destination byte takes; the bytes that R208 leaves undefined are free. -/
def copyValue (s : State) (c : Cohort) (bs : List CopyByte) (b : CopyByte) (i : Nat) : Byte :=
  let unclear := (bs.any fun x => x.src == some b.dst) || (match b.src with
      | some q => bs.any fun x => x.dst == q
      | none => false)
    || decide (1 < (bs.filter fun x => x.dst == b.dst).length)
  if unclear then Config.freeByte (s.fresh + i)
  else match b.src with
  | none => b.fill
  | some (true, o) => memGet c.shared o
  | some (false, pa) => engineByte s pa

/-- Log the shared words of an element at the level of a depth; none when the husk has no room (R217). -/
def logShwAt (s : State) (d : Nat) (os : List Nat) : Option State :=
  (os.foldlM (fun s o => logInto s (s.c.levels.length - d)
    (.shw (o / 4 * 4) (BitVec.ofNat 32 (leNat (memGets s.c.shared (o / 4 * 4) 4))))) s).toOption
/-- Shared bytes go in, element by element, each logged whole first; the number of bytes written, and whether the log held
(R217, 10 R278). -/
def sharedPut (s : State) (level : Option Nat) : List (List (Nat × Byte)) → Nat → State × Nat × Bool
  | [], n => (s, n, true)
  | b :: t, n =>
    match (match level with
      | some d => logShwAt s d (b.map Prod.fst)
      | none => some s) with
    | none => (s, n, false)
    | some u => sharedPut { u with c := { u.c with shared := memPuts u.c.shared b } } level t (n + b.length)
/-- Bytes that the command reads or writes at their homes, and their lines. -/
def planBytes (bs : List CopyByte) (wr : Bool) : List Nat :=
  bs.filterMap fun b => if wr then (if b.dst.1 then none else some b.dst.2) else match b.src with
    | some (false, pa) => some pa
    | _ => none
def planLines (bs : List CopyByte) (wr : Bool) : List Nat := linesOf (planBytes bs wr)
/-- Move bytes: the state, how many were written, and whether the husk held their log. -/
def moveBytes (s : State) (m : CopyCmd) (bs : List CopyByte) : State × Nat × Bool :=
  let c := (s.cohort? m.cid).getD {}
  let vals := bs.zipIdx.map fun b => (b.1, copyValue s c bs b.1 b.2)
  let s := { s with fresh := s.fresh + bs.length }
  let s := engineReads s m.launch m.warp (planBytes bs false) (m.acq && m.scope == 5)
  let glob := (vals.filter fun v => !v.1.dst.1)
  let s := glob.foldl (fun s v => checkLine s m.launch v.1.va (v.1.dst.2 / 128)) s
  let s := homeWrite s (engineBytes s (glob.map fun v => (v.1.dst.2, v.2)))
  let s := engineWrites s m.launch m.warp (planBytes bs true) false
  let s := asPusher s m.warp fun u => markRace u (glob.any fun v => inConv u v.1.dst.2 || inContQueue u v.1.va)
  let sh := vals.filter fun v => v.1.dst.1
  let elems := ((sh.map fun v => v.1.elem).reverse.dedup.reverse).map fun n =>
    (sh.filter fun v => v.1.elem == n).map fun (v : CopyByte × Byte) => (v.1.dst.2, v.2)
  if sh.isEmpty then (s, glob.length, true)
  else match leadWarp s m.cid with
  | none => (s, glob.length, true)
  | some w =>
    let old := if s.w.resident then some s.w.id else none
    let u := s.focus w.id
    let r := sharedPut u m.level elems glob.length
    let t := raceQueue u r.1 (sh.map fun v => v.1.dst.2)
    (match old with
     | some i => (t.focus i, r.2)
     | none => (t, r.2))
/-- Writes of the command wait at these lines: none of them is logged (R217, 09 R441). -/
def waitsAt (s : State) (m : CopyCmd) (bs : List CopyByte) : List Nat := (planLines bs true).filter fun n => engineWaits s n m.cid false m.queued
/-- Its reads are to come after earlier commands of its channel, or after writes of its pusher that are held (10 R280). -/
def acqWaits (s : State) (cluster ch : Nat) (m : CopyCmd) : Bool :=
  let before := ((s.cluster cluster).chans.getD ch {}).cmds.takeWhile fun x => x.id != m.id
  m.acq && ((before.any fun x => x.stage != .held && x.final.isNone) || s.held.any fun h => h.warp == m.warp)
/-- The reads of the command: those of claimed lines outside its claims are races, and those with ACQ follow what its pusher has seen. -/
def copyReads (s : State) (m : CopyCmd) (reads : List Nat) : State :=
  let s := markRaceOf s m.launch (reads.any fun n => claimedAgainst s n m.cid)
  if m.acq then leaseReads s reads else s
/-- The level that logs the command's shared writes could not log one: it fails with cause 4 (R217). -/
def huskFail (s : State) (m : CopyCmd) : State :=
  match leadWarp s m.cid, m.level with
  | some w, some d => within s w.id fun u => failAt u d 4 0 0
  | _, _ => s

/-- Nothing stands between the command and a byte: no agent, no way that is down, no claim. -/
def openTo (s : State) (held : List Nat) (b : CopyByte) : Bool :=
  let free := fun (n : Nat) (wr : Bool) => (agentsAgainst s n wr).isEmpty && routed s [n]
  (match b.src with
   | some (false, pa) => free (pa / 128) false
   | _ => true) && (b.dst.1 || (free (b.dst.2 / 128) true && !held.contains (b.dst.2 / 128)))
/-- The command fails: a free set of its elements that can be reached has been moved; none when its turn has not come. -/
def failCopy (s : State) (cluster ch : Nat) (l : Launch) (m : CopyCmd) (detail : Nat) : State :=
  let bs := reachable s l m
  let held := waitsAt s m bs
  let shut := (bs.filter fun b => !openTo s held b).map (·.elem)
  let bs := if m.stage == .running && !acqWaits s cluster ch m then bs.filter fun b => Config.moved s.stepNo b.elem && !shut.contains b.elem
    else []
  let r := moveBytes (copyReads s m (planLines bs false)) m bs
  closeCopy (if r.2.2 then r.1 else huskFail r.1 m) cluster ch l { m with lost := false, openFault := none, queued := none } 3 detail r.2.1


/-- The reads of the walks that the transfer makes. -/
def copyWalks (s : State) (l : Launch) (m : CopyCmd) : List (Nat × Bool) :=
  walkReads s l.ctx ((List.range m.total).flatMap fun n =>
    let o := m.offsets n
    (if m.fill || m.srcSh then [] else [m.src + BitVec.ofInt 64 o.1]) ++ (if m.dstSh then [] else [m.dst + BitVec.ofInt 64 o.2]))

/-- The transfer itself. -/
def runCopy (s : State) (cluster ch : Nat) (l : Launch) (m : CopyCmd) : CopyNext :=
  if acqWaits s cluster ch m then .wait
  else match askNext s (copyWalks s l m) with
  | some r => r
  | none => match copyPlan s l m with
  | .error (k, va, acc) => .go (copyFault s cluster ch l m k va acc)
  | .ok bs =>
    let reads := planLines bs false
    let writes := planLines bs true
    match askNext s ((reads.map fun n => (n, false)) ++ writes.map fun n => (n, true)) with
    | some r => r
    | none =>
      let at_ := waitsAt s m bs
      if !at_.isEmpty then queueCopy s cluster ch m at_
      else
        let m := { m with queued := none }
        let r := moveBytes (copyReads s m reads) m bs
        if r.2.2 then .go (closeCopy r.1 cluster ch l m 2 0 r.2.1)
        else .go (closeCopy (huskFail r.1 m) cluster ch l m 3 5 r.2.1)

/-- The next thing that command i of a channel does: its first record, the transfer, the final record. -/
def copyNext (s : State) (cluster ch i : Nat) : CopyNext :=
  let c := (s.cluster cluster).chans.getD ch {}
  match c.cmds[i]? with
  | none => .wait
  | some m =>
    if m.wordDue then
      if doneFull s cluster ch && !savedCohort s m.cid then .wait
      else match m.final with
        | some (st, d, _) => .go (pushDone s cluster ch m st d)
        | none => .wait
    else match s.launch? m.launch with
    | none => .wait
    | some l =>
      if m.stage == .held || (m.openFault.isSome && !m.lost) then .wait
      else match m.final with
      | some (st, d, n) => (askNext s (recordWay s l m)).getD
          (if (recordWaits s l m).isEmpty then .go (closeCopy s cluster ch l m st d n) else queueCopy s cluster ch m (recordWaits s l m))
      | none =>
        if m.lost then .go (failCopy s cluster ch l m 1)
        else if m.stage == .accepted then
          if let some r := askNext s (recordWay s l m) then r
          else if m.record = 0#64 then .go (mapCmd s cluster ch m.id fun x => { x with stage := .running })
          else match enginePa s l m.record wAcc with
          | .ok pa =>
            if !(recordWaits s l m).isEmpty then queueCopy s cluster ch m (recordWaits s l m)
            else .go (mapCmd (recordWrite s m pa (recordHead m 1 0 m.promise) false) cluster ch m.id fun x =>
              { x with stage := .running, queued := none })
          | .error k => .go (copyFault s cluster ch l m k m.record wAcc)
        else runCopy s cluster ch l m

def execCopyCmdComplete (cluster chan i : Nat) (s : State) : Out :=
  match copyNext s cluster chan i with
  | .wait => .next s
  | .go t => .next t

/-- The lines that a command needs lie where no route leads (15 R388). -/
def copyCut (s : State) (l : Launch) (m : CopyCmd) : Bool :=
  !routed s ((recordWay s l m ++ copyWalks s l m).map (·.1)) || (match copyPlan s l m with
    | .ok bs => !routed s (planLines bs false ++ planLines bs true)
    | .error _ => false)
/-- Chip time has reached the promise of a command that waits: at a claim, for a translation, or for a package out of reach, whose
answer is a machine check (R210, 15 R388). -/
def copyExpires (s : State) (cluster ch i : Nat) : Option (CopyCmd × Nat) :=
  match ((s.cluster cluster).chans.getD ch {}).cmds[i]? with
  | none => none
  | some m =>
    if m.stage == .held || m.final.isSome || decide (s.now < m.promise) || m.promise == 0 then none
    else if m.openFault.isSome then some (m, 1)
    else if copyNext s cluster ch i = .wait then some (m, if (s.launch? m.launch).any fun l => copyCut s l m then 2 else 6)
    else none

def execCopyPromiseExpiry (cluster chan i : Nat) (s : State) : Out :=
  match copyExpires s cluster chan i with
  | some (m, d) => match s.launch? m.launch with
    | some l =>
      let s := { s with faults := s.faults.filter fun f => !(m.openFault.any fun t => t.1 == f.token) }
      .next (failCopy s cluster chan l m d)
    | none => .next s
  | none => .next s

/-- End every unfinished command that satisfies a test, with a DETAIL (14 R368, 12 R333 R334). -/
def endCopies (s : State) (q : CopyCmd → Bool) (detail : Nat) : State :=
  let all := s.clusters.flatMap fun c => c.chans.zipIdx.flatMap fun h => (h.1.cmds.filter fun m => q m && m.stage != .held).map fun m => (c.id, h.2, m)
  all.foldl (fun s t => match s.launch? t.2.2.launch with
    | some l =>
      let m := t.2.2
      let s := { s with faults := s.faults.filter fun f => !(m.openFault.any fun x => x.1 == f.token) }
      let reach := match enginePa s l m.record wAcc with
        | .ok _ => true
        | .error _ => false
      -- nobody serves a record's page for a launch that is being ended, and it does not wait at a claim
      if m.final.isNone then failCopy s t.1 t.2.1 l (if reach then m else { m with record := 0#64 }) detail
      else if reach && (recordWaits s l m).isEmpty then s
      else mapCmd s t.1 t.2.1 m.id fun x => { x with record := 0#64, openFault := none, queued := none }
    | none => s) s

end Sys2Proof.Machine
end

