-- ==== Sys2Proof/Machine/Engines.lean ====
section
/-! DEFINITION. The Thresher, sequencer commands, active messages and handler warps (07 R211 to R216, 12 R323 R324). -/

namespace Sys2Proof.Machine

/-! Sequencer commands (R211). -/

/-- The outcome of a meaning that runs inside another happening. -/
def outOf (s : State) (r : Op) : Out :=
  match r with
  | .ok t => .next t
  | .error (.fault code addr lanes acc) => .next (deliver s code addr lanes acc)

  | .error (.stall k c) => .next (stallWarp s false k c)
  | .error (.stallAt t k c) => .next (stallWarp t false k c)
  | .error (.stallSide ps ls k c) => .next (stallWarp { s with probes := ps, fabric := { s.fabric with lost := ls } } false k c)
  | .error (.fail cause abort) => .next (failAt s s.depth cause 0 abort)
  | .error (.failIn t cause) => .next (failAt t t.depth cause 0 0)

def execMseqRun (w : Nat) (w0 w1 : Word) (s : State) : Out :=
  match s.warp? w with
  | some x => if x.holds = 0#32 then .next s else let t := s.focus w; outOf t (mseqRunOp t w0 w1)
  | none => .next s

/-! The Thresher (R212 to R214). -/

def mapThr (s : State) (die : Nat) (f : Thresher → Thresher) : State := s.mapDie die fun d => { d with thr := f d.thr }
def mapThrCmd (s : State) (die id : Nat) (f : ThrCmd → ThrCmd) : State :=
  mapThr s die fun t => { t with cmds := updWhere (fun x => x.id == id) f t.cmds }
/-- Lines out of reach: the command waits for a route, and 100 microseconds after its request takes bad data, as in a machine check
(15 R388). -/
def thrFar (s : State) (die : Nat) (m : ThrCmd) (lines : List Nat) : Option CopyNext :=
  if routed s lines then
    if m.farSince.isNone then none else some (.go (mapThrCmd s die m.id fun x => { x with farSince := none }))
  else match m.farSince with
    | none => some (.go (mapThrCmd s die m.id fun x => { x with farSince := some s.now }))
    | some t =>
      if s.now < t + 100000 then some .wait
      else some (.go (mapThrCmd s die m.id fun x => { x with lost := true, farSince := none }))
/-- The way of the Thresher to lines is free for a cohort's command: none, or what it does first. -/
def engineWay (s : State) (die cid : Nat) (m : ThrCmd) (reads writes : List Nat) : Option CopyNext :=
  ((thrFar s die m (reads ++ writes)).orElse fun _ => askNext s ((reads.map fun n => (n, false)) ++ writes.map fun n => (n, true))).orElse fun _ =>
    let at_ := writes.filter fun n => engineWaits s n cid false m.queued
    if at_.isEmpty then none else some (queueUp s m.queued at_ fun s q => mapThrCmd s die m.id fun x => { x with queued := q })

def binSet? (s : State) (die launch set : Nat) : Option BinSet := (s.die die).thr.sets.find? fun b => b.launch == launch && b.set == set
def mapBin (s : State) (die launch set : Nat) (f : BinSet → BinSet) : State :=
  mapThr s die fun t => { t with sets := updWhere (fun b => b.launch == launch && b.set == set) f t.sets }

def setOf (h : Word) : Nat := (h.extractLsb' 24 4).toNat
def opOf (h : Word) : Nat := (h.extractLsb' 28 4).toNat

/-- The launch's result queue holds 32 words (06 R175). -/
def resultsFull (s : State) (die launch : Nat) : Bool := decide (32 ≤ ((s.die die).thr.results.filter fun r => r.1 == launch).length)
/-- Push a result word (R214). -/
def pushResult (s : State) (die launch set status total : Nat) : State :=
  mapThr s die fun t => { t with results := t.results ++
    [(launch, BitVec.ofNat 32 (set * 2 ^ 28 + status * 2 ^ 24 + min total (2 ^ 24 - 1)))] }

/-- A command that the Thresher does not perform (R212). -/
def badThr (s : State) (die launch : Nat) (ws : List Word) : Bool :=
  let h := wordAt ws 0
  let set := binSet? s die launch (setOf h)
  match opOf h with
  | 1 => set.isSome || h.extractLsb' 16 8 != 0#8 || decide ((h.extractLsb' 0 16).toNat = 0) || decide (4096 < (h.extractLsb' 0 16).toNat)
  | 2 => set.isNone || h.extractLsb' 0 24 != 0#24
  | 3 => !(set.any fun b => decide ((h.extractLsb' 0 16).toNat < b.ndest)) || (wordAt ws 1).extractLsb' 8 24 != 0#24
    || decide (1 < ((wordAt ws 1).extractLsb' 0 4).toNat) || (wordAt ws 2).extractLsb' 21 11 != 0#11
  | 4 => set.isNone || h.extractLsb' 0 24 != 0#24
  | _ => true

/-- Physical addresses of n bytes, or a fault. -/
def enginePas (s : State) (l : Launch) (va : DWord) (acc : Access) (n : Nat) : Except (Nat × DWord) (List Nat) :=
  (List.range n).mapM fun i =>
    let a := va + BitVec.ofNat 64 i
    match enginePa s l a acc with
    | .ok pa => .ok pa
    | .error k => .error (k, a)

def dropThr (s : State) (die id : Nat) : State := mapThr s die fun t => { t with cmds := t.cmds.filter fun c => c.id != id }

/-- A translation fault of the Thresher. -/
def thrFault (s : State) (die : Nat) (l : Launch) (m : ThrCmd) (kind : Nat) (va : DWord) (acc : Access) : State :=
  if kind = 7 then dropThr (violate s l 3 acc 0#64 va 0#32 0#32 0) die m.id
  else
    let t := s.nextToken
    let s := queueFault s l.part l.ctx l.num kind (kindCode kind) 3 acc (.thr die m.id) 0#64 va 0#32 0#32 0
    mapThr s die fun x => { x with cmds := updWhere (fun c => c.id == m.id) (fun c => { c with openFault := some (t, kind) }) x.cmds }

/-- COUNT: read the destination ids and add them up. -/
def countBins (s : State) (die : Nat) (l : Launch) (cid : Nat) (m : ThrCmd) : CopyNext :=
  let set := setOf (wordAt m.words 0)
  let n := (wordAt m.words 3).toNat
  if m.lost then .go (mapBin (dropThr s die m.id) die l.num set fun b => { b with bad := true })
  else match engineWay s die cid m ((walkReads s l.ctx ((List.range (2 * n)).map fun i => dwordAt m.words 1 + BitVec.ofNat 64 i)).map (·.1)) [] with
  | some r => r
  | none => match enginePas s l (dwordAt m.words 1) rAcc (2 * n) with
  | .error (k, va) => .go (thrFault s die l m k va rAcc)
  | .ok pas => match engineWay s die cid m (linesOf pas) [] with
    | some r => r
    | none =>
      let ids := (List.range n).map fun i => (engineByte s (pas.getD (2 * i) 0)).toNat + 256 * (engineByte s (pas.getD (2 * i + 1) 0)).toNat
      let s := markRaceOf s l.num ((linesOf pas).any fun n => claimedAgainst s n cid)
      let s := engineReads s l.num m.warp pas false
      .go (mapBin (dropThr s die m.id) die l.num set fun b =>
        { b with counts := ids.foldl (fun c i => c.modify i (· + 1)) b.counts
                 overflow := b.overflow + (ids.filter fun i => decide (b.ndest ≤ i)).length
                 total := b.total + n })

/-- The value of a patch (R214). -/
def bindValue (count : Nat) (b : Bind) : Int := ((((count * b.mult : Nat) : Int) + b.bias.toInt) >>> b.shift)

/-- The held copy command of a key: cluster, channel, command. -/
def heldCopy (s : State) (die launch key : Nat) : Option (Nat × Nat × CopyCmd) :=
  (s.clusters.filter fun c => c.id / 12 == die).findSome? fun c => c.chans.zipIdx.findSome? fun h =>
    (h.1.cmds.find? fun m => m.launch == launch && m.stage == .held && m.key == some key).map fun m => (c.id, h.2, m)
/-- The held sequencer run of a key: core, run. -/
def heldRun (s : State) (die launch key : Nat) : Option (Nat × TileOp) :=
  (s.allCores.filter fun k => dieOf k.id == die).findSome? fun k =>
    (k.seq.find? fun o => o.launch == launch && o.hold == some key).map fun o => (k.id, o)

def mapRun (s : State) (core id : Nat) (f : TileOp → TileOp) : State :=
  s.mapCore core fun k => { k with seq := updWhere (fun o => o.id == id) f k.seq }

/-- A discarded run retires with its C tile unchanged (R211). -/
def discardRun (o : TileOp) : TileOp :=
  { o with hold := none, work := match o.work with
      | .mm dst old _ _ d => .mm dst old true [] d
      | x => x }

/-- The steps of a run whose STEPS are patched; none when one of them names no tile. -/
def patchedSteps (o : TileOp) (n : Nat) : Option (List (Nat × Nat)) := (List.range n).mapM fun i => (o.pattern[i % 32]?).join

/-- Apply one BIND: the state, and whether it failed. -/
def applyBind (s : State) (die : Nat) (b : BinSet) (x : Bind) : State × Bool :=
  let v := bindValue (b.counts.getD x.dest 0) x
  match heldCopy s die b.launch x.key, heldRun s die b.launch x.key with
  | some (cl, ch, m), _ =>
    if x.field ≠ 0 then (s, true)
    else if v < 0 ∨ 2 ^ 32 ≤ v ∨ m.dims.length < x.dim then
      (s.setChan cl ch fun c => { c with cmds := c.cmds.filter fun y => y.id != m.id }, true)
    else (mapCmd s cl ch m.id fun m => if x.dim = 0 then { m with count0 := v.toNat }
        else { m with dims := m.dims.modify (x.dim - 1) fun d => { d with count := v.toNat } }, false)
  | none, some (k, o) =>
    if x.field ≠ 1 ∨ x.dim ≠ 0 then (s, true)
    else match (if v < 0 ∨ 2 ^ 16 ≤ v then none else patchedSteps o v.toNat) with
    | none => (mapRun s k o.id discardRun, true)
    | some steps => (mapRun s k o.id fun o => { o with work := match o.work with
        | .mm dst old acc _ d => .mm dst old acc steps d
        | w => w }, false)
  | none, none => (s, true)

/-- Release the held command of a key: a copy is accepted, a run joins the order. -/
def releaseKey (s : State) (die launch key : Nat) : State :=
  match heldCopy s die launch key, heldRun s die launch key with
  | some (cl, ch, m), _ => acceptCopy (s.setChan cl ch fun c => { c with cmds := c.cmds.filter fun y => y.id != m.id }) cl ch m
  | none, some (k, o) => mapRun s k o.id fun o => { o with hold := none }
  | none, none => s

/-- The command of a key is saved with its context. -/
def keyAway (s : State) (die launch key : Nat) : Bool :=
  keyInUse s die launch key && (heldCopy s die launch key).isNone && (heldRun s die launch key).isNone
/-- CLOSE (R214): it waits for commands that are saved, and for room for its result word. -/
def closeBins (s : State) (die : Nat) (l : Launch) (cid : Nat) (m : ThrCmd) : CopyNext :=
  let set := setOf (wordAt m.words 0)
  match binSet? s die l.num set with
  | none => .go (dropThr s die m.id)
  | some b =>
    if resultsFull s die l.num || b.binds.any (fun x => keyAway s die l.num x.key) then .wait
    else
    let fin := fun (s : State) (bad : Bool) =>
      let r := b.binds.foldl (fun t x => let u := applyBind t.1 die b x; (u.1, t.2 || u.2)) (s, false)
      let s := (b.binds.map (·.key)).dedup.foldl (fun s k => releaseKey s die l.num k) r.1
      let status := if bad then 3 else if r.2 then 2 else if b.overflow ≠ 0 then 1 else 0
      let s := pushResult (dropThr s die m.id) die l.num set status b.total
      mapThr s die fun t => { t with sets := t.sets.erase b }
    if m.lost then .go (fin s true)
    else match engineWay s die cid m ((walkReads s l.ctx ((List.range (4 * b.ndest)).map fun i => b.addr + BitVec.ofNat 64 i)).map (·.1)) [] with
    | some r => r
    | none => match enginePas s l b.addr wAcc (4 * b.ndest) with
    | .error (k, va) => .go (thrFault s die l m k va wAcc)
    | .ok pas => match engineWay s die cid m [] (linesOf pas) with
      | some r => r
      | none =>
        let bytes := b.counts.flatMap fun c => leBytes 4 c
        let s := (linesOf pas).foldl (fun s n =>
          checkLine s l.num (b.addr + BitVec.ofNat 64 ((pas.findIdx? fun a => a / 128 == n).getD 0)) n) s
        let s := engineWrites (homeWrite s (engineBytes s (pas.zip bytes))) l.num m.warp pas false
        let s := markRaceOf s l.num (pas.any (inConv s) || contQueueOf s l.ctx b.addr
          || contQueueOf s l.ctx (b.addr + BitVec.ofNat 64 (4 * b.ndest - 1)))
        .go (fin s b.bad)

/-- COUNT and BIND leave the order among themselves open; OPEN and CLOSE do not. -/
def thrAdds (ws : List Word) : Bool := opOf (wordAt ws 0) == 2 || opOf (wordAt ws 0) == 3
/-- An earlier command of the same set, taken and not performed, comes first (R214). -/
def thrBehind (s : State) (die : Nat) (m : ThrCmd) : Bool :=
  (s.die die).thr.cmds.any fun x => x.launch == m.launch && setOf (wordAt x.words 0) == setOf (wordAt m.words 0) && decide (x.id < m.id)
    && !(thrAdds x.words && thrAdds m.words)
/-- Perform a command that the Thresher has taken. -/
def performThr (s : State) (die : Nat) (m : ThrCmd) : CopyNext :=
  let cid := ((s.anyWarp m.warp).map (·.cid)).getD 0
  match s.launch? m.launch with
  | none => .go (dropThr s die m.id)
  | some l =>
    let h := wordAt m.words 0
    if thrBehind s die m then .wait
    else if badThr s die l.num m.words then
      if resultsFull s die l.num then .wait else .go (pushResult (dropThr s die m.id) die l.num (setOf h) 3 0)
    else match opOf h with
    | 1 =>
      let n := (h.extractLsb' 0 16).toNat
      .go (mapThr (dropThr s die m.id) die fun t => { t with sets := t.sets ++
        [{ launch := l.num, set := setOf h, ndest := n, addr := dwordAt m.words 1, counts := List.replicate n 0 }] })
    | 2 => countBins s die l cid m
    | 3 => .go (mapBin (dropThr s die m.id) die l.num (setOf h) fun b => { b with binds := b.binds ++
        [{ key := (h.extractLsb' 16 8).toNat, dest := (h.extractLsb' 0 16).toNat, dim := ((wordAt m.words 1).extractLsb' 4 4).toNat
           field := ((wordAt m.words 1).extractLsb' 0 4).toNat, mult := ((wordAt m.words 2).extractLsb' 0 16).toNat
           shift := ((wordAt m.words 2).extractLsb' 16 5).toNat, bias := wordAt m.words 3 }] })
    | _ => closeBins s die l cid m

/-- The kind of event of a command: 1 OPEN, 2 COUNT, 3 BIND, 4 CLOSE and every reserved OP. -/
def thrKind (ws : List Word) : Nat := if opOf (wordAt ws 0) = 0 ∨ 4 < opOf (wordAt ws 0) then 4 else opOf (wordAt ws 0)

/-- The launch of a warp. -/
def launchOf (s : State) (w : Warp) : Nat := ((s.cohort? w.cid).map (·.launch)).getD 0
def launchOfId (s : State) (w : Nat) : Nat := ((s.warp? w).map (launchOf s)).getD 0
/-- The first complete command of a warp in the queue, when no complete one of the same set stands before it. -/
def thrTake (s : State) (die w : Nat) : Option (Nat × List Word) :=
  let full := (s.die die).thr.parts.filter fun p => p.2.length == thrLen (p.2.headD 0#32)
  match full.find? fun p => p.1 == w with
  | some p =>
    if (full.takeWhile (· != p)).any fun q => launchOfId s q.1 == launchOfId s w && setOf (wordAt q.2 0) == setOf (wordAt p.2 0) then none
    else some p
  | none => none
/-- The command of a kind that a warp's die takes up next: one already taken, or a complete one of the queue. -/
def thrNext (s : State) (die w op : Nat) : CopyNext :=
  let t := (s.die die).thr
  let taken := t.cmds.find? fun m => m.warp == w && thrKind m.words == op && (m.openFault.isNone || m.lost)
  match taken with
  | some m => performThr s die m
  | none => match thrTake s die w with
    | none => .wait
    | some p =>
      if thrKind p.2 ≠ op then .wait
      else
        let s := mapThr s die fun t => { t with parts := t.parts.erase p }
        .go { (mapThr s die fun t => { t with cmds := t.cmds ++ [{ id := s.nextId, warp := w, launch := launchOfId s w, words := p.2 }] }) with
              nextId := s.nextId + 1 }

def thrEvent (op die w : Nat) (s : State) : Out :=
  match thrNext s die w op with
  | .wait => .next s
  | .go t => .next t
def execThresherOpen (die w : Nat) (s : State) : Out := thrEvent 1 die w s
def execThresherCount (die w : Nat) (s : State) : Out := thrEvent 2 die w s
def execThresherBind (die w : Nat) (s : State) : Out := thrEvent 3 die w s
def execThresherClose (die w : Nat) (s : State) : Out := thrEvent 4 die w s

/-! Places for warps (12 R323). -/

/-- Live fibres of a slot. -/
def fibresAt (s : State) (core quarter slot : Nat) : List Warp :=
  s.allWarps.filter fun w => w.core == core && w.quarter == quarter && w.slot == slot && w.holds != 0#32

/-- The slot with the fewest fibres, lowest first, that takes fibres of the launch. -/
def freeSlot (s : State) (core quarter launch : Nat) : Option Nat :=
  let ok := (List.range 8).filter fun t => let fs := fibresAt s core quarter t
    decide (fs.length < 4) && fs.all fun w => launchOf s w == launch
  (List.range 4).findSome? fun n => ok.find? fun t => (fibresAt s core quarter t).length == n

def freeFibre (s : State) (core quarter slot : Nat) : Nat :=
  (((List.range 4).filter fun f => !((fibresAt s core quarter slot).any fun w => w.fibre == f)).head?).getD 0

/-- Free registers of a quarter's pool (01 R16). -/
def poolFree (s : State) (core quarter : Nat) : Nat := 992 - reservedIn s core quarter - pinsIn s core quarter

/-- A place for warp index w of a launch on a core: quarter, slot, fibre. -/
def placeFor (s : State) (l : Launch) (core lidx : Nat) : Option (Nat × Nat × Nat) :=
  let q := lidx % 4
  if l.quota ≤ poolFree s core q then (freeSlot s core q l.num).map fun t => (q, t, freeFibre s core q t) else none

/-- A warp at its start (R324). -/
def freshWarp (l : Launch) (id cid core : Nat) (at_ : Nat × Nat × Nat) (lidx : Nat) (wid : DWord) (pc : Word) : Warp :=
  { id := id, cid := cid, core := core, quarter := at_.1, slot := at_.2.1, fibre := at_.2.2, lidx := lidx, resident := true
    wid := (List.range 32).map fun n => wid + BitVec.ofNat 64 n
    holds := 0xFFFFFFFF#32, quota := l.quota, hostSeen := l.hostAt
    fpmode := l.fpctl.extractLsb' 0 4, trapen := l.fpctl.extractLsb' 4 4
    front := [{ pc := pc, mask := 0xFFFFFFFF#32, src := pc }] }

/-- A slot record exists for the warp's place. -/
def ensureSlot (s : State) (w : Warp) : State :=
  if s.allSlots.any fun t => sameSlot w t then s
  else { s with slots := { core := w.core, quarter := w.quarter, slot := w.slot } :: s.slots }

/-- Place a new warp on its core: the core's clock follows what precedes the new work (10 R279), and L1 copies older than the host writes
that stand before it serve it no more (10 R284). -/
def addWarp (s : State) (w : Warp) : State :=
  let s := ensureSlot s w
  { (s.mapCore w.core fun k => { k with pts := max k.pts s.clock, l1 := k.l1.filter fun x => decide (w.hostSeen ≤ x.host) }) with
    warps := s.warps ++ [w] }

/-! Active messages (R216). -/

/-- The message has a handler that can run. -/
def amOk (m : AmMsg) : Bool := decide (m.handler.toNat % 4 = 0) && decide (m.count.toNat ≤ 28)

def dropAm (s : State) (launch n : Nat) : State := s.mapLaunch launch fun l => { l with amDrop := l.amDrop + n }

/-- Two messages that a core has sent belong to one flow: they go to one cohort, or to cohorts of one core (15 R380). -/
def amFlow (s : State) (x m : AmMsg) : Bool :=
  let at_ := fun y : AmMsg => (cohortAt s y.launch y.target.toNat).map (·.core)
  (x.launch == m.launch && x.target == m.target) || ((at_ m).isSome && at_ x == at_ m)
/-- Message i of a core may arrive: no earlier one of its flow is on its way. -/
def amMoves (s : State) (core i : Nat) : Option AmMsg :=
  let ms := (s.coreOf core).am
  match ms[i]? with
  | some m => if m.arrived || (ms.take i).any fun x => amFlow s x m && !x.arrived then none else some m
  | none => none

def execAmArrive (core i : Nat) (s : State) : Out :=
  match amMoves s core i with
  | none => .next s
  | some m =>
    let gone := !amOk m || (s.launch? m.launch).all fun l => l.doneIdx.contains m.target.toNat
    .next (if gone then dropAm (s.mapCore core fun k => { k with am := k.am.eraseIdx i }) m.launch 1
           else s.mapCore core fun k => { k with am := k.am.modify i fun x => { x with arrived := true } })

/-- The first message that waits for a cohort: core, place, message. -/
def amWaiting (s : State) (c : Cohort) : Option (Nat × Nat × AmMsg) :=
  s.allCores.findSome? fun k => (k.am.zipIdx.find? fun m => m.1.arrived && m.1.launch == c.launch && m.1.target.toNat == c.index).map
    fun m => (k.id, m.2, m.1)

/-- The lowest free index for a handler warp. -/
def handlerIndex (s : State) (l : Launch) (c : Cohort) : Option Nat :=
  let live := s.everyWarp c.id
  if 64 ≤ live.length then none
  else ((List.range (min 64 (2 ^ l.f1 - l.warps))).map (· + l.warps)).find? fun w => !(live.any fun v => v.handler && v.lidx == w)

/-- A handler warp can start: index, place, core and place of its message, the message. -/
def spawnReady (s : State) (cid : Nat) : Option (Nat × (Nat × Nat × Nat) × Nat × Nat × AmMsg) :=
  match s.cohort? cid with
  | none => none
  | some c =>
    if !c.resident || c.done.isSome then none
    else match s.launch? c.launch, amWaiting s c with
    | some l, some (k, i, m) =>
      if l.stopAll then none
      else (handlerIndex s l c).bind fun w => (placeFor s l c.core w).map fun p => (w, p, k, i, m)
    | _, _ => none

def execHandlerWarpSpawn (c : Nat) (s : State) : Out :=
  match spawnReady s c, s.cohort? c with
  | some (lidx, p, k, i, m), some x =>
    let l := (s.launch? x.launch).getD {}
    let s := s.mapCore k fun k => { k with am := k.am.eraseIdx i }
    let w := freshWarp l s.nextId c x.core p lidx (x.record.widBase + BitVec.ofNat 64 (32 * lidx)) m.handler
    let sender : DWord := BitVec.ofNat 64 m.sender
    let n := m.count.toNat
    let w := { w with
      handler := true
      regs := [(0, lanesOf fun j => if j < n then m.payload.getD j 0#32 else 0#32)]
      sregs := [sender.extractLsb' 0 32, sender.extractLsb' 32 32, m.count] ++ List.replicate 13 0#32 }
    .next (addWarp { s with nextId := s.nextId + 1 } w)
  | _, _ => .next s

end Sys2Proof.Machine
end

