-- ==== Sys2Proof/Machine/Issue.lean ====
section
/-! DEFINITION. Which warp each quarter's port takes next (04 R121, 12 R330 R335, 13 R342, 14 R367, 16 R400 R402). -/

namespace Sys2Proof.Machine

def State.slotOf (s : State) (w : Warp) : Slot :=
  (s.allSlots.find? (sameSlot w)).getD { core := w.core, quarter := w.quarter, slot := w.slot }

/-- An armed breakpoint of a claimer stands on the group and selects a live thread of the issuing entry (16 R402):
the partition's window, port and breakpoint. -/
def breakAt (s : State) (l : Launch) (w : Warp) (e : Entry) : Option (Nat × Nat × Nat) :=
  if l.claimer.isNone then none
  else
    (s.windows.filter fun x => x.part == l.part).findSome? fun x =>
      x.ports.zipIdx.findSome? fun p =>
        if p.1.plaunch.toNat = launchNo l.num then
          (p.1.bps.zipIdx.find? fun b => b.1.armed && b.1.pc == e.pc && w.bpSkip != some (p.2, b.2, e.pc)
            && (e.mask &&& w.holds).lanes.any fun n => w.wid.getD n 0#64 &&& b.1.mask == b.1.val).map fun b => (x.part, p.2, b.2)
        else none

/-- The timer trap is due at the boundary where the warp stands (01 R31, 14 R367); an instruction that a wait has left half done
completes first. -/
def timerDue (l : Launch) (w : Warp) : Bool :=
  w.timerPend && w.trapen.getLsbD 0 && l.handlerPc != 0#32 && !w.trapMode && w.trapWait.isNone && w.keep == .none

/-- The fibre keeps its slot only while it is resident and neither stopped, frozen, halted nor waiting for the shadows (13 R342). -/
def holdsSlot (w : Warp) : Bool :=
  w.holds != 0#32 && !(w.stopped && !w.trapMode) && w.frozen.isNone && !w.halted && w.trapWait.isNone

/-- An armed breakpoint stands on the group that a warp would issue: port, breakpoint, PC. -/
def breaksNow (s : State) (w : Nat) : Option (Nat × Nat × Word) :=
  match s.warp? w with
  | none => none
  | some x =>
    if !holdsSlot x || x.stall.isSome || x.haltReq then none
    else match (s.cohort? x.cid).bind fun c => s.launch? c.launch with
    | none => none
    | some l => (topEntry l (x.front.filter fun e => !e.parked && atHome l x (s.coreOf x.core).pin e.pc)).bind fun e =>
        (breakAt s l x e).map fun b => (b.2.1, b.2.2, e.pc)

/-- The context is being saved from the core (14 R370 step 1). -/
def preempted (s : State) (ctx core : Nat) : Bool := (s.ctx? ctx).any fun c => c.preempt.contains core

/-- A warp has an instruction ready. -/
def readyWarp (s : State) (w : Warp) : Bool :=
  holdsSlot w && w.stall.isNone && !w.haltReq
    && (match s.cohort? w.cid with
        | none => false
        | some c => (w.handler || c.failing.isNone) && c.done.isNone
          && (match s.launch? c.launch with
              | none => false
              | some l => !l.stopAll && !preempted s l.ctx w.core && !timerDue l w
                && (match topEntry l (w.front.filter fun e => !e.parked && atHome l w (s.coreOf w.core).pin e.pc) with
                    | none => false
                    | some e => (breakAt s l w e).isNone)))

/-- The warp that runs in a deterministic cohort; any warp of other cohorts (12 R335). -/
def mayRun (s : State) (w : Warp) : Bool :=
  match s.cohort? w.cid with
  | none => false
  | some c => match s.launch? c.launch with
    | none => false
    | some l =>
      if !l.det then true
      else
        let ws := s.allWarps.filter fun v => v.cid == w.cid
        let run := ws.find? fun v => v.lidx == c.running && v.holds != 0#32
        if c.passing || run.isNone then
          -- the ready warp with the least index above the running one's, wrapping round
          let ready := ws.filter (readyWarp s)
          let key := fun v : Warp => (v.lidx + 4096 - (c.running + 1)) % 4096
          readyWarp s w && ready.all fun v => decide (key w ≤ key v)
        else w.lidx == c.running

/-- A deterministic cohort has passed issue on from the warp (12 R335): the warp keeps no slot from its siblings. -/
def passedOn (s : State) (w : Warp) : Bool :=
  match s.cohort? w.cid with
  | some c => (s.launch? c.launch).any fun l => l.det && (c.passing || w.lidx != c.running)
  | none => false

/-- The fibre that a slot offers. -/
def slotPick (s : State) (core quarter slot : Nat) : Option Warp :=
  let fs := s.allWarps.filter fun w => w.core == core && w.quarter == quarter && w.slot == slot && w.holds != 0#32
  let t := (s.allSlots.find? fun t => t.core == core && t.quarter == quarter && t.slot == slot).getD {}
  let ok := fun w => readyWarp s w && mayRun s w
  match fs.find? fun w => w.fibre == t.cur with
  | some w =>
    if !t.passing && holdsSlot w && !passedOn s w then (if ok w then some w else none)
    else [1, 2, 3, 4].findSome? fun d => fs.find? fun v => v.fibre == (t.cur + d) % 4 && ok v
  | none => [1, 2, 3, 4].findSome? fun d => fs.find? fun v => v.fibre == (t.cur + d) % 4 && ok v

/-- The warp that a quarter's port takes: the first slot, after the one that issued last, whose fibre is ready (R330). -/
def portPick (s : State) (core quarter : Nat) : Option Nat :=
  let rr := (s.coreOf core).rr.getD quarter 0
  ((List.range 8).findSome? fun d => slotPick s core quarter ((rr + 1 + d) % 8)).map (·.id)

/-- One candidate for each quarter that holds warps. -/
def issuers (s : State) : List Nat :=
  ((s.allWarps.map fun w => (w.core, w.quarter)).dedup).filterMap fun q => portPick s q.1 q.2

/-- What an issue that has not stalled leaves with its warp: the cycles that it took; no breakpoint is passed over any more; a single
step ends, however the group has ended (16 R399 R402 R406). -/
def Warp.afterIssue (from_ till : Nat) (w : Warp) : Warp :=
  if w.stall.isSome then w
  else { w with issuedIn := (from_, till), bpSkip := none, haltReq := w.haltReq || w.stepping
                haltWhy := if w.stepping then (4, 0) else w.haltWhy, stepping := false }
/-- The state after the issue of a warp that stood in focus before. -/
def issueEnds (s t : State) : State :=
  t.mapWarps (fun w => w.id == s.w.id) (Warp.afterIssue s.cyc (s.cyc + 1 + Config.dwell s.stepNo))

/-- The issue of a warp: it comes into focus, the slot and the port note it, a deterministic cohort runs it. -/
def State.issueTo (s : State) (w : Nat) : State :=
  let s := s.focus w
  { s with sl := { s.sl with cur := s.w.fibre, passing := false }
           k := { s.k with rr := s.k.rr.set s.w.quarter s.w.slot }
           c := if s.l.det then { s.c with running := s.w.lidx, passing := false } else s.c }

end Sys2Proof.Machine
end

