-- ==== Sys2Proof/Machine/Waits.lean ====
section
/-! DEFINITION. How waits end: re-issue after a stall, timers, traps that wait for the shadows, WAITA and SLEEPU
(01 R24 R31, 04 R120, 06 R173 R174, 14 R367). -/

namespace Sys2Proof.Machine

/-- A continuation queue's header is not at hand: the push itself asks for its page. -/
def contMiss (s : State) : QKind → Bool
  | .cont n => (match devRead s (contBase s n) 8 with
    | .ok _ => false
    | .error _ => true)
  | _ => false

/-- The condition of a stall of the warp in focus has cleared. -/
def condCleared (s : State) : Cond → Bool
  | .never => false
  | .tiles ops => !(s.k.seq.any fun o => ops.contains o.id)
  | .queue k push n => contMiss s k || (!earlierWaiter s k push && decide (n ≤ if push then qRoom s k else qAvail s k))
  | .xlate va acc _ _ _ => (transl s va acc).isSome
  | .noHeld => !(s.held.any fun h => h.warp == s.w.id)
  | .delivered rs => !(awaited s).any rs.contains
  | .unclaimed line => !mustWait s line
  | .agents line wr => (agentsAgainst s line wr).isEmpty
  | .unstashed line => !((stashOwner s line).any fun c => c != s.c.id)
  | .route pkg => s.fabric.routes.getD pkg 0 != 0
  | .quota k => decide (k ≤ freePool s) && !earlierGrow s
  | .bar name phase => decide (phase < (s.bar name).phase)
  | .fbar mask phase => decide (phase < (s.fbar mask).phase)
  | .hand n => (s.c.hand.any fun h => h.1 == n) || !liveIndex s (n / 65536)
  | .alloc kind g => allocRoom s (kindOfNo kind) g && !earlierAlloc s
  | .seqRoom => decide (s.k.seq.length < 32)
  | .handRoom => decide (handUsed s < 32)
  | .outbound n => decide (outUsed s + n ≤ 64)
  | .settled => !unsettled s
  | .opens => false
  | .status => false
  | .soon => true
  | .reserve n => decide (s.k.reserve.getD s.w.quarter 0 + n ≤ 32)

/-- The wait of a warp ends: its instruction issues again when its turn comes. -/
def unstall (s : State) (w : Nat) : State :=
  let s := s.mapWarps (fun x => x.id == w) fun x => { x with stall := none }
  { s with fabric := { s.fabric with lost := s.fabric.lost.filter fun t => t.1 != w } }

/-- A test in the focus of a live warp. -/
def liveTest (s : State) (w : Nat) (q : State → Bool) : Bool :=
  match s.warp? w with
  | some x => x.holds != 0#32 && q (s.focus w)
  | none => false

def mayReissue (s : State) (w : Nat) : Bool :=
  liveTest s w fun t => match t.w.stall with
    | some x => condCleared t x.cond
    | none => false

/-- In a deterministic cohort a wait that has cleared counts at once when issue passes on, so that the warp which the index order names
runs next (12 R335 R408). -/
def passesAtOnce (s : State) (w : Warp) : Bool :=
  ((s.cohort? w.cid).bind fun c => s.launch? c.launch).any (·.det) && mayReissue s w.id

def execStallReissue (w : Nat) (s : State) : Out := .next (if mayReissue s w then unstall s w else s)

/-! Timers (01 R31). -/

def timerFires (s : State) (w : Warp) : Bool := w.holds != 0#32 && w.timerEn && !w.timerPend && decide (w.timerCmp.toNat ≤ s.now)

/-- PEND is set; a one-shot timer's EN clears, which an open level logs (01 R31, 08 R222). -/
def fireTimer (s : State) : State :=
  let t := { s with w := { s.w with timerPend := true } }
  if !s.w.timerOne then t
  else match logEntry t (.csr s.w.id 0x014 (csrOld s.w 0x014)) with
    | .ok u => { u with w := { u.w with timerEn := false } }
    | .error _ => failAt t t.depth 4 0 0
def execTimerFire (w : Nat) (s : State) : Out :=
  .next (if (s.warp? w).any (timerFires s) then fireTimer (s.focus w) else s)

/-- The warp stands at an instruction boundary at which its timer trap enters (14 R367). -/
def timerEnters (s : State) (w : Nat) : Bool :=
  liveTest s w fun t => timerDue t.l t.w && holdsSlot t.w && t.w.stall.isNone && t.w.keep == .none && t.c.done.isNone
    && (t.w.handler || t.c.failing.isNone) && !t.w.haltReq && (breaksNow t w).isNone

def timerTrap (s : State) : State :=
  let e := trapped s ⟨2, 0, 0#32, 0#32, 0#64, s.w.holds⟩
  trapEnter s ⟨2, 0, e.pc, e.pc, 0#64, e.mask⟩

def execTimerTrapEntry (w : Nat) (s : State) : Out := .next (if timerEnters s w then timerTrap (s.focus w) else s)

/-- The shadows of the slot are free for a trap that waits (01 R24); a halt takes effect before it (16 R400). -/
def shadowFree (s : State) (w : Nat) : Bool :=
  liveTest s w fun t => t.w.trapWait.isSome && t.sl.holder.isNone && t.c.done.isNone && !t.w.halted && !t.w.haltReq

def shadowEnter (s : State) : State :=
  match s.w.trapWait with
  | some t => trapNow s t (trapped s t)
  | none => s

def execShadowWaitTrapEntry (w : Nat) (s : State) : Out := .next (if shadowFree s w then shadowEnter (s.focus w) else s)

/-! WAITA and SLEEPU. -/

/-- A WAITA that waits, with its start, its latest check and its watched lines. -/
def waitaOf (w : Warp) : Option (Nat × Nat × List (Nat × Nat)) :=
  match w.stall, w.keep with
  | some ⟨.wait, _⟩, .waita st last watch => if w.holds = 0#32 then none else some (st, last, watch)
  | _, _ => none

def waitaRechecks (s : State) (w : Warp) : Bool :=
  match waitaOf w with
  | some (_, last, watch) => decide (last + 1000 ≤ s.now) || watch.any fun t => lineStamp s t.1 != t.2
  | none => false
def waitaExpires (s : State) (w : Warp) : Bool :=
  match waitaOf w with
  | some (st, _, _) => decide (st + w.waitlim.toNat ≤ s.now)
  | none => false

def sleepOf (w : Warp) : Option Nat :=
  match w.stall, w.keep with
  | some ⟨.wait, _⟩, .sleep _ d => if w.holds = 0#32 then none else some d
  | _, _ => none
def sleepEnds (s : State) (w : Warp) : Bool := (sleepOf w).any fun d => decide (d ≤ s.now)
def sleepWakes (s : State) (w : Warp) : Bool := (sleepOf w).isSome && liveTest s w.id wakeWord

/-- The wait of a warp ends when it satisfies a test. -/
def unstallIf (q : Warp → Bool) (w : Nat) (s : State) : Out :=
  .next (match s.warp? w with
    | some x => if q x then unstall s w else s
    | none => s)

def execWaitaRecheck (w : Nat) (s : State) : Out := unstallIf (waitaRechecks s) w s
def execWaitaTimeout (w : Nat) (s : State) : Out := unstallIf (waitaExpires s) w s
def execSleepuDeadline (w : Nat) (s : State) : Out := unstallIf (sleepEnds s) w s
def execSleepuCompletionWake (w : Nat) (s : State) : Out := unstallIf (sleepWakes s) w s

end Sys2Proof.Machine
end

