-- ==== Sys2Proof/Machine/Faults.lean ====
section
/-! DEFINITION. Page walks, fault replies, machine checks, security violations and the kill of a context (14 R363 to R368). -/

namespace Sys2Proof.Machine

def execIllegalInstruction (s : State) : Out := run Px.empty s (raise fcIllegal)

/-! Stopping cohorts. -/

/-- A member that stops leaves its conversation: the home hears of a failure and of a member without an alternate. -/
def leaveConv (s : State) : State :=
  match s.c.conv with
  | some v =>
    let fail := if v.own.isNone && v.voted != some false && !v.rolled then [ConvMsg.fail s.c.id v.pa v.member] else []
    let fin := if v.rolled then [] else [ConvMsg.done s.c.id v.pa v.member false]
    { s with convMsgs := s.convMsgs ++ fail ++ fin, c := { s.c with conv := none } }
  | none => s

/-- Steps 1 and 2 of 12 R333 for the cohort in focus: every warp stops, every open level rolls back with cause 2. -/
def rollAll (s : State) : State :=
  let s := endCopies s (fun m => m.cid == s.c.id && m.dstSh) 4
  let s := leaveConv (eachWarp s stopForFailure)
  let s := if s.c.levels.isEmpty then s else undoLevels s ⟨1, 2, 0, 0⟩
  releaseClaims { s with c := { s.c with levels := [], failing := none } }

/-- The code of the outermost open level, or 0 (12 R333). -/
def outerCode (c : Cohort) : Nat := (c.levels.getLast?.map (·.code)).getD 0

/-- The cohort ends over its budget (R333). -/
def overBudget (s : State) : State :=
  let code := outerCode s.c
  let s := noteFail (rollAll s) code
  endCohort (eachWarp s fun s => { s with w := { s.w with rbcode := BitVec.ofNat 16 code } }) .overBudget

/-- Cohorts of launches that satisfy a test. -/
def cohortsOf (s : State) (q : Cohort → Bool) : List Nat := (s.allCohorts.filter fun c => c.resident && c.done.isNone && q c).map (·.id)

/-- A cohort stops where it stands: no level rolls back or commits, its claims go, its lines keep their values (09 R262, R368). -/
def killCohort (s : State) : State :=
  let s := eachWarp s stopForFailure
  let cid := s.c.id
  let homes := s.convs.map fun v => { v with members := v.members.filter fun m => m.1 != cid }
  let s := releaseClaims { s with c := { s.c with levels := [], failing := none, conv := none, headers := [] }
                                  held := s.held.filter fun h => h.cid != cid, convs := homes }
  let s := { s with k := { s.k with seq := s.k.seq.filter fun o => o.cid != cid || o.hold.isSome } }
  endCohort s .stopped
/-- What a saved unit keeps when launches are gone from it. -/
def Saved.without (v : Saved) (gone : Nat → Bool) : Saved :=
  let ids := (v.cohorts.filter fun c => gone c.launch).map (·.id)
  let ws := v.warps.filter fun w => !ids.contains w.cid
  let stays := fun n : Nat => ws.any fun w => w.id == n
  { v with
    warps := ws, slots := v.slots.filter fun t => ws.any fun w => sameSlot w t
    cohorts := v.cohorts.filter fun c => !ids.contains c.id, tiles := v.tiles.filter fun t => !gone t.launch
    seq := v.seq.filter fun o => !gone o.launch, mseqParts := v.mseqParts.filter fun p => stays p.1
    sheaf := v.sheaf.filter fun x => !gone x.launch, arrived := v.arrived.filter fun r => !gone r.launch
    allocs := v.allocs.filter fun a => !ids.contains a.1, short := v.short.filter fun x => !ids.contains x.2.1
    copyParts := v.copyParts.filter fun p => stays p.2.1, thrParts := v.thrParts.filter fun p => stays p.1
    doneWords := v.doneWords.map fun t => (t.1, t.2.filter fun x => !ids.contains x.1)
    heldCmds := v.heldCmds.filter fun t => !gone t.2.launch, sets := v.sets.filter fun b => !gone b.launch
    results := v.results.filter fun r => !gone r.1, pin := v.pin.filter fun t => !gone t.1
    moor := v.moor.filter fun c => !gone c.launch, outb := v.outb.filter fun c => !gone c.launch }
/-- The cohorts of a launch that are saved with its context stop too. -/
def dropSaved (s : State) (num : Nat) : State :=
  let ids := (s.ctxs.flatMap fun x => x.saved.flatMap fun v => v.cohorts.filter fun c => c.launch == num).map (·.id)
  let keep := fun x : Ctx => { x with saved := (x.saved.map fun v => v.without (· == num)).filter fun v =>
    !v.cohorts.isEmpty || v.pin.isSome }
  { s with ctxs := s.ctxs.map keep
           held := s.held.filter fun h => !ids.contains h.cid, claims := s.claims.filter fun x => !ids.contains x.cid
           convs := s.convs.map fun v => { v with members := v.members.filter fun m => !ids.contains m.1 } }
/-- Every cohort of a launch stops with its running copies into shared memory, and nothing more of it is dispatched; it ends FAILED.
The row of R368 speaks of R333 steps 1 and 2, its last paragraph and 09 R262 say that no level rolls back: log 61. -/
def failLaunch (s : State) (num detail : Nat) : State :=
  let s := s.mapLaunch num fun l => { l with stopAll := true, failing := l.failing.orElse fun _ => some detail }
  let s := endCopies s (fun m => m.launch == num && m.dstSh) 4
  dropSaved ((cohortsOf s fun c => c.launch == num).foldl (fun s c => asCohort s c killCohort) s) num

/-! Page walks (11 R288 to R291). -/

/-- The access that a waiting warp needs a page for. -/
def walkWanted (s : State) : Option (DWord × Access × List (Nat × DWord) × Nat × Nat) :=
  match s.w.stall with
  | some ⟨_, .xlate va acc lanes n source⟩ => if (transl s va acc).isNone then some (va, acc, lanes, n, source) else none
  | _ => none

/-- The addresses whose pages a walk reads: its own, and where it finds none, those of every lane (06 R158). -/
def walkVas (s : State) (va : DWord) (acc : Access) (lanes : List (Nat × DWord)) (n : Nat) : List DWord :=
  match walkOwned s s.l va acc with
  | .page _ => [va]
  | .bad _ => va :: lanes.flatMap fun t => [t.2, t.2 + BitVec.ofNat 64 (n - 1)]
/-- Agents that hold lines of the page table against the walk are asked first (R291). -/
def walkAsks (s : State) (vas : List DWord) : Option State := askFor s (walkReads s s.l.ctx vas)
/-- A line of the page table lies where no route leads (15 R388). -/
def walkFar (s : State) (vas : List DWord) : Option Nat :=
  (((walkReads s s.l.ctx vas).map (·.1)).find? fun n => !routed s [n]).map fun n => (remotePkg (128 * n)).getD 0
def walkDue (s : State) (w : Nat) : Bool :=
  liveTest s w fun t => t.w.frozen.isNone && (match walkWanted t with
    | some (va, acc, lanes, n, _) =>
      let vas := walkVas t va acc lanes n
      (walkFar t vas).isSome || (walkAsks t vas).all (asksMore t)
    | none => false)

/-- A page comes into the TLB of the core in focus, which holds 256 entries (R288). -/
def fillTlb (s : State) (e : TlbEntry) : State :=
  let tlb := if s.k.tlb.length < 256 then s.k.tlb else s.k.tlb.eraseIdx (Config.victim s.fresh % 256)
  { s with k := { s.k with tlb := tlb ++ [e] }, fresh := s.fresh + 1 }

def pageBad (s : State) (va : DWord) (acc : Access) : Bool :=
  match walkOwned s s.l va acc with
  | .page _ => false
  | .bad _ => true

/-- The lanes whose bytes have no good page, and the address of the lowest of them (06 R158). -/
def faultLanes (s : State) (va : DWord) (acc : Access) (lanes : List (Nat × DWord)) (n : Nat) : Mask × DWord :=
  let bad := lanes.filter fun t => pageBad s t.2 acc || pageBad s (t.2 + BitVec.ofNat 64 (n - 1)) acc
  match bad with
  | [] => (s.cur.mask, va)
  | t :: _ => (maskOf fun l => bad.any fun x => x.1 == l, t.2)

/-- The walk of the warp in focus ends (R291, 14 R363 R364), or waits for a route (15 R388). A prefetch of a page that has gone is dropped,
but one of another partition's page is a violation (14 R368); a transfer of the tile path keeps the pages it has had translated (R288,
07 R196). -/
def pageWalk (s : State) : State :=
  match walkWanted s with
  | none => s
  | some (va, acc, lanes, n, source) =>
    let vas := walkVas s va acc lanes n
    match walkFar s vas with
    | some p => { s with w := { s.w with stall := s.w.stall.map fun x => { x with cond := .route p } }
                         fabric := { s.fabric with lost := (s.fabric.lost.filter fun t => t.1 != s.w.id) ++ [(s.w.id, p, s.now)] } }
    | none =>
    match walkAsks s vas, walkOwned s s.l va acc with
    | some u, _ => u
    | none, .page e => if source = 2 then { (fillTlb s e) with w := { s.w with trans := s.w.trans ++ [e] } } else fillTlb s e
    | none, .bad kind =>
      if source = prefSource ∧ kind ≠ 7 then { s with w := { s.w with stall := none } } else
      let source := if source = prefSource then 0 else source
      let (mask, addr) := faultLanes s va acc lanes n
      let wid := if source = 0 then widOf s.w mask else 0#64
      if kind = 7 then
        let u := violate s s.l source acc wid addr s.cur.pc mask 0
        { u with w := { u.w with stall := none, frozen := some (.fault (u.nextToken - 1) 7) } }
      else
        let t := s.nextToken
        let u := queueFault s s.l.part s.l.ctx s.l.num kind (kindCode kind) source acc (.warp s.w.id) wid addr s.cur.pc mask 0
        { u with w := { u.w with stall := none, frozen := some (.xlate t (kind - 1) addr mask acc) } }

def execPageWalk (w : Nat) (s : State) : Out := .next (if walkDue s w then pageWalk (s.focus w) else s)

/-! Replies (14 R365). -/

/-- The open fault that a token names for an interface's partition. -/
def openFault? (s : State) (vi token : Nat) : Option OpenFault :=
  s.faults.find? fun f => f.token == token && (s.vi? vi).any fun v => v.part == some f.part && v.owner

def closeFault (s : State) (token : Nat) : State := { s with faults := s.faults.filter fun f => f.token != token }

def killCtx (s : State) (ctx : Nat) : State := s.mapCtx ctx fun c => { c with killed := true }

/-- The freeze of a warp ends. -/
def thaw (s : State) (w : Nat) : State := s.mapWarps (fun x => x.id == w) fun x => { x with frozen := none }

/-- The fault comes back to the warp in focus as a program fault. -/
def redeliver (s : State) : State :=
  match s.w.frozen with
  | some (.xlate _ k addr lanes acc) =>
    deliverAt { s with w := { s.w with frozen := none, stall := none, keep := .none, asked := none } } s.cur.pc (0x70 + k) addr lanes acc
  | _ => s

/-- Apply an action to an open fault. -/
def applyReply (s : State) (f : OpenFault) (action : Nat) : State :=
  if action = 3 then killCtx (closeFault s f.token) f.ctx
  else if 3 < f.kind ∨ action = 0 then s
  else
    let s := closeFault s f.token
    match f.src with
    | .warp w => if action = 1 then thaw s w else within s w redeliver
    | .copy cl ch id => mapCmd s cl ch id fun m => { m with openFault := none, lost := m.lost || action == 2 }
    | .thr die id => mapThr s die fun t =>
      let f := fun m : ThrCmd => { m with openFault := none, lost := m.lost || action == 2 }
      { t with cmds := updWhere (fun m => m.id == id) f t.cmds }

/-- The fibre of the fault, or the warp that pushed the engine's command, is saved with its context. -/
def faultSaved (s : State) (f : OpenFault) : Bool :=
  match f.src with
  | .warp w => (savedWarp s w).isSome
  | .copy cl ch id => (((s.cluster cl).chans.getD ch {}).cmds.find? fun m => m.id == id).any fun m => savedCohort s m.cid
  | .thr die id => ((s.die die).thr.cmds.find? fun m => m.id == id).any fun m => (savedWarp s m.warp).isSome
/-- A reply word names a fault; for a saved context it is recorded. -/
def faultReply (vi token action : Nat) (s : State) : Out :=
  match openFault? s vi token with
  | none => .next s
  | some f =>
    if faultSaved s f then .next (s.mapCtx f.ctx fun c => { c with replies := c.replies ++ [(token, action)] })
    else .next (applyReply s f action)

def execFaultReplyRetry (vi token : Nat) (s : State) : Out := faultReply vi token 1 s
def execFaultReplyUnserviceable (vi token : Nat) (s : State) : Out := faultReply vi token 2 s
def execFaultReplyKill (vi token : Nat) (s : State) : Out := faultReply vi token 3 s

/-! Machine checks and violations (R368). -/

/-- The machine check is logged and counted; the counters fold at once (17 R422 R423). The class is a free value. -/
def noteCheck (s : State) (part : Nat) : State :=
  let cls := Config.pick s.stepNo 20 % 20
  let s := (keeperLog s 6 part ((List.range 12).map (Config.checkData cls))).tally fun x => { x with hard := x.hard.modify cls (· + 1) }
  { s with lan := { s.lan with foldNow := true } }

/-- The kind of access is not stated for an event that comes from outside the instruction: a free value. -/
def freeAccess (s : State) : Access :=
  let n := Config.pick s.stepNo 21
  { rd := n.testBit 0, wr := n.testBit 1, fetch := n.testBit 2, atomic := n.testBit 3 }
/-- The fibre in focus has consumed bad data, itself or through the tile path. -/
def warpCheck (s : State) : State :=
  let s := freezeFault (noteCheck s s.l.part) 6 0xE0 0#64 s.cur.pc s.cur.mask (freeAccess s)
  failLaunch s s.l.num 1
/-- The partition of a launch. -/
def launchPart (s : State) (launch : Nat) : Nat := ((s.launch? launch).map (·.part)).getD 0

def execMachineCheck (who : Consumer) (s : State) : Out :=
  match who with
  | .warp w => .next (if liveTest s w fun _ => true then warpCheck (s.focus w) else s)
  | .copy cluster chan i =>
    match ((s.cluster cluster).chans.getD chan {}).cmds[i]? with
    | some m => .next (if m.stage == .held then s else endCopies (noteCheck s (launchPart s m.launch)) (fun x => x.id == m.id) 2)
    | none => .next s
  | .tile core op =>
    match (seqOp s core op).bind fun o => s.warp? o.warp with
    | some w => .next (warpCheck (s.focus w.id))
    | none => .next s
  | .thr die i =>
    -- the command is given up as one that system software cannot serve (14 R365): log 61
    match (s.die die).thr.cmds[i]? with
    | some m => .next (mapThr (noteCheck s (launchPart s m.launch)) die fun t =>
        { t with cmds := t.cmds.modify i fun x => { x with lost := true, openFault := none } })
    | none => .next s

def execSecurityViolation (w : Nat) (addr : DWord) (s : State) : Out :=
  .next (if liveTest s w fun _ => true then
    let t := s.focus w
    let u := violate t t.l 0 (freeAccess t) (widOf t.w t.cur.mask) addr t.cur.pc t.cur.mask 0
    { u with w := { u.w with frozen := some (.fault (u.nextToken - 1) 7) } }
  else s)

/-! Context kill (R368). -/



def execContextKill (ctx : Nat) (s : State) : Out :=
  match s.ctx? ctx with
  | none => .next s
  | some c =>
    if !c.killed then .next s
    else
      let ls := (s.allLaunches.filter fun l => l.ctx == ctx).map (·.num)
      let s := s.mapCtx ctx fun c => { c with killed := false, releasing := true, saved := [], replies := [], preempt := [] }
      let mine := fun cid => (s.cohort? cid).any fun x => ls.contains x.launch
      let s := { s with faults := s.faults.filter fun f => f.ctx != ctx
                        held := s.held.filter fun h => !mine h.cid
                        claims := s.claims.filter fun x => !ls.contains x.launch }
      let s := (cohortsOf s fun c => ls.contains c.launch).foldl (fun s c => asCohort s c killCohort) s
      let s := ls.foldl (fun s n => s.mapLaunch n fun l => { l with stopAll := true, failing := some 2, parents := [] }) s
      let s := endCopies s (fun m => ls.contains m.launch) 3
      let idle := fun t : Thresher => { t with cmds := t.cmds.filter fun m => !ls.contains m.launch }
      let s := (s.dies.map (·.id)).foldl (fun s d => mapThr s d idle) s
      let s := s.unfocus
      let clear := fun k : CoreS =>
        { k with am := k.am.filter fun m => !ls.contains m.launch, moor := k.moor.filter fun m => !ls.contains m.launch
                 outb := k.outb.filter fun m => !ls.contains m.launch }
      .next { s with cores := s.cores.map clear }

/-! The logical clock (11 R296). -/

def ptsDue (s : State) (core : Nat) : Bool := decide ((s.coreOf core).ptsAt + 64 ≤ s.cyc)

def execPtsAdvance (core : Nat) (s : State) : Out :=
  .next (if ptsDue s core && s.allCores.any fun k => k.id == core then
    s.mapCore core fun k => { k with pts := k.pts + (s.cyc - k.ptsAt) / 64, ptsAt := k.ptsAt + (s.cyc - k.ptsAt) / 64 * 64 }
  else s)

end Sys2Proof.Machine
end

