-- ==== Sys2Proof/Machine/Submit.lean ====
section
/-! DEFINITION. Launch queues, the launch header, its checks, admission and acceptance (03 R82 to R84, 12 R311 to R314 R320 R331 R332,
13 R346 R347, 15 R391 R392). -/

namespace Sys2Proof.Machine

/-! Reading a context's memory for the scheduler. -/

/-- A launch that stands for a context in a walk. -/
def asCtx (part ctx : Nat) : Launch := { part := part, ctx := ctx }

/-- n bytes at a virtual address; none when a page is not mapped, not readable or foreign. -/
def readVa (s : State) (l : Launch) (va : DWord) (n : Nat) : Option (List Byte) :=
  match enginePas s l va rAcc n with
  | .ok pas => some (pas.map fun pa => engineByte s pa)
  | .error _ => none

/-- Write bytes at a virtual address; none when a page cannot be written. -/
def writeVa (s : State) (l : Launch) (va : DWord) (bs : List Byte) : Option State :=
  match enginePas s l va wAcc bs.length with
  | .ok pas => some (homeWrite s (engineBytes s (pas.zip bs)))
  | .error _ => none

/-- Every page of a range can be read. -/
def rangeReadable (s : State) (l : Launch) (va : DWord) (n : Nat) : Bool :=
  n == 0 || (List.range (ceilDiv n 4096)).all (fun i => (readVa s l (va + BitVec.ofNat 64 (4096 * i)) 1).isSome)
    && (readVa s l (va + BitVec.ofNat 64 (n - 1)) 1).isSome

/-! The code object (03 R82 to R84). -/

/-- What the scheduler takes from a code object. -/
structure Code where
  off : Nat
  size : Nat
  prios : List (Nat × Nat × Nat)
  segs : List Segment
  travels : Bool
  entry : Nat
  quota : Nat
  widths : Nat
  shared : Nat
  handles : Nat
  huskKib : Nat
  trapPc : Nat
deriving DecidableEq, Repr

/-- Entries ascend and do not overlap. -/
def rising : List (Nat × Nat) → Bool
  | (a, n) :: (b, m) :: t => decide (a + n ≤ b) && rising ((b, m) :: t)
  | _ => true

def inSection (off size a n : Nat) : Bool := decide (off ≤ a) && decide (a + n ≤ off + size)

/-- A code object with the kernel that the header names; none when it breaks R82 to R84 or cannot be read. -/
def readCode (s : State) (l : Launch) (code : DWord) (kernel : Nat) : Option Code := do
  let h ← readVa s l code 64
  let f := fun o n => fieldLe h o n
  let off := f 8 4
  let size := f 0xC 4
  let ends := [off + size, f 0x10 4 + 8 * f 0x14 4, f 0x18 4 + 32 * f 0x1C 4, f 0x20 4 + f 0x24 4, f 0x28 4 + 8 * f 0x2C 4]
  if f 0 4 = 0x4A374B43 ∧ f 4 2 = 1 ∧ f 6 2 < 2 ∧ off % 4 = 0 ∧ 64 ≤ off ∧ size % 4 = 0 ∧ f 0x14 4 ≤ 65536 ∧ 1 ≤ f 0x1C 4
      ∧ kernel < f 0x1C 4 ∧ f 0x30 16 = 0 then
    if !rangeReadable s l code (ends.foldl max 64) then none
    else
      let prio ← readVa s l (code + BitVec.ofNat 64 (f 0x10 4)) (8 * f 0x14 4)
      let segb ← readVa s l (code + BitVec.ofNat 64 (f 0x28 4)) (8 * f 0x2C 4)
      let k ← readVa s l (code + BitVec.ofNat 64 (f 0x18 4 + 32 * kernel)) 32
      let g := fun o n => fieldLe k o n
      let prios := (List.range (f 0x14 4)).map fun i => (fieldLe prio (8 * i) 4, fieldLe prio (8 * i + 4) 3, fieldLe prio (8 * i + 7) 1)
      let segs := (List.range (f 0x2C 4)).map fun i => (fieldLe segb (8 * i) 4, fieldLe segb (8 * i + 4) 4)
      let okPrio := prios.all (fun t => decide (t.1 % 4 = 0) && decide (1 ≤ t.2.1) && inSection off size t.1 (4 * t.2.1))
        && rising (prios.map fun t => (t.1, 4 * t.2.1))
      let pcOk := fun a => decide (a % 4 = 0) && inSection off size a 4
      let okKernel := pcOk (g 0 4) && decide (g 8 2 ≤ 256) && g 0xA 2 == 0 && decide (g 0xC 4 < 2 ^ 30) && g 0x10 4 % 16 == 0
        && decide (g 0x10 4 ≤ 262144) && decide (g 0x14 2 ≤ 120) && (g 0x18 4 == 0 || pcOk (g 0x18 4)) && g 0x1C 4 == 0
      if okPrio && okKernel && segs.all (fun t => decide (t.2 ≤ 131072)) then
        some { off := off, size := size, prios := prios, segs := segs.map fun t => { start := t.1, len := t.2 }, travels := f 6 2 == 1
               entry := g 0 4, quota := g 8 2, widths := g 0xC 4, shared := g 0x10 4, handles := g 0x14 2, huskKib := g 0x16 2
               trapPc := g 0x18 4 }
      else none
  else none

/-- What R346 asks of a travelling launch's code object. -/
def travelCode (c : Code) : Bool :=
  c.travels && !c.segs.isEmpty && rising (c.segs.map fun t => (t.start, t.len))
    && c.segs.all (fun t => decide (t.start % 4 = 0) && decide (t.len % 4 = 0) && inSection c.off c.size t.start t.len)
    && c.segs.any fun t => decide (t.start ≤ c.entry) && decide (c.entry < t.start + t.len)

/-! Density and places (12 R323 R325 R331). -/

/-- The cohort density of a launch (R323). -/
def density (l : Launch) : Nat :=
  let per := ceilDiv l.warps 4
  let lim := fun a b => if b = 0 then 1000000 else a / b
  min (min (lim 32 per) (lim 992 (l.quota * per))) (min (lim 262144 l.shared) (lim 64 (ceilDiv l.warps 32)))

/-- Cohorts of a whole gang; the last gang of the stream may hold fewer. -/
def gangSize (l : Launch) : Nat := 2 ^ l.f2

/-- n cohorts of a gang fit on one empty cluster (R325). -/
def gangFits (l : Launch) (n : Nat) : Bool := decide (1 ≤ density l) && decide (ceilDiv n 8 ≤ density l)

/-- Whole gangs that one empty cluster holds at once. -/
def gangsPerCluster (l : Launch) : Nat :=
  let g := gangSize l
  if !gangFits l g then 0
  else if g ≤ 8 then 8 * density l / g else density l / ceilDiv g 8

/-- The place count Q of a reservation of n clusters (R331). -/
def placeCount (l : Launch) (n : Nat) : Nat := if l.f3 = 0 then density l * 8 * n else gangsPerCluster l * n * gangSize l

/-- Clusters of a partition that launches without PROMISE may use. -/
def openClusters (p : Part) : List Nat := p.clusters.filter fun c => !p.reserve.contains c

/-! The header (12 R311 to R313). -/

/-- The launch that a header describes, with the kernel's values under KDEF. -/
def launchOfHeader (h : List Byte) (k : Code) (part vi ctx : Nat) : Launch :=
  let f := fun o n => fieldLe h o n
  let flags := f 6 2
  let kdef := flags / 16 % 2 == 1
  let widths := if kdef then k.widths else f 0x20 4
  let w := fun i => widths / 2 ^ (6 * i) % 64
  { part := part, vi := vi, ctx := ctx
    code := BitVec.ofNat 64 (f 8 8), codeOff := k.off, codeSize := k.size, entry := BitVec.ofNat 32 k.entry
    handlerPc := BitVec.ofNat 32 k.trapPc, prios := k.prios, segs := k.segs
    promiseF := flags % 2 == 1, det := flags / 2 % 2 == 1, check := flags / 4 % 2 == 1, travel := flags / 8 % 2 == 1
    prio := f 0x14 2 % 8, warps := f 0x16 2, ncoh := f 0x18 8, f1 := w 0, f2 := w 1, f3 := w 2, f4 := w 3, f5 := w 4
    quota := if kdef then k.quota else f 0x24 2, handles := if kdef then k.handles else f 0x26 2
    shared := if kdef then k.shared else f 0x28 4, fpctl := BitVec.ofNat 8 (f 0x2C 4)
    args := BitVec.ofNat 64 (f 0x30 8), frame := BitVec.ofNat 64 (f 0x38 8)
    huskBase := BitVec.ofNat 64 (f 0x40 8), huskKib := if kdef then k.huskKib else f 0x48 4
    budget := f 0x4C 4, record := BitVec.ofNat 64 (f 0x58 8), cqBase := BitVec.ofNat 64 (f 0x60 8), cqCnt := f 0x68 2, cqLog := f 0x6A 2
    tbufs := ((List.range 32).filter fun i => f 0x6C 4 / 2 ^ i % 2 == 1).map fun i => { id := i, full := f 0x78 4 / 2 ^ i % 2 == 1, busy := false }
    tbFull := (List.range 32).filter fun i => f 0x78 4 / 2 ^ i % 2 == 1
    spawn := f 0x7C 4 }

/-- Check 1: the fixed fields, the reserved bits and the alignments. -/
def headerForm (h : List Byte) : Bool :=
  let f := fun o n => fieldLe h o n
  let kdef := f 6 2 / 16 % 2 == 1
  f 0 4 == 0x4A374C48 && f 4 2 == 1 && decide (f 6 2 < 32) && f 8 8 % 64 == 0 && decide (f 0x14 2 < 8) && decide (f 0x20 4 < 2 ^ 30)
    && (!kdef || (f 0x20 4 == 0 && f 0x24 2 == 0 && f 0x26 2 == 0 && f 0x28 4 == 0 && f 0x48 4 == 0))
    && decide (f 0x2C 4 < 256) && f 0x40 8 % 1024 == 0 && f 0x58 8 % 128 == 0 && f 0x60 8 % 64 == 0
    && (f 0x68 2 != 0 || f 0x60 8 == 0) && f 0x6C 4 % 2 == 0 && (f 0x6C 4 != 0 || f 0x70 8 == 0)

/-- Check 3 (01 R8 R9). -/
def sizesOk (l : Launch) : Bool :=
  decide (l.f1 ≤ 6) && decide (l.f2 ≤ 32) && decide (l.f3 ≤ 32) && decide (l.f4 ≤ 32) && decide (l.f5 ≤ 32)
    && decide (5 + l.f1 + l.f2 + l.f3 + l.f4 + l.f5 ≤ 64)
    && decide (1 ≤ l.warps) && decide (l.warps ≤ 64) && decide (l.warps ≤ 2 ^ l.f1)
    && decide (1 ≤ l.ncoh) && decide (l.ncoh ≤ 2 ^ (l.f2 + l.f3 + l.f4 + l.f5))
    && decide (l.quota ≤ 256) && decide (l.shared ≤ 262144) && l.shared % 16 == 0

/-- Check 4. -/
def fits (l : Launch) (p : Part) : Bool :=
  decide (l.quota * ceilDiv l.warps 4 ≤ 992) && decide (l.handles ≤ 120) && decide (1 ≤ density l)
    && (l.f3 == 0 || gangFits l (min (gangSize l) l.ncoh)) && (l.promiseF || !(openClusters p).isEmpty)
    && (!l.travel || decide (l.segs.length ≤ 8 * (openClusters p).length))

/-- Check 5 (R320); a table that cannot be read breaks it. -/
def buffersOk (s : State) (l : Launch) (h : List Byte) : Bool :=
  let f := fun o n => fieldLe h o n
  let mask := f 0x6C 4
  (if l.cqCnt = 0 then l.cqLog == 0 else decide (l.cqCnt ≤ 64) && decide (4 ≤ l.cqLog) && decide (l.cqLog ≤ 16))
    && (List.range 32).all (fun i => f 0x78 4 / 2 ^ i % 2 == 0 || mask / 2 ^ i % 2 == 1)
    && (mask == 0 || (match readVa s l (BitVec.ofNat 64 (f 0x70 8)) 496 with
        | some t => (List.range 31).all fun i => mask / 2 ^ (i + 1) % 2 == 1 || fieldLe t (16 * i) 16 == 0
        | none => false))

/-- Check 6. -/
def flagsOk (l : Launch) : Bool :=
  !(l.det && l.travel) && (l.promiseF || (l.budget == 0 && l.spawn == 0)) && (!l.promiseF || l.budget != 0)
    && ((l.huskKib == 0) == (l.huskBase == 0#64))
    && (!l.travel || (l.warps == 1 && l.f1 == 0 && l.shared == 0 && l.handles == 0 && decide (l.quota ≤ 128) && !l.promiseF))

/-- The promise (R332), at chip time t. -/
def promiseOf (l : Launch) (p : Part) (t : Nat) : Nat :=
  let start := max t p.horizon
  let w := ceilDiv (l.ncoh + l.spawn) (placeCount l p.reserve.length)
  let c := l.budget + 8000 + ceilDiv l.shared 64
  if l.check then start + 2 * w * c + 32 * l.huskKib + 4000 else start + w * c + 4000

/-- The DETAIL of the first check that fails (R313), or the launch. -/
def checkHeader (s : State) (h : List Byte) (p : Part) (vi ctx : Nat) : Except Nat Launch :=
  if !headerForm h then .error 1
  else match readCode s (asCtx p.id ctx) (BitVec.ofNat 64 (fieldLe h 8 8)) (fieldLe h 0x10 4) with
  | none => .error 2
  | some k =>
    let l := launchOfHeader h k p.id vi ctx
    let deadline := fieldLe h 0x50 8
    if l.travel && !travelCode k then .error 2
    else if !sizesOk l then .error 3
    else if !fits l p then .error 4
    else if !buffersOk s l h then .error 7
    else if !flagsOk l then .error 8
    else if l.promiseF && placeCount l p.reserve.length == 0 then .error 6
    else if l.promiseF && deadline != 0 && decide (deadline < promiseOf l p s.now) then .error 5
    else .ok l

/-- The fields of the completion record that a rejection or an acceptance writes (R313 R314). -/
def writeRecord (s : State) (l : Launch) (record : DWord) (state detail promise number : Nat) : Option State := do
  let t ← writeVa s l (record + 8#64) (leBytes 8 promise)
  let t ← writeVa t l (record + 0x38#64) (leBytes 8 number)
  writeVa t l record (leBytes 4 (state * 2 ^ 24 + detail * 2 ^ 16))

/-- Cores that a travelling launch pins, ascending (13 R347). -/
def travelCores (p : Part) : List Nat :=
  ((List.range 48).filter (openClusters p).contains).flatMap fun c => (List.range 8).map fun i => 8 * c + i

/-- The bytes of a segment, as a core that pins it takes them into its instruction store (13 R347). -/
def segBytes (s : State) (l : Launch) (g : Segment) : List Byte := (readVa s l (l.code + BitVec.ofNat 64 g.start) g.len).getD []
/-- Segments with the cores that hold them: segment j mod SEGCNT on core j. -/
def withReplicas (s : State) (l : Launch) (cores : List Nat) : List Segment :=
  l.segs.zipIdx.map fun t => { t.1 with
    cores := (cores.zipIdx.filter fun c => c.2 % l.segs.length == t.2 && decide (c.2 < 16 * l.segs.length)).map (·.1)
    bytes := segBytes s l t.1 }

/-- Pin the cores of a travelling launch that no other one holds. -/
def pinCores (s : State) (l : Launch) : State :=
  l.segs.zipIdx.foldl (fun s t => t.1.cores.foldl (fun s c =>
    if (s.coreOf c).pin.isNone then s.mapCore c fun k => { k with pin := some (l.num, t.2) } else s) s) s

/-- The launch's pins are saved with its context (13 R360). -/
def pinsSaved (s : State) (num : Nat) : Bool := s.ctxs.any fun x => x.saved.any fun v => v.pin.any fun t => t.1 == num
/-- Travelling launches take the cores of theirs that no other one holds. -/
def repin (s : State) : State := (s.launches.filter fun x : Launch => x.travel && !pinsSaved s x.num).foldl pinCores s
/-- An accepted launch (R314): the next number, the horizon, its pins. -/
def acceptLaunch (s : State) (p : Part) (l : Launch) : State :=
  let promise := if l.promiseF then promiseOf l p s.now else 0
  let l := { l with num := 16 * p.nextLaunch + p.id, accepted := s.now, promise := promise, exact := p.exact, hostAt := s.hostSeq }
  let l := if l.travel then { l with segs := withReplicas s l (travelCores p), gen := 1 } else l
  let s := s.mapPart p.id fun q => { q with nextLaunch := q.nextLaunch + 1, horizon := if l.promiseF then promise - 4000 else q.horizon }
  let s := { s with launches := s.launches ++ [l] }
  if l.travel then pinCores s l else s

/-- Report a bad entry in LQERR (15 R392). -/
def lqError (s : State) (vi q cause index : Nat) : State :=
  s.mapVi vi fun v => { v with lqs := v.lqs.modify q fun x =>
    { x with err := BitVec.ofNat 64 (index % 2 ^ 32 * 2 ^ 32 + cause * 256 + min 255 (x.err.toNat % 256 + 1)) } }

/-- Submit the header that an entry names. -/
def submit (s : State) (p : Part) (vi q ctx index : Nat) (entry : Nat) : State :=
  if entry % 128 ≠ 0 then lqError s vi q 1 index
  else
    let l0 := asCtx p.id ctx
    match readVa s l0 (BitVec.ofNat 64 entry) 128 with
    | none => lqError s vi q 2 index
    | some h =>
      let record : DWord := BitVec.ofNat 64 (fieldLe h 0x58 8)
      match checkHeader s h p vi ctx with
      | .error d => (writeRecord s l0 record 4 d 0 0).getD (lqError s vi q 3 index)
      | .ok l =>
        let promise := if l.promiseF then promiseOf l p s.now else 0
        match writeRecord s l0 record 1 0 promise p.nextLaunch with
        | some t => acceptLaunch t p l
        | none => lqError s vi q 3 index

/-! The queue (R392). -/

/-- Memory that a queue may lie in: the partition's device memory or host memory (R391). -/
def queueMemory (s : State) (part pa : Nat) : Bool :=
  (isHostPa pa && decide (pa < 2 ^ 52)) || (decide (localPa s pa < 0x9000000000) && ownedPage s part pa)
def deviceMemory (s : State) (part pa : Nat) : Bool := decide (localPa s pa < 0x9000000000) && ownedPage s part pa

def LQueue.enabled (x : LQueue) : Bool := x.cfg.getLsbD 8
def LQueue.slots (x : LQueue) : Nat := 2 ^ (x.cfg.toNat % 32)
def lqTail (s : State) (x : LQueue) : Nat := leNat ((List.range 8).map fun i => engineByte s (localPa s x.tailAt.toNat + i))
def newTail (old t : Nat) : Bool := let d := (t + 2 ^ 64 - old) % 2 ^ 64; decide (1 ≤ d) && decide (d < 2 ^ 63)

/-- Entries between two counts, modulo 2^64. -/
def ahead (t h : Nat) : Nat := (t + 2 ^ 64 - h) % 2 ^ 64

/-- Lines of an entry that the queue takes next, of its header and of its completion record (11 R303). -/
def entryWay (s : State) (p : Part) (x : LQueue) : List (Nat × Bool) :=
  let at_ := localPa s (x.base.toNat + 8 * (x.head % x.slots))
  let l := asCtx p.id (x.cfg.toNat / 2 ^ 32)
  let entry := leNat ((List.range 8).map fun i => engineByte s (at_ + i))
  let page := fun (va : DWord) (wr : Bool) => walkReads s l.ctx [va] ++ (match enginePa s l va (if wr then wAcc else rAcc) with
    | .ok pa => [(pa / 128, wr)]
    | .error _ => [])
  (at_ / 128, false) :: page (BitVec.ofNat 64 entry) false
    ++ (match readVa s l (BitVec.ofNat 64 entry) 128 with
        | some h => page (BitVec.ofNat 64 (fieldLe h 0x58 8)) true
        | none => [])
/-- Agents that the queue asks before it goes on: they hold its tail, or what it takes next. -/
def lqAsks (s : State) (p : Part) (x : LQueue) : Option State :=
  askFor s ((localPa s x.tailAt.toNat / 128, false) :: if x.head % 2 ^ 64 != x.lastTail then entryWay s p x else [])
/-- The queue has something to take, or a tail that it has not seen; it does not wait for an agent that it has asked. -/
def lqDue (s : State) (vi q : Nat) : Option (Part × LQueue) :=
  match s.vi? vi with
  | none => none
  | some v => match v.part.bind s.part?, v.lqs[q]? with
    | some p, some x =>
      if x.enabled && !x.stopped && (lqAsks s p x).all (asksMore s)
          && (x.head % 2 ^ 64 != x.lastTail || !deviceMemory s p.id x.tailAt.toNat || (lqAsks s p x).isSome || newTail x.lastTail (lqTail s x)) then
        some (p, x)
      else none
    | _, _ => none

def mapLq (s : State) (vi q : Nat) (f : LQueue → LQueue) : State := s.mapVi vi fun v => { v with lqs := v.lqs.modify q f }

/-- See a new tail, or take the next entry. -/
def serveQueue (s : State) (vi q : Nat) (p : Part) (x : LQueue) : State :=
  if !deviceMemory s p.id x.tailAt.toNat then mapLq (lqError s vi q 5 x.head) vi q fun y => { y with stopped := true }
  else
    let t := lqTail s x
    if newTail x.lastTail t then
      if x.slots < ahead t x.head then mapLq (lqError s vi q 4 x.head) vi q fun y => { y with stopped := true }
      else mapLq s vi q fun y => { y with lastTail := t }
    else
      let ctx := x.cfg.toNat / 2 ^ 32
      let at_ := x.base.toNat + 8 * (x.head % x.slots)
      let s := mapLq s vi q fun y => { y with head := y.head + 1 }
      if queueMemory s p.id at_ then submit s p vi q ctx x.head (leNat ((List.range 8).map fun i => engineByte s (localPa s at_ + i)))
      else lqError s vi q 2 x.head

def execLaunchQueueTail (vi q : Nat) (s : State) : Out :=
  match lqDue s vi q with
  | some (p, x) => .next ((lqAsks s p x).getD (serveQueue s vi q p x))
  | none => .next s

end Sys2Proof.Machine
end

