-- ==== Sys2Proof/Machine/Sched.lean ====
section
/-! DEFINITION. The scheduler: which record a cluster takes, where its cohort goes, parent records (12 R316 to R329, 13 R347 R351). -/

namespace Sys2Proof.Machine

/-! Records (07 R215, 12 R316 to R319). -/

/-- The record of a cohort index of the launch stream (R316). -/
def streamRecord (l : Launch) (i : Nat) : CRec :=
  { code := l.entry, frame := l.frame, widBase := BitVec.ofNat 64 (i * 2 ^ (5 + l.f1)) }

def tbField (w lo : Nat) : Nat := w / 2 ^ lo % 32
/-- The record that 32 bytes stand for; buffers 0 name none. -/
def recordOf (bs : List Byte) : CRec :=
  let w := fieldLe bs 20 4
  { code := BitVec.ofNat 32 (fieldLe bs 0 4), frame := BitVec.ofNat 64 (fieldLe bs 4 8), join := BitVec.ofNat 64 (fieldLe bs 12 8)
    ins := ([tbField w 0, tbField w 5, tbField w 10, tbField w 15]).filter (· ≠ 0), outs := ([tbField w 20, tbField w 25]).filter (· ≠ 0)
    widBase := BitVec.ofNat 64 (fieldLe bs 24 8), spawned := true }

/-- A spawned record that the scheduler drops (R319). -/
def badRecord (l : Launch) (bs : List Byte) : Bool :=
  let r := recordOf bs
  let names := r.ins ++ r.outs
  decide (r.code.toNat % 4 ≠ 0) || !(decide (l.codeOff ≤ r.code.toNat) && decide (r.code.toNat + 4 ≤ l.codeOff + l.codeSize))
    || decide (2 ^ 30 ≤ fieldLe bs 20 4) || names.any (fun n => !(l.tbufs.any fun b => b.id == n)) || decide (names.dedup.length < names.length)
    || decide (r.widBase.toNat % 2 ^ (5 + l.f1) ≠ 0) || decide (2 ^ (5 + l.f1 + l.f2 + l.f3 + l.f4 + l.f5) ≤ r.widBase.toNat)
    || (l.travel && (segOf l r.code).isNone)

def indexOf (l : Launch) (r : CRec) : Nat := r.widBase.toNat / 2 ^ (5 + l.f1)
/-- The F4 value of a cohort index, and its gang. -/
def f4Of (l : Launch) (i : Nat) : Nat := i / 2 ^ (l.f2 + l.f3) % 2 ^ l.f4
def gangNo (l : Launch) (i : Nat) : Nat := i / 2 ^ l.f2

/-! Continuation queues (R317). -/

def queueBase (l : Launch) (q : Nat) : DWord := l.cqBase + BitVec.ofNat 64 (q * (64 + 32 * 2 ^ l.cqLog))
def queueCount (s : State) (l : Launch) (q off : Nat) : Nat := ((readVa s l (queueBase l q + BitVec.ofNat 64 off) 8).map leNat).getD 0
/-- Entry n of a queue, counted from the start. -/
def entryAt (s : State) (l : Launch) (q n : Nat) : Option (List Byte) := readVa s l (queueBase l q + BitVec.ofNat 64 (64 + 32 * (n % 2 ^ l.cqLog))) 32
def writeAt (s : State) (l : Launch) (va : DWord) (bs : List Byte) : State := (writeVa s l va bs).getD s

/-- The first 16 records after HEAD: their counts and bytes. -/
def queueWindow (s : State) (l : Launch) (q : Nat) : List (Nat × List Byte) :=
  let h := queueCount s l q 0
  let n := min 16 (queueCount s l q 8 - h)
  (List.range n).filterMap fun i => (entryAt s l q (h + i)).map fun b => (h + i, b)

/-- Take record n out: the records before it close up behind HEAD. -/
def takeRecord (s : State) (l : Launch) (q n : Nat) : State :=
  let h := queueCount s l q 0
  let s := ((List.range (n - h)).reverse).foldl (fun s i => match entryAt s l q (h + i) with
    | some b => writeAt s l (queueBase l q + BitVec.ofNat 64 (64 + 32 * ((h + i + 1) % 2 ^ l.cqLog))) b
    | none => s) s
  writeAt s l (queueBase l q) (leBytes 8 (h + 1))

/-- The first parent record whose queue has room (R318). -/
def parentRoom (s : State) (l : Launch) : Option (Nat × List Byte) :=
  l.parents.find? fun t => decide (queueCount s l t.1 8 - queueCount s l t.1 0 < 2 ^ l.cqLog)

def execParentPlacement (launch : Nat) (s : State) : Out :=
  match s.launch? launch with
  | none => .next s
  | some l => match parentRoom s l with
    | none => .next s
    | some (q, b) =>
      let t := queueCount s l q 8
      let s := writeAt s l (queueBase l q + BitVec.ofNat 64 (64 + 32 * (t % 2 ^ l.cqLog))) b
      let s := writeAt s l (queueBase l q + 8#64) (leBytes 8 (t + 1))
      .next (s.mapLaunch launch fun l => { l with parents := l.parents.erase (q, b) })

/-! Room on a core (R323). -/

def cohortsAt (s : State) (core : Nat) : List Cohort := s.allCohorts.filter fun c => c.core == core && c.resident

/-- The core may take a cohort of the launch: partition, reservation, pins (R313 R326, 13 R347). -/
def coreAllowed (s : State) (l : Launch) (core : Nat) : Bool :=
  (s.part? l.part).any fun p =>
    (if l.promiseF then p.reserve.contains (clusterOf core) else (openClusters p).contains (clusterOf core))
    && (match (s.coreOf core).pin with
        | some (n, _) => n == l.num && (cohortsAt s core).all fun c => c.launch == l.num
        | none => !l.travel)

/-- Shared memory, cohort records and handles of one more cohort. -/
def coreRoom (s : State) (l : Launch) (core : Nat) : Bool :=
  let cs := cohortsAt s core
  let recs := fun n : Nat => if 32 < n then 2 else 1
  let ls := (cs.map (·.launch)).dedup
  let handles := (ls.map fun n => ((s.launch? n).map (·.handles)).getD 0).sum
  decide ((cs.map (·.sharedSize)).sum + l.shared ≤ 262144) && decide ((cs.map fun c => recs c.warpsN).sum + recs l.warps ≤ 64)
    && (ls.contains l.num || decide (handles + l.handles ≤ 120))

/-- A pinned core keeps one fibre place of each quarter for landing cargo (13 R356). -/
def keepsLanding (s : State) (core quarter : Nat) : Bool :=
  (s.coreOf core).pin.isNone || decide ((s.allWarps.filter fun w => w.core == core && w.quarter == quarter && w.holds != 0#32).length < 31)

/-- Place the warps of a cohort, one after another (R323 R324). -/
def placeWarps (l : Launch) (cid core : Nat) (r : CRec) (budgetEnd : Nat) (s : State) : List Nat → Option State
  | [] => some s
  | i :: t =>
    if !keepsLanding s core (i % 4) then none
    else match placeFor s l core i with
    | none => none
    | some p =>
      let w := freshWarp l s.nextId cid core p i (r.widBase + BitVec.ofNat 64 (32 * i)) r.code
      let e : DWord := BitVec.ofNat 64 budgetEnd
      let w := { w with sregs := [l.args.extractLsb' 0 32, l.args.extractLsb' 32 32, r.frame.extractLsb' 0 32, r.frame.extractLsb' 32 32
                                  , e.extractLsb' 0 32, e.extractLsb' 32 32] ++ List.replicate 10 0#32 }
      placeWarps l cid core r budgetEnd (addWarp { s with nextId := s.nextId + 1 } w) t

/-- Place a cohort on a core, or none when it does not fit. -/
def placeCohort (s : State) (l : Launch) (core : Nat) (r : CRec) : Option State :=
  if !coreAllowed s l core || !coreRoom s l core then none
  else
    let cid := s.nextId
    let e := if l.promiseF then s.now + l.budget else 0
    let c : Cohort := { id := cid, core := core, launch := l.num, index := indexOf l r, record := r, warpsN := l.warps, resident := true
                        sharedSize := l.shared, budgetEnd := e }
    placeWarps l cid core r e { s with nextId := s.nextId + 1, cohorts := s.cohorts ++ [c] } (List.range l.warps)

/-- Place cohorts, each on one of the cores it may take, on distinct cores or not. -/
def placeAll (l : Launch) (distinct : Bool) (s : State) (used : List Nat) : List (CRec × List Nat) → Option State
  | [] => some s
  | (r, cores) :: t =>
    match cores.findSome? fun c => if distinct && used.contains c then none else (placeCohort s l c r).map fun u => (c, u) with
    | none => none
    | some (c, u) => placeAll l distinct u (c :: used) t

/-! What a launch offers to a cluster (R321 R322 R325). -/

def clusterCores (cl : Nat) : List Nat := (List.range 8).map fun i => 8 * cl + i

/-- The die of a cluster suits the F4 value of an index; cohorts that find no room there wait: DEDUCED, log 32. -/
def dieOk (l : Launch) (cl i : Nat) : Bool := l.f4 == 0 || (match assoc (f4Of l i) l.dieOf with
  | some d => d == cl / 12
  | none => true)

/-- The cores of a cluster that one record may take. -/
def coresFor (s : State) (l : Launch) (cl : Nat) (r : CRec) : List Nat :=
  let i := indexOf l r
  if !dieOk l cl i then []
  else if l.travel then
    (match (segOf l r.code).bind fun g => replica l g i with
     | some c => if clusterOf c = cl then [c] else []
     | none => [])
  else if r.spawned && l.f3 != 0 then
    let homes := ((s.allCohorts.filter fun c => c.resident && c.launch == l.num && gangNo l c.index == gangNo l i).map fun c => clusterOf c.core).dedup
    if homes.isEmpty || homes.contains cl then clusterCores cl else []
  else clusterCores cl

/-- The records that the stream offers next: one cohort, or a whole gang. -/
def streamNext (l : Launch) : List CRec :=
  if l.ncoh ≤ l.next then []
  else if l.f3 = 0 then [streamRecord l l.next]
  else
    let n := min l.ncoh ((gangNo l l.next + 1) * gangSize l)
    (List.range (n - l.next)).map fun i => streamRecord l (l.next + i)

/-- A gang of up to 8 cohorts takes distinct cores; a larger one is dealt out over all 8. -/
def gangCores (s : State) (l : Launch) (cl : Nat) (rs : List CRec) : List (CRec × List Nat) :=
  if rs.length ≤ 8 then rs.map fun r => (r, coresFor s l cl r)
  else rs.zipIdx.map fun t => (t.1, (coresFor s l cl t.1).filter fun c => c % 8 == t.2 % 8)

/-- Buffers allow the record (R321). -/
def buffersFree (l : Launch) (r : CRec) : Bool :=
  l.tbufs.all fun b => (!r.ins.contains b.id || (b.full && !b.busy)) && (!r.outs.contains b.id || (!b.full && !b.busy))

/-- The records that a source holds ready, room apart: the stream 0, or queue q as q + 1. -/
def sourceReady (s : State) (l : Launch) (src : Nat) : List (Option Nat × List CRec) :=
  match src with
  | 0 => if (streamNext l).isEmpty then [] else [(none, streamNext l)]
  | q + 1 =>
    if l.promiseF && decide (l.spawn ≤ l.spawnedRun) then []
    else (queueWindow s l q).filterMap fun t =>
      let r := recordOf t.2
      if !badRecord l t.2 && buffersFree l r then some (some t.1, [r]) else none

def sources (l : Launch) : List Nat := (List.range (l.cqCnt + 1)).map fun i => (i + l.turn) % (l.cqCnt + 1)

/-- Some record waits for nothing but room. -/
def hasReady (s : State) (l : Launch) : Bool := !l.stopAll && (sources l).any fun k => !(sourceReady s l k).isEmpty

/-- The state after the buffers and counts of a dispatch. -/
def noteDispatch (s : State) (l : Launch) (cl src : Nat) (at_ : Option Nat) (rs : List CRec) : State :=
  let s := match src, at_ with
    | q + 1, some n => takeRecord s l q n
    | _, _ => s
  let names := rs.flatMap fun r => r.ins ++ r.outs
  let i := ((rs.head?).map (indexOf l)).getD 0
  s.mapLaunch l.num fun l =>
    { l with tbufs := updWhere (fun b => names.contains b.id) (fun b => { b with busy := true }) l.tbufs
             next := if src = 0 then l.next + rs.length else l.next
             spawnedRun := if src = 0 then l.spawnedRun else l.spawnedRun + rs.length
             cohorts := l.cohorts + rs.length, eligTicks := 0, begun := true, waitSince := none
             turn := (src + 1) % (l.cqCnt + 1)
             dieOf := if l.f4 = 0 ∨ (assoc (f4Of l i) l.dieOf).isSome then l.dieOf else l.dieOf ++ [(f4Of l i, cl / 12)] }

/-- The dispatch that a launch makes on a cluster, when it has one (R322). -/
def offer (s : State) (l : Launch) (cl : Nat) : Option State :=
  if l.stopAll then none
  else (sources l).findSome? fun k => (sourceReady s l k).findSome? fun t =>
    (placeAll l (decide (t.2.length ≤ 8)) s [] (gangCores s l cl t.2)).map fun u => noteDispatch u l cl k t.1 t.2

/-! Choosing (R326 to R328). -/

/-- The effective level: before the first dispatch the ticks since acceptance count, then those with an eligible record (R327). -/
def effLevel (s : State) (l : Launch) : Nat :=
  if l.prio = 7 then 7 else min (l.prio + (if l.begun then l.eligTicks else s.now - l.accepted) / 1000000) 6
/-- Ticks that pass count for the launches that hold an eligible record, room apart (R327). -/
def ageLaunches (s : State) (ticks : Nat) : State :=
  let age := fun l : Launch => if hasReady s l then { l with eligTicks := l.eligTicks + ticks } else l
  { s with l := if s.w.resident then age s.l else s.l, launches := s.launches.map age }

/-- Launches by acceptance. -/
def byAccept (ls : List Launch) : List Launch :=
  ls.foldl (fun ys x => (ys.takeWhile fun y => decide (y.num / 16 ≤ x.num / 16)) ++ x :: ys.dropWhile fun y => decide (y.num / 16 ≤ x.num / 16)) []

def creditOf (s : State) (p : Part) (level vi : Nat) : Nat :=
  ((p.credits.find? fun c => c.1 == level && c.2.1 == vi).map (·.2.2)).getD (((s.vi? vi).map (·.weight)).getD 1)

/-- Interfaces of a level in serving order. -/
def servingOrder (p : Part) (level : Nat) (vis : List Nat) : List Nat :=
  let last := assoc level p.lastServed
  let key := fun v : Nat => match last with
    | some x => (v + 64 - (x + 1)) % 64
    | none => v
  (List.range 64).filterMap fun k => vis.find? fun v => key v == k

/-- The launch of a level that is served: through the interfaces with credit, or, when none of those with a record has any, after
every credit is renewed. -/
def serveLevel (s : State) (p : Part) (cl level : Nat) (ls : List Launch) : Option State :=
  let offers := ls.filterMap fun l => (offer s l cl).map fun u => (l, u)
  let vis := (offers.map fun t => t.1.vi).dedup
  if vis.isEmpty then none
  else
    let rich := vis.filter fun v => decide (0 < creditOf s p level v)
    let renew := rich.isEmpty
    let order := servingOrder p level (if renew then vis else rich)
    order.head?.bind fun v => (offers.find? fun t => t.1.vi == v).map fun t =>
      let weight := ((s.vi? v).map (·.weight)).getD 1
      let taken := ((t.2.launch? t.1.num).map (·.cohorts)).getD 0 - t.1.cohorts
      let spent := (if renew then weight else creditOf s p level v) - taken
      t.2.mapPart p.id fun q =>
        { q with credits := (level, v, spent) :: (q.credits.filter fun c => !(c.1 == level && (c.2.1 == v || renew)))
                 lastServed := assocPut level v q.lastServed }

/-- Every cohort that the promise of a launch admits so far has been dispatched: the stream, and the spawned records up to SPAWN that
stand in a queue or wait for one (R332); in check mode, those of the second run, when there is to be one. -/
def allDispatched (s : State) (l : Launch) : Bool :=
  !(l.check && l.checkRun == 1 && !l.checkLost) && decide (l.ncoh ≤ l.next) && (decide (l.spawn ≤ l.spawnedRun)
    || (l.parents.isEmpty && (List.range l.cqCnt).all fun q => queueCount s l q 8 == queueCount s l q 0))
/-- The promise launch that takes reserved places next (R326 R332). -/
def promiseNext (s : State) (ls : List Launch) : Option Launch :=
  let live := ls.filter fun l => l.promiseF && !l.stopAll
  live.find? fun l => hasReady s l && live.all fun e => e.num == l.num || decide (l.num < e.num) || allDispatched s e

/-- What a cluster's dispatcher does. -/
def dispatch (s : State) (cl : Nat) : Option State :=
  match s.parts.find? fun p => p.clusters.contains cl with
  | none => none
  | some p =>
    let ls := byAccept (s.allLaunches.filter fun l => l.part == p.id && !l.stopAll
      && !((s.ctx? l.ctx).any (·.killed)))
    if p.reserve.contains cl then (promiseNext s ls).bind fun l => offer s l cl
    else [7, 6, 5, 4, 3, 2, 1, 0].findSome? fun e => serveLevel s p cl e (ls.filter fun l => !l.promiseF && effLevel s l == e)

/-- Bad records among those examined are dropped and counted (R319). -/
def dropBad (s : State) : Option State :=
  (s.allLaunches.filter fun l => !l.stopAll).findSome? fun l => (List.range l.cqCnt).findSome? fun q =>
    ((queueWindow s l q).find? fun t => badRecord l t.2).map fun t =>
      (takeRecord s l q t.1).mapLaunch l.num fun l => { l with badRec := l.badRec + 1 }

def execCohortDispatch (cluster : Nat) (s : State) : Out :=
  .next (match dropBad s with
    | some u => u
    | none => (dispatch s cluster).getD s)

/-! Pre-emption demand (R329). -/

/-- The unit grows to the cores of the cluster that hold cohorts of its gangs, or to every pinned core (14 R369). -/
def preemptUnit (s : State) (ctx core : Nat) : List Nat :=
  let here := (cohortsAt s core).filter fun c => (s.launch? c.launch).any fun l => l.ctx == ctx
  (core :: here.flatMap fun c => match s.launch? c.launch with
    | some l =>
      if l.travel then l.segs.flatMap (·.cores)
      else if l.f3 = 0 then []
      else (s.allCohorts.filter fun d => d.resident && d.launch == c.launch && gangNo l d.index == gangNo l c.index).map (·.core)
    | none => []).dedup
/-- What stays on the device when a context leaves the cores of a unit: cohorts, warps and pins of others. -/
def withoutUnit (s : State) (ctx : Nat) (cores : List Nat) : State :=
  let s := s.unfocus
  let ls := (s.launches.filter fun l => l.ctx == ctx).map (·.num)
  let gone := (s.cohorts.filter fun c => cores.contains c.core && ls.contains c.launch).map (·.id)
  { s with cohorts := s.cohorts.filter fun c => !gone.contains c.id, warps := s.warps.filter fun w => !gone.contains w.cid
           cores := s.cores.map fun k => if cores.contains k.id && k.pin.any fun t => ls.contains t.1 then { k with pin := none } else k }
/-- The context and core whose removal gives the launch room: cohorts all below its level by more than one. -/
def victimOf (s : State) (l : Launch) : Option (Nat × Nat) :=
  let e := effLevel s l
  match s.part? l.part with
  | none => none
  | some p =>
    let cands := (openClusters p).flatMap fun cl => (clusterCores cl).flatMap fun core =>
      let cs := cohortsAt s core
      (cs.filterMap fun c => (s.launch? c.launch).map (·.ctx)).dedup.filterMap fun x =>
        let mine := cs.filter fun c => (s.launch? c.launch).any fun m => m.ctx == x
        let ms := mine.filterMap fun c => s.launch? c.launch
        let less := withoutUnit s x (preemptUnit s x core)
        if ms.all (fun m => !m.promiseF && decide (effLevel s m + 1 < e)) && (offer less l cl).isSome then
          some ((ms.map (effLevel s)).foldl min 7, x, core) else none
    (List.range 8).findSome? fun lv => (cands.find? fun t => t.1 == lv).map (·.2)

/-- What the watch over a waiting launch does: it starts, stops, or chooses a context. -/
def preemptWatch (s : State) (l : Launch) : Option State :=
  let waits := hasReady s l && !((s.part? l.part).any fun p => p.clusters.any fun cl => (offer s l cl).isSome)
  match l.waitSince with
  | none => if waits then some (s.mapLaunch l.num fun l => { l with waitSince := some s.now }) else none
  | some t =>
    if !waits then some (s.mapLaunch l.num fun l => { l with waitSince := none })
    else if s.now < t + 100000 then none
    else (victimOf s l).map fun v => (s.mapLaunch l.num fun l => { l with waitSince := some s.now }).mapCtx v.1 fun c =>
      { c with preempt := (c.preempt ++ preemptUnit s v.1 v.2).dedup }

def execPreemptTrigger (launch : Nat) (s : State) : Out :=
  match s.launch? launch with
  | some l => .next (if l.stopAll || l.promiseF then s else (preemptWatch s l).getD s)
  | none => .next s

end Sys2Proof.Machine
end

