-- ==== Sys2Proof/Machine/Ports.lean ====
section
/-! DEFINITION. Commands of the debug ports, halts, breakpoints, views, samples, and the governor (16 R398 to R407 R411). -/

namespace Sys2Proof.Machine

/-! Claims (R399). -/

/-- A halted warp goes on; a breakpoint that has halted it is not tested again for the issue of its group. -/
def resumeWarp (w : Warp) : Warp := { w with halted := false, haltReq := false, stepping := false }

/-- The TOKEN of a freeze that a debugger may end: of kind 4 or 5 (14 R363). -/
def ownFreeze (w : Warp) : Option Nat := match w.frozen with
  | some (.fault t k) => if k = 4 ∨ k = 5 then some t else none
  | _ => none
/-- A RESUME or STEP takes a frozen fibre over: it goes on where its frontier stands. DEDUCED, log 83. -/
def takeOver (w : Warp) : Warp := let v := resumeWarp w; if (ownFreeze w).isSome then { v with frozen := none } else v
/-- The debugger resumes the halted warps that satisfy a test; the faults of those that it takes over are open no more. -/
def resumeWarps (s : State) (q : Warp → Bool) (f : Warp → Warp := id) : State :=
  let gone := (s.allWarps.filter fun w => w.halted && q w).filterMap ownFreeze
  { s.mapWarps (fun w => w.halted && q w) (fun w => f (takeOver w)) with faults := s.faults.filter fun x => !gone.contains x.token }

def ofLaunch (s : State) (num : Nat) (w : Warp) : Bool := (s.cohort? w.cid).any fun c => c.launch == num

/-- The warps that the claim on a launch halted go on, here and in saved contexts, and the claim ends. -/
def endClaim (s : State) (num : Nat) : State :=
  let s := s.mapWarps (fun w => ofLaunch s num w && (w.halted || w.haltReq || w.stepping)) resumeWarp
  let back := fun v : Saved =>
    let mine := (v.cohorts.filter fun c => c.launch == num).map (·.id)
    { v with warps := updWhere (fun w => mine.contains w.cid && (w.halted || w.haltReq || w.stepping)) resumeWarp v.warps }
  let each := fun c : Ctx => { c with saved := c.saved.map back }
  let s := { s with ctxs := s.ctxs.map each }
  s.mapLaunch num fun l => { l with claimer := none, trace := false, sample := false }

/-- Disarm every breakpoint of the ports of a partition that select a launch. -/
def disarm (s : State) (part num : Nat) : State :=
  let off := fun q : Port => if 16 * q.plaunch.toNat + part = num then { q with bps := q.bps.map fun b => { b with armed := false } } else q
  if s.windows.any fun x => x.part == part then s.mapWindow part fun x => { x with ports := x.ports.map off } else s

/-- The claims that a launch holds end with it. -/
def dropClaimsOf (s : State) (claimer : Nat) : State :=
  (s.allLaunches.filter fun l => l.claimer == some claimer).foldl (fun s l => endClaim (disarm s l.part l.num) l.num) s

/-! Commands (R398 R399). -/

def cmdCode (x : DWord) : Nat := (x.extractLsb' 0 8).toNat
def cmdIndex (x : DWord) : Nat := (x.extractLsb' 8 8).toNat

/-- A warp of the launch that is saved with its context and holds the thread. -/
def savedHolder (s : State) (num : Nat) (wid : DWord) : Option Warp :=
  (s.ctxs.flatMap (·.saved)).findSome? fun v => v.warps.find? fun w =>
    (v.cohorts.any fun c => c.id == w.cid && c.launch == num) && w.holds.lanes.any fun l => w.wid.getD l 0#64 == wid

/-- Ask a saved warp, or a saved cohort, to halt at resume. -/
def haltSaved (s : State) (q : Warp → Bool) : State :=
  let f := fun v : Saved => { v with warps := updWhere q (fun w => { w with haltReq := true, haltWhy := (0, 0) }) v.warps }
  { s with ctxs := s.ctxs.map fun c => { c with saved := c.saved.map f } }

def wantHalt (w : Warp) : Warp := if w.halted then w else { w with haltReq := true, haltWhy := (0, 0) }

/-- The result and the effect of a command. -/
def portCommand (s : State) (part p writer : Nat) (x : DWord) : Nat × State :=
  let q := s.port part p
  let num := 16 * q.plaunch.toNat + part
  let code := cmdCode x
  let b := cmdIndex x
  let flags := (x.extractLsb' 16 8).toNat
  if 2 ^ 24 ≤ x.toNat ∨ code = 0 ∨ 9 < code ∨ 4 ≤ flags ∨ (flags ≠ 0 ∧ code ≠ 1) ∨ 16 ≤ b then (5, s)
  else match s.launch? num with
  | none => (6, s)
  | some l =>
    if code = 1 then
      if num = writer then (5, s)
      else if l.claimer.any (· != writer) then (4, s)
      else (0, s.mapLaunch num fun l => { l with claimer := some writer, claimAt := s.cyc, trace := flags % 2 == 1, sample := flags / 2 == 1 })
    else if l.claimer != some writer then (1, s)
    else if code = 2 then (0, endClaim (s.mapPort part p fun q => { q with bps := q.bps.map fun b => { b with armed := false } }) num)
    else if code = 8 then
      if (q.bps.getD b {}).pc.toNat % 4 ≠ 0 then (5, s)
      else (0, s.mapPort part p fun q => { q with bps := q.bps.modify b fun y => { y with armed := true } })
    else if code = 9 then (0, s.mapPort part p fun q => { q with bps := q.bps.modify b fun y => { y with armed := false } })
    else match portWarp s part q with
    | none => match savedHolder s num q.pwid with
      | some w =>
        if code = 3 then (7, haltSaved s fun v => v.id == w.id)
        else if code = 4 then (7, haltSaved s fun v => v.cid == w.cid)
        else (7, s)
      | none => (2, s)
    | some w =>
      match code with
      | 3 => (0, s.mapWarps (fun v => v.id == w.id) wantHalt)
      | 4 => (0, s.mapWarps (fun v => v.cid == w.cid && v.holds != 0#32) wantHalt)
      | 5 => if w.halted then (0, resumeWarps s fun v => v.id == w.id) else (3, s)
      | 6 => (0, resumeWarps s fun v => v.cid == w.cid)
      | _ => if w.halted then (0, resumeWarps s (fun v => v.id == w.id) fun v => { v with stepping := true }) else (3, s)

/-- The event that runs a command: the first takes every code that names none. -/
def cmdEvent (x : DWord) : Nat := if cmdCode x = 0 ∨ 9 < cmdCode x then 1 else cmdCode x

/-- Run the next command of a port when the event is its own (port = 16 times the partition plus the port). -/
def portEvent (code port : Nat) (s : State) : Out :=
  let part := port / 16
  let p := port % 16
  match (s.port part p).cmds with
  | [] => .next s
  | (writer, x) :: _ =>
    if cmdEvent x ≠ code then .next s
    else
      let r := portCommand s part p writer x
      .next (r.2.mapPort part p fun q => { q with cmds := q.cmds.tail, completed := q.completed + 1, result := r.1 })

def execAttach (port : Nat) (s : State) : Out := portEvent 1 port s
def execDetach (port : Nat) (s : State) : Out := portEvent 2 port s
def execHalt (port : Nat) (s : State) : Out := portEvent 3 port s
def execHaltc (port : Nat) (s : State) : Out := portEvent 4 port s
def execResume (port : Nat) (s : State) : Out := portEvent 5 port s
def execResumec (port : Nat) (s : State) : Out := portEvent 6 port s
def execStep (port : Nat) (s : State) : Out := portEvent 7 port s
def execSetbp (port : Nat) (s : State) : Out := portEvent 8 port s
def execClrbp (port : Nat) (s : State) : Out := portEvent 9 port s

/-! Halts and breakpoints (R400 R402). -/

/-- A requested halt takes effect: the warp waits, or its earlier work is done. -/
def haltsNow (s : State) (w : Nat) : Bool :=
  liveTest s w fun t => t.w.haltReq && !t.w.halted && (t.w.stall.isSome || t.w.frozen.isSome || !unsettled t)

/-- The PC of the instruction that a waiting operand comes from. -/
def producerPc (s : State) : Cond → Option Word
  | .tiles ops => (s.k.seq.find? fun o => ops.contains o.id).map (·.pc)
  | _ => none
/-- The blame PC of a warp that waits at an entry (R406). -/
def blamePc (s : State) (e : Entry) : Word := match s.w.stall with
  | some x => if x.kind == .fetch then e.src else (producerPc s x.cond).getD e.pc
  | none => e.pc
/-- The entry at which a warp stands: the one to issue, or else its highest-ranked. -/
def standsAt (s : State) : Entry :=
  if s.cur.mask ≠ 0#32 then s.cur else (topEntry s.l s.w.front).getD { pc := s.w.exitPc, mask := 0#32 }

def haltWarp (s : State) : State :=
  let e := standsAt s
  let s := traceAt s e (blamePc s e) 3 s.w.haltWhy.1 0 s.w.haltWhy.2 0#32
  { s with w := { s.w with halted := true, haltReq := false, stepping := false }
           sl := { s.sl with passing := s.sl.passing || s.sl.cur == s.w.fibre } }

def execWarpHaltTakesEffect (w : Nat) (s : State) : Out := .next (if haltsNow s w then haltWarp (s.focus w) else s)

def execBreakpointHit (w : Nat) (s : State) : Out :=
  match breaksNow s w with
  | some b => .next (s.mapWarps (fun x => x.id == w) fun x => { x with haltReq := true, haltWhy := (1, b.2.1), bpSkip := some b })
  | none => .next s

/-! Views (R401). -/

/-- A debugger write of n bytes in one of the views. -/
def viewEvent (lo hi port off n : Nat) (val : DWord) (s : State) : Out :=
  .next (if lo ≤ off ∧ off + n ≤ hi then winWrite s (port / 16) (port % 16 * 0x1000000 + off) n (val.toNat % 256 ^ n) 0 else s)

def execRegviewWrite (port off n : Nat) (val : DWord) (s : State) : Out := viewEvent 0x10000 0x20000 port off n val s
def execFibviewWrite (port off n : Nat) (val : DWord) (s : State) : Out := viewEvent 0x20000 0x20800 port off n val s
def execShviewWrite (port off n : Nat) (val : DWord) (s : State) : Out := viewEvent 0x40000 0x80000 port off n val s
def execTileviewWrite (port off n : Nat) (val : DWord) (s : State) : Out := viewEvent 0x80000 0xC0000 port off n val s

def execViewRead (port off n : Nat) (s : State) : Out :=
  if 0x10000 ≤ off ∧ off + n ≤ 0xC0000 then
    let r := winRead s (port / 16) (port % 16 * 0x1000000 + off) n
    .next (r.2.mapPort (port / 16) (port % 16) fun q => { q with data := BitVec.ofNat 64 r.1 })
  else .next s

/-! Samples (R403 R405 R406). -/

def stallNo : StallKind → Nat
  | .operand => 2 | .queue => 3 | .memory => 4 | .rebind => 5 | .quota => 6 | .barrier => 7 | .wait => 8 | .regroup => 9 | .fetch => 10

/-- Kind, PC, BLAME and LANES of a sample of the warp in focus in a core cycle. -/
def sampleOf (s : State) (at_ : Nat) : Nat × Word × Word × Mask :=
  let e := (topEntry s.l s.w.front).getD { pc := s.w.exitPc, mask := 0#32 }
  let ready := if s.w.issuedIn.1 < at_ ∧ at_ ≤ s.w.issuedIn.2 then 0 else 1
  if s.w.holds = 0#32 then (11, s.w.exitPc, s.w.exitPc, 0#32)
  else if s.w.halted then (14, e.pc, e.pc, e.mask)
  else if isFrozen s.w then (13, e.pc, e.pc, e.mask)
  else if s.w.stopped && !s.w.trapMode then (12, e.pc, e.pc, e.mask)
  else if s.w.trapWait.isSome then (15, e.pc, e.pc, e.mask)
  else match s.w.stall with
  | some x => (stallNo x.kind, e.pc, blamePc s e, e.mask)
  | none => (if s.w.front.all (·.parked) then 9 else ready, e.pc, e.pc, e.mask)

/-- The partition of a core. -/
def partOf (s : State) (core : Nat) : Option Part := s.parts.find? fun p => p.clusters.contains (clusterOf core)

/-- The sampling period of a core, in core cycles. -/
def samplePeriod (s : State) (core : Nat) : Option Nat :=
  (partOf s core).bind fun p =>
    let n := (s.window p.id).speriod.toNat
    if 8 ≤ n ∧ n ≤ 24 then some (2 ^ n) else none

/-- The launches that are claimed with sampling and have cohorts on a core. -/
def sampled (s : State) (core : Nat) : List Launch :=
  s.allLaunches.filter fun l => l.claimer.isSome && l.sample && (cohortsAt s core).any fun c => c.launch == l.num
/-- The warps of resident claimed cohorts of a core: cohort index, warp index, launch; warp. -/
def sampleWarps (s : State) (core : Nat) : List ((Nat × Nat × Nat) × Nat) :=
  let ls := (sampled s core).map (·.num)
  ((cohortsAt s core).filter fun c => ls.contains c.launch).flatMap fun c =>
    (s.allWarps.filter fun w => w.cid == c.id).map fun w => ((c.index, w.lidx, c.launch), w.id)
def pairBelow (a b : Nat × Nat × Nat) : Bool :=
  decide (a.1 < b.1) || a.1 == b.1 && (decide (a.2.1 < b.2.1) || a.2.1 == b.2.1 && decide (a.2.2 < b.2.2))
/-- The least of pairs. -/
def firstPair (xs : List ((Nat × Nat × Nat) × Nat)) : Option ((Nat × Nat × Nat) × Nat) :=
  xs.foldl (fun b x => match b with
    | some y => if pairBelow x.1 y.1 then some x else b
    | none => some x) none
/-- The pair whose turn it is: the next above the one sampled last, or the first again. -/
def nextPair (s : State) (core : Nat) : Option ((Nat × Nat × Nat) × Nat) :=
  let xs := sampleWarps s core
  (firstPair (xs.filter fun x => (s.coreOf core).sampleLast.all fun p => pairBelow p x.1)).orElse fun _ => firstPair xs

/-- The core cycle of the next sample of a core: a multiple of the period, after the last one, the claim and the setting of the period. -/
def sampleAt (s : State) (core : Nat) : Option Nat :=
  match samplePeriod s core, sampled s core with
  | some n, l :: ls =>
    let since := max ((ls.map (·.claimAt)).foldl min l.claimAt) (((partOf s core).map fun p => (s.window p.id).periodAt).getD 0)
    some ((max (s.coreOf core).lastSample since / n + 1) * n)
  | _, _ => none

def sampleDue (s : State) (core : Nat) : Bool := (sampleAt s core).any fun t => decide (t ≤ s.cyc)

/-- Write one sample of the warp in focus in a core cycle. -/
def takeSample (at_ : Nat) (s : State) : State :=
  let (kind, pc, blame, lanes) := sampleOf s at_
  let wid := if s.w.holds = 0#32 then s.w.wid.getD 0 0#64 else widOf s.w s.w.holds
  ringPut s s.l.part false (ringRecord 1 kind 0 (recFlags s) 0 s.l.num wid pc blame lanes 0#32 s.now 0)

def execSample (core : Nat) (s : State) : Out :=
  match sampleAt s core with
  | some t =>
    if s.cyc < t then .next s
    else
      let p := nextPair s core
      let s := s.mapCore core fun k => { k with lastSample := t, sampleLast := p.map (·.1) }
      .next (match p with
        | some x => within s x.2 (takeSample t)
        | none => s)
  | none => .next s

/-! The governor (R411). -/

def governorDue (s : State) (cluster : Nat) : Bool := decide ((s.cluster cluster).govAt + 10000 ≤ s.now)

def execGovernorUpdate (cluster : Nat) (s : State) : Out :=
  .next (if governorDue s cluster then
    s.mapCluster cluster fun c =>
      let n := c.govAt / 10000
      { c with gov := if Config.hot n cluster || c.droop then min (c.gov + 1) 7 else if Config.cool n cluster then c.gov - 1 else c.gov
               govAt := c.govAt + 10000, droop := false }
  else s)

end Sys2Proof.Machine
end

