-- ==== Sys2Proof/Machine/Cohorts.lean ====
section
/-! DEFINITION. The ends of cohorts and launches, and the check mode's second run (04 R110, 09 R271 to R273, 12 R315 R318 R333 R334 R337
R339 R340). -/

namespace Sys2Proof.Machine

/-! Cohort completion (R110). -/

/-- Cargo of a cohort on its way or moored. -/
def cargoOf (s : State) (launch index : Nat) : Bool :=
  s.allCores.any fun k => (k.outb ++ k.moor).any fun c => c.launch == launch && c.cid == index

/-- Another record of the same cohort of a travelling launch, on another core. -/
def otherRecord (s : State) (c : Cohort) : Option Cohort :=
  s.allCohorts.find? fun d => d.resident && d.launch == c.launch && d.index == c.index && d.id != c.id

/-- The physical address of a cohort's join block; none when it cannot be reached. -/
def joinPa (s : State) (l : Launch) (va : DWord) : Option Nat :=
  match enginePas s l va { rd := true, wr := true, atomic := true } 64 with
  | .ok pas => pas.head?
  | .error _ => none

/-- The decrement of the cohort's join counter is to come. -/
def joins (c : Cohort) : Bool := c.exitJ && c.record.join != 0#64 && (c.done.isNone || c.done == some .completed)

/-- The decrement may be made: no claim of others and no earlier write stands at the block's line. -/
def joinFree (s : State) (l : Launch) (c : Cohort) : Bool :=
  !joins c || (match joinPa s l c.record.join with
    | some pa => !claimedAgainst s (pa / 128) c.id && !behindOthers s (pa / 128) none && routed s [pa / 128]
    | none => true)
/-- Agents that hold the block's line are asked first (11 R303). -/
def joinAsks (s : State) (l : Launch) (c : Cohort) : Option State :=
  if !joins c then none
  else match joinPa s l c.record.join with
  | some pa => askFor s [(pa / 128, true)]
  | none => none
/-- The last thread of a cohort has ended and its writes are performed. -/
def cohortDone (s : State) (cid : Nat) : Bool :=
  match s.cohort? cid with
  | none => false
  | some c =>
    c.resident && (s.everyWarp cid).isEmpty && !(s.held.any fun h => h.cid == cid)
      && !((s.coreOf c.core).seq.any fun o => o.cid == cid && o.hold.isNone)
      && !(s.clusters.any fun x => x.chans.any fun h => h.cmds.any fun m => m.cid == cid && (m.srcSh || m.dstSh) && m.stage != .held && !m.wordDue)
      && (match s.launch? c.launch with
          | none => true
          | some l => !(l.travel && (otherRecord s c).isNone && cargoOf s c.launch c.index) && joinFree s l c && (joinAsks s l c).all (asksMore s))

/-- A record of a travelling cohort that holds no thread any more joins the others. -/
def mergeRecord (s : State) (c d : Cohort) : State :=
  let s := s.unfocus
  { s with
    warps := s.warps.filter fun w => w.cid != c.id
    cohorts := (updWhere (fun x => x.id == d.id) (fun d => { d with exitJ := d.exitJ || c.exitJ, exitF := d.exitF || c.exitF }) s.cohorts).filter
      fun x => x.id != c.id }

/-- Decrement the join counter; at 0 the parent record waits for its queue (R318). -/
def joinStep (s : State) (l : Launch) (c : Cohort) : State :=
  let bad := fun s : State => s.mapLaunch l.num fun l => { l with badRec := l.badRec + 1 }
  if !joins c then s
  else match joinPa s l c.record.join with
  | none => bad s
  | some pa =>
    let b := (List.range 64).map fun i => engineByte s (pa + i)
    let count := fieldLe b 0 4
    let q := fieldLe b 4 1
    let s := homePerform (checkLine s l.num c.record.join (pa / 128)) (engineBytes s (placed pa (leBytes 4 (count + 2 ^ 32 - 1))))
    if count = 0 ∨ l.cqCnt ≤ q ∨ fieldLe b 5 27 ≠ 0 then bad s
    else if count = 1 then s.mapLaunch l.num fun l => { l with parents := l.parents ++ [(q, b.drop 32)] }
    else s

/-- Buffers and counts of a cohort that ends (R321 R110 step 2, R315). -/
def countEnd (c : Cohort) (l : Launch) : Launch :=
  let mark := c.exitF && (c.done.isNone || c.done == some .completed)
  let names := c.record.ins ++ c.record.outs
  { l with
    tbufs := updWhere (fun b => names.contains b.id)
      (fun b => { b with busy := false, full := if mark then c.record.outs.contains b.id else b.full }) l.tbufs
    exhausted := l.exhausted + (c.done == some .exhausted).toNat
    overBudget := l.overBudget + (c.done == some .overBudget).toNat
    doneIdx := if l.doneIdx.contains c.index then l.doneIdx else c.index :: l.doneIdx }

/-- What the cohort leaves on its core and in the engines goes. -/
def clearCohort (s : State) (c : Cohort) : State :=
  let s := (c.stash.map fun t => t.pa / 128).foldl recallLine s
  let s := s.unfocus
  let ws := (s.warps.filter fun w => w.cid == c.id).map (·.id)
  let mine := fun m : AmMsg => m.arrived && m.launch == c.launch && m.target.toNat == c.index
  let dropped := (s.cores.map fun k => (k.am.filter mine).length).sum
  let core := fun k : CoreS =>
    { k with am := k.am.filter fun m => !mine m, mseqParts := k.mseqParts.filter fun p => !ws.contains p.1
             allocs := k.allocs.filter fun a => a.1 != c.id }
  let chan := fun h : Channel => { h with parts := h.parts.filter fun p => !ws.contains p.1 }
  let cl := fun x : Cluster => { x with chans := x.chans.map chan }
  let die := fun d : Die => { d with thr := { d.thr with parts := d.thr.parts.filter fun p => !ws.contains p.1 } }
  let lists := c.hand.map (·.2)
  let core2 := fun k : CoreS => if k.id == c.core then
      { core k with tiles := updWhere (fun t => lists.contains t.phys) (fun t => { t with freed := true }) k.tiles } else core k
  dropAm { s with warps := s.warps.filter fun w => w.cid != c.id, cohorts := s.cohorts.filter fun x => x.id != c.id
                  cores := s.cores.map core2, clusters := s.clusters.map cl, dies := s.dies.map die
                  claims := s.claims.filter fun x => x.cid != c.id } c.launch dropped

def execCohortCompletion (c : Nat) (s : State) : Out :=
  match s.cohort? c with
  | none => .next s
  | some x =>
    if !cohortDone s c then .next s
    else match s.launch? x.launch with
    | none => .next (clearCohort s x)
    | some l =>
      match (if l.travel then otherRecord s x else none), joinAsks s l x with
      | some d, _ => .next (mergeRecord s x d)
      | none, some u => .next u
      | none, none =>
        let s := asCohort s c writeBackAll
        let s := joinStep s l ((s.cohort? c).getD x)
        let s := s.mapLaunch l.num (countEnd x)
        .next (clearCohort s ((s.cohort? c).getD x))

/-! Budgets and promises (R333 R334). -/

def budgetOver (s : State) (cid : Nat) : Bool :=
  match s.cohort? cid with
  | none => false
  | some c => c.resident && c.done.isNone && !(s.everyWarp cid).isEmpty && decide (c.budgetEnd ≤ s.now)
    && (s.launch? c.launch).any fun l => l.promiseF

def execBudgetEnd (c : Nat) (s : State) : Out := .next (if budgetOver s c then asCohort s c overBudget else s)

def drainOver (s : State) (launch : Nat) : Bool :=
  (s.launch? launch).any fun l => l.promiseF && !l.stopAll && decide (l.promise ≤ s.now + 4000)

/-- Held commands and open bin sets of a launch. -/
def heldCount (s : State) (num : Nat) : Nat :=
  (s.clusters.map fun c => (c.chans.map fun h => (h.cmds.filter fun m => m.launch == num && m.stage == .held).length).sum).sum
    + (s.allCores.map fun k => (k.seq.filter fun o => o.launch == num && o.hold.isSome).length).sum
    + (s.dies.map fun d => (d.thr.sets.filter fun b => b.launch == num).length).sum
/-- Discard the held commands and open bin sets of a launch; each counts (R339). A sequencer run that waited on one goes with them, and
so does what the Thresher had taken. -/
def dropHeld (s : State) (num : Nat) : State :=
  let n := heldCount s num
  let s := (s.mapLaunch num fun l => { l with heldDrop := l.heldDrop + n }).unfocus
  let chan := fun h : Channel => { h with cmds := h.cmds.filter fun m => !(m.launch == num && m.stage == .held) }
  let cl := fun x : Cluster => { x with chans := x.chans.map chan }
  let die := fun d : Die => { d with thr := { d.thr with sets := d.thr.sets.filter fun b => b.launch != num
                                                         cmds := d.thr.cmds.filter fun m => m.launch != num } }
  let core := fun k : CoreS => { k with seq := k.seq.filter fun o => o.launch != num || o.running && o.hold.isNone }
  { s with clusters := s.clusters.map cl, dies := s.dies.map die, cores := s.cores.map core }
/-- R334: every cohort ends, no write of theirs waits any longer, their copies fail, held work is discarded, and what has not been
dispatched counts as STRANDED. -/
def execPromiseDrainEnd (launch : Nat) (s : State) : Out :=
  if drainOver s launch then
    let live := (s.allCohorts.filter fun c => c.resident && c.launch == launch && c.done.isNone).map (·.id)
    let s := live.foldl (fun s c => asCohort s c overBudget) s
    let all := (s.allCohorts.filter fun c => c.launch == launch).map (·.id)
    let s := { s with held := s.held.filter fun h => !all.contains h.cid }
    let s := dropHeld (endCopies s (fun m => m.launch == launch) 4) launch
    .next (s.mapLaunch launch fun l => { l with stopAll := true, stranded := l.stranded + (l.ncoh - l.next) + l.parents.length, parents := [] })
  else .next s

/-! Launch end (R339 R340). -/

/-- An entry may be applied at its home: no claim, no earlier write and no agent stands there (09 R256, 11 R303). -/
def sheafFree (s : State) (x : SheafEntry) : Bool :=
  let n := x.pa / 128
  !(s.claims.any fun y => y.line == n) && !behindOthers s n none && (agentsAgainst s n true).isEmpty && routed s [n]
/-- Drain every entry that the launch has left in a sheaf buffer (R337). -/
def drainLast (s : State) (l : Launch) : State := if l.det then drainSheaf s fun x => x.launch == l.num else s
/-- The entries of the launch may be drained; those of a promise launch at its end wait for nothing (R334). -/
def drainFree (s : State) (l : Launch) : Bool :=
  (l.stopAll && l.promiseF) || (sheafEntries s).all fun x => x.launch != l.num || sheafFree s x
/-- Nothing of the launch is left to run, but for its drain (R340); a record is eligible here when it waits for nothing but room (R321). -/
def launchIdle (s : State) (l : Launch) : Bool :=
  !(s.allCohorts.any fun c => c.resident && c.launch == l.num)
    && !(s.ctxs.any fun c => c.saved.any fun v => v.cohorts.any fun x => x.launch == l.num)
    && (l.stopAll || (decide (l.ncoh ≤ l.next) && l.parents.isEmpty && !hasReady s l))
    && !(s.clusters.any fun c => c.chans.any fun h => h.cmds.any fun m => m.launch == l.num && m.stage != .held && !m.wordDue)
    && !(s.allCores.any fun k => (k.am.any fun m => m.launch == l.num && !m.arrived) || (k.seq.any fun o => o.launch == l.num && o.hold.isNone)
        || ((k.outb ++ k.moor).any fun c => c.launch == l.num))
/-- Agents that hold lines which the end writes, those of the drain and those that a second run restores, are asked first (11 R303). -/
def endAsks (s : State) (l : Launch) : Option State :=
  let mine : List SheafEntry := (sheafEntries s).filter fun x => x.launch == l.num
  let logged : List Nat := if l.check && l.checkRun == 1 then l.checkLog.map (fun t => t.2.1 / 128) else []
  askFor s ((linesOf (mine.map fun x => x.pa) ++ logged).map fun n => (n, true))
/-- The launch is over: nothing is left, and its drain can be made. -/
def launchOver (s : State) (l : Launch) : Bool := launchIdle s l && drainFree s l && ((l.stopAll && l.promiseF) || (endAsks s l).isNone)
/-- It has agents to ask before it is over. -/
def endWants (s : State) (l : Launch) : Option State :=
  if launchIdle s l && !launchOver s l then (endAsks s l).filter (asksMore s) else none

/-- Discard held work, bin sets, results, waiting messages and tiles of a launch (R339); completion words that wait for room stay. -/
def discardHeld (s : State) (num : Nat) : State :=
  let s := (dropHeld s num).unfocus
  let chan := fun h : Channel => { h with cmds := h.cmds.filter fun m => m.launch != num || m.wordDue }
  let cl := fun x : Cluster => { x with chans := x.chans.map chan }
  let die := fun d : Die => { d with thr := { d.thr with results := d.thr.results.filter fun r => r.1 != num } }
  let core := fun k : CoreS => { k with seq := k.seq.filter fun o => o.launch != num, tiles := k.tiles.filter fun t => t.launch != num
                                        am := k.am.filter fun m => m.launch != num, arrived := k.arrived.filter fun r => r.launch != num
                                        cpath := k.cpath.filter fun x => x.1 != num }
  { s with clusters := s.clusters.map cl, dies := s.dies.map die, cores := s.cores.map core }

/-- Messages that wait for a cohort that never started. -/
def waitingAm (s : State) (num : Nat) : Nat := (s.allCores.map fun k => (k.am.filter fun m => m.launch == num).length).sum

/-- Records left in the queues of a launch. -/
def leftRecords (s : State) (l : Launch) : Nat :=
  ((List.range l.cqCnt).map fun q => queueCount s l q 8 - queueCount s l q 0).sum

/-- The digest of the lines that a run wrote (R272): 32 bytes. -/
def digestOf (s : State) (l : Launch) : List Byte :=
  let n := (l.checkLog.map fun t => beNat (sha256 (leBytes 8 t.1.toNat ++ homeLine s (t.2.1 / 128)))).sum
  leBytes 32 (n % 2 ^ 256)

/-- Check status and DIGEST of the record (R273); the digest of a run that did not fit is a free value, and both are after a race
(10 R287). -/
def checkResult (s : State) (l : Launch) : Nat × List Byte :=
  if !l.check then (0, List.replicate 32 0#8)
  else if l.raced then (Config.wild s.fresh 0 % 4, (List.range 32).map fun i => Config.freeByte (s.fresh + i))
  else if l.checkLost then (3, (List.range 32).map fun i => Config.freeByte (s.fresh + i))
  else
    let d := digestOf s l
    (if l.digest1 == some d then 1 else 2, d)

/-- The final fields, and then STATE (R315). -/
def finalRecord (s : State) (l : Launch) : State :=
  let (status, digest) := checkResult s l
  let s := { s with fresh := s.fresh + 32 }
  let body := leBytes 4 (if l.failCoh.isSome then l.rbcode.toNat else 0) ++ leBytes 8 l.promise ++ leBytes 8 s.now
    ++ (match l.failCoh with | some i => leBytes 8 i | none => List.replicate 8 0xFF#8)
    ++ leBytes 4 l.exhausted ++ leBytes 4 l.overBudget ++ leBytes 4 l.amDrop ++ leBytes 4 l.taint ++ leBytes 4 l.badRec ++ leBytes 4 l.stranded
    ++ leBytes 8 (launchNo l.num) ++ leBytes 4 l.cohorts ++ leBytes 4 l.heldDrop ++ leBytes 24 0 ++ digest
  let s := writeAt s l (l.record + 4#64) ((body.take 4))
  let s := writeAt s l (l.record + 8#64) (body.drop 4)
  let state := if l.failing.isSome then 3 else 2
  -- STATE is written with release at SYS scope
  let s := match enginePa s l l.record wAcc with
    | .ok pa => noteFor s l.num ((List.range 4).map (pa + ·)) true
    | .error _ => s
  writeAt s l l.record (leBytes 4 (state * 2 ^ 24 + l.failing.getD 0 * 2 ^ 16 + status * 2 ^ 8
    + (decide (0 < l.overBudget)).toNat * 4 + (decide (0 < l.exhausted)).toNat * 2 + (decide (0 < l.taint)).toNat))

/-- The core was pinned for the launch. -/
def pinnedFor (num : Nat) (k : CoreS) : Bool :=
  match k.pin with
  | some t => t.1 == num
  | none => false

/-- A core after the end of a launch. -/
def unpin (num : Nat) (k : CoreS) : CoreS :=
  { k with pin := if pinnedFor num k then none else k.pin, moorFullSince := if pinnedFor num k then none else k.moorFullSince
           sheaf := k.sheaf.filter fun x => x.launch != num }

/-- The launch is gone: its claims, faults, pins, marks and reads; other travelling launches take the cores (13 R347). -/
def removeLaunch (s0 : State) (l : Launch) : State :=
  let s : State := (dropClaimsOf s0 l.num).unfocus
  let s : State := { s with launches := s.launches.filter (fun x : Launch => x.num != l.num)
                            faults := s.faults.filter (fun f : OpenFault => f.launch != l.num)
                            marks := s.marks.filter (fun m : Nat × Nat => m.2 != l.num)
                            devRead := s.devRead.filter fun x => x.launch != l.num
                            cores := s.cores.map (unpin l.num) }
  repin s

/-- The local places of the bytes of overflow chunks. -/
def huskPas (s : State) (l : Launch) (base : DWord) (chunks : Nat) : List Nat :=
  (List.range (1024 * chunks)).filterMap fun i => (enginePa s l (base + BitVec.ofNat 64 i) {}).toOption
/-- The overflow chunks that a launch has used hold entries whose bytes the manual does not lay out; the context's release zeroes
them (09 R251, 17 R419). -/
def leaveHusk (s : State) (l : Launch) : State :=
  if l.huskTop = 0 then s
  else
    let pas := huskPas s l l.huskBase l.huskTop
    { s.mapCtx l.ctx (fun c => { c with husk := c.husk ++ [(l.huskBase, l.huskTop)] }) with
      fresh := s.fresh + pas.length, mem := memPuts s.mem (pas.zipIdx.map fun t => (t.1, Config.freeByte (s.fresh + t.2))) }

def endLaunch (s : State) (l : Launch) : State :=
  let s := drainLast s l
  let am := waitingAm s l.num
  let left := leftRecords s l
  let s := (discardHeld s l.num).mapLaunch l.num fun l => { l with amDrop := l.amDrop + am, stranded := l.stranded + left }
  match s.launch? l.num with
  | some m => removeLaunch (leaveHusk (finalRecord s m) m) m
  | none => s

/-- A first run that is over starts the second one (R271); any other run that is over ends the launch. -/
def restarts (l : Launch) : Bool := l.check && l.checkRun == 1 && !l.checkLost && !l.stopAll

def execLaunchEnd (launch : Nat) (s : State) : Out :=
  match s.launch? launch with
  | some l => .next (if restarts l then s else if launchOver s l then endLaunch s l else (endWants s l).getD s)
  | none => .next s

/-- Steps 2 to 4 of R271. -/
def restartRun (s : State) (l : Launch) : State :=
  let s := discardHeld (drainLast s l) l.num
  match s.launch? l.num with
  | none => s
  | some m =>
    let d := digestOf s m
    if m.checkLost then s
    else
      let s := m.checkLog.reverse.foldl (fun s t => homeWrite s (placed t.2.1 t.2.2)) s
      let s := (List.range m.cqCnt).foldl (fun s q => writeAt s m (queueBase m q) (leBytes 16 0)) s
      s.mapLaunch m.num fun l =>
        { l with next := 0, spawnedRun := 0, turn := 0, taint := 0, exhausted := 0, overBudget := 0, failCoh := none, rbcode := 0#16
                 amDrop := 0, badRec := 0, stranded := 0, cohorts := 0, heldDrop := 0, parents := [], doneIdx := [], checkRun := 2
                 checkLog := [], digest1 := some d
                 tbufs := l.tbufs.map fun b => { b with busy := false, full := l.tbFull.contains b.id } }

def execCheckRunRestart (launch : Nat) (s : State) : Out :=
  match s.launch? launch with
  | some l => .next (if !restarts l then s else if launchOver s l then restartRun s l else (endWants s l).getD s)
  | none => .next s

end Sys2Proof.Machine
end

