-- ==== Sys2Proof/Machine/Convert.lean ====
section
/-! DEFINITION. Conversions, quantise and dequantise (05 R141 to R146, 02 R47 to R51). -/

namespace Sys2Proof.Machine

/-- F2I (02 R50). -/
def toSigned (mode : Mode) (flush : Bool) (a : Word) : Word × Flags :=
  match f32.read flush a.toNat with
  | .nan _ => (0#32, flNV)
  | .inf n => (if n then 0x80000000#32 else 0x7FFFFFFF#32, flNV)
  | .fin n m e =>
    let r := roundInt mode n m e
    let v : Int := if n then -(r.1 : Int) else r.1
    if 2 ^ 31 ≤ v then (0x7FFFFFFF#32, flNV)
    else if v < -(2 ^ 31) then (0x80000000#32, flNV)
    else (narrow 32 v, if r.2 then flNX else noFlags)

/-- F2U (02 R50). -/
def toUnsigned (mode : Mode) (flush : Bool) (a : Word) : Word × Flags :=
  match f32.read flush a.toNat with
  | .nan _ => (0#32, flNV)
  | .inf n => (if n then 0#32 else 0xFFFFFFFF#32, flNV)
  | .fin n m e =>
    let r := roundInt mode n m e
    if n && r.1 != 0 then (0#32, flNV)
    else if 2 ^ 32 ≤ r.1 then (0xFFFFFFFF#32, flNV)
    else (BitVec.ofNat 32 r.1, if r.2 then flNX else noFlags)

/-- A value moved from one wide format to another (02 R51): the input and the result flush by their formats. -/
def reformat (src dst : Fmt) (v : FEnv) (code : Nat) : Nat × Flags :=
  let x := src.read (v.flushOf src) code
  let r := dst.deliver v.mode (v.flushOf dst) x
  (r.1, r.2 ||| nvSig [x])

def execF2i (p : Px) (f : UForm) (s : State) : Out := fpu1 p f (fun v a => toSigned v.mode v.flush32 a) s
def execF2iRz (p : Px) (f : UForm) (s : State) : Out := fpu1 p f (fun v a => toSigned 1#2 v.flush32 a) s
def execF2u (p : Px) (f : UForm) (s : State) : Out := fpu1 p f (fun v a => toUnsigned v.mode v.flush32 a) s
def execF2uRz (p : Px) (f : UForm) (s : State) : Out := fpu1 p f (fun v a => toUnsigned 1#2 v.flush32 a) s
def execI2f (p : Px) (f : UForm) (s : State) : Out :=
  fpu1 p f (fun v a => asWord (f32.round v.mode v.flush32 a.msb a.toInt.natAbs 0)) s
def execU2f (p : Px) (f : UForm) (s : State) : Out :=
  fpu1 p f (fun v a => asWord (f32.round v.mode v.flush32 false a.toNat 0)) s

/-- The half-writing forms keep the other half of D (R123 R142). -/
def packHalf (p : Px) (f : UForm) (dst : Fmt) (h : Nat) (s : State) : Out :=
  runNext p s (do
    readable f.a; writable f.d; notQueue f.d
    let (a, t) ← readA s p f.a
    let (d, t) ← readOpnd t f.d
    let t ← kill f.a f.ka 1 t
    writeFlagged t f.d (s.active p f.g) fun l =>
      let r := reformat f32 dst (fenv s p) (a.get l).toNat
      let c : BitVec 16 := BitVec.ofNat 16 r.1
      (if h = 0 then (d.get l).extractLsb' 16 16 ++ c else c ++ (d.get l).extractLsb' 0 16, r.2))

def execF2hLo (p : Px) (f : UForm) (s : State) : Out := packHalf p f f16 0 s
def execF2hHi (p : Px) (f : UForm) (s : State) : Out := packHalf p f f16 1 s
def execF2bLo (p : Px) (f : UForm) (s : State) : Out := packHalf p f b16 0 s
def execF2bHi (p : Px) (f : UForm) (s : State) : Out := packHalf p f b16 1 s

/-- H2F and B2F. -/
def unpackHalf (p : Px) (f : UForm) (src : Fmt) (h : Nat) (s : State) : Out :=
  fpu1 p f (fun v a => asWord (reformat src f32 v (halfOf a h))) s

def execH2fLo (p : Px) (f : UForm) (s : State) : Out := unpackHalf p f f16 0 s
def execH2fHi (p : Px) (f : UForm) (s : State) : Out := unpackHalf p f f16 1 s
def execB2fLo (p : Px) (f : UForm) (s : State) : Out := unpackHalf p f b16 0 s
def execB2fHi (p : Px) (f : UForm) (s : State) : Out := unpackHalf p f b16 1 s

/-! QNT and DEQ. -/

/-- Fields of a conversion descriptor (R143). -/
def dScale (d : Word) : Nat := d.toNat % 256
def dFmt (d : Word) : Nat := d.toNat / 256 % 16
def dRnd (d : Word) : Nat := d.toNat / 4096 % 4
def dSat (d : Word) : Bool := d.getLsbD 14
def fourBit (fmt : Nat) : Bool := fmt == 2 || fmt == 4

/-- Lanes whose descriptor raises QNT.DESC (R145). -/
def badDesc (m : Mask) (bad : Nat → Bool) : Except Exc Unit :=
  let x := maskOf fun l => m.has l && bad l
  if x = 0#32 then .ok () else .error (.fault fcQnt 0#64 (some x))

/-- Element codes packed from bit 0 upward (02 R39). -/
def packElems (bits : Nat) (cs : List Nat) : Word :=
  BitVec.ofNat 32 ((cs.zipIdx.map fun t => t.1 * 2 ^ (bits * t.2)).sum)

def execQnt (p : Px) (f : RForm) (s : State) : Out :=
  runNext p s (do
    readable f.b; writable f.d
    match f.a with
    | .v n => do
      need (n.val % 4 == 0) fcOpnd
      let (b, t) ← readB s p f.b
      let m := s.active p f.g
      badDesc m fun l => decide (5 ≤ dFmt (b.get l)) || decide (2 ≤ dRnd (b.get l)) || (fourBit (dFmt (b.get l)) && n.val % 8 != 0)
      let k := if m.lanes.any fun l => fourBit (dFmt (b.get l)) then 8 else 4
      let src := (List.range k).map fun i => match permA p with
        | some (pat, q) => permuted t f.a pat q (readV t (n.val + i))
        | none => readV t (n.val + i)
      let t ← kill f.a f.ka k t
      let t ← kill f.b f.kb 1 t
      writeD t f.d m (lanesOf fun l =>
        let d := b.get l
        let bits := if fourBit (dFmt d) then 4 else 8
        packElems bits ((src.take (32 / bits)).map fun v =>
          quantElem (f32.read false (v.get l).toNat) (dScale d) (dFmt d) (dRnd d == 1) (dSat d)))
    | _ => raise fcOpnd)

def execDeq (p : Px) (f : RForm) (s : State) : Out :=
  runNext p s (do
    readable f.a; readable f.b; writable f.d
    let (a, t) ← readA s p f.a
    let (b, t) ← readB t p f.b
    let m := s.active p f.g
    let ix := fun l => (b.get l).toNat / 2 ^ 16 % 8
    badDesc m fun l => decide (5 ≤ dFmt (b.get l)) || decide (2 ≤ dRnd (b.get l)) || (!fourBit (dFmt (b.get l)) && decide (4 ≤ ix l))
    let t ← kill f.a f.ka 1 t
    let t ← kill f.b f.kb 1 t
    writeD t f.d m (lanesOf fun l =>
      let d := b.get l
      BitVec.ofNat 32 (dequant (packedElem (if fourBit (dFmt d) then 4 else 8) (ix l) (a.get l)) (dFmt d) (dScale d) (dRnd d == 1) (dSat d))))

end Sys2Proof.Machine
end

