-- ==== Sys2Proof/Machine/Travel.lean ====
section
/-! DEFINITION. Travelling threads: departure, the outbound buffer, landing, warps from the mooring queue, replication (13 R347 to R359). -/

namespace Sys2Proof.Machine

/-! Departure (R349 R350). -/

/-- The cargo that leaves the warp in focus next: built, with room in the buffer. A pre-emption stops departures (R360), and lanes
that a handler has taken wait for its TRET (R347). -/
def departs (s : State) : Option Cargo :=
  if s.w.resident && s.l.travel && !s.w.trapMode && !preempted s s.l.ctx s.k.id && !unsettled s && decide (outUsed s < 64) then
    s.k.outb.find? fun c => c.warp == s.w.id && !c.placed
  else none

/-- Lanes leave the frontier. -/
def dropLanes (m : Mask) (front : List Entry) : List Entry :=
  (front.map fun e => { e with mask := e.mask &&& ~~~ m, rbLanes := e.rbLanes &&& ~~~ m }).filter fun e => e.mask != 0#32

/-- Depart: the cargo takes its place in the buffer, its lanes leave the warp; no thread ends. -/
def depart (s : State) (c : Cargo) : State :=
  let seq := (assoc c.target s.k.sentTo).getD 0
  let s := { s with
    k := { s.k with outb := s.k.outb.erase c ++ [{ c with placed := true, seq := seq }], sentTo := assocPut c.target (seq + 1) s.k.sentTo }
    w := { s.w with front := dropLanes c.lanes s.w.front, holds := s.w.holds &&& ~~~ c.lanes } }
  if s.w.holds = 0#32 then endWarp s c.pc else regroupCheck s

def departDue (s : State) (w : Nat) : Bool := liveTest s w fun t => (departs t).isSome

def execCargoDeparture (w : Nat) (s : State) : Out :=
  .next (if departDue s w then
    let t := s.focus w
    (match departs t with
     | some c => depart t c
     | none => t)
  else s)

/-! The network (R353 to R355). -/

/-- Cargoes that hold an entry of a core: moored, or sent and still on the way. -/
def entriesOf (s : State) (core : Nat) : List Cargo :=
  (s.coreOf core).moor ++ s.allCores.flatMap fun k => k.outb.filter fun c => c.sent && c.target == core

/-- The entry that a cargo may take: general (false) or one of its die's reserved ones (true). -/
def entryFor (s : State) (c : Cargo) : Option Bool :=
  let es := entriesOf s c.target
  if (es.filter fun x => !x.reserved).length < 56 then some false
  else if c.returning && decide ((es.filter fun x => x.reserved && dieOf x.sender == dieOf c.sender).length < 2) then some true
  else none

/-- Cargo i of a core's buffer can be sent: it is the first for its target that waits there. -/
def retryDue (s : State) (core i : Nat) : Option Bool :=
  let cs := (s.coreOf core).outb
  match cs[i]? with
  | some c =>
    if c.sent || !c.placed || (cs.any fun x => x.placed && !x.sent && x.target == c.target && decide (x.seq < c.seq))
      || (s.launch? c.launch).any (fun l => preempted s l.ctx core) then none else entryFor s c
  | none => none

def execCargoRetry (core i : Nat) (s : State) : Out :=
  match retryDue s core i with
  | some r => .next (s.mapCore core fun k => { k with outb := k.outb.modify i fun c => { c with sent := true, reserved := r } })
  | none => .next s

/-- Cargo i of a core's buffer lands: it is on the way, and every earlier one for its target has landed. -/
def landDue (s : State) (core i : Nat) : Option Cargo :=
  let cs := (s.coreOf core).outb
  match cs[i]? with
  | some c => if c.sent && !(cs.any fun x => x.placed && x.target == c.target && decide (x.seq < c.seq)) then some c else none
  | none => none

def execCargoLanding (core i : Nat) (s : State) : Out :=
  match landDue s core i with
  | none => .next s
  | some c =>
    let s := s.mapCore core fun k => { k with outb := k.outb.eraseIdx i }
    .next (s.mapCore c.target fun k =>
      let moor := k.moor ++ [c]
      { k with moor := moor, moorFullSince := if moor.length < 48 then none else k.moorFullSince.orElse fun _ => some s.now })

/-! Landing warps (R356). -/

/-- A quarter with a fibre place and registers for a landing warp. -/
def landPlace (s : State) (l : Launch) (core quota : Nat) : Option (Nat × Nat × Nat) :=
  (List.range 4).findSome? fun q =>
    if quota ≤ poolFree s core q then (freeSlot s core q l.num).map fun t => (q, t, freeFibre s core q t) else none

def landReady (s : State) (core : Nat) : Option (Cargo × Launch × (Nat × Nat × Nat)) :=
  match (s.coreOf core).moor with
  | [] => none
  | c :: _ => match s.launch? c.launch with
    | none => none
    | some l =>
      if l.stopAll || !(s.coreOf core).pin.any (fun t => t.1 == l.num) || (cohortsAt s core).any (fun x => x.launch != l.num)
          || preempted s l.ctx core then none
      else (landPlace s l core c.quota).map fun p => (c, l, p)

def execLandedWarpStart (core : Nat) (s : State) : Out :=
  match landReady s core with
  | none => .next s
  | some (c, l, p) =>
    let s := s.mapCore core fun k =>
      let moor := k.moor.tail
      { k with moor := moor, moorFullSince := if moor.length < 48 then none else k.moorFullSince }
    let cid := s.nextId
    let co : Cohort := { id := cid, core := core, launch := l.num, index := c.cid, warpsN := 1, resident := true
                         record := { streamRecord l c.cid with
                           widBase := BitVec.ofNat 64 (c.cid * 32), code := c.pc } }
    -- the record of the cohort goes with its threads
    let co := { co with record := ((s.allCohorts.find? fun x => x.launch == l.num && x.index == c.cid).map (·.record)).getD co.record }
    let w : Warp := { freshWarp l (s.nextId + 1) cid core p 0 c.widBase c.pc with
      holds := c.lanes, front := [{ pc := c.pc, mask := c.lanes, src := c.pc }], regs := c.names, winbase := c.winbase, quota := c.quota
      sregs := c.sregs, preds := c.preds, lnk := c.lnk, fpmode := c.fpmode, fpflags := c.fpflags, trapen := c.trapen
      timerLo := c.timerLo, timerCmp := c.timerCmp, timerEn := c.timerEn, timerOne := c.timerOne, timerPend := c.timerPend
      waitlim := c.waitlim, rbcause := c.rbcause, rbcode := c.rbcode, chipHi := c.chipHi, sysRel := c.sysRel, hostSeen := c.hostSeen
      hostPend := c.hostPend, hostGot := c.hostGot }
    .next (addWarp { s with nextId := s.nextId + 2, cohorts := s.cohorts ++ [co] } w)

/-! Replication (R358). -/

def replicateDue (s : State) (core : Nat) : Bool :=
  (s.coreOf core).moorFullSince.any fun t => decide (t + 10000 ≤ s.now)

/-- An idle core of the partition outside the reservation. -/
def idleCore (s : State) (p : Part) : Option Nat :=
  (travelCores p).find? fun c => (s.coreOf c).pin.isNone && (cohortsAt s c).isEmpty

def execSegmentReplication (core : Nat) (s : State) : Out :=
  if !replicateDue s core then .next s
  else
    let again := s.mapCore core fun k => { k with moorFullSince := some s.now }
    match (s.coreOf core).pin with
    | none => .next again
    | some (num, g) => match s.launch? num with
      | none => .next again
      | some l =>
        let n := ((l.segs[g]?).map fun x => x.cores.length).getD 16
        match (s.part? l.part).bind (idleCore s) with
        | some c =>
          if 16 ≤ n then .next again
          else
            let s := again.mapCore c fun k => { k with pin := some (num, g) }
            .next (s.mapLaunch num fun l => { l with segs := l.segs.modify g fun x => { x with cores := x.cores ++ [c] }, gen := l.gen + 1 })
        | none => .next again

end Sys2Proof.Machine
end

