-- ==== Sys2Proof/Machine/Preempt.lean ====
section
/-! DEFINITION. Pre-emption and resume (07 R218, 14 R369 to R376, 13 R360). -/

namespace Sys2Proof.Machine

/-! Pre-emption (R370). -/

/-- The resident cohorts of a context on a core. -/
def unitCohorts (s : State) (ctx core : Nat) : List Cohort :=
  (cohortsAt s core).filter fun c => (s.launch? c.launch).any fun l => l.ctx == ctx
def unitLaunches (s : State) (ctx : Nat) : List Nat := (s.allLaunches.filter fun l => l.ctx == ctx).map (·.num)
/-- A transfer or a transform that has to complete; the rows of a broadcast that has been read wait with it (R218). -/
def mustFinish (o : TileOp) : Bool :=
  match o.work with
  | .mm _ _ _ _ _ => false
  | .load _ _ _ nth => nth == 0 || o.doneSteps == 0
  | _ => true
/-- Steps 1 to 3 have ended on a core: no rollback under way, no cohort whose last thread has ended (R371), the tile transfers of the
unit, its copies with shared memory and its Thresher commands done, no cargo of its launches on the network. -/
def quiesced (s : State) (ctx core : Nat) : Bool :=
  let cs := unitCohorts s ctx core
  let ids := cs.map (·.id)
  let ls := unitLaunches s ctx
  let ws := (s.allWarps.filter fun w => ids.contains w.cid).map (·.id)
  cs.all (fun c => c.done.isNone && (c.failing.isNone || c.conv.any (·.rolled))
      && (!(s.everyWarp c.id).isEmpty || cargoOf s c.launch c.index))
    && !((s.coreOf core).seq.any fun o => ids.contains o.cid && o.running && mustFinish o)
    && !(s.clusters.any fun x => x.chans.zipIdx.any fun h => h.1.cmds.any fun m =>
      ids.contains m.cid && (m.srcSh || m.dstSh) && m.stage != .held && !(m.wordDue && doneFull s x.id h.2))
    -- a trap enters before the snapshot (R376)
    && !(ws.any fun w => timerEnters s w || shadowFree s w)
    && !((s.die (dieOf core)).thr.cmds.any fun m => ws.contains m.warp)
    && !(s.allCores.any fun k => k.outb.any fun c => c.sent && ls.contains c.launch && (c.target == core || k.id == core))

/-- K-steps that have begun after e core cycles: a running loop stops at the end of the one under way (R218). -/
def stepsBegun : List Nat → Nat → Nat
  | [], _ => 0
  | c :: t, e => if e = 0 then 0 else stepsBegun t (e - 3 * c) + 1
/-- A saved entry of the sequencer starts again at its checkpoint. -/
def parkOp (k : CoreS) (now : Nat) (o : TileOp) : TileOp :=
  if !o.running then o
  else
    let n := match o.work with
      | .mm _ _ _ steps d => stepsBegun ((steps.drop o.doneSteps).map (stepCycles k d)) (now + workTime k o.rest - o.due)
      | _ => 0
    { o with running := false, due := 0, doneSteps := o.doneSteps + n }
/-- The levels that hold the pins of a slot: cohort and depth of the innermost one of each cohort. -/
def pinLevels (v : Saved) (t : Nat × Nat) : List ((Nat × Nat) × Nat × Nat) :=
  let ws := slotWarps v t.1 t.2
  v.cohorts.filterMap fun c => (c.levels.findIdx? fun x => x.log.any fun e => match e with
    | .reg w _ (some _) => ws.contains w
    | _ => false).map fun i => (t, c.id, c.levels.length - i)
/-- Slots whose pins find no chunk when a unit is saved, slot by slot while chunks are free (R373). -/
def shortLevels (s : State) (v : Saved) : List ((Nat × Nat) × Nat × Nat) :=
  let ls := (v.cohorts.map (·.launch)).dedup.filterMap s.launch?
  ls.flatMap fun l =>
    let own := (((v.cohorts.filter fun c => c.launch == l.num).flatMap (·.levels)).map (·.chunks)).sum
    ((savedSlots v l).foldl (fun (a : Nat × List ((Nat × Nat) × Nat × Nat)) t =>
      let n := pinChunks v t
      if n = 0 ∨ a.1 + n ≤ l.huskKib then (a.1 + n, a.2) else (a.1, a.2 ++ pinLevels v t))
      (chunksUsed s l l.checkLog.length + own, [])).2
/-- The Thresher's open sets and results of launches that leave a die with their last cohort there. -/
def lastOnDie (s : State) (core : Nat) (cs : List Cohort) (launch : Nat) : Bool :=
  (cs.any fun c => c.launch == launch)
    && !(s.allCohorts.any fun c => c.resident && c.launch == launch && dieOf c.core == dieOf core)
    && !((s.die (dieOf core)).thr.cmds.any fun m => m.launch == launch)
/-- A command that goes with its unit: held, or with shared memory and a completion word that finds its queue full (R370 R372). -/
def goesAlong (ids : List Nat) (m : CopyCmd) : Bool := ids.contains m.cid && (m.stage == .held || (m.wordDue && (m.srcSh || m.dstSh)))
/-- Take the parts, held commands and completion words of a unit out of its engines. -/
def takeEngines (s : State) (core : Nat) (ids wids : List Nat) (last : Nat → Bool) (v : Saved) : Saved × State :=
  let cl := clusterOf core
  let chans := (s.cluster cl).chans.zipIdx
  let thr := (s.die (dieOf core)).thr
  let v := { v with
    copyParts := chans.flatMap fun h => (h.1.parts.filter fun p => wids.contains p.1).map fun p => (h.2, p)
    heldCmds := chans.flatMap fun h => (h.1.cmds.filter (goesAlong ids)).map fun m => (h.2, m)
    doneWords := (chans.map fun h => (h.2, h.1.words.filter fun x => ids.contains x.1)).filter fun t => !t.2.isEmpty
    thrParts := thr.parts.filter fun p => wids.contains p.1
    sets := thr.sets.filter fun b => last b.launch, results := thr.results.filter fun r => last r.1 }
  let chan := fun h : Channel => { h with
    parts := h.parts.filter fun p => !wids.contains p.1
    cmds := h.cmds.filter fun m => !goesAlong ids m
    words := h.words.filter fun x => !ids.contains x.1 }
  let die := fun t : Thresher => { t with
    parts := t.parts.filter fun p => !wids.contains p.1, sets := t.sets.filter fun b => !last b.launch
    results := t.results.filter fun r => !last r.1 }
  (v, mapThr (s.mapCluster cl fun c => { c with chans := c.chans.map chan }) (dieOf core) die)
/-- What leaves a core with a unit: nothing of it stays, its L1 lines are dropped (R370 step 6). -/
def vacate (ls ids wids : List Nat) (k : CoreS) : CoreS :=
  let ops := (k.seq.filter fun o => ids.contains o.cid).map (·.id)
  let free := k.pin.any fun t => ls.contains t.1
  { k with
    tiles := k.tiles.filter fun t => !ls.contains t.launch, seq := k.seq.filter fun o => !ids.contains o.cid
    mseqParts := k.mseqParts.filter fun p => !wids.contains p.1, sheaf := k.sheaf.filter fun x => !ls.contains x.launch
    arrived := k.arrived.filter fun r => !ops.contains r.id, allocs := k.allocs.filter fun a => !ids.contains a.1, l1 := []
    cpath := k.cpath.filter fun x => !ls.contains x.1, pin := if free then none else k.pin
    moorFullSince := if free then none else k.moorFullSince
    moor := k.moor.filter fun c => !ls.contains c.launch, outb := k.outb.filter fun c => !ls.contains c.launch }
/-- Steps 4 to 6 on one core: write back the stash, take everything of the unit off the core. A warp that has ended is not saved
(R371); the mooring and outbound regions of a travelling launch stay with the context (13 R360). -/
def saveUnit (ctx : Nat) (s : State) (core : Nat) : State :=
  let ids := (unitCohorts s ctx core).map (·.id)
  let s := ((unitCohorts s ctx core).flatMap fun c => c.stash.map fun t => t.pa / 128).foldl recallLine s
  let s := s.unfocus
  let ls := unitLaunches s ctx
  let k := s.coreOf core
  let ws := s.warps.filter fun w => ids.contains w.cid && w.holds != 0#32
  let wids := (s.warps.filter fun w => ids.contains w.cid).map (·.id)
  let mine := fun t : Slot => ws.any fun w => sameSlot w t
  let ops := (k.seq.filter fun o => ids.contains o.cid).map (·.id)
  let v : Saved :=
    { core := core, warps := ws, slots := s.slots.filter mine, cohorts := s.cohorts.filter fun c => ids.contains c.id
      tiles := k.tiles.filter fun t => ls.contains t.launch, seq := (k.seq.filter fun o => ids.contains o.cid).map (parkOp k s.cyc)
      mseqParts := k.mseqParts.filter fun p => wids.contains p.1, sheaf := k.sheaf.filter fun x => ls.contains x.launch
      arrived := k.arrived.filter fun r => ops.contains r.id, allocs := k.allocs.filter fun a => ids.contains a.1
      pts := k.pts, nextOp := k.nextOp, at_ := s.cyc
      pin := k.pin.filter fun t => ls.contains t.1, moor := k.moor.filter fun c => ls.contains c.launch
      outb := k.outb.filter fun c => ls.contains c.launch }
  let s : State := { s with
    warps := s.warps.filter fun w => !ids.contains w.cid
    slots := s.slots.filter fun t => !mine t
    cohorts := s.cohorts.filter fun c => !ids.contains c.id }
  let (v, s) := takeEngines (s.mapCore core (vacate ls ids wids)) core ids wids (lastOnDie s core v.cohorts) v
  let v := { v with short := shortLevels s v }
  s.mapCtx ctx fun c => { c with saved := if v.cohorts.isEmpty && v.pin.isNone then c.saved else c.saved ++ [v]
                                 preempt := c.preempt.filter fun x => x != core }
/-- Every core of the context's unit is ready to be saved: they are saved together. -/
def preemptDue (s : State) (ctx core : Nat) : Bool :=
  (s.ctx? ctx).any fun c => c.preempt.contains core && !c.killed && c.preempt.all (quiesced s ctx)
def saveAll (s : State) (ctx : Nat) : State := repin (((s.ctx? ctx).map (·.preempt)).getD [] |>.foldl (saveUnit ctx) s)
def execPreemption (ctx core : Nat) (s : State) : Out := .next (if preemptDue s ctx core then saveAll s ctx else s)

/-! The numbers of tiles, storages and sequencer entries move past those in use on the core (R375 step 2). -/

def TileWork.shift (d : Nat) : TileWork → TileWork
  | .load dst m n a => .load (dst + d) m n a
  | .store src m g => .store (src + d) m g
  | .mm dst old acc steps depth => .mm (dst + d) (old + d) acc (steps.map fun t => (t.1 + d, t.2 + d)) depth
  | .hadt dst src n q => .hadt (dst + d) (src + d) n q
def TileOp.shift (d e : Nat) (o : TileOp) : TileOp :=
  { o with id := o.id + e, work := o.work.shift d, old := o.old.map (· + d)
           pattern := o.pattern.map fun t => t.map fun x => (x.1 + d, x.2 + d) }
/-- A tile takes new numbers, and its handle again from the core it comes to. -/
def Tile.shift (d g e : Nat) (t : Tile) : Tile :=
  { t with phys := t.phys + d, store := t.store + g, handle := none
           pend := t.pend.map fun x => (x.1, if x.2 = 0 then 0 else x.2 + e) }
def LogEntry.shift (d : Nat) : LogEntry → LogEntry
  | .hmap w h old => .hmap w h (old.map (· + d))
  | .took n p => .took n (p + d)
  | .gave n p => .gave n (p + d)
  | e => e
def Stall.shift (e : Nat) (x : Stall) : Stall :=
  match x.cond with
  | .tiles ops => { x with cond := .tiles (ops.map (· + e)) }
  | _ => x
def Warp.shift (d e : Nat) (w : Warp) : Warp :=
  { w with hmap := w.hmap.map fun h => h.map (· + d), stall := w.stall.map (Stall.shift e) }
def Cohort.shift (d e : Nat) (c : Cohort) : Cohort :=
  { c with hand := c.hand.map fun h => (h.1, h.2 + d)
           levels := c.levels.map fun v => { v with log := v.log.map (LogEntry.shift d), seqFrom := v.seqFrom + e } }
/-- The saved unit with numbers that nothing on the core uses. -/
def renumber (k : CoreS) (v : Saved) : Saved :=
  let d := (k.tiles.map fun t => t.phys + 1).foldl max 0
  let g := (k.tiles.map fun t => t.store + 1).foldl max 0
  let e := k.nextOp
  { v with warps := v.warps.map (Warp.shift d e), cohorts := v.cohorts.map (Cohort.shift d e), tiles := v.tiles.map (Tile.shift d g e)
           seq := v.seq.map (TileOp.shift d e), arrived := v.arrived.map fun r => { r with id := r.id + e }, nextOp := v.nextOp + e }

/-! Resume (R375). -/

/-- Empty slots of a quarter, one for each saved slot of the quarter: saved slot and new slot. -/
def slotMap (s : State) (core : Nat) (v : Saved) : Option (List (Nat × Nat × Nat)) :=
  let maps := (List.range 4).map fun q =>
    let old := ((v.warps.filter fun w => w.quarter == q && w.holds != 0#32).map (·.slot)).dedup
    let free := (List.range 8).filter fun t => (fibresAt s core q t).isEmpty
    if free.length < old.length then none else some ((old.zip free).map fun t => (q, t.1, t.2))
  if maps.any (·.isNone) then none else some ((maps.filterMap id).flatten)
/-- Registers that the saved warps of a quarter reserve, and those that husk entries pin for them. -/
def savedQuota (v : Saved) (q : Nat) : Nat :=
  let ws := v.warps.filter fun w => w.quarter == q
  (ws.map (·.quota)).sum + pinCount v.cohorts (ws.map (·.id))
/-- The storage of the core holds what the unit brings: handles, granules, sequencer, sheaf, hand-over entries, husk (R1 R185). -/
def storageFits (s : State) (v : Saved) (core : Nat) : Bool :=
  let k := s.coreOf core
  let u := renumber k v
  let all := { k with tiles := k.tiles ++ u.tiles }
  let lists : List Nat := (cohortsAt s core ++ v.cohorts).map fun c => c.hand.length
  decide ((k.tiles.filter (·.handle.isSome)).length + (v.tiles.filter (·.handle.isSome)).length ≤ 128)
    && ([(TKind.a, 0), (TKind.b, 0), (TKind.b, 1), (TKind.c, 0)].all fun t => decide (granulesUsed all t.1 t.2 ≤ granulesMax t.1))
    && decide (k.seq.length + v.seq.length ≤ 32) && decide (k.mseqParts.length + v.mseqParts.length ≤ 32)
    && decide (k.sheaf.length + v.sheaf.length ≤ 1024) && decide (lists.sum ≤ 32)
    && decide (huskUsed s core + (v.cohorts.map fun c => (c.levels.map fun y => y.bytesIn false).sum).sum ≤ 65536)
/-- The core may take the cohorts: partition and reservation, no pre-emption there, the die of their F4 value, cohorts of one gang on
distinct cores; a unit with a segment takes a core that nothing runs on (13 R347). -/
def placeOk (s : State) (v : Saved) (core : Nat) : Bool :=
  (match v.pin with
   | some (n, _) => (s.coreOf core).pin.isNone && (cohortsAt s core).isEmpty
     && ((s.launch? n).bind fun l => s.part? l.part).any fun p => (travelCores p).contains core
   | none => v.cohorts.all fun c => (s.launch? c.launch).any fun l => coreAllowed s l core)
    && v.cohorts.all fun c => (s.launch? c.launch).any fun l =>
      !preempted s l.ctx core && dieOk l (clusterOf core) c.index
        && (l.f3 == 0 || decide (8 < gangSize l)
          || !((cohortsAt s core).any fun d => d.launch == l.num && gangNo l d.index == gangNo l c.index))
/-- Commands that the Thresher can patch or release, and its sets, stay on their die. -/
def dieBound (v : Saved) : Bool :=
  !v.sets.isEmpty || !v.results.isEmpty || (v.heldCmds.any fun t => t.2.stage == .held) || v.seq.any (·.hold.isSome)
/-- The unit fits on a core; that it stays on the die of its F4 value and of what the Thresher can reach: DESIGN CHOICE, log 36. -/
def unitFits (s : State) (v : Saved) (core : Nat) : Bool :=
  let cs := cohortsAt s core
  let recs := fun c : Cohort => if 32 < c.warpsN then 2 else 1
  let ls := ((cs ++ v.cohorts).map (·.launch)).dedup
  decide ((cs.map (·.sharedSize)).sum + (v.cohorts.map (·.sharedSize)).sum ≤ 262144)
    && decide ((cs.map recs).sum + (v.cohorts.map recs).sum ≤ 64)
    && decide ((ls.map fun n => ((s.launch? n).map (·.handles)).getD 0).sum ≤ 120)
    && (List.range 4).all (fun q => decide (savedQuota v q ≤ poolFree s core q))
    && storageFits s v core && placeOk s v core && (!dieBound v || dieOf core == dieOf v.core)
/-- The cluster in which the gangs of the unit are resident. -/
def gangHome (s : State) (v : Saved) : Option Nat :=
  v.cohorts.findSome? fun c => (s.launch? c.launch).bind fun l =>
    if l.f3 = 0 then none
    else ((s.allCohorts.find? fun d => d.resident && d.launch == c.launch && gangNo l d.index == gangNo l c.index).map fun d => clusterOf d.core)
/-- The core that a saved unit goes to, in a cluster when one is given: its old one first (R375). -/
def resumeCore (s : State) (c : Ctx) (home : Option Nat) (v : Saved) (used : List Nat) : Option Nat :=
  match s.part? c.part with
  | none => none
  | some p =>
    let cores := ((List.range 48).filter p.clusters.contains).flatMap fun c => (List.range 8).map fun i => 8 * c + i
    let all := ((v.core :: cores).filter fun k => !used.contains k).filter fun k => home.all fun h => clusterOf k == h
    let cands := match gangHome s v with
      | some h => all.filter fun k => clusterOf k == h
      | none => all
    -- a launch that waits for room goes first (12 R329)
    if s.allLaunches.any fun l => l.part == c.part && l.ctx != c.num && l.waitSince.isSome then none
    else cands.find? fun k => unitFits s v k && (slotMap s k v).isSome
/-- Two units hold cohorts of one gang, which is resident in one cluster at once (12 R325, R375 step 6). -/
def sameGang (s : State) (u v : Saved) : Bool :=
  u.cohorts.any fun a => v.cohorts.any fun b => a.launch == b.launch
    && (s.launch? a.launch).any fun l => l.f3 != 0 && gangNo l a.index == gangNo l b.index
/-- The units that share gangs with these, through one another. -/
def gangUnits (s : State) (c : Ctx) : Nat → List Saved → List Saved
  | 0, vs => vs
  | n + 1, vs => gangUnits s c n (c.saved.filter fun u => vs.contains u || vs.any (sameGang s u))
/-- The units that resume with one: all that hold segments of its travelling launch (13 R360), or the others of its gangs. -/
def resumeGroup (s : State) (c : Ctx) (v : Saved) : List Saved :=
  match v.pin with
  | some (n, _) => c.saved.filter fun u => u.pin.any fun t => t.1 == n
  | none => gangUnits s c c.saved.length [v]
/-- A core for each unit of a group. -/
def assignCores (s : State) (c : Ctx) (home : Option Nat) : List Saved → List Nat → Option (List (Saved × Nat))
  | [], _ => some []
  | v :: vs, used => do
    let k ← resumeCore s c home v used
    let t ← assignCores s c home vs (k :: used)
    some ((v, k) :: t)
/-- The cores of units that resume together: those of gangs in one cluster, their old one first. -/
def groupCores (s : State) (c : Ctx) (vs : List Saved) : Option (List (Saved × Nat)) :=
  if vs.length ≤ 1 then assignCores s c none vs []
  else ((vs.map fun v => clusterOf v.core).dedup ++ List.range 48).findSome? fun h => assignCores s c (some h) vs []
/-- Completion words that the channels held for the cohorts, and those that were saved with them, reach the channels of their cluster
(step 5). -/
def deliverWords (s : State) (cluster : Nat) (v : Saved) : State :=
  let ids := v.cohorts.map (·.id)
  let late := s.clusters.flatMap fun c => c.chans.zipIdx.map fun h => (h.2, h.1.heldWords.filter fun t => ids.contains t.1)
  let chan := fun h : Channel => { h with heldWords := h.heldWords.filter fun t => !ids.contains t.1 }
  let cl := fun c : Cluster => { c with chans := c.chans.map chan }
  (v.doneWords ++ late).foldl (fun s t => s.setChan cluster t.1 fun h => { h with words := h.words ++ t.2 })
    { s with clusters := s.clusters.map cl }
/-- Commands, partly assembled or held, come to the engines of the new place. -/
def restoreEngines (s : State) (core : Nat) (v : Saved) : State :=
  let cl := clusterOf core
  let s := v.copyParts.foldl (fun s t => s.setChan cl t.1 fun h => { h with parts := h.parts ++ [t.2] }) s
  let s := v.heldCmds.foldl (fun s t => s.setChan cl t.1 fun h => { h with cmds := h.cmds ++ [t.2] }) s
  mapThr s (dieOf core) fun t => { t with parts := t.parts ++ v.thrParts, sets := t.sets ++ v.sets, results := t.results ++ v.results }
/-- Step 3: replies recorded while the unit was saved are applied. -/
def applyReplies (s : State) (c : Ctx) : State :=
  c.replies.foldl (fun s r => match s.faults.find? fun f => f.token == r.1 && !faultSaved s f with
    | some f => applyReply (s.mapCtx c.num fun x => { x with replies := x.replies.erase r }) f r.2
    | none => s) s
/-- Restore a unit on a core. -/
def restoreUnit (c : Ctx) (s : State) (v0 : Saved) (core : Nat) : State :=
  let m := (slotMap s core v0).getD []
  let new := fun q t : Nat => ((m.find? fun x => x.1 == q && x.2.1 == t).map fun x => x.2.2).getD t
  let s := s.unfocus
  let v := renumber (s.coreOf core) v0
  let warp := fun w : Warp => { w with core := core, slot := new w.quarter w.slot }
  let slot := fun t : Slot => { t with core := core, slot := new t.quarter t.slot }
  let ctx := fun x : Ctx => { x with saved := x.saved.erase v0 }
  let s : State := (s.mapCtx c.num ctx).mapCore core fun k => grantHandles
    { k with tiles := k.tiles ++ v.tiles, seq := k.seq ++ v.seq, nextOp := max k.nextOp v.nextOp, mseqParts := k.mseqParts ++ v.mseqParts
             sheaf := k.sheaf ++ v.sheaf, arrived := k.arrived ++ v.arrived, allocs := k.allocs ++ v.allocs, pts := max k.pts v.pts
             l1 := [], pin := v.pin.orElse fun _ => k.pin }
  let slots := v.slots.map slot
  -- attempt counts have paused (08 R220, 09 R264)
  let later := fun y : Level => { y with start := y.start + (s.cyc - v.at_) }
  let cohorts := v.cohorts.map fun x => { x with core := core, levels := x.levels.map later }
  let s : State := { s with
    slots := (s.slots.filter fun t : Slot => !(slots.any fun u => u.core == t.core && u.quarter == t.quarter && u.slot == t.slot)) ++ slots
    warps := s.warps ++ v.warps.map warp, cohorts := s.cohorts ++ cohorts }
  let s := deliverWords (restoreEngines s core v) (clusterOf core) v
  v.short.foldl (fun s x => asCohort s x.2.1 fun u => failAt u x.2.2 4 0 0) s
/-! The segments of a travelling launch at resume (13 R360). -/

/-- The cores that the segments are pinned into anew, as at acceptance (13 R347): core and segment. -/
def dealt (s : State) (c : Ctx) (l : Launch) : List (Nat × Nat) :=
  let free := ((s.part? c.part).map travelCores).getD [] |>.filter fun k => (s.coreOf k).pin.isNone && (cohortsAt s k).isEmpty
  (free.zipIdx.filter fun t => decide (t.2 < 16 * l.segs.length)).map fun t => (t.1, t.2 % l.segs.length)
/-- The units in ascending order of their old cores, each on the next of these cores that has its segment and takes it. -/
def dealUnits (s : State) : List Saved → List (Nat × Nat) → Option (List (Saved × Nat))
  | [], _ => some []
  | v :: vs, cs => do
    let (_, g) ← v.pin
    let t ← cs.find? fun t => t.2 == g && unitFits s v t.1 && (slotMap s t.1 v).isSome
    let r ← dealUnits s vs (cs.erase t)
    some ((v, t.1) :: r)
def byCore (vs : List Saved) : List Saved :=
  vs.foldl (fun ys x => (ys.takeWhile fun y => decide (y.core < x.core)) ++ x :: ys.dropWhile fun y => decide (y.core < x.core)) []
/-- The units of a travelling launch with their cores, and what is dealt; where the partition has too few cores for its replicas, a core
for each unit as for others, and no others: DESIGN CHOICE, log 36. -/
def travelPlaces (s : State) (c : Ctx) (l : Launch) (vs : List Saved) : Option (List (Saved × Nat) × List (Nat × Nat)) :=
  let cs := dealt s c l
  if !(vs.all fun v => (resumeCore s c none v []).isSome) then none
  else match dealUnits s (byCore vs) cs with
  | some t => some (t, cs)
  | none => (assignCores s c none (byCore vs) []).map fun t => (t, t.filterMap fun x => x.1.pin.map fun g => (x.2, g.2))

def newCore (at_ : List (Saved × Nat)) (k : Nat) : Nat := ((at_.find? fun t => t.1.core == k).map (·.2)).getD k
/-- A queued cargo enters the mooring queue of the replica that R351 now selects, when an entry is free there; otherwise it waits in its
sender's buffer, as those do that come after it. -/
def moorCargo (l : Launch) (at_ : List (Saved × Nat)) (s : State) (c : Cargo) : State :=
  let from_ := newCore at_ c.sender
  let t := ((segOf l c.pc).bind fun g => replica l g (c.widBase.toNat / 32)).getD (newCore at_ c.target)
  let c := { c with sender := from_, target := t, sent := false, reserved := false }
  match (if (s.coreOf from_).outb.any fun x => x.placed && x.target == t then none else entryFor s c) with
  | some r => s.mapCore t fun k =>
      let moor := k.moor ++ [{ c with sent := true, reserved := r }]
      { k with moor := moor, moorFullSince := if moor.length < 48 then none else k.moorFullSince.orElse fun _ => some s.now }
  | none => s.mapCore from_ fun k =>
      let seq := (assoc t k.sentTo).getD 0
      { k with outb := k.outb ++ [{ c with seq := seq }], sentTo := assocPut t (seq + 1) k.sentTo }
/-- The segments stand on the dealt cores, with their bytes; the table counts one generation more; every queued cargo is moored, each
sender's in order, and those that still waited for room go on waiting. -/
def restoreTable (s : State) (num : Nat) (at_ : List (Saved × Nat)) (deal : List (Nat × Nat)) : State :=
  let s := deal.foldl (fun s t => s.mapCore t.1 fun k => { k with pin := some (num, t.2) }) s
  let s := s.mapLaunch num fun l => { l with
    gen := l.gen + 1
    segs := l.segs.zipIdx.map fun g => { g.1 with cores := (deal.filter fun t => t.2 == g.2).map (·.1), bytes := segBytes s l g.1 } }
  match s.launch? num with
  | none => s
  | some l =>
    let queued := (at_.flatMap fun t => t.1.moor) ++ at_.flatMap fun t => t.1.outb.filter (·.placed)
    let s := queued.foldl (moorCargo l at_) s
    at_.foldl (fun s t => s.mapCore t.2 fun k => { k with outb := k.outb ++ (t.1.outb.filter fun c => !c.placed).map fun c =>
      { c with sender := t.2, target := newCore at_ c.target } }) s
/-- The cores that a unit and those that go with it can be restored on, and what is dealt of a travelling launch. -/
def resumePlaces (s : State) (c : Ctx) (v : Saved) : Option (List (Saved × Nat) × List (Nat × Nat)) :=
  match v.pin.bind fun t => s.launch? t.1 with
  | some l => travelPlaces s c l (resumeGroup s c v)
  | none => (groupCores s c (resumeGroup s c v)).map fun t => (t, [])
/-- Saved unit i of a context that can be restored, with those that go with it. -/
def resumeDue (s : State) (ctx i : Nat) : Option (Ctx × Saved × List (Saved × Nat) × List (Nat × Nat)) :=
  match s.ctx? ctx with
  | none => none
  | some c =>
    if c.killed || c.releasing || !c.preempt.isEmpty then none
    else (c.saved[i]?).bind fun v => (resumePlaces s c v).map fun t => (c, v, t)
def execContextResume (ctx i : Nat) (s : State) : Out :=
  match resumeDue s ctx i with
  | some (c, v, at_, deal) =>
    let s := at_.foldl (fun s t => restoreUnit c s t.1 t.2) s
    let s := match v.pin with
      | some (n, _) => restoreTable s n at_ deal
      | none => s
    .next (applyReplies s c)
  | none => .next s

end Sys2Proof.Machine
end

