-- ==== Sys2Proof/Machine/Hier.lean ====
section
/-! DEFINITION. Stash write-backs and recalls, the directory, device bias, translation invalidation, snoops, patrols (11 R292 R299 R301 to R310). -/

namespace Sys2Proof.Machine

/-! Stash lines (R301). -/

def idleStash (s : State) (c line : Nat) : Option (Cohort × StashLine) :=
  (s.cohort? c).bind fun x => (x.stash.find? fun t => t.line == line && t.dirty && decide (t.lastUse + 10000 ≤ s.cyc)).map fun t => (x, t)

def execStashIdleWriteback (c line : Nat) (s : State) : Out :=
  match idleStash s c line with
  | some (x, t) => .next (writeBack s x t)
  | none => .next s

/-- Some warp waits to write a line that another cohort holds stashed. -/
def recallWanted (s : State) (line : Nat) : Bool :=
  (stashOwner s line).isSome && s.allWarps.any fun w => match w.stall with
    | some ⟨_, .unstashed n⟩ => n == line
    | _ => false

def execStashRecall (line : Nat) (s : State) : Out := .next (if recallWanted s line then recallLine s line else s)

/-! Regions (R302 R303). -/

/-- The halves that a region falls into when a part of it of a given size takes an entry of its own (R303). -/
def splitOff (r : Region) (pa stop : Nat) : Nat → List Region
  | 0 => []
  | n + 1 =>
    if r.size ≤ stop then []
    else
      let half := r.size / 2
      if pa < r.base + half then { r with base := r.base + half, size := half } :: splitOff { r with size := half } pa stop n
      else { r with size := half } :: splitOff { r with base := r.base + half, size := half } pa stop n

/-- Regions in ascending order of base. -/
def putRegion (r : Region) : List Region → List Region
  | [] => [r]
  | x :: t => if r.base ≤ x.base then r :: x :: t else x :: putRegion r t

/-- An entry with an empty vector is freed at once. -/
def addRegions (rs dir : List Region) : List Region := (rs.filter fun r => !r.vec.isEmpty).foldl (fun d r => putRegion r d) dir

def setLine (s : State) (line : Nat) (st : DirSt) (vec : List Nat) : State :=
  let one : Region := { base := 128 * line, size := 128, st := st, vec := vec, touch := s.now }
  match regionOf s line with
  | none => { s with dir := addRegions [one] s.dir }
  | some r => { s with dir := addRegions (one :: splitOff r (128 * line) 128 9) (s.dir.erase r) }

/-- The largest aligned region of at most 64 KiB around a line that no entry overlaps. -/
def freshRegion (s : State) (line : Nat) : Nat × Nat :=
  let ok := fun n : Nat => let b := 128 * line / n * n
    !(s.dir.any fun r => decide (r.base < b + n) && decide (b < r.base + r.size))
  (([65536, 32768, 16384, 8192, 4096, 2048, 1024, 512, 256].find? ok).map fun n => (128 * line / n * n, n)).getD (128 * line, 128)

def touchRegion (s : State) (r : Region) (f : Region → Region) : State := { s with dir := updWhere (fun x => x == r) (fun x => { f x with touch := s.now }) s.dir }

/-- Requests that wait behind an open probe (R305). -/
def lineOpen (s : State) (line : Nat) : Bool := s.probes.any fun p => p.line == line

/-- The slice that keeps a region's entry: that of its first line. DESIGN CHOICE, log 59: the lines of a region have homes in many
slices. -/
def keptAt (r : Region) : Nat := sliceOf (r.base / 128)

/-- A slice that a change of the directory would take beyond its 8,192 entries (R302). -/
def overSlice (old new : List Region) : Option Nat :=
  ((new.filter fun r => !old.contains r).map keptAt).find? fun i => decide (8192 < (new.filter fun r => keptAt r == i).length)

/-- Every copy in a region is invalidated, and its entry is freed then (R302). -/
def recallRegion (s : State) (r : Region) : State :=
  let ps := (List.range (r.size / 128)).flatMap fun i => r.vec.map fun a => ({ agent := a, line := r.base / 128 + i, inval := true } : Probe)
  let new := ps.filter fun p => !(s.probes.any fun x => x.agent == p.agent && x.line == p.line)
  { s with probes := s.probes ++ new, dir := updWhere (fun x => x == r) (fun x => { x with recalled := true }) s.dir }

/-- Recall the least recently touched region of a slice, but for that of the line that needs room, when no recall is under way there. -/
def makeRoom (s : State) (slice line : Nat) : State :=
  if s.dir.any fun r => r.recalled && keptAt r == slice then s
  else
    let others := s.dir.filter fun r => keptAt r == slice && regionOf s line != some r
    match others.foldl (fun (b : Option Region) r => match b with
      | some x => if r.touch < x.touch then some r else b
      | none => some r) none with
    | some r => recallRegion s r
    | none => s

/-- A change of the directory, or the recall that it finds necessary first. -/
def withRoom (s : State) (line : Nat) (u : State) : Except State State :=
  match overSlice s.dir u.dir with
  | some i => .error (makeRoom s i line)
  | none => .ok u

/-- The device writes that a host access meets (10 R283 R284 R286): a read of a SYS release acquires everything before it; an access
to what no pair orders, or to a claimed line of host memory (09 R440), is a race. -/
def hostMeets (s : State) (pas : List Nat) (wr : Bool) : State :=
  let lines := linesOf pas
  let here := meets s.devWrote pas
  let acq := if wr then s.hostAcq else max s.hostAcq (latest (here.filter (·.rel)))
  let clash := here.filter fun x => decide (acq < x.seq)
  let claimed := s.claims.filter fun x => lines.contains x.line && isHostPa (128 * x.line)
  (clash.map (·.launch) ++ claimed.map (·.launch)).foldl (fun s l => markRaceOf s l true)
    { s with hostAcq := acq, devRead := s.devRead.filter fun x => decide (acq < x.seq) }

/-- A host write meets a plain device read that nothing orders before it: a race, unless the reading warp goes on and a SYS acquire
fence of it follows. -/
def metRead (s : State) (x : Touch) : State :=
  match x.warp.bind s.warp? with
  | some w =>
    if w.holds = 0#32 then markRaceOf s x.launch true
    else s.mapWarps (fun v => v.id == w.id) fun v => { v with hostPend := max v.hostPend (s.hostSeq + 1) }
  | none => markRaceOf s x.launch true

/-- The host has read bytes. -/
def hostReads (s : State) (pas : List Nat) : State :=
  { s with hostSeq := s.hostSeq + 1, hostRead := touched pas { line := 0, bytes := 0, seq := s.hostSeq + 1 } ++ uncover pas s.hostRead }
/-- The host has written bytes; those of a line that it owned, at a place no earlier than its grant. -/
def hostNotes (s : State) (pas : List Nat) (own : Option Nat := none) : State :=
  let s := (meets s.devRead pas).foldl metRead s
  let lines := linesOf pas
  { s with hostSeq := s.hostSeq + 1
           hostWrote := touched pas { line := 0, bytes := 0, seq := own.getD (s.hostSeq + 1), gives := s.hostSeq + 1 }
             ++ (cover pas s.hostWrote).filter fun x => x.bytes != 0 || !lines.contains x.line
           hostRead := uncover pas s.hostRead
           devWrote := uncover pas s.devWrote
           devRead := uncover pas s.devRead }
/-- The vector and the state that a request leaves (R303). -/
def grantEntry (s : State) (agent line : Nat) (own : Bool) : State :=
  match regionOf s line with
  | none =>
    if own then setLine s line .e [agent]
    else
      let g := freshRegion s line
      let r : Region := { base := g.1, size := g.2, st := if g.2 = 128 then DirSt.e else DirSt.s, vec := [agent], touch := s.now }
      { s with dir := addRegions [r] s.dir }
  | some r =>
    if own then setLine s line .e [agent]
    else if r.st == DirSt.s then touchRegion s r fun x => { x with vec := if x.vec.contains agent then x.vec else x.vec ++ [agent] }
    else if r.vec == [agent] then touchRegion s r id
    else setLine s line .s (r.vec ++ [agent])

/-- Grant a request for a line whose probes are answered. A read is served with the bytes of a stash owner, whose line stays stashed;
ownership takes it away (R301). The host keeps no copy of a line outside host bias (R307). -/
def grantLine (s : State) (agent line : Nat) (own : Bool) : State :=
  let s := if own then recallLine s line else s
  if agent ≠ 64 then grantEntry s agent line own
  else if biasOf s (line / 32) == .host then
    let u := grantEntry s agent line own
    -- a line held in E may be changed at any time from then on
    if (regionOf u line).any fun r => r.st == .e && r.vec == [64] then
      { u with hostSeq := u.hostSeq + 1, hostOwn := assocPut line (u.hostSeq + 1) u.hostOwn }
    else u
  else s

/-- Grant it, or start the recall that makes room for it (R302 R303). -/
def grantOrWait (s : State) (r : DirReq) : State :=
  match withRoom s r.line (grantLine { s with dirWait := s.dirWait.erase r } r.agent r.line r.own) with
  | .ok u => u
  | .error t => t

/-- The lines of a host write. -/
def HostWrite.lines (h : HostWrite) : List Nat := linesOf ((List.range h.bytes.length).map (h.pa + ·))

/-- A request or a write of the host for the line came before this place. A host write that waits for a claim lets requests pass: DESIGN CHOICE,
log 15. -/
def aheadAt (s : State) (line id : Nat) : Bool :=
  (s.dirWait.any fun r => r.line == line && decide (r.id < id))
    || s.hostWait.any fun h => decide (h.id < id) && h.lines.contains line && !(h.lines.any fun n => s.claims.any fun x => x.line == n)

/-- A request for the line is held up: by an open probe, by a recall of its region, or by what came earlier for the line (R305). -/
def heldUp (s : State) (line id : Nat) : Bool := lineOpen s line || (regionOf s line).any (·.recalled) || aheadAt s line id

/-- A request that stands at the directory is granted, or the agents that it stands against are probed (R303). -/
def serveDir (s : State) (r : DirReq) : State :=
  if heldUp s r.line r.id then s
  else
    let against := (agentsAgainst s r.line r.own).filter (· != r.agent)
    if against.isEmpty then grantOrWait s r
    else { s with probes := s.probes ++ against.map fun a => { agent := a, line := r.line, inval := r.own } }

/-- The first request of a line that waits. -/
def serveLine (s : State) (line : Nat) : State := match s.dirWait.find? fun r => r.line == line with
  | some r => serveDir s r
  | none => s

/-- A request arrives and takes its place. -/
def arriveDir (agent line : Nat) (own : Bool) (s : State) : State :=
  let r : DirReq := ⟨s.nextId, agent, line, own⟩
  serveDir { s with dirWait := s.dirWait ++ [r], nextId := s.nextId + 1 } r

/-- A request that waits at the directory can be granted, or can ask for what it needs. -/
def dirFree (s : State) (r : DirReq) : Bool :=
  let u := serveDir s r
  decide (u.dirWait.length < s.dirWait.length) || asksMore s u

/-- One that has waited is served. -/
def againDir (id : Nat) (s : State) : Out := match s.dirWait.find? fun r => r.id == id with
  | some r => .next (serveDir s r)
  | none => .next s

/-- A request for a line of memory that a partition holds. -/
def askDir (agent line : Nat) (own : Bool) (s : State) : Out :=
  .next (if heldGranule s (128 * line) then arriveDir agent line own s else s)
def execDirReadRequest (agent line : Nat) (s : State) : Out := askDir agent line false s
def execDirOwnershipRequest (agent line : Nat) (s : State) : Out := askDir agent line true s

/-- Bytes of an agent reach the home: the host's without a logical time (R297). Of the host's line, the bytes that it has changed are
its write, which it may have made as early as the line was granted to it: DEDUCED, log 66. -/
def agentWrite (s : State) (agent line : Nat) (bs : List Byte) : State :=
  if agent = 64 then
    let s := recallLine s line
    let pas := ((placed (128 * line) bs).filter fun b => homeByte s b.1 != b.2).map (·.1)
    let s := hostNotes (hostMeets s pas true) pas (assoc line s.hostOwn)
    { s with mem := memPuts s.mem (placed (128 * line) bs) }
  else homePerform s (placed (128 * line) bs)

/-- An agent no longer holds a line; its region is split when there is room for the entries, otherwise it stays in the vector until
a recall has made room and it has been asked again. -/
def dropAgent (s : State) (agent line : Nat) : State :=
  match regionOf s line with
  | some r =>
    if r.vec.contains agent then
      match withRoom s line (setLine s line r.st (r.vec.filter (· != agent))) with
      | .ok u => u
      | .error t => t
    else s
  | none => s

/-- A recalled region whose probes are all answered is freed. -/
def freeRecalled (s : State) : State :=
  { s with dir := s.dir.filter fun r => !(r.recalled && !(s.probes.any fun p => decide (r.base ≤ 128 * p.line) && decide (128 * p.line < r.base + r.size))) }

/-! Bias (R307 R308). -/

def biasReport (s : State) (vi status : Nat) (busy : Int) : State :=
  s.mapVi vi fun v => { v with biasStat := BitVec.ofNat 64 (status * 16 + ((((v.biasStat.toNat % 16 : Nat) : Int) + busy) % 16).toNat) }

def setBias (s : State) (page : Nat) (b : Bias) : State := { s with bias := if b == .dev then assocDel page s.bias else assocPut page b s.bias }

/-- The host bit of a page's lines clears: a region that reaches beyond the page is split down to it (R303 R308). -/
def clearHostPage (s : State) (page : Nat) : State :=
  let base := 4096 * page
  let s := match regionOf s (32 * page) with
    | some r =>
      if r.size > 4096 && r.vec.contains 64 then
        { s with dir := addRegions ({ r with base := base, size := 4096 } :: splitOff r base 4096 4) (s.dir.erase r) }
      else s
    | none => s
  let clear := fun r : Region => if r.base / 4096 == page && decide (r.size ≤ 4096) then { r with vec := r.vec.filter (· != 64) } else r
  { s with dir := (s.dir.map clear).filter fun r => !r.vec.isEmpty }

/-- Every answer has come: the page is in DEV, as soon as the directory has room for the split. -/
def finishFlip (s : State) (page start vi : Nat) : State :=
  match withRoom s (32 * page) (clearHostPage s page) with
  | .ok u => biasReport (setBias u page .dev) vi 0 (-1)
  | .error t => setBias t page (.toDev start [] vi)

/-- Flips that waited for room. -/
def settleFlips (s : State) : State :=
  s.bias.foldl (fun s t => match t.2 with
    | .toDev start [] vi => finishFlip s t.1 start vi
    | _ => s) s

/-- A line that one agent held in E is shared from then on, when there is room for the entries of the split (R303); until then it is
asked again. -/
def shareLine (s : State) (line : Nat) (r : Region) : State :=
  match withRoom s line (setLine s line .s r.vec) with
  | .ok u => u
  | .error t => t

/-- What a complete probe leaves in the directory: an agent whose notice has come gives its one-line region up (R304); a copy that a
downgrade has left in a region under recall is asked for again (R302). -/
def probeLeaves (s : State) (p : Probe) (left : Bool) : State :=
  match regionOf s p.line with
  | none => s
  | some r =>
    if r.recalled then
      if p.inval || left then s else { s with probes := s.probes ++ [{ agent := p.agent, line := p.line, inval := true }] }
    else if p.inval || left && r.size == 128 then dropAgent s p.agent p.line
    else if r.st == DirSt.e then shareLine s p.line r else s

/-- A probe is complete: the vector, the request that has waited. -/
def endProbe (s : State) (p : Probe) (left : Bool := false) : State :=
  let s := probeLeaves { s with probes := s.probes.filter fun x => !(x.agent == p.agent && x.line == p.line) } p left
  serveLine (settleFlips (freeRecalled s)) p.line

def probeOf (s : State) (agent line : Nat) : Option Probe := s.probes.find? fun p => p.agent == agent && p.line == line

def execProbeAnswer (agent line : Nat) (ans : ProbeAns) (s : State) : Out :=
  match probeOf s agent line with
  | none => .next s
  | some p => match ans with
    | .data bs => .next (endProbe (if bs.length = 128 then agentWrite s agent line bs else s) p)
    | .clean => .next (endProbe s p)
    | .miss n =>
      if p.notice == some n || s.notes.contains (agent, line, n) then .next (endProbe s p true)
      else .next { s with probes := updWhere (fun x => x == p) (fun x => { x with missSeq := some n }) s.probes }

def execEvictionNotice (agent line seq : Nat) (dirty : Option (List Byte)) (s : State) : Out :=
  let held := (regionOf s line).any fun r => r.vec.contains agent
  match probeOf s agent line with
  | none =>
    if !held then .next s
    else
      let s := match dirty with
        | some bs => if bs.length = 128 then agentWrite s agent line bs else s
        | none => s
      let s := { s with notes := (agent, line, seq) :: s.notes.filter fun t => !(t.1 == agent && t.2.1 == line) }
      .next (if (regionOf s line).any fun r => r.size == 128 then dropAgent s agent line else s)
  | some p =>
    let s := match dirty with
      | some bs => if bs.length = 128 then agentWrite s agent line bs else s
      | none => s
    let s := { s with notes := (agent, line, seq) :: s.notes.filter fun t => !(t.1 == agent && t.2.1 == line) }
    if p.missSeq == some seq then .next (endProbe s p true)
    else .next { s with probes := updWhere (fun x => x == p) (fun x => { x with notice := some seq }) s.probes }

def execRegionDone (agent base _seq : Nat) (s : State) : Out :=
  let f := fun r : Region => if r.base == base then { r with vec := r.vec.filter (· != agent) } else r
  .next (settleFlips { s with dir := (s.dir.map f).filter fun r => !r.vec.isEmpty })

/-- Two halves of one region with one state and vector, untouched for 100,000 ticks. -/
def mergeable (s : State) (base size : Nat) : Option (Region × Region) :=
  if base % (2 * size) ≠ 0 ∨ 65536 < 2 * size then none
  else match s.dir.find? (fun r => r.base == base && r.size == size), s.dir.find? (fun r => r.base == base + size && r.size == size) with
  | some a, some b =>
    if a.st == b.st && a.vec.all b.vec.contains && b.vec.all a.vec.contains && !a.recalled && !b.recalled && decide (max a.touch b.touch + 100000 ≤ s.now) then some (a, b) else none
  | _, _ => none

def execRegionMerge (base size : Nat) (s : State) : Out :=
  match mergeable s base size with
  | some (a, b) => .next (settleFlips { s with dir := putRegion { a with size := 2 * size, touch := max a.touch b.touch } ((s.dir.erase a).erase b) })
  | none => .next s

/-! The host (R306 R307). -/

/-- A read by the host: under host bias the host may keep the line. It has the home's memory value, without the bytes of a stash
(R301). -/
def execHostMemRead (pa n : Nat) (s : State) : Out :=
  if n = 0 ∨ !inPhysMap pa then .next s
  else
    let pas := (List.range n).map (pa + ·)
    let plain := pas.filter fun a => !windowSpecial s a
    let s := hostReads (hostMeets s plain false) plain
    if isHostPa pa then .next s
    else .next ((linesOf pas).foldl (fun s n => if biasOf s (n / 32) == .host then arriveDir 64 n false s else s) s)

/-- A byte of a page lies in a launch's continuation queues, as its context maps them (12 R317). -/
def queueAt (s : State) (l : Launch) (pas : List Nat) (va : Nat) : Bool :=
  match walk s l.ctx (BitVec.ofNat 64 va) with
  | .page e => pas.any fun a => a / 4096 == localPa s (e.pa + (va - e.va)) / 4096 && decide (l.cqBase.toNat ≤ va + a % 4096)
      && decide (va + a % 4096 < l.cqBase.toNat + l.cqCnt * (64 + 32 * 2 ^ l.cqLog))
  | .bad _ => false
/-- The launches whose continuation queues hold one of the bytes: a write of the host there is a race. -/
def hostInQueues (s : State) (pas : List Nat) : List Nat :=
  (s.allLaunches.filter fun l => l.cqCnt != 0 && (List.range (l.cqCnt * (64 + 32 * 2 ^ l.cqLog) / 4096 + 2)).any fun i =>
    queueAt s l pas (4096 * (l.cqBase.toNat / 4096 + i))).map (·.num)

/-- The write is performed at the home, without a logical time; under host bias the host bit is set (R297 R307). A line of host memory
leaves this package's hold. -/
def hostPerform (s : State) (pa : Nat) (bytes : List Byte) : State :=
  let lines := linesOf ((List.range bytes.length).map (pa + ·))
  let bs := engineBytes s (placed pa bytes)
  let pas := bs.map (·.1)
  let s := hostNotes (hostMeets (lines.foldl recallLine s) pas true) pas
  let s := (hostInQueues s pas).foldl (fun s n => markRaceOf s n true) s
  let s := { s with mem := memPuts s.mem bs, guests := s.guests.filter fun g => !lines.contains g.line }
  let mark := fun (s : State) (n : Nat) => if !isHostPa pa && biasOf s (pa / 4096) == .host then
      (match regionOf s n with
       | some r => if r.vec.contains 64 then s else touchRegion s r fun x => { x with vec := x.vec ++ [64] }
       | none => setLine s n DirSt.s [64]) else s
  lines.foldl mark s

/-- What a write by the host comes to: it is performed, or it waits, for a claim (09 R256; there is none to wait for at host memory,
R440), for earlier writes that wait at the home (R259), for open probes and what came earlier to the directory (R305), for the copies
of other agents, which are asked, or for room in the directory. -/
def hostNext (s : State) (h : HostWrite) : Except State State :=
  let claimed := fun n => (s.claims.any fun x => x.line == n) || behindOthers s n (some h.id)
  let probed := fun n => s.probes.any fun p => p.line == n && p.agent != 64
  if !isHostPa h.pa && h.lines.any claimed || h.lines.any (fun n => probed n || (regionOf s n).any (·.recalled) || aheadAt s n h.id) then .error s
  else match h.lines.find? fun n => (agentsAgainst s n true).any (· != 64) with
  | some n =>
    let new := (agentsAgainst s n true).filter (· != 64)
    .error { s with probes := s.probes ++ new.map fun a => { agent := a, line := n, inval := true } }
  | none => withRoom s (h.pa / 128) (hostPerform { s with hostWait := s.hostWait.erase h } h.pa h.bytes)

/-- A write that waits can go on. -/
def hostDue (s : State) (h : HostWrite) : Bool := match hostNext s h with
  | .ok _ => true
  | .error t => asksMore s t

/-- A write of the host that stands at its home. -/
def runHost (s : State) (h : HostWrite) : State := match hostNext s h with
  | .ok u => u
  | .error t => t

/-- One that has waited. -/
def againHost (id : Nat) (s : State) : Out := match s.hostWait.find? fun h => h.id == id with
  | some h => .next (runHost s h)
  | none => .next s

/-- A write by the host arrives and takes its place. -/
def execHostMemWrite (pa : Nat) (bytes : List Byte) (s : State) : Out :=
  let ok := fun a => inPhysMap a && heldGranule s a
  if !ok pa ∨ !ok (pa + bytes.length - 1) then .next s
  else
    let h : HostWrite := ⟨s.nextId, pa, bytes⟩
    .next (runHost { s with hostWait := s.hostWait ++ [h], nextId := s.nextId + 1 } h)

def execHostCacheSnoop (line : Nat) (kind : SnoopKind) (s : State) : Out :=
  if !isHostPa (128 * line) then .next s
  else
    -- a stash line of the package needs it in E or M (R299 R301)
    let s := recallLine s line
    match kind with
  | .data => .next { s with guests := updWhere (fun g => g.line == line) (fun g => { g with excl := false, dirty := false }) s.guests }
  | .invalidate =>
    let s := { s with guests := s.guests.filter fun g => g.line != line }
    let core := fun k : CoreS => { k with l1 := k.l1.filter fun x => x.pa != 128 * line }
    .next { s with k := core s.k, cores := s.cores.map core }

/-- A probe of the true home for a line that this package holds (R299 R305). -/
def execAgentProbe (line : Nat) (invalidate : Bool) (s : State) : Out :=
  if (remotePkg (128 * line)).isNone then .next s
  else
    let s := recallLine s line
    if invalidate then
    let s := { s with guests := s.guests.filter fun g => g.line != line }
    let core := fun k : CoreS => { k with l1 := k.l1.filter fun x => x.pa != 128 * line }
    .next { s with k := core s.k, cores := s.cores.map core }
  else .next { s with guests := updWhere (fun g => g.line == line) (fun g => { g with excl := false, dirty := false }) s.guests }

/-! Bias commands (R308). -/

def pageOf (cmd : DWord) : Nat := (cmd.extractLsb' 12 40).toNat
def biasOp (cmd : DWord) : Nat := (cmd.extractLsb' 2 2).toNat

/-- The status of a command that does not run. -/
def biasBad (s : State) (vi : Nat) (cmd : DWord) : Option Nat :=
  if cmd.extractLsb' 52 12 ≠ 0#12 ∨ cmd.extractLsb' 4 8 ≠ 0#8 ∨ cmd.extractLsb' 0 2 ≠ 0#2 ∨ (biasOp cmd ≠ 1 ∧ biasOp cmd ≠ 2) then some 1
  else match (s.vi? vi).bind fun v => v.part with
  | some p => if decide (4096 * pageOf cmd < 0x9000000000) && ownedPage s p (4096 * pageOf cmd) then none else some 2
  | none => some 2

def flipping (s : State) (page : Nat) : Bool := match biasOf s page with
  | .toDev _ _ _ => true
  | _ => false

/-- Lines of a page that the host may hold. -/
def hostLines (s : State) (page : Nat) : List Nat :=
  ((List.range 32).map (32 * page + ·)).filter fun n => (regionOf s n).any fun r => (holders s r n).contains 64

/-- Start a page's way to DEV: a BISnpInv for every line that the host bit covers. -/
def startFlip (s : State) (page vi : Nat) : State :=
  let opened := hostLines s page
  if opened.isEmpty then finishFlip s page s.now vi else setBias s page (.toDev s.now opened vi)

def runBias (s : State) (vi : Nat) (cmd : DWord) : State :=
  let page := pageOf cmd
  if biasOp cmd = 2 then biasReport (setBias s page .host) vi 0 0
  else startFlip (biasReport s vi 0 1) page vi

/-- The first of the commands that wait for a page. -/
def biasFirst (s : State) (page : Nat) : Option (Nat × DWord) := s.biasWait.find? fun t => pageOf t.2 == page

/-- A command arrives, or the first that has waited for a flip of its page runs. -/
def biasEvent (vi : Nat) (cmd : DWord) (s : State) : Out :=
  match biasBad s vi cmd with
  | some n => .next (biasReport { s with biasWait := s.biasWait.erase (vi, cmd) } vi n 0)
  | none =>
    let page := pageOf cmd
    if !flipping s page && ((biasFirst s page).isNone || biasFirst s page == some (vi, cmd)) then
      .next (runBias { s with biasWait := s.biasWait.erase (vi, cmd) } vi cmd)
    else .next { s with biasWait := s.biasWait ++ [(vi, cmd)] }

def execBiasToDev (vi : Nat) (cmd : DWord) (s : State) : Out := if biasOp cmd = 2 then .next s else biasEvent vi cmd s
def execBiasToHost (vi : Nat) (cmd : DWord) (s : State) : Out := if biasOp cmd = 2 then biasEvent vi cmd s else .next s

/-- The interface of a flip some of whose answers are out at its 50,000 chip ticks. -/
def flipLate (s : State) (page : Nat) : Option Nat := match biasOf s page with
  | .toDev t (_ :: _) vi => if t + 50000 ≤ s.now then some vi else none
  | _ => none

def execBisnpAnswer (line : Nat) (dirty : Option (List Byte)) (s : State) : Out :=
  let s := match dirty with
    | some bs => if bs.length = 128 && (regionOf s line).any (fun r => (holders s r line).contains 64) then agentWrite s 64 line bs else s
    | none => s
  let s := match probeOf s 64 line with
    | some p => endProbe s p
    | none => s
  let page := line / 32
  match biasOf s page with
  | .toDev t opened vi =>
    if (flipLate s page).isSome then .next s
    else
      let rest := opened.filter (· != line)
      .next (if rest.isEmpty then finishFlip s page t vi else setBias s page (.toDev t rest vi))
  | _ => .next s

def execBiasFlipTimeout (page : Nat) (s : State) : Out :=
  match flipLate s page with
  | some vi => .next (biasReport (setBias s page .host) vi 3 (-1))
  | none => .next s

/-! Translation invalidation (R292). -/

def execXinvCommand (vi : Nat) (cmd : DWord) (s : State) : Out :=
  match s.vi? vi with
  | some v => match v.part with
    | some p =>
      if !v.owner then .next s
      else
        let x : Xinv := { part := p, vi := vi, ctx := cmd.toNat / 2 ^ 32, va := v.xinvAddr.toNat, pages := cmd.toNat % 2 ^ 32 }
        .next ({ s with xinv := s.xinv ++ [x] }.mapVi vi fun v => { v with xinvStat := v.xinvStat ||| 1#64 })
    | none => .next s
  | none => .next s

/-- Bytes [a, a + n) meet the range of a command. -/
def Xinv.hits (x : Xinv) (a n : Nat) : Bool := x.pages == 0 || (decide (a < x.va + 4096 * x.pages) && decide (x.va < a + n))

/-- A message to a conversation's home about an object in the range, whose address the CONVJ has translated. -/
def msgUses (s : State) (x : Xinv) (m : ConvMsg) : Bool :=
  let va : Option DWord := match m with
    | .join _ _ va _ _ => some va
    | _ => (s.convs.find? fun h => h.pa == m.pa).map fun h => h.va
  ((s.anyCohort m.cid).bind fun c => s.launch? c.launch).any (fun l => l.ctx == x.ctx) && va.any fun va => x.hits va.toNat 64

/-- Some access of a command's context that an old entry has translated is still to be performed: a tile transfer, a write held at a
claimed line, an atomic in a sheaf buffer, a message to a conversation's home. Copies translate and move in one step. -/
def xinvUses (s : State) (x : Xinv) : Bool :=
  let here := fun launch : Nat => (s.launch? launch).any fun l => l.ctx == x.ctx
  let tile := fun o : TileOp => here o.launch && o.pages.any fun p => x.hits p.1 4096
  let cids := (s.allCohorts ++ s.ctxs.flatMap fun c => c.saved.flatMap (·.cohorts)).filter fun c => here c.launch
  (s.allCores.any fun k => k.seq.any tile) || (s.ctxs.any fun c => c.saved.any fun v => v.seq.any tile)
    || (s.held.any fun h => (cids.any fun c => c.id == h.cid) && x.hits (h.va.toNat / 128 * 128) 128)
    || ((sheafEntries s).any fun e => here e.launch && x.hits e.va.toNat (aopBytes e.aop)) || s.convMsgs.any (msgUses s x)

/-- The stash lines of a command's range go back to the homes that the old entries gave them. -/
def xinvStash (s : State) (x : Xinv) : State :=
  (s.allCohorts.filter fun c => (s.launch? c.launch).any fun l => l.ctx == x.ctx).foldl (fun s c =>
    (c.stash.filter fun t => x.hits t.va.toNat 128).foldl (fun s t => recallLine s (t.pa / 128)) s) s

/-- The first command of a partition, when nothing uses a translation of its range (R292). -/
def xinvDue (s : State) (part : Nat) : Option Xinv :=
  match s.xinv.find? fun x => x.part == part with
  | none => none
  | some x => if xinvUses s x then none else some x

def execXinvComplete (part : Nat) (s : State) : Out :=
  match xinvDue s part with
  | none => .next s
  | some x =>
    let s := xinvStash s x
    let keep := fun e : TlbEntry => !(e.ctx == x.ctx && x.hits e.va e.size)
    let core := fun k : CoreS => { k with tlb := k.tlb.filter keep }
    let warp := fun w : Warp => { w with trans := w.trans.filter keep }
    let s := { s with xinv := s.xinv.erase x, k := core s.k, cores := s.cores.map core, w := warp s.w, warps := s.warps.map warp
                      ctxs := s.ctxs.map (fun c : Ctx => { c with saved := c.saved.map (fun (v : Saved) => { v with warps := v.warps.map warp }) }) }
    let busy : DWord := if s.xinv.any fun y => y.part == part then 1#64 else 0#64
    .next (s.mapVi x.vi fun v => { v with xinvStat := BitVec.ofNat 64 (2 * (v.xinvStat.toNat / 2 + 1)) ||| busy })

/-! Patrols (R310). -/

def execPatrolScrub (stack : Nat) (found : PatrolFound) (s : State) : Out :=
  if 12 ≤ stack then .next s
  else match found with
  | .clean => .next s
  | .corrected => .next (s.tally fun x => { x with soft := x.soft.modify stack (· + 1) })
  | .uncorrectable => .next (s.tally fun x => { x with hard := x.hard.modify stack (· + 1) })

end Sys2Proof.Machine
end

