-- ==== Sys2Proof/Machine/Lanes.lean ====
section
/-! DEFINITION. Cross-lane instructions (05 R124 R147 to R153). -/

namespace Sys2Proof.Machine

/-- The value of an operand in another lane (R124). -/
def acrossLane (s : State) (o : Opnd) (v : VReg) (l : Nat) : Word :=
  match o with
  | .s _ | .zero | .ctl => v.get l
  | _ => fromLane s v l

/-- The source lane of a shuffle (R147). -/
def shflLane (b : Word) (l : Nat) : Nat :=
  let k := b.toNat % 32
  match b.toNat / 32 % 4 with
  | 0 => k
  | 1 => if l < k then l else l - k
  | 2 => if 31 < l + k then l else l + k
  | _ => Nat.xor l k

def execShfl (p : Px) (f : RForm) (s : State) : Out :=
  runNext p s (do
    readable f.a; readable f.b; writable f.d
    let (a, t) ← readA s p f.a
    let (b, t) ← readB t p f.b
    let t ← kill f.a f.ka 1 t
    let t ← kill f.b f.kb 1 t
    writeD t f.d (s.active p f.g) (lanesOf fun l => acrossLane s f.a a (shflLane (b.get l) l)))

/-- XWR: the highest sender to each active lane prevails (R148). -/
def execXwr (p : Px) (f : RForm) (s : State) : Out :=
  runNext p s (do
    readable f.a; readable f.b; need f.d.isV fcOpnd
    let (a, t) ← readA s p f.a
    let (b, t) ← readB t p f.b
    let (d, t) ← readOpnd t f.d
    let m := s.active p f.g
    let sender := fun l => (m.lanes.filter fun x => (b.get x).toNat % 32 == l).getLast?
    let t ← kill f.a f.ka 1 t
    let t ← kill f.b f.kb 1 t
    writeD t f.d m (lanesOf fun l => ((sender l).map a.get).getD (d.get l)))

/-! Reductions (R149 R150). -/

/-- One result of the active lanes' values, with its flags. -/
def reduceBy (p : Px) (f : UForm) (op : FEnv → Mask → VReg → Word × Flags) (s : State) : Out :=
  runNext p s (do
    readable f.a; writable f.d
    let (a, t) ← readA s p f.a
    let m := s.active p f.g
    let t ← kill f.a f.ka 1 t
    let r := op (fenv s p) m a
    let t ← writeD t f.d m (splat r.1)
    if m = 0#32 then .ok t else raiseFlags t r.2)

/-- An integer combination from an identity. -/
def redInt (op : Word → Word → Word) (ident : Word) (_ : FEnv) (m : Mask) (a : VReg) : Word × Flags :=
  (m.lanes.foldl (fun x l => op x (a.get l)) ident, noFlags)

/-- minimumNumber or maximumNumber from the canonical NaN. -/
def redMinMax (wantMax : Bool) (v : FEnv) (m : Mask) (a : VReg) : Word × Flags :=
  asWord (m.lanes.foldl (fun x l => let r := fMinMax f32 v.flush32 wantMax x.1 (a.get l).toNat; (r.1, x.2 ||| r.2)) (f32.nan, noFlags))

/-- The values before the first stage: −0 in a lane that is not active. -/
def stageZero (m : Mask) (a : VReg) : List Nat :=
  (List.range 32).map fun l => if m.has l then (a.get l).toNat else 0x80000000

/-- One stage of the butterfly; the flags of its sixteen additions (R150). A signalling NaN beside the identity raises NV (02 R44):
DEDUCED, log 20. -/
def butterfly (v : FEnv) (x : List Nat × Flags) (k : Nat) : List Nat × Flags :=
  let d := 2 ^ k
  let r := (List.range 32).map fun l =>
    let lo := if l / d % 2 = 0 then l else l - d
    fAdd f32 v (x.1.getD lo 0) (x.1.getD (lo + d) 0)
  (r.map (·.1), r.foldl (fun fl y => fl ||| y.2) x.2)

def redFadd (v : FEnv) (m : Mask) (a : VReg) : Word × Flags :=
  let r := [0, 1, 2, 3, 4].foldl (butterfly v) (stageZero m a, noFlags)
  (BitVec.ofNat 32 (r.1.getD 0 0), r.2)

def execRedlIadd (p : Px) (f : UForm) (s : State) : Out := reduceBy p f (redInt (fun a b => a + b) 0#32) s
def execRedlSmin (p : Px) (f : UForm) (s : State) : Out := reduceBy p f (redInt smin 0x7FFFFFFF#32) s
def execRedlSmax (p : Px) (f : UForm) (s : State) : Out := reduceBy p f (redInt smax 0x80000000#32) s
def execRedlUmin (p : Px) (f : UForm) (s : State) : Out := reduceBy p f (redInt uminW 0xFFFFFFFF#32) s
def execRedlUmax (p : Px) (f : UForm) (s : State) : Out := reduceBy p f (redInt umaxW 0#32) s
def execRedlAnd (p : Px) (f : UForm) (s : State) : Out := reduceBy p f (redInt (fun a b => a &&& b) 0xFFFFFFFF#32) s
def execRedlOr (p : Px) (f : UForm) (s : State) : Out := reduceBy p f (redInt (fun a b => a ||| b) 0#32) s
def execRedlXor (p : Px) (f : UForm) (s : State) : Out := reduceBy p f (redInt (fun a b => a ^^^ b) 0#32) s
def execRedlFadd (p : Px) (f : UForm) (s : State) : Out := reduceBy p f redFadd s
def execRedlFmin (p : Px) (f : UForm) (s : State) : Out := reduceBy p f (redMinMax false) s
def execRedlFmax (p : Px) (f : UForm) (s : State) : Out := reduceBy p f (redMinMax true) s

/-! Scans (R151 R152). -/

def scanBy (p : Px) (f : UForm) (op : FEnv → Mask → VReg → (Nat → Word) × Flags) (s : State) : Out :=
  runNext p s (do
    readable f.a; need f.d.isV fcOpnd
    let (a, t) ← readA s p f.a
    let m := s.active p f.g
    let t ← kill f.a f.ka 1 t
    let r := op (fenv s p) m a
    let t ← writeD t f.d m (lanesOf r.1)
    if m = 0#32 then .ok t else raiseFlags t r.2)

/-- The combination of the active lanes below a lane, itself included or not. -/
def scanInt (op : Word → Word → Word) (ident : Word) (excl : Bool) (_ : FEnv) (m : Mask) (a : VReg) : (Nat → Word) × Flags :=
  (fun l => (m.lanes.filter fun x => decide (x < l) || (x == l && !excl)).foldl (fun x j => op x (a.get j)) ident, noFlags)

/-- A value as a float operation delivers it: a flushed subnormal as zero, a NaN as the canonical NaN (R44, 02 R40). -/
def settle (v : FEnv) (c : Nat) : Nat × Flags :=
  let x := f32.read v.flush32 c
  (if x.isNan then f32.nan else keepCode f32 x c, nvSig [x])

/-- One stage: values and the flags that each value rests on. -/
def scanStage (v : FEnv) (x : List (Nat × Flags)) (k : Nat) : List (Nat × Flags) :=
  let d := 2 ^ k
  (List.range 32).map fun l =>
    let here := x.getD l (0, noFlags)
    if l < d then here
    else
      let below := x.getD (l - d) (0, noFlags)
      let r := fAdd f32 v below.1 here.1
      (r.1, r.2 ||| below.2 ||| here.2)

def scanFadd (v : FEnv) (m : Mask) (a : VReg) : (Nat → Word) × Flags :=
  let start := (stageZero m a).map (settle v)
  let r := [0, 1, 2, 3, 4].foldl (scanStage v) start
  (fun l => BitVec.ofNat 32 (r.getD l (0, noFlags)).1, laneFlags m fun l => (r.getD l (0, noFlags)).2)

def execScanlIadd (p : Px) (f : UForm) (s : State) : Out := scanBy p f (scanInt (fun a b => a + b) 0#32 false) s
def execScanlIaddEx (p : Px) (f : UForm) (s : State) : Out := scanBy p f (scanInt (fun a b => a + b) 0#32 true) s
def execScanlFadd (p : Px) (f : UForm) (s : State) : Out := scanBy p f scanFadd s
def execScanlSmax (p : Px) (f : UForm) (s : State) : Out := scanBy p f (scanInt smax 0x80000000#32 false) s
def execScanlOr (p : Px) (f : UForm) (s : State) : Out := scanBy p f (scanInt (fun a b => a ||| b) 0#32 false) s

end Sys2Proof.Machine
end

