-- ==== Sys2Proof/Machine/Manage.lean ====
section
/-! DEFINITION. Registers of the virtual interfaces, contexts, partitions, the fabric, Lantern and the limits of the part
(15 R381 to R394, 16 R396, 17 R413 to R424). -/

namespace Sys2Proof.Machine

/-! Registers (15 R391 R393). -/

/-- The partition of an interface that owns it. -/
def ownedBy (s : State) (vi : Nat) : Option Part := (s.vi? vi).bind fun v => if v.owner then v.part.bind s.part? else none

/-- What a read of a register page gives; none for a write-only register. An interface that owns no partition has no owner registers,
and an offset that is not listed reads 0. -/
def viRead (s : State) (vi off : Nat) : Option Nat :=
  match s.vi? vi with
  | none => none
  | some v =>
    let lq := (v.lqs[off / 0x40 - 1]?).getD {}
    let own := fun x : DWord => some (if v.owner then x.toNat else 0)
    if off = 0 then some (2 ^ 16 * v.part.getD 0 + 256 * v.owner.toNat + vi)
    else if 0x40 ≤ off ∧ off < 0x140 then
      some (match off % 0x40 with
        | 0 => lq.base.toNat
        | 0x08 => lq.cfg.toNat
        | 0x10 => lq.tailAt.toNat
        | 0x18 => lq.head % 2 ^ 64
        | 0x20 => lq.err.toNat
        | _ => 0)
    else match off with
      | 0x180 => none
      | 0x188 => some v.biasStat.toNat
      | 0x200 => own v.fqBase
      | 0x208 => own v.fqCfg
      | 0x210 => own v.fqTail
      | 0x218 => own v.fqHead
      | 0x220 | 0x248 | 0x280 => if v.owner then none else some 0
      | 0x240 => own v.xinvAddr
      | 0x250 => own v.xinvStat
      | 0x288 => own v.ctxStat
      | _ => some 0

/-- The mailbox page, BAR 2 of the physical function, stands beside the pages of the 64 virtual ones (17 R416). -/
def mailPage : Nat := 64
/-- A read of the mailbox page. -/
def mailRead (s : State) (off : Nat) : Option Nat :=
  let n := s.lan
  match off with
  | 0x00 => none
  | 0x08 => some n.lmAddr.toNat
  | 0x10 => some n.lmArg.toNat
  | 0x18 => some (2 ^ 32 * (n.lmDone % 2 ^ 32) + 256 * n.lmResult + (!n.lmQueue.isEmpty).toNat)
  | 0x20 | 0x28 | 0x30 | 0x38 => some (leNat ((n.lmNonce.drop (off - 0x20)).take 8))
  | _ => some 0
/-- A write to the mailbox page; one of LMCMD starts its command, or waits behind those before it (R416 R417). -/
def mailWriteReg (n : Lantern) (off : Nat) (val : DWord) : Lantern :=
  match off with
  | 0x00 => { n with lmQueue := n.lmQueue ++ [(val, n.lmAddr, n.lmArg, n.lmNonce)] }
  | 0x08 => { n with lmAddr := val }
  | 0x10 => { n with lmArg := val }
  | 0x20 | 0x28 | 0x30 | 0x38 => { n with lmNonce := n.lmNonce.take (off - 0x20) ++ leBytes 8 val.toNat ++ n.lmNonce.drop (off - 0x18) }
  | _ => n

/-- A register without behaviour of its own; the mailbox's, whose commands run by themselves. -/
def execRegisterWrite (vi off : Nat) (val : DWord) (s : State) : Out :=
  if vi = mailPage then .next { s with lan := mailWriteReg s.lan off val }
  else if 0x40 ≤ off ∧ off < 0x140 ∧ off % 0x40 = 0 then .next (mapLq s vi (off / 0x40 - 1) fun x => { x with base := val })
  else if 0x40 ≤ off ∧ off < 0x140 ∧ off % 0x40 = 0x10 then .next (mapLq s vi (off / 0x40 - 1) fun x => { x with tailAt := val })
  else match ownedBy s vi with
  | none => .next s
  | some p =>
    if off = 0x200 then .next (s.mapVi vi fun v => { v with fqBase := val })
    else if off = 0x208 then
      let s := s.mapVi vi fun v => { v with fqCfg := val &&& 0x11F#64 }
      .next (fqFlush s p.id s.fqWait.length)
    else if off = 0x240 then .next (s.mapVi vi fun v => { v with xinvAddr := val })
    else .next s

def execFqheadWrite (vi : Nat) (val : DWord) (s : State) : Out :=
  match ownedBy s vi with
  | none => .next s
  | some p =>
    let s := s.mapVi vi fun v => { v with fqHead := val }
    .next (fqFlush s p.id s.fqWait.length)

/-- The enable of a launch queue is refused (R391). -/
def lqRefused (s : State) (part : Nat) (x : LQueue) (cfg : Nat) : Bool :=
  let n := cfg % 32
  !(s.ctxs.any fun c => c.num == cfg / 2 ^ 32 && c.part == part && !c.releasing && !c.killed) || decide (n < 4) || decide (16 < n)
    || x.base.toNat % 4096 != 0 || x.tailAt.toNat % 128 != 0 || !queueMemory s part x.base.toNat || !deviceMemory s part x.tailAt.toNat

def execLqcfgWrite (vi q : Nat) (val : DWord) (s : State) : Out :=
  match (s.vi? vi).bind fun v => v.part with
  | none => .next s
  | some p =>
    .next (mapLq s vi q fun x =>
      if x.enabled then { x with cfg := (x.cfg &&& ~~~ 0x100#64) ||| (val &&& 0x100#64) }
      else
        let cfg := val &&& 0xFFFFFFFF0000011F#64
        if val.getLsbD 8 && !lqRefused s p x cfg.toNat then { x with cfg := cfg, stopped := false }
        else { x with cfg := cfg &&& ~~~ 0x100#64 })

/-! Contexts (R391, 17 R419 R420). -/

/-- CTXSTAT: the context, the status, and whether a destroy of the interface is under way. -/
def ctxReport (s : State) (vi ctx status : Nat) : State :=
  let busy := s.ctxs.any fun c => c.releasing && c.owner == vi
  s.mapVi vi fun v => { v with ctxStat := BitVec.ofNat 64 (ctx * 2 ^ 32 + status * 16 + busy.toNat) }
def ctxStatOf (s : State) (vi : Nat) : Nat := ((s.vi? vi).map fun v => v.ctxStat.toNat).getD 0
def ctxNamed (s : State) (vi : Nat) : Nat := ctxStatOf s vi / 2 ^ 32

/-- There is room for one more save area of 2,496 MiB (14 R372). -/
def saveRoom (s : State) (p : Part) : Bool := decide (((s.ctxs.filter fun c => c.part == p.id).length + 1) * 2496 ≤ 1024 * p.granules.length)

def execCtxCreate (vi : Nat) (cmd : DWord) (s : State) : Out :=
  match ownedBy s vi with
  | none => .next s
  | some p =>
    if cmd.extractLsb' 0 2 = 2#2 then .next s
    else if cmd.extractLsb' 0 2 ≠ 1#2 ∨ cmd.extractLsb' 2 10 ≠ 0#10 then .next (ctxReport s vi (ctxNamed s vi) 2)
    else if !saveRoom s p then .next (ctxReport s vi (ctxNamed s vi) 1)
    else
      let n := s.nextCtx
      let c : Ctx := { num := n, part := p.id, root := (cmd &&& ~~~ 0xFFF#64).toNat, base := Config.ctxBase n }
      .next (ctxReport { s with ctxs := s.ctxs ++ [c], nextCtx := n + 1 } vi n 0)

def execCtxDestroy (vi : Nat) (cmd : DWord) (s : State) : Out :=
  match ownedBy s vi with
  | none => .next s
  | some p =>
    let n := ctxNamed s vi
    if cmd.extractLsb' 0 2 ≠ 2#2 then .next s
    else if cmd ≠ 2#64 ∨ !(s.ctxs.any fun c => c.num == n && c.part == p.id) then .next (ctxReport s vi n 2)
    else if s.ctxs.any fun c => c.num == n && (c.releasing || c.killed) then .next (ctxReport s vi n 3)
    else .next (ctxReport (s.mapCtx n fun c => { c with releasing := true, owner := vi }) vi n 0)

/-- Pages of a partition outside DEV bias. -/
def partBias (s : State) (part : Nat) : List (Nat × Bias) := s.bias.filter fun b => b.2 != .dev && ownedPage s part (4096 * b.1)
/-- A released context whose launches have all ended; it waits while a page of its partition is on its way to DEV. -/
def releaseDue (s : State) (ctx : Nat) : Option Ctx :=
  match s.ctx? ctx with
  | some c => if c.releasing && !c.killed && !(s.allLaunches.any fun l => l.ctx == ctx) && !(partBias s c.part).any (fun b => b.2 != .host)
      then some c else none
  | none => none

/-- L2 writes the partition's stash lines back and gives every line of it up (R420). -/
def l2Scrub (s : State) (part : Nat) : State :=
  let s := ((s.stashOwners.map (·.1)).filter fun n => ownedPage s part (128 * n)).foldl recallLine s
  let mine := (s.leases.filter fun x => ownedPage s part (128 * x.line)).map (·.line)
  { s with leases := s.leases.filter fun x => !mine.contains x.line, gone := mine ++ s.gone.filter fun n => !mine.contains n }
/-- A core after the scrub: the L1 lines of the partition, the context's pages, and whatever no live launch has: granary and hand-over,
sequencer, sheaf, segments and regions of travelling launches (R419). -/
def scrubCore (part ctx : Nat) (live ws cs : List Nat) (k : CoreS) : CoreS :=
  let ops := (k.seq.filter fun o => live.contains o.launch).map (·.id)
  { k with
    l1 := k.l1.filter fun x => x.part != part, tlb := k.tlb.filter fun e => e.ctx != ctx
    tiles := k.tiles.filter fun t => live.contains t.launch, seq := k.seq.filter fun o => live.contains o.launch
    mseqParts := k.mseqParts.filter fun p => ws.contains p.1, sheaf := k.sheaf.filter fun x => live.contains x.launch
    arrived := k.arrived.filter fun r => ops.contains r.id || live.contains r.launch, allocs := k.allocs.filter fun a => cs.contains a.1
    cpath := k.cpath.filter fun x => live.contains x.1, am := k.am.filter fun m => live.contains m.launch
    moor := k.moor.filter fun c => live.contains c.launch, outb := k.outb.filter fun c => live.contains c.launch }
/-- The engines after the scrub: buffers, cursors, commands, bin sets and words of no live launch go (R419). -/
def scrubEngines (s : State) (live ws cs : List Nat) : State :=
  let chan := fun h : Channel => { h with
    parts := h.parts.filter fun p => ws.contains p.1, cmds := h.cmds.filter fun m => live.contains m.launch
    words := h.words.filter fun x => cs.contains x.1, heldWords := h.heldWords.filter fun x => cs.contains x.1 }
  let thr := fun t : Thresher => { t with
    parts := t.parts.filter fun p => ws.contains p.1, cmds := t.cmds.filter fun m => live.contains m.launch
    sets := t.sets.filter fun b => live.contains b.launch, results := t.results.filter fun r => live.contains r.1 }
  { s with clusters := s.clusters.map fun c => { c with chans := c.chans.map chan }
           dies := s.dies.map fun d => { d with thr := thr d.thr } }
/-- Errors that the codes find while the arrays of the classes are overwritten, or since they were last counted: free values (R420
R422 R423). -/
def noteSram (s : State) : State :=
  s.tally fun x => { x with
    soft := x.soft.zipIdx.map fun t => if t.2 < 12 then t.1 else t.1 + Config.sramErrors s.stepNo (t.2 - 12) false
    hard := x.hard.zipIdx.map fun t => if t.2 < 12 then t.1 else t.1 + Config.sramErrors s.stepNo (t.2 - 12) true }
/-- The rest of R419 is zeroed: what no live launch has on the cores and in the engines, the sheaf marks, the slots that no warp is in,
the overflow chunks that the context has used. Its save area, daymark tables and regions lie in memory that nothing reads, and go with
the context. -/
def scrubRest (s0 : State) (c : Ctx) : State :=
  let s := s0.unfocus
  let live := s.launches.map (·.num)
  let ws := (s.allWarps ++ s.savedWarps).map (·.id)
  let cs := (s.allCohorts ++ s.savedCohorts).map (·.id)
  let used := c.husk.flatMap fun h => huskPas s (asCtx c.part c.num) h.1 h.2
  scrubEngines { s with
    cores := s.cores.map (scrubCore c.part c.num live ws cs), marks := s.marks.filter fun m => live.contains m.2
    slots := s.slots.filter fun t => s.warps.any fun w => sameSlot w t
    mem := memPuts s.mem (used.map fun a => (a, 0#8)) } live ws cs

def execContextReleaseScrub (ctx : Nat) (s : State) : Out :=
  match releaseDue s ctx with
  | none => .next s
  | some c =>
    -- first the Keeper returns every page of the partition to DEV (11 R307)
    let pages := partBias s c.part
    if !pages.isEmpty then .next (pages.foldl (fun s b => startFlip s b.1 64) s)
    else
      let s := noteSram (scrubRest (l2Scrub s c.part) c)
      let s := keeperLog { s with ctxs := s.ctxs.filter (fun x : Ctx => x.num != ctx) } 3 c.part (leBytes 4 ctx ++ leBytes 4 Config.scrubClasses)
      let n := ctxNamed s c.owner
      .next (ctxReport s c.owner n (if n = ctx then 0 else ctxStatOf s c.owner / 16 % 16))

/-! Partitions (R394, 16 R396). -/

def hasContext (s : State) (part : Nat) : Bool := s.ctxs.any fun c => c.part == part
def otherParts (s : State) (part : Nat) : List Part := s.parts.filter fun p => p.id != part

/-- Memory granules that no partition holds any more are zeroed (17 R420). -/
def scrubGranules (s : State) (gs : List Nat) : State :=
  { s with mem := s.mem.filter fun c => !gs.contains (c.1 / 2 ^ 30)
           bias := s.bias.filter fun b => !gs.contains (4096 * b.1 / 2 ^ 30)
           dir := s.dir.filter fun r => !gs.contains (r.base / 2 ^ 30), leases := s.leases.filter fun x => !gs.contains (128 * x.line / 2 ^ 30)
           gone := s.gone.filter fun n => !gs.contains (128 * n / 2 ^ 30) }

def tileCluster (die t : Nat) : Nat := 12 * die + t
/-- The clusters of a rectangle: a die is 4 columns by 3 rows of tiles. -/
def rectClusters (r : Rect) : List Nat :=
  (List.range 12).filterMap fun t => if r.c0 ≤ t % 4 ∧ t % 4 ≤ r.c1 ∧ r.r0 ≤ t / 4 ∧ t / 4 ≤ r.r1 then some (tileCluster r.die t) else none

/-- Pages of a partition in some granules that have not returned to DEV. -/
def biasedIn (s : State) (p : Part) (gs : List Nat) : List (Nat × Bias) :=
  (partBias s p.id).filter fun b => gs.contains (4096 * b.1 / 2 ^ 30)
/-- The granules that a request gives up. -/
def givenUp (p : Part) : PartReq → List Nat
  | .destroy => p.granules
  | .memory gs => p.granules.filter fun g => !gs.contains g
  | _ => []
/-- Another partition keeps an interface, and its owner, when these change hands. -/
def keepsOwner (s : State) (vis : List Nat) (q : Part) : Bool :=
  (s.vis.all fun v => v.part != some q.id) || s.vis.any fun v => v.part == some q.id && v.owner && !vis.contains v.id

/-- A request that keeps every limit, and the state after it; one that gives memory up waits for the pages to return to DEV. -/
def configure (s : State) (p : Part) (req : PartReq) : Option State :=
  let put := fun (ok : Bool) (f : Part → Part) => if ok then some (s.mapPart p.id f) else none
  let idle := !hasContext s p.id
  match req with
  | .create => none
  | .destroy =>
    if !idle then none
    else if !(biasedIn s p p.granules).isEmpty then some (s.mapPart p.id fun q => { q with closing := some req })
    else
      let s := scrubGranules s p.granules
      let off := fun v : VIface => if v.part == some p.id then { ({ id := v.id } : VIface) with weight := v.weight } else v
      let s : State := { s with parts := s.parts.filter (fun q : Part => q.id != p.id), vis := s.vis.map off
                                windows := s.windows.filter (fun x : Window => x.part != p.id)
                                fqWait := s.fqWait.filter (fun r : Nat × List Byte => r.1 != p.id)
                                faults := s.faults.filter (fun f : OpenFault => f.part != p.id)
                                xinv := s.xinv.filter (fun x : Xinv => x.part != p.id) }
      some (keeperLog s 4 p.id [])
  | .clusters cs => put (idle && !cs.isEmpty && cs.all (fun c => decide (c < 48)) && decide (cs.dedup.length = cs.length)
      && !((otherParts s p.id).any fun q => q.clusters.any cs.contains)) fun q =>
      { q with clusters := cs, reserve := q.reserve.filter cs.contains, stitch := q.stitch.filter fun x => (rectClusters x.1).all cs.contains }
  | .reservation cs => put (cs.all p.clusters.contains && decide (cs.dedup.length = cs.length)
      && !(s.allLaunches.any fun l => l.part == p.id && l.promiseF)) fun q => { q with reserve := cs }
  | .memory gs =>
    if idle && gs.all (fun g => decide (g < 576)) && decide (gs.dedup.length = gs.length)
        && !((otherParts s p.id).any fun q => q.granules.any gs.contains) then
      let gone := givenUp p req
      if !(biasedIn s p gone).isEmpty then some (s.mapPart p.id fun q => { q with closing := some req })
      else
        let t := scrubGranules s (gone ++ gs.filter fun g => !p.granules.contains g)
        some (t.mapPart p.id fun q => { q with granules := gs, debugWin := q.debugWin.filter gs.contains })
    else none
  | .l2ways n => put (idle && decide (1 ≤ n) && decide (n + ((otherParts s p.id).map (·.l2ways)).sum ≤ 16)) fun q => { q with l2ways := n }
  | .bandwidth w => put (decide (1 ≤ w) && decide (w ≤ 255)) fun q => { q with bandwidth := w }
  | .interfaces vis owner =>
    let moved := s.vis.filter fun v => (vis.contains v.id) != (v.part == some p.id)
    if !vis.isEmpty && vis.all (fun v => decide (v < 64)) && vis.contains owner && moved.all (fun v => v.lqs.all fun x => !x.enabled)
        && (otherParts s p.id).all (keepsOwner s vis) then
      some { s with vis := s.vis.map fun v =>
        if vis.contains v.id then { v with part := some p.id, owner := v.id == owner }
        else if v.part == some p.id then { v with part := none, owner := false } else v }
    else none
  | .viWeight vi w => if decide (1 ≤ w) && decide (w ≤ 255) && (s.vi? vi).any fun v => v.part == some p.id then some (s.mapVi vi fun v => { v with weight := w }) else none
  | .copyRate cluster chan g =>
    let cs := (s.cluster cluster).chans
    let ch := cs.getD chan {}
    if p.clusters.contains cluster && decide (chan < 8) && decide (1 ≤ g) && decide (g ≤ 64) && ch.cmds.isEmpty && ch.parts.isEmpty
        && decide (((cs.eraseIdx chan).map (·.g)).sum + g ≤ 128) then some (s.setChan cluster chan fun c => { c with g := g }) else none
  | .exact on => put (!(s.allLaunches.any fun l => l.part == p.id)) fun q => { q with exact := on }
  | .debugWindow g => put (idle && (match g with
      | some x => p.granules.contains x
      | none => true)) fun q => { q with debugWin := g }
  | .killContext ctx => if s.ctxs.any fun c => c.num == ctx && c.part == p.id then some (killCtx s ctx) else none

def execPartitionConfig (part : Nat) (req : PartReq) (s : State) : Out :=
  match s.part? part with
  | some p => .next ((configure s p req).getD s)
  | none => match req with
    | .create =>
      if part < 16 ∧ ((s.parts.map (·.l2ways)).sum < 16) then
        .next (keeperLog { s with parts := s.parts ++ [{ id := part }] } 4 part [])
      else .next s
    | _ => .next s

/-- A request that waits can go on: no flip of its pages runs. -/
def closeDue (s : State) (p : Part) : Bool := match p.closing with
  | some req => !(biasedIn s p (givenUp p req)).any fun b => b.2 != .host
  | none => false
/-- The Keeper returns the pages to DEV, again where a host did not answer, and then does what was asked, if the limits still allow it
(11 R307, R395, 17 R420). -/
def closePartition (part : Nat) (s : State) : State :=
  match s.part? part with
  | none => s
  | some p => match p.closing with
    | none => s
    | some req =>
      let pages := biasedIn s p (givenUp p req)
      if !closeDue s p then s
      else if !pages.isEmpty then pages.foldl (fun s b => startFlip s b.1 64) s
      else
        let s := s.mapPart part fun q => { q with closing := none }
        (configure s { p with closing := none } req).getD s

/-! The fabric (R381 to R388). -/

/-- The drain of an input begins, and is counted; one whose drain is still under way has not begun another. -/
def execNocInputBlocked (die router input : Nat) (s : State) : Out :=
  let t := (die, router, input)
  if s.fabric.blocked.contains t then .next s
  else .next { s with
    fabric := { s.fabric with blocked := t :: s.fabric.blocked }
    parts := updWhere (fun p => p.clusters.contains (tileCluster die router)) (fun p => { p with drains := p.drains + 1 }) s.parts }
/-- The input has advanced again, or is empty (R384). -/
def drainEnd (die router input : Nat) (s : State) : State :=
  { s with fabric := { s.fabric with blocked := s.fabric.blocked.erase (die, router, input) } }
def execStitch (part : Nat) (rect : Rect) (pattern : StitchPattern) (s : State) : Out :=
  match s.part? part with
  | none => .next s
  | some p =>
    let cs := rectClusters rect
    let resident := s.allCohorts.any fun c => c.resident && p.clusters.contains (clusterOf c.core)
    let root := match pattern with
      | .tree t => cs.contains (tileCluster rect.die t)
      | _ => true
    if resident || cs.isEmpty || !cs.all p.clusters.contains || !root then .next s
    else .next (s.mapPart part fun q => { q with stitch := q.stitch.filter (fun x => x.1 != rect) ++ [(rect, pattern)] })

def execPlLinkDown (link : Nat) (s : State) : Out :=
  let gone := fun m : Nat => if m / 2 ^ link % 2 = 1 then m - 2 ^ link else m
  .next { s with fabric := { s.fabric with downLinks := link :: s.fabric.downLinks.erase link, routes := s.fabric.routes.map gone } }

def execRouteTableSet (number : Nat) (routes : List Nat) (s : State) : Out :=
  .next (if number < 64 ∧ routes.length = 64 then { s with fabric := { s.fabric with pkg := number, routes := routes } } else s)

/-- A warp that waits for a package out of reach, or that has issued a tile transfer which does, 100 microseconds after the request. -/
def unreachable (s : State) (w : Nat) : Bool :=
  ((s.fabric.lost.any fun t => t.1 == w && decide (t.2.2 + 100000 ≤ s.now)) && liveTest s w fun t => match t.w.stall with
    | some ⟨_, .route p⟩ => s.fabric.routes.getD p 0 == 0
    | _ => false)
  || liveTest s w fun t => t.k.seq.any fun o => o.warp == w && o.farSince.any fun n => decide (n + 100000 ≤ s.now)

def execUnreachableTimeout (w : Nat) (s : State) : Out :=
  if unreachable s w then
    let s := { s with fabric := { s.fabric with lost := s.fabric.lost.filter fun t => t.1 != w } }
    let t := s.focus w
    .next (warpCheck { t with k := { t.k with seq := t.k.seq.map fun o => if o.warp = w then { o with farSince := none } else o } })
  else .next s

/-! Lantern's log (17 R421). -/

/-- n bytes that the manual gives no value. -/
def freeBytes (s : State) (n : Nat) : List Byte := (List.range n).map fun i => Config.freeByte (s.fresh + i)

/-- Write one entry: SEQ, TIME, TYPE, PART, DATA, CHAIN. -/
def appendLog (s : State) (type part : Nat) (data : List Byte) : State :=
  let n := s.lan
  let d := (data ++ freeBytes s 12).take 12
  let head := leBytes 8 n.nextSeq ++ leBytes 8 (s.now % 2 ^ 48 + n.boots % 2 ^ 16 * 2 ^ 48) ++ leBytes 2 type ++ leBytes 1 part ++ leBytes 1 0 ++ d
  let chain := sha256 (n.chain ++ head)
  let r : LogRec := { seq := n.nextSeq, bytes := head ++ chain }
  let log := n.log ++ [r]
  let due := n.checkDue || decide (4096 ≤ n.sinceCheck + 1) || decide (n.lastCheck + 3600000000000 ≤ s.now)
  { s with fresh := s.fresh + 12
           lan := { n with log := log.drop (log.length - 16384), nextSeq := n.nextSeq + 1, chain := chain, sinceCheck := n.sinceCheck + 1
                           checkDue := due && type != 7 } }

/-- The next entry that waits in Lantern's queue of 256. -/
def flushLog (s : State) : State :=
  match s.lan.queue with
  | [] => s
  | (t, p, d) :: rest =>
    let s := appendLog { s with lan := { s.lan with queue := rest } } t p d
    match s.lan.waiting with
    | [] => s
    | x :: xs => { s with lan := { s.lan with queue := s.lan.queue ++ [x], waiting := xs } }

def execLogAppendRequest (type part : Nat) (data : List Byte) (s : State) : Out :=
  if 0x40 ≤ type ∧ type ≤ 0x7F then
    if s.lan.queue.length < 256 then .next (keeperLog s type part data)
    else .next { s with lan := { s.lan with waiting := s.lan.waiting ++ [(type, part, data)] } }
  else .next (keeperLog s 5 part [])

/-- Leaf indexes that are spent: 2^20 of the lower level for each of the upper (R415). -/
def Lantern.spent (n : Lantern) : Nat := 2 ^ 20 * n.leafTop + n.leafLow
/-- An index is left, or committed (R415). -/
def canSign (s : State) : Bool := s.lan.leaf.isSome || decide (s.lan.spent < 2 ^ 40)
def signReady (s : State) : Bool := s.lan.leaf.isSome
/-- The counter advances and is committed before a signature is made; loss of power after that skips the index (R415). -/
def commitLeaf (s : State) : State :=
  let n := s.lan
  if n.leaf.isSome || decide (2 ^ 40 ≤ n.spent) then s
  else
    let full := decide (2 ^ 20 ≤ n.leafLow + 1)
    { s with lan := { n with leaf := some n.spent, leafLow := if full then 0 else n.leafLow + 1, leafTop := n.leafTop + full.toNat } }
/-- A signature under the committed index, which is then used up. -/
def signature (s : State) (msg : List Byte) : List Byte × State :=
  let t := commitLeaf s
  let x := Config.sign (t.lan.leaf.getD 0) msg
  ((List.range 3604).map fun i => x.getD i 0#8, { t with lan := { t.lan with leaf := none } })

def execLogCheckpoint (s : State) : Out :=
  if s.lan.checkDue && canSign s then
    let n := s.lan
    let t := signature s (leBytes 8 (n.nextSeq - 1) ++ n.chain)
    let cs := n.checkpoints ++ [(n.nextSeq - 1, n.chain, t.1)]
    .next (keeperLog { t.2 with lan := { t.2.lan with checkpoints := cs.drop (cs.length - 64), sinceCheck := 0, lastCheck := s.now
                                                      checkDue := false } } 7 255 [])
  else .next s

/-! The lifetime record (R422). -/

def satAdd (a b : Nat) : Nat := min (a + b) (2 ^ 64 - 1)
def Life.plus (a b : Life) : Life :=
  { soft := (a.soft.zip b.soft).map fun t => satAdd t.1 t.2, hard := (a.hard.zip b.hard).map fun t => satAdd t.1 t.2
    thermal := (a.thermal.zip b.thermal).map fun t => satAdd t.1 t.2, excursions := satAdd a.excursions b.excursions
    trips := satAdd a.trips b.trips, droops := (a.droops.zip b.droops).map fun t => satAdd t.1 t.2
    failures := (a.failures.zip b.failures).map fun t => satAdd t.1 t.2, copyFailed := satAdd a.copyFailed b.copyFailed
    promiseTraps := satAdd a.promiseTraps b.promiseTraps, hours := satAdd a.hours b.hours, resets := satAdd a.resets b.resets }

def Life.bytes (a : Life) : List Byte :=
  (a.soft ++ a.hard ++ a.thermal ++ [a.excursions, a.trips] ++ a.droops ++ a.failures ++ [a.copyFailed, a.promiseTraps, a.hours, a.resets]).flatMap
    fun x => leBytes 8 x

def foldDue (s : State) : Bool := s.lan.foldNow || decide (s.lan.foldAt ≤ s.now)

/-- Seconds spread over the bins of the histogram from bin i on: which bin has how many comes from sensors, a free value. -/
def heatShares (s : State) : Nat → Nat → List Nat
  | 0, left => [left]
  | n + 1, left =>
    let x := Config.pick s.stepNo (n + 3601) % (left + 1)
    x :: heatShares s n (left - x)

/-- The hourly fold, or one for a machine check or a trip, which leaves the hour under way as it is. -/
def execLifetimeFold (s : State) : Out :=
  if foldDue s then
    let s := noteSram s
    let sec := s.now / 1000000000
    let hourly := decide (s.lan.foldAt ≤ s.now)
    let v := { s.lan.vol with thermal := heatShares s 8 (sec - s.lan.heatTo), hours := s.lan.vol.hours + hourly.toNat }
    .next { s with lan := { s.lan with life := s.lan.life.plus v, vol := {}, foldNow := false, heatTo := sec
                                       foldAt := if hourly then s.lan.foldAt + 3600000000000 else s.lan.foldAt } }
  else .next s

/-! The mailbox (R416 to R418). -/

/-- A command has ended with a result. -/
def mailResult (s : State) (result : Nat) : State :=
  { s with lan := { s.lan with lmDone := s.lan.lmDone + 1, lmResult := result } }

/-- Write a result buffer in host memory and report. -/
def mailWrite (s : State) (addr : Nat) (bs : List Byte) : State :=
  let pa := 0x8000000000000 + addr
  if 0x10000000000000 < pa + bs.length then mailResult s 2
  else mailResult { s with mem := memPuts s.mem (placed pa bs) } 0

/-- The contents of a partition's table entry. -/
def Part.nums (p : Part) (vis : List VIface) : List Nat :=
  let list := fun xs : List Nat => xs.length :: xs
  let mine := vis.filter fun v => v.part == some p.id
  [p.id, p.l2ways, p.bandwidth, p.exact.toNat, match p.debugWin with | some g => g + 1 | none => 0] ++ list p.clusters ++ list p.reserve
    ++ list p.granules ++ mine.flatMap fun v => [v.id, v.owner.toNat, v.weight]
/-- PARTHASH: the SHA-256 of the entry of a partition (R418). -/
def partHash (s : State) (part : Nat) : List Byte := sha256 (Config.partEntry ((s.part? part).getD { id := part } |>.nums s.vis))

/-- A REPORT with these values in its registers. -/
def execLmReport (addr arg : Nat) (nonce : List Byte) (s : State) : Out :=
  if s.lan.recovery || addr % 64 != 0 || nonce.length != 32 || !(decide (arg < 16) || arg == 0xFFFF) then .next (mailResult s 1)
  else if !canSign s then .next (mailResult s 4)
  else
    let n := s.lan
    let part := if arg = 0xFFFF then List.replicate 32 0#8 else partHash s arg
    let body := leBytes 4 0x4A374154 ++ leBytes 2 1 ++ leBytes 2 arg ++ nonce ++ n.meas.flatten ++ leBytes 8 (n.nextSeq - 1) ++ n.chain
      ++ leBytes 8 n.boots ++ leBytes 8 s.now ++ sha256 n.life.bytes ++ part ++ List.replicate 96 0#8
    let t := signature s body
    .next (mailWrite t.2 addr (body ++ t.1))

def execLmLogread (addr arg : Nat) (s : State) : Out :=
  if s.lan.recovery || addr % 64 != 0 then .next (mailResult s 1)
  else match s.lan.log.find? fun r => r.seq == arg with
  | none => .next (mailResult s 3)
  | some _ =>
    let rs := ((s.lan.log.filter fun r => decide (arg ≤ r.seq)).take 256).flatMap (·.bytes)
    let rest := freeBytes s (16384 - rs.length)
    let last := match s.lan.checkpoints.getLast? with
      | some c => leBytes 8 c.1 ++ c.2.1 ++ c.2.2
      | none => []
    .next (mailWrite { s with fresh := s.fresh + 16384 } addr (rs ++ rest ++ last))

def execLmLiferead (addr arg : Nat) (s : State) : Out :=
  if s.lan.recovery || addr % 64 != 0 || arg != 0 then .next (mailResult s 1)
  else .next (mailWrite s addr s.lan.life.bytes)

/-- The first command of the mailbox ends: of the queue, in the order in which they were written (R417). -/
def runMail (s : State) : Out :=
  match s.lan.lmQueue with
  | [] => .next s
  | (c, a, g, n) :: rest =>
    let s := { s with lan := { s.lan with lmQueue := rest } }
    match c.toNat with
    | 1 => execLmReport a.toNat g.toNat n s
    | 2 => execLmLogread a.toNat g.toNat s
    | 3 => execLmLiferead a.toNat g.toNat s
    | _ => .next (mailResult s 1)
/-- A report stands first that will be signed. -/
def mailSigns (s : State) : Bool := match s.lan.lmQueue with
  | (c, _) :: _ => c == 1#64 && !s.lan.recovery
  | [] => false
def mailDue (s : State) : Bool := !s.lan.lmQueue.isEmpty && (!mailSigns s || signReady s || !canSign s)
/-- A signature waits for its index. -/
def signWanted (s : State) : Bool := (s.lan.checkDue || mailSigns s) && !signReady s && canSign s

/-! Boot, fuses, images (R413 to R415 R423). -/

/-- MEASi takes a digest up. -/
def extendMeas (m : List (List Byte)) (i : Nat) (d : List Byte) : List (List Byte) := m.modify i fun x => sha256 (x ++ d)

def execMeasExtend (i : Nat) (digest : List Byte) (s : State) : Out :=
  if 4 ≤ i ∧ i < 8 ∧ digest.length = 32 then .next (keeperLog { s with lan := { s.lan with meas := extendMeas s.lan.meas i digest } } 8 255 [])
  else .next (keeperLog s 5 255 [])

/-- A signature of the firmware key, whose hash is in the fuses, over a digest and a version (R414). -/
def signedBy (n : Lantern) (x : Signed) (digest : List Byte) (version : Nat) : Bool :=
  decide (x.key.length = 56) && decide (x.lms.length = 1772) && sha256 x.key == n.keyHash && Config.verify x.key x.lms digest version
/-- Lantern accepts an image (R414). -/
def acceptsImage (n : Lantern) (x : Image) : Bool :=
  signedBy n x.signature x.digest x.version && decide (n.fuseMin ≤ x.version) && decide (x.version < 2 ^ 32)

/-- The nonvolatile part of Lantern (R415). -/
def Lantern.kept (n : Lantern) : Lantern :=
  { log := n.log, nextSeq := n.nextSeq, chain := n.chain, checkpoints := n.checkpoints, lastCheck := 0, sinceCheck := n.sinceCheck, life := n.life
    fuseMin := n.fuseMin, keyHash := n.keyHash, leafTop := n.leafTop, leafLow := n.leafLow, boots := n.boots, slotA := n.slotA
    slotB := n.slotB, powered := false }

/-- What is left without power: Lantern's store; the steps and the outside happenings to come belong to the model. -/
def withoutPower (s : State) : State := { lan := s.lan.kept, inputs := s.inputs, stepNo := s.stepNo, fresh := s.fresh }

def execPowerLoss (s : State) : Out := .next (withoutPower s)

def execColdReset (boot : BootImages) (s : State) : Out :=
  let s := withoutPower s
  let slotA := s.lan.slotA.getD boot.slotA
  let slotB := s.lan.slotB.getD boot.slotB
  let n := { s.lan with boots := s.lan.boots + 1, powered := true, slotA := some slotA, slotB := some slotB
                        life := { s.lan.life with resets := satAdd s.lan.life.resets 1 } }
  let m0 := extendMeas (List.replicate 8 (List.replicate 32 0#8)) 0 boot.rom
  let a := acceptsImage n slotA
  let b := acceptsImage n slotB
  if !boot.fusesOk then .next (keeperLog { s with lan := { n with recovery := true } } 1 255 [])
  else
  let s := keeperLog { s with lan := { n with meas := m0 } } 1 255 []
  let s := if a then s else keeperLog s 2 255 []
  let s := if a || b then s else keeperLog s 2 255 []
  if !(a || b) then .next { s with lan := { s.lan with recovery := true } }
  else
    let image := if a then slotA else slotB
    let s := keeperLog { s with lan := { s.lan with meas := extendMeas s.lan.meas 1 image.digest } } 1 255 []
    if !(acceptsImage n boot.memFw && acceptsImage n boot.linkFw) then .next (keeperLog { s with lan := { s.lan with recovery := true } } 2 255 [])
    else
      let m := extendMeas (extendMeas s.lan.meas 2 boot.memFw.digest) 3 boot.linkFw.digest
      let s := keeperLog { s with lan := { s.lan with meas := m } } 1 255 []
      .next (keeperLog { s with lan := { s.lan with meas := extendMeas s.lan.meas 4 boot.table } } 1 255 [])

def execFuseRaise (signature : Signed) (minimum : Nat) (s : State) : Out :=
  if signedBy s.lan signature (beBytes 32 minimum) minimum && decide (minimum ≤ 64) && decide (s.lan.fuseMin < minimum) then
    .next (keeperLog { s with lan := { s.lan with fuseMin := minimum } } 9 255 [])
  else .next s

def execFirmwareUpdate (image : Image) (s : State) : Out :=
  if !s.lan.recovery then .next s
  else if acceptsImage s.lan image then .next { s with lan := { s.lan with slotA := some image } }
  else .next (keeperLog s 2 255 [])

/-- The Keeper starts again from its verified image: no new measurement, every context survives. -/
def execKeeperRestart (s : State) : Out := .next s
/-- An error in both copies of Lantern's store; one in a single copy is corrected from the other (R423). -/
def storeError (s : State) : State := { s with lan := { s.lan with recovery := true } }

/-! Limits of the part (R422 R424). -/

def execVoltageDroopEvent (die : Nat) (s : State) : Out :=
  if 4 ≤ die then .next s
  else
    let s := s.tally fun x => { x with droops := x.droops.modify die (· + 1) }
    .next ((List.range 12).foldl (fun s i => s.mapCluster (12 * die + i) fun c => { c with droop := true }) s)

def execThermalExcursion (_sensor : Nat) (s : State) : Out := .next (s.tally fun x => { x with excursions := x.excursions + 1 })

/-- A trip: logged under a type that the manual does not name, counted, every context killed, the compute dies held. -/
def execThermalTrip (_sensor : Nat) (s : State) : Out :=
  if s.lan.tripped then .next { s with lan := { s.lan with cool := false } }
  else
    let type := (Config.freeByte s.fresh).toNat
    let s := (keeperLog { s with fresh := s.fresh + 1 } type 255 []).tally fun x => { x with trips := x.trips + 1 }
    let s := (s.ctxs.map (·.num)).foldl killCtx s
    .next { s with lan := { s.lan with tripped := true, cool := false, foldNow := true } }

/-- A die that leaves reset: nothing in its engines, the rates of the channels as the Keeper has set them. -/
def Cluster.afresh (c : Cluster) : Cluster := { id := c.id, chans := c.chans.map fun h => { g := h.g } }
/-- The kills of a trip have ended: no cohort is left, and no command that still writes its record. -/
def killsOver (s : State) : Bool := s.allCohorts.isEmpty && s.clusters.all fun c => c.chans.all fun h => h.cmds.isEmpty
/-- The compute dies leave reset, once the kills of the trip have ended. -/
def execThermalRecovery (s : State) : Out :=
  if !s.lan.tripped then .next s
  else if killsOver s then
    let s := s.unfocus
    .next { s with cores := [], slots := [], clusters := s.clusters.map Cluster.afresh, dies := []
                   lan := { s.lan with tripped := false, cool := false } }
  else .next { s with lan := { s.lan with cool := true } }

end Sys2Proof.Machine
end

