-- ==== Sys2Proof/Machine/Sfu.lean ====
section
/-! DEFINITION. The special functions (05 R137 R138, 16 R410 R412). The exact value is computed to 900 binary places; the
result is any FP32 value within the bound of the depth, by a free choice, except where the manual fixes it. -/

namespace Sys2Proof.Machine

/-! Fixed point with 900 binary places. -/

def fxP : Nat := 900
def fxOne : Nat := 2 ^ fxP
def fxMul (a b : Nat) : Nat := a * b / fxOne

/-- Newton's iteration for an integer square root, from above. -/
def isqrtStep (n : Nat) : Nat → Nat → Nat
  | 0, x => x
  | k + 1, x => let y := (x + n / x) / 2; if y < x then isqrtStep n k y else x
def isqrt (n : Nat) : Nat := if n = 0 then 0 else isqrtStep n 64 (2 ^ (Nat.log2 n / 2 + 1))

/-- Σ t^(2i + 1) / (2i + 1), the signs alternating when alt holds: (sum of terms added, sum of terms taken away). -/
def oddSeries (alt : Bool) (t2 : Nat) : Nat → Nat → Nat → Nat → Nat → Nat
  | 0, _, _, plus, minus => plus - minus
  | k + 1, i, t, plus, minus =>
    if t = 0 then plus - minus
    else
      let x := t / (2 * i + 1)
      oddSeries alt t2 k (i + 1) (fxMul t t2) (if alt && i % 2 == 1 then plus else plus + x)
        (if alt && i % 2 == 1 then minus + x else minus)
def atanhFx (t : Nat) : Nat := oddSeries false (fxMul t t) 320 0 t 0 0
def atanFx (t : Nat) : Nat := oddSeries true (fxMul t t) 320 0 t 0 0

def ln2Fx : Nat := 2 * atanhFx (fxOne / 3)
def halfPiFx : Nat := 2 * (4 * atanFx (fxOne / 5) - atanFx (fxOne / 239))

/-- Terms t y^j / ((i + 1) (i + 2) …), j steps at a time, with alternating signs when alt holds. -/
def powSeries (alt : Bool) (y : Nat) (two : Bool) : Nat → Nat → Nat → Bool → Nat → Nat → Nat
  | 0, _, _, _, plus, minus => plus - minus
  | k + 1, i, t, odd, plus, minus =>
    if t = 0 then plus - minus
    else
      let t' := if two then fxMul t y / ((i + 1) * (i + 2)) else fxMul t y / (i + 1)
      powSeries alt y two k (if two then i + 2 else i + 1) t' (!odd) (if alt && odd then plus else plus + t)
        (if alt && odd then minus + t else minus)
def expFx (y : Nat) : Nat := powSeries false y false 260 0 fxOne false 0 0
def sinFx (r : Nat) : Nat := powSeries true (fxMul r r) true 140 1 r false 0 0
def cosFx (r : Nat) : Nat := powSeries true (fxMul r r) true 140 0 fxOne false 0 0

/-- m × 2^e as a fixed-point number. -/
def toFx (m : Nat) (e : Int) : Nat :=
  match e + fxP with
  | .ofNat n => m * 2 ^ n
  | .negSucc n => m / 2 ^ (n + 1)

/-- 2^(n + y) for a fraction y. -/
def pow2Fx (n : Int) (y : Nat) : Nat :=
  let v := expFx (fxMul y ln2Fx)
  match n with
  | .ofNat k => v * 2 ^ k
  | .negSucc k => v / 2 ^ (k + 1)

/-- A sine or cosine: quadrant offset 0 for sine, 1 for cosine; the sign and the magnitude. -/
def trigFx (offset : Nat) (neg : Bool) (m : Nat) (e : Int) : Bool × Nat :=
  let x := toFx m e
  let hp := halfPiFx
  let k := (2 * x + hp) / (2 * hp)
  let r : Int := (x : Int) - (k * hp : Nat)
  let a := r.natAbs
  let down := decide (r < 0)
  let q := (k + offset) % 4
  -- sine of an odd quadrant is a cosine of the remainder
  let v := if q % 2 = 0 then sinFx a else cosFx a
  let sgn := (decide (2 ≤ q)) != (q % 2 == 0 && down)
  (sgn != (neg && offset == 0), v)

/-- The sign and the magnitude of a function at (−1)^neg × m × 2^e, m not 0; and whether the magnitude is exact. -/
def sfuReal (op : Nat) (neg : Bool) (m : Nat) (e : Int) : Bool × Nat × Bool :=
  let pow2 := 2 ^ Nat.log2 m == m
  let top : Int := e + Nat.log2 m
  match op with
  | 0 => (neg, 2 ^ (2 * fxP) / toFx m e, pow2)
  | 1 => (false, isqrt (2 ^ (3 * fxP) / toFx m e), pow2 && top % 2 == 0)
  | 2 =>
    let n := toFx m e * fxOne
    (false, isqrt n, isqrt n * isqrt n == n)
  | 3 =>
    -- beyond 1000 every exponent overflows, and below −1000 the magnitude counts as 0
    if 10 ≤ top then (if neg then (false, 0, false) else (false, 2 ^ (fxP + 1000), false))
    else
      let x := toFx m e
      let n := x / fxOne
      let y := x % fxOne
      if y = 0 then (false, pow2Fx (if neg then -(n : Int) else n) 0, true)
      else if neg then (false, pow2Fx (-(n : Int) - 1) (fxOne - y), false)
      else (false, pow2Fx n y, false)
  | 4 =>
    let f := toFx m (-(Nat.log2 m : Int))
    let y := 2 * atanhFx ((f - fxOne) * fxOne / (f + fxOne)) * fxOne / ln2Fx
    let v : Int := top * fxOne + y
    (decide (v < 0), v.natAbs, pow2)
  | 5 => (trigFx 0 neg m e).1 |> fun b => (b, (trigFx 0 neg m e).2, false)
  | 6 => (trigFx 1 neg m e).1 |> fun b => (b, (trigFx 1 neg m e).2, false)
  | _ =>
    if 9 ≤ top then (neg, fxOne - 1, false)
    else
      -- (1 − z) / (1 + z) with z = e^(−2x), kept as 1 + (1 − z) − 1 so that a small x loses nothing
      let x2 := 2 * toFx m e
      let n := x2 / ln2Fx
      let w := expFx (x2 - n * ln2Fx) * 2 ^ n
      (neg, (w - fxOne) * fxOne / (w + fxOne), false)

/-- The place of the largest FP32 magnitude not above n × 2^u among all of them, counting from 0 and going on past infinity;
and whether it lies below. -/
def ordFloor (n : Nat) (u : Int) : Nat × Bool :=
  if n = 0 then (0, false)
  else
    let q := max ((Nat.log2 n : Int) + u - 23) (-149)
    match u - q with
    | .ofNat k => ((q + 149).toNat * 2 ^ 23 + n * 2 ^ k, false)
    | .negSucc k => ((q + 149).toNat * 2 ^ 23 + n / 2 ^ (k + 1), decide (n % 2 ^ (k + 1) ≠ 0))

/-- The least and the greatest place among FP32 values, sign included, of the interval [lo, hi] × 2^u. -/
def ordLow (n u : Int) : Int :=
  let r := ordFloor n.natAbs u
  if 0 ≤ n then (r.1 + r.2.toNat : Nat) else -(r.1 : Int)
def ordHigh (n u : Int) : Int :=
  let r := ordFloor n.natAbs u
  if 0 ≤ n then r.1 else -((r.1 + r.2.toNat : Nat) : Int)

/-- The bound of a depth in units in the last place (R137 R138). -/
def sfuBound (depth : Nat) : Nat := [2, 4, 16, 64, 256, 2 ^ 11, 2 ^ 14, 2 ^ 17].getD depth 2

/-- A result within the bound of the exact value. -/
def sfuNear (op depth : Nat) (v : FEnv) (x : Word) (r : Bool × Nat × Bool) : Nat × Flags :=
  let top : Int := if r.2.1 = 0 then -1000 else (Nat.log2 r.2.1 : Int) - fxP
  -- half a unit in the last place of the exact value's binade
  let u := max (top - 23) (-149) - 1
  let n : Int := (r.2.1 / 2 ^ ((fxP : Int) + u).toNat : Nat)
  let b : Int := 2 * sfuBound depth
  let lo := ordLow (n - b + (if r.2.2 then 0 else 1)) u
  let hi := ordHigh (n + b) u
  let o := lo + (Config.sfuPick op depth v.mode.toNat x % (hi - lo + 1).toNat : Nat)
  let neg := r.1 != decide (o < 0)
  let a := o.natAbs
  if 0x7F800000 ≤ a then (overflowTo f32 v.mode neg, flOF ||| flNX)
  else if a < 0x00800000 then (if v.flush32 then f32.zero neg else f32.zero neg + a, flUF ||| flNX)
  else (f32.zero neg + a, flNX)

/-- RCP and SQRT correctly rounded: the value times 2 and a sticky bit. -/
def sfuRounded (op : Nat) (v : FEnv) (neg : Bool) (m : Nat) (e : Int) : Nat × Flags :=
  if op = 0 then
    f32.round v.mode v.flush32 neg (2 * (2 ^ 64 / m) + (decide (2 ^ 64 % m ≠ 0)).toNat) (-e - 65)
  else
    let m' := if e % 2 = 0 then m else 2 * m
    let e' := if e % 2 = 0 then e else e - 1
    let n := m' * 2 ^ 80
    f32.round v.mode v.flush32 false (2 * isqrt n + (decide (isqrt n * isqrt n ≠ n)).toNat) (e' / 2 - 41)

/-- The cases that are exact at every depth (R137). -/
def sfuTable (op : Nat) : Num → Option (Nat × Flags)
  | .nan b => some (f32.nan, if b then flNV else noFlags)
  | .inf n =>
    match op with
    | 0 => some (f32.zero n, noFlags)
    | 1 => if n then some (f32.nan, flNV) else some (0, noFlags)
    | 2 | 4 => if n then some (f32.nan, flNV) else some (f32.inf false, noFlags)
    | 3 => if n then some (0, noFlags) else some (f32.inf false, noFlags)
    | 5 | 6 => some (f32.nan, flNV)
    | _ => some (n.toNat * 2 ^ 31 + 0x3F800000, noFlags)
  | .fin n m e =>
    if m = 0 then
      match op with
      | 0 | 1 => some (f32.inf n, flDZ)
      | 2 | 5 | 7 => some (f32.zero n, noFlags)
      | 4 => some (f32.inf true, flDZ)
      | _ => some (0x3F800000, noFlags)
    else
      match op with
      | 1 | 2 => if n then some (f32.nan, flNV) else none
      | 4 => if n then some (f32.nan, flNV) else if numEq (.fin n m e) (.fin false 1 0) then some (0, noFlags) else none
      | _ => none

/-- An SFU result at a depth. -/
def sfu (op depth : Nat) (v : FEnv) (x : Word) : Word × Flags :=
  let y := f32.read v.flush32 x.toNat
  asWord (match sfuTable op y with
    | some r => r
    | none => match y with
      | .fin n m e =>
        if depth = 0 && (op == 0 || op == 2) then sfuRounded op v n m e
        else
          let r := sfuReal op n m e
          let c := f32.round 0#2 false r.1 r.2.1 (-(fxP : Int))
          if depth = 0 && r.2.2 && c.2 == noFlags then f32.round v.mode v.flush32 r.1 r.2.1 (-(fxP : Int))
          else sfuNear op depth v x r
      | _ => (f32.nan, noFlags))

def sfuOp (op : Nat) (p : Px) (f : UForm) (s : State) : Out :=
  let depth := match p.approx with
    | some n => apxDepth s n.toNat
    | none => 0
  runNext p s (do
    readable f.a; writable f.d
    let (a, t) ← readA s p f.a
    let t ← kill f.a f.ka 1 t
    let t ← writeFlagged t f.d (s.active p f.g) fun l => sfu op depth (fenv s p) (a.get l)
    .ok (if depth = 0 then t else traceRec t 4 0 depth 0 0#32))

def execRcp (p : Px) (f : UForm) (s : State) : Out := sfuOp 0 p f s
def execRsq (p : Px) (f : UForm) (s : State) : Out := sfuOp 1 p f s
def execSqrt (p : Px) (f : UForm) (s : State) : Out := sfuOp 2 p f s
def execExp2 (p : Px) (f : UForm) (s : State) : Out := sfuOp 3 p f s
def execLog2 (p : Px) (f : UForm) (s : State) : Out := sfuOp 4 p f s
def execSin (p : Px) (f : UForm) (s : State) : Out := sfuOp 5 p f s
def execCos (p : Px) (f : UForm) (s : State) : Out := sfuOp 6 p f s
def execTanh (p : Px) (f : UForm) (s : State) : Out := sfuOp 7 p f s

end Sys2Proof.Machine
end

