-- ==== Sys2Proof/Machine/Dispatch.lean ====
section
/-! DEFINITION. One arm for each constructor of Instr. -/

namespace Sys2Proof.Machine

def exec (i : Instr) (s : State) : Host.Outcome State Fault Refusal :=
  match i with
  | .iadd p f => Sys2Proof.Machine.execIadd p f s
  | .isub p f => Sys2Proof.Machine.execIsub p f s
  | .imul p f => Sys2Proof.Machine.execImul p f s
  | .imulhs p f => Sys2Proof.Machine.execImulhs p f s
  | .imulhu p f => Sys2Proof.Machine.execImulhu p f s
  | .imad p f => Sys2Proof.Machine.execImad p f s
  | .iadd64 p f => Sys2Proof.Machine.execIadd64 p f s
  | .isub64 p f => Sys2Proof.Machine.execIsub64 p f s
  | .imin p f => Sys2Proof.Machine.execImin p f s
  | .imax p f => Sys2Proof.Machine.execImax p f s
  | .umin p f => Sys2Proof.Machine.execUmin p f s
  | .umax p f => Sys2Proof.Machine.execUmax p f s
  | .and p f => Sys2Proof.Machine.execAnd p f s
  | .or p f => Sys2Proof.Machine.execOr p f s
  | .xor p f => Sys2Proof.Machine.execXor p f s
  | .andn p f => Sys2Proof.Machine.execAndn p f s
  | .shl p f => Sys2Proof.Machine.execShl p f s
  | .shr p f => Sys2Proof.Machine.execShr p f s
  | .sar p f => Sys2Proof.Machine.execSar p f s
  | .shfr p f => Sys2Proof.Machine.execShfr p f s
  | .bfe p f => Sys2Proof.Machine.execBfe p f s
  | .bfi p f => Sys2Proof.Machine.execBfi p f s
  | .imad64 p f => Sys2Proof.Machine.execImad64 p f s
  | .mov p f => Sys2Proof.Machine.execMov p f s
  | .not p f => Sys2Proof.Machine.execNot p f s
  | .neg p f => Sys2Proof.Machine.execNeg p f s
  | .abs p f => Sys2Proof.Machine.execAbs p f s
  | .popc p f => Sys2Proof.Machine.execPopc p f s
  | .clz p f => Sys2Proof.Machine.execClz p f s
  | .ctz p f => Sys2Proof.Machine.execCtz p f s
  | .brev p f => Sys2Proof.Machine.execBrev p f s
  | .sx8 p f => Sys2Proof.Machine.execSx8 p f s
  | .sx16 p f => Sys2Proof.Machine.execSx16 p f s
  | .zx8 p f => Sys2Proof.Machine.execZx8 p f s
  | .zx16 p f => Sys2Proof.Machine.execZx16 p f s
  | .bswap p f => Sys2Proof.Machine.execBswap p f s
  | .mov64 p f => Sys2Proof.Machine.execMov64 p f s
  | .widf0 p f => Sys2Proof.Machine.execWidf0 p f s
  | .widf1 p f => Sys2Proof.Machine.execWidf1 p f s
  | .widf2 p f => Sys2Proof.Machine.execWidf2 p f s
  | .widf3 p f => Sys2Proof.Machine.execWidf3 p f s
  | .widf4 p f => Sys2Proof.Machine.execWidf4 p f s
  | .widf5 p f => Sys2Proof.Machine.execWidf5 p f s
  | .movi p f => Sys2Proof.Machine.execMovi p f s
  | .movhi p f => Sys2Proof.Machine.execMovhi p f s
  | .iaddi p f => Sys2Proof.Machine.execIaddi p f s
  | .andi p f => Sys2Proof.Machine.execAndi p f s
  | .ori p f => Sys2Proof.Machine.execOri p f s
  | .xori p f => Sys2Proof.Machine.execXori p f s
  | .shi p d kind n g => Sys2Proof.Machine.execShi p d kind n g s
  | .icmp p f => Sys2Proof.Machine.execIcmp p f s
  | .ucmp p f => Sys2Proof.Machine.execUcmp p f s
  | .fcmp p f => Sys2Proof.Machine.execFcmp p f s
  | .hcmp2 p f => Sys2Proof.Machine.execHcmp2 p f s
  | .bcmp2 p f => Sys2Proof.Machine.execBcmp2 p f s
  | .sel p f => Sys2Proof.Machine.execSel p f s
  | .plog p pn a => Sys2Proof.Machine.execPlog p pn a s
  | .vote p pn d => Sys2Proof.Machine.execVote p pn d s
  | .ballot p pn d => Sys2Proof.Machine.execBallot p pn d s
  | .pmov p pn d => Sys2Proof.Machine.execPmov p pn d s
  | .pmovPred p pn a b => Sys2Proof.Machine.execPmovPred p pn a b s
  | .fadd p f => Sys2Proof.Machine.execFadd p f s
  | .fsub p f => Sys2Proof.Machine.execFsub p f s
  | .fmul p f => Sys2Proof.Machine.execFmul p f s
  | .ffma p f => Sys2Proof.Machine.execFfma p f s
  | .fmin p f => Sys2Proof.Machine.execFmin p f s
  | .fmax p f => Sys2Proof.Machine.execFmax p f s
  | .hadd2 p f => Sys2Proof.Machine.execHadd2 p f s
  | .hmul2 p f => Sys2Proof.Machine.execHmul2 p f s
  | .hfma2 p f => Sys2Proof.Machine.execHfma2 p f s
  | .hmin2 p f => Sys2Proof.Machine.execHmin2 p f s
  | .hmax2 p f => Sys2Proof.Machine.execHmax2 p f s
  | .badd2 p f => Sys2Proof.Machine.execBadd2 p f s
  | .bmul2 p f => Sys2Proof.Machine.execBmul2 p f s
  | .bfma2 p f => Sys2Proof.Machine.execBfma2 p f s
  | .bmin2 p f => Sys2Proof.Machine.execBmin2 p f s
  | .bmax2 p f => Sys2Proof.Machine.execBmax2 p f s
  | .faddi p f => Sys2Proof.Machine.execFaddi p f s
  | .fmuli p f => Sys2Proof.Machine.execFmuli p f s
  | .haddi2 p f => Sys2Proof.Machine.execHaddi2 p f s
  | .hmuli2 p f => Sys2Proof.Machine.execHmuli2 p f s
  | .baddi2 p f => Sys2Proof.Machine.execBaddi2 p f s
  | .bmuli2 p f => Sys2Proof.Machine.execBmuli2 p f s
  | .qseti p f => Sys2Proof.Machine.execQseti p f s
  | .fabs p f => Sys2Proof.Machine.execFabs p f s
  | .fneg p f => Sys2Proof.Machine.execFneg p f s
  | .ffloor p f => Sys2Proof.Machine.execFfloor p f s
  | .fceil p f => Sys2Proof.Machine.execFceil p f s
  | .ftrunc p f => Sys2Proof.Machine.execFtrunc p f s
  | .frint p f => Sys2Proof.Machine.execFrint p f s
  | .ffract p f => Sys2Proof.Machine.execFfract p f s
  | .fsat p f => Sys2Proof.Machine.execFsat p f s
  | .fclass p f => Sys2Proof.Machine.execFclass p f s
  | .habs2 p f => Sys2Proof.Machine.execHabs2 p f s
  | .hneg2 p f => Sys2Proof.Machine.execHneg2 p f s
  | .babs2 p f => Sys2Proof.Machine.execBabs2 p f s
  | .bneg2 p f => Sys2Proof.Machine.execBneg2 p f s
  | .rcp p f => Sys2Proof.Machine.execRcp p f s
  | .rsq p f => Sys2Proof.Machine.execRsq p f s
  | .sqrt p f => Sys2Proof.Machine.execSqrt p f s
  | .exp2 p f => Sys2Proof.Machine.execExp2 p f s
  | .log2 p f => Sys2Proof.Machine.execLog2 p f s
  | .sin p f => Sys2Proof.Machine.execSin p f s
  | .cos p f => Sys2Proof.Machine.execCos p f s
  | .tanh p f => Sys2Proof.Machine.execTanh p f s
  | .dp2h p f => Sys2Proof.Machine.execDp2h p f s
  | .dp2b p f => Sys2Proof.Machine.execDp2b p f s
  | .dp4e4 p f => Sys2Proof.Machine.execDp4e4 p f s
  | .dp4e5 p f => Sys2Proof.Machine.execDp4e5 p f s
  | .dp4s8 p f => Sys2Proof.Machine.execDp4s8 p f s
  | .dp8e2 p f => Sys2Proof.Machine.execDp8e2 p f s
  | .dp8s4 p f => Sys2Proof.Machine.execDp8s4 p f s
  | .fscl p f => Sys2Proof.Machine.execFscl p f s
  | .f2i p f => Sys2Proof.Machine.execF2i p f s
  | .f2iRz p f => Sys2Proof.Machine.execF2iRz p f s
  | .f2u p f => Sys2Proof.Machine.execF2u p f s
  | .f2uRz p f => Sys2Proof.Machine.execF2uRz p f s
  | .i2f p f => Sys2Proof.Machine.execI2f p f s
  | .u2f p f => Sys2Proof.Machine.execU2f p f s
  | .f2hLo p f => Sys2Proof.Machine.execF2hLo p f s
  | .f2hHi p f => Sys2Proof.Machine.execF2hHi p f s
  | .f2bLo p f => Sys2Proof.Machine.execF2bLo p f s
  | .f2bHi p f => Sys2Proof.Machine.execF2bHi p f s
  | .h2fLo p f => Sys2Proof.Machine.execH2fLo p f s
  | .h2fHi p f => Sys2Proof.Machine.execH2fHi p f s
  | .b2fLo p f => Sys2Proof.Machine.execB2fLo p f s
  | .b2fHi p f => Sys2Proof.Machine.execB2fHi p f s
  | .qnt p f => Sys2Proof.Machine.execQnt p f s
  | .deq p f => Sys2Proof.Machine.execDeq p f s
  | .shfl p f => Sys2Proof.Machine.execShfl p f s
  | .xwr p f => Sys2Proof.Machine.execXwr p f s
  | .redlIadd p f => Sys2Proof.Machine.execRedlIadd p f s
  | .redlSmin p f => Sys2Proof.Machine.execRedlSmin p f s
  | .redlSmax p f => Sys2Proof.Machine.execRedlSmax p f s
  | .redlUmin p f => Sys2Proof.Machine.execRedlUmin p f s
  | .redlUmax p f => Sys2Proof.Machine.execRedlUmax p f s
  | .redlAnd p f => Sys2Proof.Machine.execRedlAnd p f s
  | .redlOr p f => Sys2Proof.Machine.execRedlOr p f s
  | .redlXor p f => Sys2Proof.Machine.execRedlXor p f s
  | .redlFadd p f => Sys2Proof.Machine.execRedlFadd p f s
  | .redlFmin p f => Sys2Proof.Machine.execRedlFmin p f s
  | .redlFmax p f => Sys2Proof.Machine.execRedlFmax p f s
  | .scanlIadd p f => Sys2Proof.Machine.execScanlIadd p f s
  | .scanlIaddEx p f => Sys2Proof.Machine.execScanlIaddEx p f s
  | .scanlFadd p f => Sys2Proof.Machine.execScanlFadd p f s
  | .scanlSmax p f => Sys2Proof.Machine.execScanlSmax p f s
  | .scanlOr p f => Sys2Proof.Machine.execScanlOr p f s
  | .ldg p f => Sys2Proof.Machine.execLdg p f s
  | .stg p f => Sys2Proof.Machine.execStg p f s
  | .lds p f => Sys2Proof.Machine.execLds p f s
  | .sts p f => Sys2Proof.Machine.execSts p f s
  | .ldc p f => Sys2Proof.Machine.execLdc p f s
  | .pref p f => Sys2Proof.Machine.execPref p f s
  | .atg p f => Sys2Proof.Machine.execAtg p f s
  | .ats p f => Sys2Proof.Machine.execAts p f s
  | .redg p f => Sys2Proof.Machine.execRedg p f s
  | .fenceFull p scope g => Sys2Proof.Machine.execFenceFull p scope g s
  | .fenceAcq p scope g => Sys2Proof.Machine.execFenceAcq p scope g s
  | .fenceRel p scope g => Sys2Proof.Machine.execFenceRel p scope g s
  | .fenceEng p scope g => Sys2Proof.Machine.execFenceEng p scope g s
  | .barSync p d name g => Sys2Proof.Machine.execBarSync p d name g s
  | .barArrive p d name g => Sys2Proof.Machine.execBarArrive p d name g s
  | .barWait p d name g => Sys2Proof.Machine.execBarWait p d name g s
  | .barFlush p d name g => Sys2Proof.Machine.execBarFlush p d name g s
  | .fbarSync p mask g => Sys2Proof.Machine.execFbarSync p mask g s
  | .fbarArrive p mask g => Sys2Proof.Machine.execFbarArrive p mask g s
  | .fbarWait p mask g => Sys2Proof.Machine.execFbarWait p mask g s
  | .waita p f => Sys2Proof.Machine.execWaita p f s
  | .sleepu p f => Sys2Proof.Machine.execSleepu p f s
  | .qbindUnbind p f => Sys2Proof.Machine.execQbindUnbind p f s
  | .qbindWarp p f => Sys2Proof.Machine.execQbindWarp p f s
  | .qbindFibre p f => Sys2Proof.Machine.execQbindFibre p f s
  | .qbindCopy p f => Sys2Proof.Machine.execQbindCopy p f s
  | .qbindCopydone p f => Sys2Proof.Machine.execQbindCopydone p f s
  | .qbindMseq p f => Sys2Proof.Machine.execQbindMseq p f s
  | .qbindBincmd p f => Sys2Proof.Machine.execQbindBincmd p f s
  | .qbindBinres p f => Sys2Proof.Machine.execQbindBinres p f s
  | .qbindCont p f => Sys2Proof.Machine.execQbindCont p f s
  | .qbindAmsend p f => Sys2Proof.Machine.execQbindAmsend p f s
  | .qstat p d q g => Sys2Proof.Machine.execQstat p d q g s
  | .stmapMap p d a g => Sys2Proof.Machine.execStmapMap p d a g s
  | .stmapUnmap p f => Sys2Proof.Machine.execStmapUnmap p f s
  | .stmapFlush p f => Sys2Proof.Machine.execStmapFlush p f s
  | .bra p f => Sys2Proof.Machine.execBra p f s
  | .call p f => Sys2Proof.Machine.execCall p f s
  | .jmp p f => Sys2Proof.Machine.execJmp p f s
  | .callr p f => Sys2Proof.Machine.execCallr p f s
  | .ret p g => Sys2Proof.Machine.execRet p g s
  | .exit p g => Sys2Proof.Machine.execExit p g s
  | .exitJ p g => Sys2Proof.Machine.execExitJ p g s
  | .exitF p g => Sys2Proof.Machine.execExitF p g s
  | .regroup p a ka => Sys2Proof.Machine.execRegroup p a ka s
  | .yieldFibre p => Sys2Proof.Machine.execYieldFibre p s
  | .yieldSched p => Sys2Proof.Machine.execYieldSched p s
  | .yieldDet p => Sys2Proof.Machine.execYieldDet p s
  | .winb p imm => Sys2Proof.Machine.execWinb p imm s
  | .rgrow p d a tryIt => Sys2Proof.Machine.execRgrow p d a tryIt s
  | .rshrink p a => Sys2Proof.Machine.execRshrink p a s
  | .fibreStart p mask => Sys2Proof.Machine.execFibreStart p mask s
  | .fibreStop p mask => Sys2Proof.Machine.execFibreStop p mask s
  | .fibreWin p a => Sys2Proof.Machine.execFibreWin p a s
  | .fibreSelf p d => Sys2Proof.Machine.execFibreSelf p d s
  | .fibreState p d => Sys2Proof.Machine.execFibreState p d s
  | .ensure p lc disp => Sys2Proof.Machine.execEnsure p lc disp s
  | .rbend p g => Sys2Proof.Machine.execRbend p g s
  | .rbaccept p pn => Sys2Proof.Machine.execRbaccept p pn s
  | .rbabort p imm => Sys2Proof.Machine.execRbabort p imm s
  | .convj p f => Sys2Proof.Machine.execConvj p f s
  | .tlalloc p f => Sys2Proof.Machine.execTlalloc p f s
  | .tlfree p h => Sys2Proof.Machine.execTlfree p h s
  | .tlgive p h su => Sys2Proof.Machine.execTlgive p h su s
  | .tltake p h su => Sys2Proof.Machine.execTltake p h su s
  | .tlload p h su => Sys2Proof.Machine.execTlload p h su s
  | .tlstore p h su => Sys2Proof.Machine.execTlstore p h su s
  | .mmloop p f => Sys2Proof.Machine.execMmloop p f s
  | .hadt p f => Sys2Proof.Machine.execHadt p f s
  | .tlsync p h => Sys2Proof.Machine.execTlsync p h s
  | .tlsyncAll p => Sys2Proof.Machine.execTlsyncAll p s
  | .mfsr p d csr => Sys2Proof.Machine.execMfsr p d csr s
  | .mtsr p d csr => Sys2Proof.Machine.execMtsr p d csr s
  | .trap p code => Sys2Proof.Machine.execTrap p code s
  | .tret p => Sys2Proof.Machine.execTret p s
  | .tbset p d v => Sys2Proof.Machine.execTbset p d v s
  | .brk p code => Sys2Proof.Machine.execBrk p code s
  | .mark p d code => Sys2Proof.Machine.execMark p d code s
  | .haltself p => Sys2Proof.Machine.execHaltself p s
  | .stallReissue w => Sys2Proof.Machine.execStallReissue w s
  | .levelOpen c => Sys2Proof.Machine.execLevelOpen c s
  | .attemptLimitReached c depth => Sys2Proof.Machine.execAttemptLimitReached c depth s
  | .levelRollback c => Sys2Proof.Machine.execLevelRollback c s
  | .convJoinMessage no => Sys2Proof.Machine.execConvJoinMessage no s
  | .convVoteMessage no => Sys2Proof.Machine.execConvVoteMessage no s
  | .convFailMessage no => Sys2Proof.Machine.execConvFailMessage no s
  | .convDoneMessage no => Sys2Proof.Machine.execConvDoneMessage no s
  | .convCommitNotice no => Sys2Proof.Machine.execConvCommitNotice no s
  | .convRollbackNotice no => Sys2Proof.Machine.execConvRollbackNotice no s
  | .convAdvanceNotice no => Sys2Proof.Machine.execConvAdvanceNotice no s
  | .convExhaustNotice no => Sys2Proof.Machine.execConvExhaustNotice no s
  | .heldWritePerform no => Sys2Proof.Machine.execHeldWritePerform no s
  | .timerFire w => Sys2Proof.Machine.execTimerFire w s
  | .timerTrapEntry w => Sys2Proof.Machine.execTimerTrapEntry w s
  | .shadowWaitTrapEntry w => Sys2Proof.Machine.execShadowWaitTrapEntry w s
  | .waitaRecheck w => Sys2Proof.Machine.execWaitaRecheck w s
  | .waitaTimeout w => Sys2Proof.Machine.execWaitaTimeout w s
  | .sleepuDeadline w => Sys2Proof.Machine.execSleepuDeadline w s
  | .sleepuCompletionWake w => Sys2Proof.Machine.execSleepuCompletionWake w s
  | .tileSequencerStart core op => Sys2Proof.Machine.execTileSequencerStart core op s
  | .tileInstrRetire core op => Sys2Proof.Machine.execTileInstrRetire core op s
  | .aRowsBroadcastArrive core no => Sys2Proof.Machine.execARowsBroadcastArrive core no s
  | .copyCmd cluster chan w => Sys2Proof.Machine.execCopyCmd cluster chan w s
  | .fillCmd cluster chan w => Sys2Proof.Machine.execFillCmd cluster chan w s
  | .copyCmdComplete cluster chan no => Sys2Proof.Machine.execCopyCmdComplete cluster chan no s
  | .copyPromiseExpiry cluster chan no => Sys2Proof.Machine.execCopyPromiseExpiry cluster chan no s
  | .mseqRun w w0 w1 => Sys2Proof.Machine.execMseqRun w w0 w1 s
  | .thresherOpen die w => Sys2Proof.Machine.execThresherOpen die w s
  | .thresherCount die w => Sys2Proof.Machine.execThresherCount die w s
  | .thresherBind die w => Sys2Proof.Machine.execThresherBind die w s
  | .thresherClose die w => Sys2Proof.Machine.execThresherClose die w s
  | .amArrive core no => Sys2Proof.Machine.execAmArrive core no s
  | .handlerWarpSpawn c => Sys2Proof.Machine.execHandlerWarpSpawn c s
  | .cohortCompletion c => Sys2Proof.Machine.execCohortCompletion c s
  | .parentPlacement launch => Sys2Proof.Machine.execParentPlacement launch s
  | .cohortDispatch cluster => Sys2Proof.Machine.execCohortDispatch cluster s
  | .launchQueueTail vi q => Sys2Proof.Machine.execLaunchQueueTail vi q s
  | .budgetEnd c => Sys2Proof.Machine.execBudgetEnd c s
  | .promiseDrainEnd launch => Sys2Proof.Machine.execPromiseDrainEnd launch s
  | .preemptTrigger launch => Sys2Proof.Machine.execPreemptTrigger launch s
  | .preemption ctx core => Sys2Proof.Machine.execPreemption ctx core s
  | .contextResume ctx no => Sys2Proof.Machine.execContextResume ctx no s
  | .launchEnd launch => Sys2Proof.Machine.execLaunchEnd launch s
  | .checkRunRestart launch => Sys2Proof.Machine.execCheckRunRestart launch s
  | .cargoDeparture w => Sys2Proof.Machine.execCargoDeparture w s
  | .cargoRetry core no => Sys2Proof.Machine.execCargoRetry core no s
  | .cargoLanding core no => Sys2Proof.Machine.execCargoLanding core no s
  | .landedWarpStart core => Sys2Proof.Machine.execLandedWarpStart core s
  | .segmentReplication core => Sys2Proof.Machine.execSegmentReplication core s
  | .stashIdleWriteback c line => Sys2Proof.Machine.execStashIdleWriteback c line s
  | .stashRecall line => Sys2Proof.Machine.execStashRecall line s
  | .dirReadRequest agent line => Sys2Proof.Machine.execDirReadRequest agent line s
  | .dirOwnershipRequest agent line => Sys2Proof.Machine.execDirOwnershipRequest agent line s
  | .evictionNotice agent line seq dirty => Sys2Proof.Machine.execEvictionNotice agent line seq dirty s
  | .regionDone agent base seq => Sys2Proof.Machine.execRegionDone agent base seq s
  | .probeAnswer agent line ans => Sys2Proof.Machine.execProbeAnswer agent line ans s
  | .regionMerge base size => Sys2Proof.Machine.execRegionMerge base size s
  | .hostMemRead pa n => Sys2Proof.Machine.execHostMemRead pa n s
  | .hostMemWrite pa bytes => Sys2Proof.Machine.execHostMemWrite pa bytes s
  | .biasToDev vi cmd => Sys2Proof.Machine.execBiasToDev vi cmd s
  | .biasToHost vi cmd => Sys2Proof.Machine.execBiasToHost vi cmd s
  | .bisnpAnswer line dirty => Sys2Proof.Machine.execBisnpAnswer line dirty s
  | .biasFlipTimeout page => Sys2Proof.Machine.execBiasFlipTimeout page s
  | .pageWalk w => Sys2Proof.Machine.execPageWalk w s
  | .xinvCommand vi cmd => Sys2Proof.Machine.execXinvCommand vi cmd s
  | .xinvComplete part => Sys2Proof.Machine.execXinvComplete part s
  | .faultReplyRetry vi token => Sys2Proof.Machine.execFaultReplyRetry vi token s
  | .faultReplyUnserviceable vi token => Sys2Proof.Machine.execFaultReplyUnserviceable vi token s
  | .faultReplyKill vi token => Sys2Proof.Machine.execFaultReplyKill vi token s
  | .ctxCreate vi cmd => Sys2Proof.Machine.execCtxCreate vi cmd s
  | .ctxDestroy vi cmd => Sys2Proof.Machine.execCtxDestroy vi cmd s
  | .contextReleaseScrub ctx => Sys2Proof.Machine.execContextReleaseScrub ctx s
  | .lqcfgWrite vi q val => Sys2Proof.Machine.execLqcfgWrite vi q val s
  | .registerWrite vi off val => Sys2Proof.Machine.execRegisterWrite vi off val s
  | .machineCheck who => Sys2Proof.Machine.execMachineCheck who s
  | .securityViolation w addr => Sys2Proof.Machine.execSecurityViolation w addr s
  | .contextKill ctx => Sys2Proof.Machine.execContextKill ctx s
  | .attach port => Sys2Proof.Machine.execAttach port s
  | .detach port => Sys2Proof.Machine.execDetach port s
  | .halt port => Sys2Proof.Machine.execHalt port s
  | .haltc port => Sys2Proof.Machine.execHaltc port s
  | .resume port => Sys2Proof.Machine.execResume port s
  | .resumec port => Sys2Proof.Machine.execResumec port s
  | .step port => Sys2Proof.Machine.execStep port s
  | .setbp port => Sys2Proof.Machine.execSetbp port s
  | .clrbp port => Sys2Proof.Machine.execClrbp port s
  | .warpHaltTakesEffect w => Sys2Proof.Machine.execWarpHaltTakesEffect w s
  | .breakpointHit w => Sys2Proof.Machine.execBreakpointHit w s
  | .regviewWrite port off n val => Sys2Proof.Machine.execRegviewWrite port off n val s
  | .fibviewWrite port off n val => Sys2Proof.Machine.execFibviewWrite port off n val s
  | .shviewWrite port off n val => Sys2Proof.Machine.execShviewWrite port off n val s
  | .tileviewWrite port off n val => Sys2Proof.Machine.execTileviewWrite port off n val s
  | .viewRead port off n => Sys2Proof.Machine.execViewRead port off n s
  | .sample core => Sys2Proof.Machine.execSample core s
  | .governorUpdate cluster => Sys2Proof.Machine.execGovernorUpdate cluster s
  | .lmReport addr arg nonce => Sys2Proof.Machine.execLmReport addr arg nonce s
  | .lmLogread addr arg => Sys2Proof.Machine.execLmLogread addr arg s
  | .lmLiferead addr arg => Sys2Proof.Machine.execLmLiferead addr arg s
  | .logAppendRequest type part data => Sys2Proof.Machine.execLogAppendRequest type part data s
  | .logCheckpoint => Sys2Proof.Machine.execLogCheckpoint s
  | .lifetimeFold => Sys2Proof.Machine.execLifetimeFold s
  | .measExtend no digest => Sys2Proof.Machine.execMeasExtend no digest s
  | .coldReset boot => Sys2Proof.Machine.execColdReset boot s
  | .fuseRaise signature minimum => Sys2Proof.Machine.execFuseRaise signature minimum s
  | .firmwareUpdate image => Sys2Proof.Machine.execFirmwareUpdate image s
  | .keeperRestart => Sys2Proof.Machine.execKeeperRestart s
  | .patrolScrub stack found => Sys2Proof.Machine.execPatrolScrub stack found s
  | .thermalTrip sensor => Sys2Proof.Machine.execThermalTrip sensor s
  | .thermalRecovery => Sys2Proof.Machine.execThermalRecovery s
  | .nocInputBlocked die router input => Sys2Proof.Machine.execNocInputBlocked die router input s
  | .stitch part rect pattern => Sys2Proof.Machine.execStitch part rect pattern s
  | .plLinkDown link => Sys2Proof.Machine.execPlLinkDown link s
  | .unreachableTimeout w => Sys2Proof.Machine.execUnreachableTimeout w s
  | .partitionConfig part req => Sys2Proof.Machine.execPartitionConfig part req s
  | .illegalInstruction => Sys2Proof.Machine.execIllegalInstruction s
  | .ptsAdvance core => Sys2Proof.Machine.execPtsAdvance core s
  | .hostCacheSnoop line kind => Sys2Proof.Machine.execHostCacheSnoop line kind s
  | .agentProbe line invalidate => Sys2Proof.Machine.execAgentProbe line invalidate s
  | .fqheadWrite vi val => Sys2Proof.Machine.execFqheadWrite vi val s
  | .routeTableSet number routes => Sys2Proof.Machine.execRouteTableSet number routes s
  | .voltageDroopEvent die => Sys2Proof.Machine.execVoltageDroopEvent die s
  | .thermalExcursion sensor => Sys2Proof.Machine.execThermalExcursion sensor s
  | .powerLoss => Sys2Proof.Machine.execPowerLoss s

end Sys2Proof.Machine
end

