-- ==== Sys2Proof/Machine/Stalls.lean ====
section
/-! DEFINITION. The stalls that a group may find before its meaning: a source in flight, a miss or a full store path for a time of no
given length, an empty rebind reserve, the old value of an atomic that is still to come (01 R16, 04 R120 R121, 09 R442). -/

namespace Sys2Proof.Machine

/-- The uniform register that an index field names. -/
def sReg (i : BitVec 4) : Opnd := .s i.toFin
/-- The uniform pair that a base field names. -/
def sReg2 (i : BitVec 3) : Opnd := sReg (2#4 * i.setWidth 4)
/-- The registers of a data operand, of D and of B of an atomic. -/
def szRegs (sz : BitVec 3) : Nat := max 1 (szBytes sz / 4)
def aopRegs (aop : BitVec 4) : Nat := if aop = 1#4 then 2 else 1
def aopArgs (aop : BitVec 4) : Nat := if aop = 1#4 ∨ aop = 15#4 then 2 else 1

/-- The operands that an instruction reads; none for the others. -/
def sourcesOf : Instr → List Opnd
  | .iadd _ f | .isub _ f | .imul _ f | .imulhs _ f | .imulhu _ f | .iadd64 _ f | .isub64 _ f | .imin _ f | .imax _ f | .umin _ f
  | .umax _ f | .and _ f | .or _ f | .xor _ f | .andn _ f | .shl _ f | .shr _ f | .sar _ f | .bfe _ f | .icmp _ f | .ucmp _ f
  | .fcmp _ f | .hcmp2 _ f | .bcmp2 _ f | .sel _ f | .fadd _ f | .fsub _ f | .fmul _ f | .fmin _ f | .fmax _ f | .hadd2 _ f
  | .hmul2 _ f | .hmin2 _ f | .hmax2 _ f | .badd2 _ f | .bmul2 _ f | .bmin2 _ f | .bmax2 _ f | .fscl _ f | .qnt _ f | .deq _ f
  | .shfl _ f | .atg _ f | .ats _ f | .redg _ f | .waita _ f => [f.a, f.b]
  | .imad _ f | .shfr _ f | .bfi _ f | .imad64 _ f | .ffma _ f | .hfma2 _ f | .bfma2 _ f | .dp2h _ f | .dp2b _ f | .dp4e4 _ f
  | .dp4e5 _ f | .dp4s8 _ f | .dp8e2 _ f | .dp8s4 _ f | .xwr _ f => [f.a, f.b, f.d]
  | .mov _ f | .not _ f | .neg _ f | .abs _ f | .popc _ f | .clz _ f | .ctz _ f | .brev _ f | .sx8 _ f | .sx16 _ f | .zx8 _ f
  | .zx16 _ f | .bswap _ f | .mov64 _ f | .fabs _ f | .fneg _ f | .ffloor _ f | .fceil _ f | .ftrunc _ f | .frint _ f | .ffract _ f
  | .fsat _ f | .fclass _ f | .habs2 _ f | .hneg2 _ f | .babs2 _ f | .bneg2 _ f | .rcp _ f | .rsq _ f | .sqrt _ f | .exp2 _ f
  | .log2 _ f | .sin _ f | .cos _ f | .tanh _ f | .f2i _ f | .f2iRz _ f | .f2u _ f | .f2uRz _ f | .i2f _ f | .u2f _ f | .f2hLo _ f
  | .f2hHi _ f | .f2bLo _ f | .f2bHi _ f | .h2fLo _ f | .h2fHi _ f | .b2fLo _ f | .b2fHi _ f | .redlIadd _ f | .redlSmin _ f
  | .redlSmax _ f | .redlUmin _ f | .redlUmax _ f | .redlAnd _ f | .redlOr _ f | .redlXor _ f | .redlFadd _ f | .redlFmin _ f
  | .redlFmax _ f | .scanlIadd _ f | .scanlIaddEx _ f | .scanlFadd _ f | .scanlSmax _ f | .scanlOr _ f | .ldg _ f | .lds _ f
  | .ldc _ f | .pref _ f | .sleepu _ f | .qbindUnbind _ f | .qbindWarp _ f | .qbindFibre _ f | .qbindCopy _ f | .qbindCopydone _ f
  | .qbindMseq _ f | .qbindBincmd _ f | .qbindBinres _ f | .qbindCont _ f | .qbindAmsend _ f | .jmp _ f | .callr _ f | .convj _ f => [f.a]
  | .movhi _ f | .iaddi _ f | .andi _ f | .ori _ f | .xori _ f | .faddi _ f | .fmuli _ f | .haddi2 _ f | .hmuli2 _ f | .baddi2 _ f
  | .bmuli2 _ f | .stmapUnmap _ f | .stmapFlush _ f => [f.d]
  | .shi _ d _ _ _ | .barSync _ d _ _ | .barArrive _ d _ _ | .barWait _ d _ _ | .barFlush _ d _ _ | .mtsr _ d _ | .tbset _ d _
  | .mark _ d _ => [d]
  | .plog _ _ a | .regroup _ a _ | .rgrow _ _ a _ | .rshrink _ a | .fibreWin _ a => [a]
  | .pmovPred _ _ a b => [a, b]
  | .stg _ f | .sts _ f => [f.a, f.t]
  | .stmapMap _ d a _ => [d, a]
  | .ensure _ lc _ => [lc]
  | .tlalloc _ f | .mmloop _ f | .hadt _ f => [sReg f.s]
  | .tlgive _ _ s | .tltake _ _ s | .tlload _ _ s | .tlstore _ _ s => [sReg s]
  | _ => []

/-- The registers that an instruction names, as operands of so many words. -/
def namesOf : Instr → List (Opnd × Nat)
  | .iadd _ f | .isub _ f | .imul _ f | .imulhs _ f | .imulhu _ f | .imad _ f | .imin _ f | .imax _ f | .umin _ f | .umax _ f
  | .and _ f | .or _ f | .xor _ f | .andn _ f | .shl _ f | .shr _ f | .sar _ f | .shfr _ f | .bfe _ f | .bfi _ f | .sel _ f
  | .fadd _ f | .fsub _ f | .fmul _ f | .ffma _ f | .fmin _ f | .fmax _ f | .hadd2 _ f | .hmul2 _ f | .hfma2 _ f | .hmin2 _ f
  | .hmax2 _ f | .badd2 _ f | .bmul2 _ f | .bfma2 _ f | .bmin2 _ f | .bmax2 _ f | .dp2h _ f | .dp2b _ f | .dp4e4 _ f | .dp4e5 _ f
  | .dp4s8 _ f | .dp8e2 _ f | .dp8s4 _ f | .fscl _ f | .qnt _ f | .deq _ f | .shfl _ f | .xwr _ f => [(f.d, 1), (f.a, 1), (f.b, 1)]
  | .iadd64 _ f | .isub64 _ f => [(f.d, 2), (f.a, 2), (f.b, 2)]
  | .imad64 _ f => [(f.d, 2), (f.a, 1), (f.b, 1)]
  | .mov _ f | .not _ f | .neg _ f | .abs _ f | .popc _ f | .clz _ f | .ctz _ f | .brev _ f | .sx8 _ f | .sx16 _ f | .zx8 _ f
  | .zx16 _ f | .bswap _ f | .fabs _ f | .fneg _ f | .ffloor _ f | .fceil _ f | .ftrunc _ f | .frint _ f | .ffract _ f | .fsat _ f
  | .fclass _ f | .habs2 _ f | .hneg2 _ f | .babs2 _ f | .bneg2 _ f | .rcp _ f | .rsq _ f | .sqrt _ f | .exp2 _ f | .log2 _ f
  | .sin _ f | .cos _ f | .tanh _ f | .f2i _ f | .f2iRz _ f | .f2u _ f | .f2uRz _ f | .i2f _ f | .u2f _ f | .f2hLo _ f | .f2hHi _ f
  | .f2bLo _ f | .f2bHi _ f | .h2fLo _ f | .h2fHi _ f | .b2fLo _ f | .b2fHi _ f | .redlIadd _ f | .redlSmin _ f | .redlSmax _ f
  | .redlUmin _ f | .redlUmax _ f | .redlAnd _ f | .redlOr _ f | .redlXor _ f | .redlFadd _ f | .redlFmin _ f | .redlFmax _ f
  | .scanlIadd _ f | .scanlIaddEx _ f | .scanlFadd _ f | .scanlSmax _ f | .scanlOr _ f => [(f.d, 1), (f.a, 1)]
  | .mov64 _ f => [(f.d, 2), (f.a, 2)]
  | .widf0 _ f | .widf1 _ f | .widf2 _ f | .widf3 _ f | .widf4 _ f | .widf5 _ f | .movi _ f | .movhi _ f | .iaddi _ f | .andi _ f
  | .ori _ f | .xori _ f | .faddi _ f | .fmuli _ f | .haddi2 _ f | .hmuli2 _ f | .baddi2 _ f | .bmuli2 _ f | .qseti _ f
  | .stmapUnmap _ f | .stmapFlush _ f => [(f.d, 1)]
  | .shi _ d _ _ _ | .vote _ _ d | .ballot _ _ d | .pmov _ _ d | .barSync _ d _ _ | .barArrive _ d _ _ | .barWait _ d _ _
  | .barFlush _ d _ _ | .qstat _ d _ _ | .fibreSelf _ d | .fibreState _ d | .mfsr _ d _ | .mtsr _ d _ | .tbset _ d _ | .mark _ d _ =>
    [(d, 1)]
  | .icmp _ f | .ucmp _ f | .fcmp _ f | .hcmp2 _ f | .bcmp2 _ f => [(f.a, 1), (f.b, 1)]
  | .plog _ _ a | .regroup _ a _ | .rshrink _ a | .fibreWin _ a => [(a, 1)]
  | .pmovPred _ _ a b => [(a, 1), (b, 1)]
  | .ldg _ f | .stg _ f | .lds _ f | .sts _ f | .ldc _ f => [(f.t, szRegs f.sz), (f.a, if f.wa then 2 else 1), (sReg2 f.sb, 2)]
  | .pref _ f => [(f.a, if f.wa then 2 else 1), (sReg2 f.sb, 2)]
  | .atg _ f => [(f.d, aopRegs f.aop), (f.a, 2), (f.b, aopArgs f.aop)]
  | .ats _ f => [(f.d, aopRegs f.aop), (f.a, 1), (f.b, aopArgs f.aop)]
  | .redg _ f => [(f.a, 2), (f.b, aopArgs f.aop)]
  | .waita _ f => [(f.d, 1), (f.a, 2), (f.b, 1)]
  | .sleepu _ f => [(f.d, 1), (f.a, 2)]
  | .qbindUnbind _ f | .qbindWarp _ f | .qbindFibre _ f | .qbindCopy _ f | .qbindCopydone _ f | .qbindMseq _ f | .qbindBincmd _ f
  | .qbindBinres _ f | .qbindCont _ f | .qbindAmsend _ f | .jmp _ f => [(f.a, 1)]
  | .stmapMap _ d a _ | .rgrow _ d a _ => [(d, 1), (a, 1)]
  | .call _ _ | .ret _ _ => [(Opnd.lnk, 1)]
  | .callr _ f => [(f.a, 1), (Opnd.lnk, 1)]
  | .ensure _ lc _ => [(lc, 2)]
  | .convj _ f => [(f.a, 2)]
  | .tlalloc _ f => [(sReg f.s, 4)]
  | .tlgive _ _ s | .tltake _ _ s | .tlload _ _ s | .tlstore _ _ s => [(sReg s, 1)]
  | .mmloop _ f | .hadt _ f => [(sReg f.s, 1)]
  | _ => []

/-- The instruction reads a tile through a handle name. -/
def readsHandle : Instr → Bool
  | .tlfree _ _ | .tlgive _ _ _ | .tlload _ _ _ | .tlstore _ _ _ | .mmloop _ _ | .hadt _ _ => true
  | _ => false

/-- The instruction accesses memory or translates an address. -/
def mayMiss : Instr → Bool
  | .ldg _ _ | .stg _ _ | .lds _ _ | .sts _ _ | .ldc _ _ | .atg _ _ | .ats _ _ | .redg _ _ | .stmapMap _ _ _ _ | .stmapUnmap _ _ | .stmapFlush _ _ | .waita _ _ | .convj _ _ => true
  | _ => false

/-- The kinds of stall that a group may find before it has any effect: OPERAND on a register or handle that it reads, MEMORY on an access.
When such a stall is found is free: DESIGN CHOICE, log 55. -/
def findable (i : Instr) : List StallKind :=
  (if (sourcesOf i).any (fun x => x.isV || x.isS) || readsHandle i then [.operand] else []) ++ (if mayMiss i then [.memory] else [])

/-- A stall that ends by itself is seen only where the group carries SOS, whose slot it passes on, or in a sample (16 R406). -/
def stallShows (s : State) (i : Instr) : Bool := i.px.sos || (s.l.claimer.isSome && s.l.sample)
/-- The stalls that the group which a warp issues next may find. -/
def mayFind (s : State) (w : Nat) : List StallKind :=
  let t := s.focus w
  if t.w.keep != .none then []
  else match fetchGroup t t.cur.pc.toNat with
    | .words ws => if stallShows t (groupInstr ws) then findable (groupInstr ws) else []
    | _ => []

/-- The warp that a port has picked finds a stall and waits (04 R120). -/
def holdBack (s : State) (kind : StallKind) : State :=
  match fetchGroup s s.cur.pc.toNat with
  | .words ws => stallWarp s (groupInstr ws).px.sos kind .soon
  | _ => s

/-- The instruction moves registers or the threads that hold them, so that each of its warp counts as read. -/
def movesRegs : Instr → Bool
  | .regroup _ _ _ | .fibreWin _ _ | .tret _ => true
  | _ => false
/-- The registers that an instruction reads, writes or moves, and whose old value from an atomic is still to come (09 R442). That a
write and a move wait as a read does: DEDUCED, log 70. -/
def awaits (s : State) (i : Instr) : List Await :=
  if s.held.isEmpty then []
  else (awaited s).filter fun r => movesRegs i || ((namesOf i).flatMap fun x => awaitOf s x.1 x.2).contains r

/-- The registers that a group took from the rebind reserve: the names that were bound before it and hold another value (01 R14 R16). -/
def rebinds (s t : State) : Nat :=
  match t.warp? s.w.id with
  | some v => (s.w.regs.filter fun r => (assoc r.1 v.regs).any fun x => x != r.2).length
  | none => 0
def inReserve (s : State) : Nat := s.k.reserve.getD s.w.quarter 0

/-- A group whose rebinding writes find the reserve empty has no effect and waits; otherwise they hold its registers until they retire
(01 R16). -/
def rebound (s t : State) (sos : Bool) : State :=
  let n := rebinds s t
  if n = 0 then t
  else if 32 < inReserve s + n then stallWarp s sos .rebind (.reserve n)
  else t.mapCore s.w.core fun k => { k with reserve := k.reserve.set s.w.quarter (inReserve s + n) }

/-- A write of a quarter retires, and an old register is free again. -/
def retireWrite (core quarter : Nat) (s : State) : State :=
  s.mapCore core fun k => { k with reserve := k.reserve.modify quarter (· - 1) }

end Sys2Proof.Machine
end

