-- ==== Sys2Proof/Machine/Moves.lean ====
section
/-! DEFINITION. The moves that the device can make in a state: the issue of a warp, an event of its own, an outside happening. -/

namespace Sys2Proof.Machine

/-- The events that the device itself brings about, by the names of the table's rows. Others: dirAgain, hostWriteAgain, flushAgain, biasAgain,
partitionAgain and thermalLeave serve what has waited, logFlush writes an entry that waits in Lantern's queue, mail runs the first command of
the mailbox, signAdvance commits a leaf index, storeError is an error in both copies of Lantern's store, writeRetire frees a register of
a rebind reserve, drainEnd ends the drain of a router's input. -/
inductive OwnEvent where
  | levelOpen (c : Nat) | attemptLimit (c depth : Nat) | levelRollback (c : Nat)
  | convJoin (i : Nat) | convVote (i : Nat) | convFail (i : Nat) | convDone (i : Nat)
  | convCommit (i : Nat) | convRollback (i : Nat) | convAdvance (i : Nat) | convExhaust (i : Nat)
  | heldWrite (i : Nat) | flushAgain (c name : Nat) | reissue (w : Nat) | timerFire (w : Nat) | timerTrap (w : Nat) | shadowTrap (w : Nat)
  | waitaRecheck (w : Nat) | waitaTimeout (w : Nat) | sleepDeadline (w : Nat) | sleepWake (w : Nat)
  | tileStart (core op : Nat) | tileRetire (core op : Nat) | rowsArrive (core i : Nat)
  | copyEnter (cluster chan w : Nat) | fillEnter (cluster chan w : Nat)
  | copyComplete (cluster chan i : Nat) | copyExpiry (cluster chan i : Nat)
  | thrOpen (die w : Nat) | thrCount (die w : Nat) | thrBind (die w : Nat) | thrClose (die w : Nat)
  | amArrive (core i : Nat) | handlerSpawn (c : Nat)
  | cohortCompletion (c : Nat) | parentPlacement (l : Nat) | cohortDispatch (cluster : Nat) | launchQueueTail (vi q : Nat)
  | budgetEnd (c : Nat) | promiseDrainEnd (l : Nat) | preemptTrigger (l : Nat) | preemption (ctx core : Nat) | contextResume (ctx i : Nat)
  | launchEnd (l : Nat) | checkRunRestart (l : Nat)
  | cargoDeparture (w : Nat) | cargoRetry (core i : Nat) | cargoLanding (core i : Nat) | landedWarpStart (core : Nat)
  | segmentReplication (core : Nat)
  | stashIdle (c line : Nat) | stashRecall (line : Nat) | dirAgain (id : Nat) | regionMerge (base size : Nat)
  | hostWriteAgain (id : Nat) | biasTimeout (page : Nat) | biasAgain (vi : Nat) (cmd : DWord)
  | pageWalk (w : Nat) | xinvComplete (part : Nat) | contextKill (ctx : Nat) | contextRelease (ctx : Nat)
  | portCommand (code port : Nat) | haltTakes (w : Nat) | breakpointHit (w : Nat) | sample (core : Nat) | governor (cluster : Nat)
  | ptsAdvance (core : Nat) | lifetimeFold | logCheckpoint | logFlush | unreachableTimeout (w : Nat)
  | writeRetire (core quarter : Nat) | drainEnd (die router input : Nat) | partitionAgain (part : Nat)
  | mail | signAdvance | storeError | thermalLeave
deriving Repr

/-- The meaning of each is that of its row. -/
def runOwn (e : OwnEvent) (s : State) : Out :=
  match e with
  | .levelOpen c => execLevelOpen c s
  | .attemptLimit c d => execAttemptLimitReached c d s
  | .levelRollback c => execLevelRollback c s
  | .convJoin i => execConvJoinMessage i s
  | .convVote i => execConvVoteMessage i s
  | .convFail i => execConvFailMessage i s
  | .convDone i => execConvDoneMessage i s
  | .convCommit i => execConvCommitNotice i s
  | .convRollback i => execConvRollbackNotice i s
  | .convAdvance i => execConvAdvanceNotice i s
  | .convExhaust i => execConvExhaustNotice i s
  | .heldWrite i => execHeldWritePerform i s
  | .flushAgain c n => .next (flushAgain c n s)
  | .reissue w => execStallReissue w s
  | .timerFire w => execTimerFire w s
  | .timerTrap w => execTimerTrapEntry w s
  | .shadowTrap w => execShadowWaitTrapEntry w s
  | .waitaRecheck w => execWaitaRecheck w s
  | .waitaTimeout w => execWaitaTimeout w s
  | .sleepDeadline w => execSleepuDeadline w s
  | .sleepWake w => execSleepuCompletionWake w s
  | .tileStart k o => execTileSequencerStart k o s
  | .tileRetire k o => execTileInstrRetire k o s
  | .rowsArrive k i => execARowsBroadcastArrive k i s
  | .copyEnter c h w => execCopyCmd c h w s
  | .fillEnter c h w => execFillCmd c h w s
  | .copyComplete c h i => execCopyCmdComplete c h i s
  | .copyExpiry c h i => execCopyPromiseExpiry c h i s
  | .thrOpen d w => execThresherOpen d w s
  | .thrCount d w => execThresherCount d w s
  | .thrBind d w => execThresherBind d w s
  | .thrClose d w => execThresherClose d w s
  | .amArrive k i => execAmArrive k i s
  | .handlerSpawn c => execHandlerWarpSpawn c s
  | .cohortCompletion c => execCohortCompletion c s
  | .parentPlacement l => execParentPlacement l s
  | .cohortDispatch c => execCohortDispatch c s
  | .launchQueueTail v q => execLaunchQueueTail v q s
  | .budgetEnd c => execBudgetEnd c s
  | .promiseDrainEnd l => execPromiseDrainEnd l s
  | .preemptTrigger l => execPreemptTrigger l s
  | .preemption c k => execPreemption c k s
  | .contextResume c i => execContextResume c i s
  | .launchEnd l => execLaunchEnd l s
  | .checkRunRestart l => execCheckRunRestart l s
  | .cargoDeparture w => execCargoDeparture w s
  | .cargoRetry k i => execCargoRetry k i s
  | .cargoLanding k i => execCargoLanding k i s
  | .landedWarpStart k => execLandedWarpStart k s
  | .segmentReplication k => execSegmentReplication k s
  | .stashIdle c n => execStashIdleWriteback c n s
  | .stashRecall n => execStashRecall n s
  | .dirAgain id => againDir id s
  | .regionMerge b n => execRegionMerge b n s
  | .hostWriteAgain id => againHost id s
  | .biasTimeout p => execBiasFlipTimeout p s
  | .biasAgain v c => biasEvent v c s
  | .pageWalk w => execPageWalk w s
  | .xinvComplete p => execXinvComplete p s
  | .contextKill c => execContextKill c s
  | .contextRelease c => execContextReleaseScrub c s
  | .portCommand code p => portEvent code p s
  | .haltTakes w => execWarpHaltTakesEffect w s
  | .breakpointHit w => execBreakpointHit w s
  | .sample k => execSample k s
  | .governor c => execGovernorUpdate c s
  | .ptsAdvance k => execPtsAdvance k s
  | .lifetimeFold => execLifetimeFold s
  | .logCheckpoint => execLogCheckpoint s
  | .logFlush => .next (flushLog s)
  | .unreachableTimeout w => execUnreachableTimeout w s
  | .writeRetire k q => .next (retireWrite k q s)
  | .drainEnd d r i => .next (drainEnd d r i s)
  | .partitionAgain p => .next (closePartition p s)
  | .mail => runMail s
  | .signAdvance => .next (commitLeaf s)
  | .storeError => .next (storeError s)
  | .thermalLeave => execThermalRecovery s
/-! The events that are enabled, part by part. -/

/-- The indexes below n that satisfy a test. -/
def picks (n : Nat) (q : Nat → Bool) : List Nat := (List.range n).filter q

def onlyIf (b : Bool) (e : OwnEvent) : List OwnEvent := if b then [e] else []

/-- An event for each index below n that satisfies a test. -/
def forEach (n : Nat) (q : Nat → Bool) (f : Nat → OwnEvent) : List OwnEvent := (picks n q).map f

/-- An event for each element that satisfies a test. -/
def forAll {α : Type} (xs : List α) (q : α → Bool) (f : α → OwnEvent) : List OwnEvent := (xs.filter q).map f

/-- The events of each part of a list. -/
def eachOf {α : Type} (xs : List α) (f : α → List OwnEvent) : List OwnEvent := xs.flatMap f

/-- Events of one warp. -/
def warpEvents (s : State) (w : Warp) : List OwnEvent :=
  List.flatten [onlyIf (mayReissue s w.id) (.reissue w.id), onlyIf (timerEnters s w.id) (.timerTrap w.id),
    onlyIf (shadowFree s w.id) (.shadowTrap w.id), onlyIf (waitaRechecks s w) (.waitaRecheck w.id),
    onlyIf (waitaExpires s w) (.waitaTimeout w.id), onlyIf (sleepEnds s w) (.sleepDeadline w.id),
    onlyIf (sleepWakes s w) (.sleepWake w.id),
    onlyIf (walkDue s w.id) (.pageWalk w.id), onlyIf (haltsNow s w.id) (.haltTakes w.id),
    onlyIf (breaksNow s w.id).isSome (.breakpointHit w.id), onlyIf (unreachable s w.id) (.unreachableTimeout w.id)]

def cohortEvents (s : State) (c : Cohort) : List OwnEvent :=
  List.flatten [onlyIf (headersFull s c) (.levelOpen c.id), onlyIf (mayRollBack s c).isSome (.levelRollback c.id),
    onlyIf (spawnReady s c.id).isSome (.handlerSpawn c.id), onlyIf (cohortDone s c.id) (.cohortCompletion c.id),
    forEach 16 (fun n => (c.bars.getD n {}).flush && flushDue s c.id n) fun n => .flushAgain c.id n,
    forAll c.stash (fun t => (idleStash s c.id t.line).isSome) fun t => .stashIdle c.id t.line]

def coreEvents (s : State) (k : CoreS) : List OwnEvent :=
  List.flatten [forAll k.seq (startable s k) fun o => .tileStart k.id o.id,
    forAll k.seq (retirable s k.id) fun o => .tileRetire k.id o.id,
    forEach k.arrived.length (fun i => (rowsReady s k.id i).isSome) fun i => .rowsArrive k.id i,
    forEach k.am.length (fun i => (amMoves s k.id i).isSome) fun i => .amArrive k.id i,
    forEach k.outb.length (fun i => (retryDue s k.id i).isSome) fun i => .cargoRetry k.id i,
    forEach k.outb.length (fun i => (landDue s k.id i).isSome) fun i => .cargoLanding k.id i,
    forEach 4 (fun q => decide (0 < k.reserve.getD q 0)) fun q => .writeRetire k.id q,
    onlyIf (landReady s k.id).isSome (.landedWarpStart k.id), onlyIf (replicateDue s k.id) (.segmentReplication k.id)]

def channelEvents (s : State) (cl ch : Nat) (h : Channel) : List OwnEvent :=
  forEach h.cmds.length (fun i => copyNext s cl ch i != .wait) fun i => .copyComplete cl ch i

def dieEvents (s : State) (d : Die) : List OwnEvent :=
  eachOf (d.thr.cmds.map (·.warp) ++ d.thr.parts.map (·.1)).dedup fun w =>
    List.flatten [onlyIf (thrNext s d.id w 1 != .wait) (.thrOpen d.id w), onlyIf (thrNext s d.id w 2 != .wait) (.thrCount d.id w),
      onlyIf (thrNext s d.id w 3 != .wait) (.thrBind d.id w), onlyIf (thrNext s d.id w 4 != .wait) (.thrClose d.id w)]

def launchEvents (s : State) (l : Launch) : List OwnEvent :=
  List.flatten [onlyIf (parentRoom s l).isSome (.parentPlacement l.num),
    onlyIf (!(l.stopAll || l.promiseF) && (preemptWatch s l).isSome) (.preemptTrigger l.num),
    onlyIf (launchOver s l || (endWants s l).isSome) (if restarts l then .checkRunRestart l.num else .launchEnd l.num)]

def ctxEvents (s : State) (c : Ctx) : List OwnEvent :=
  List.flatten [forAll c.preempt (preemptDue s c.num) fun k => .preemption c.num k,
    forEach c.saved.length (fun i => (resumeDue s c.num i).isSome) fun i => .contextResume c.num i,
    onlyIf (releaseDue s c.num).isSome (.contextRelease c.num)]

def msgEvent (i : Nat) : ConvMsg → OwnEvent
  | .join _ _ _ _ _ => .convJoin i
  | .vote _ _ _ _ => .convVote i
  | .fail _ _ _ => .convFail i
  | .done _ _ _ _ => .convDone i

def convEvents (s : State) : List OwnEvent :=
  List.flatten [((List.range s.convMsgs.length).filter (msgFree s)).filterMap fun i => (msgReady s i).map (msgEvent i),
    forEach s.notices.length (fun i => (noticeReady s i .commit).isSome) .convCommit,
    forEach s.notices.length (fun i => (noticeReady s i .rollback).isSome) .convRollback,
    forEach s.notices.length (fun i => (noticeReady s i .advance).isSome) .convAdvance,
    forEach s.notices.length (fun i => (noticeReady s i .exhaust).isSome) .convExhaust]

def portEvents (x : Window) : List OwnEvent :=
  eachOf x.ports.zipIdx fun q => match q.1.cmds with
    | [] => []
    | c :: _ => [.portCommand (cmdEvent c.2) (16 * x.part + q.2)]

/-- Events of the scheduler over clusters, queues and the ports of the debug windows. -/
def systemEvents (s : State) : List OwnEvent :=
  List.flatten [if (dropBad s).isSome then [.cohortDispatch 0]
      else forAll (s.parts.flatMap (·.clusters)) (fun c => (dispatch s c).isSome) .cohortDispatch,
    eachOf (s.vis.filter fun v => v.part.isSome) fun v => forEach v.lqs.length (fun q => (lqDue s v.id q).isSome) fun q => .launchQueueTail v.id q,
    forAll s.parts (closeDue s) fun p => .partitionAgain p.id,
    s.fabric.blocked.map fun t => .drainEnd t.1 t.2.1 t.2.2,
    eachOf s.windows portEvents]
def memoryEvents (s : State) : List OwnEvent :=
  List.flatten [forEach s.held.length (fun i => (heldReady s i).isSome) .heldWrite,
    forAll s.stashOwners (fun t => recallWanted s t.1) fun t => .stashRecall t.1,
    forAll s.dirWait (dirFree s) fun r => .dirAgain r.id,
    forAll s.dir (fun r => (mergeable s r.base r.size).isSome) fun r => .regionMerge r.base r.size,
    forAll s.hostWait (hostDue s) fun h => .hostWriteAgain h.id,
    forAll s.biasWait (fun t => !flipping s (pageOf t.2) && biasFirst s (pageOf t.2) == some t) fun t => .biasAgain t.1 t.2,
    forAll (s.xinv.map (·.part)).dedup (fun p => (xinvDue s p).isSome) .xinvComplete]

/-- Of a channel: a command's entry at its last word, which of the two rows takes it said by its first word; the ends of promises;
the end of a command whose promise has come. -/
def channelUrgent (s : State) (cl ch : Nat) (h : Channel) : List OwnEvent :=
  List.flatten [match copyReady s cl ch with
      | some (w, ws) => [if (wordAt ws 0).extractLsb' 28 4 == 2#4 then .fillEnter cl ch w else .copyEnter cl ch w]
      | none => [],
    forEach h.cmds.length (fun i => (copyExpires s cl ch i).isSome) fun i => .copyExpiry cl ch i,
    forAll h.cmds.zipIdx (fun m => m.1.stage != .held && decide (m.1.promise ≤ s.now) && copyNext s cl ch m.2 != .wait) fun m =>
      .copyComplete cl ch m.2]

/-- Of a cohort: the end of its budget, the outermost attempt that has reached its limit. -/
def cohortUrgent (s : State) (c : Cohort) : List OwnEvent :=
  List.flatten [onlyIf (budgetOver s c.id) (.budgetEnd c.id), match limitDepth s c with
    | some d => [.attemptLimit c.id d]
    | none => []]

/-- Lantern's duties at their time: the hourly or immediate fold, a checkpoint that is due and the leaf index for it. -/
def lanternUrgent (s : State) : List OwnEvent :=
  List.flatten [onlyIf (foldDue s) .lifetimeFold, onlyIf (s.lan.checkDue && signReady s) .logCheckpoint,
    onlyIf (s.lan.checkDue && signWanted s) .signAdvance]
/-- Lantern is about to use its store: for an entry of its log or a mailbox command. -/
def usesStore (s : State) : Bool := !s.lan.queue.isEmpty || !s.lan.lmQueue.isEmpty
/-- What Lantern does besides: entries of its log, of which none passes a checkpoint that is due; mailbox commands; an error in both
copies of its store, found where it uses it: DESIGN CHOICE, log 84. -/
def lanternEvents (s : State) : List OwnEvent :=
  List.flatten [onlyIf (!s.lan.queue.isEmpty && !(s.lan.checkDue && canSign s)) .logFlush, onlyIf (mailDue s) .mail,
    onlyIf (signWanted s) .signAdvance, onlyIf (!s.lan.recovery && usesStore s && Config.storeFails s.stepNo) .storeError]

/-- The events that nothing else of the device comes before: those at a fixed chip time, a command's entry at its last word, a kill. -/
def urgentEvents (s : State) : List OwnEvent :=
  List.flatten [lanternUrgent s, forAll s.ctxs (·.killed) fun c => .contextKill c.num,
    forAll s.allWarps (timerFires s) fun w => .timerFire w.id,
    forAll s.allWarps (fun w => passesAtOnce s w) fun w => .reissue w.id,
    forAll s.allCores (fun k => ptsDue s k.id) fun k => .ptsAdvance k.id,
    forAll s.allCores (fun k => sampleDue s k.id) fun k => .sample k.id, forEach 48 (governorDue s) .governor,
    forAll s.bias (fun t => (flipLate s t.1).isSome) fun t => .biasTimeout t.1,
    forAll s.allWarps (fun w => departDue s w.id) fun w => .cargoDeparture w.id,
    forAll s.allLaunches (fun l => drainOver s l.num) fun l => .promiseDrainEnd l.num,
    forAll s.allCohorts (fun c => (s.launch? c.launch).any (fun l => l.promiseF && l.stopAll) && cohortDone s c.id) fun c => .cohortCompletion c.id,
    forAll s.allLaunches (fun l => l.promiseF && l.stopAll && launchOver s l) fun l => .launchEnd l.num,
    eachOf s.allCohorts (cohortUrgent s),
    eachOf s.clusters fun cl => eachOf cl.chans.zipIdx fun h => channelUrgent s cl.id h.2 h.1]

/-- The other events of the device that are enabled. -/
def ownEvents (s : State) : List OwnEvent :=
  List.flatten [eachOf s.allWarps (warpEvents s), eachOf s.allCohorts (cohortEvents s), eachOf s.allCores (coreEvents s),
    eachOf s.clusters fun cl => eachOf cl.chans.zipIdx fun h => channelEvents s cl.id h.2 h.1,
    eachOf s.dies (dieEvents s), eachOf s.allLaunches (launchEvents s), eachOf s.ctxs (ctxEvents s),
    convEvents s, systemEvents s, memoryEvents s, lanternEvents s]

/-- While the compute dies are held in reset: what is neither of their cores and engines nor of the scheduler (17 R424). -/
def heldEvents (s : State) : List OwnEvent :=
  List.flatten [eachOf s.allCohorts (fun c => onlyIf (cohortDone s c.id) (.cohortCompletion c.id)), eachOf s.allLaunches (launchEvents s),
    eachOf s.ctxs (fun c => onlyIf (releaseDue s c.num).isSome (.contextRelease c.num)), memoryEvents s, lanternEvents s,
    eachOf s.clusters (fun cl => eachOf cl.chans.zipIdx fun h => channelEvents s cl.id h.2 h.1),
    forAll s.parts (closeDue s) fun p => .partitionAgain p.id, onlyIf (s.lan.cool && killsOver s) .thermalLeave]
/-! The choice of a move. -/

inductive Move where
  | issue (w : Nat)
  /-- the group that a warp would issue finds a stall (04 R120) -/
  | hold (w : Nat) (kind : StallKind)
  | own (e : OwnEvent)
  /-- L2 gives up a line (11 R300) -/
  | evict (line : Nat)
  /-- the next outside happening arrives -/
  | arrive
deriving Repr

/-- What the outside can bring about in a device without power, in recovery, or on: a cold reset, the loss of power, what the mailbox
takes, anything (17 R413 R415). -/
def takes (s : State) : Instr → Bool
  | .coldReset _ | .powerLoss => true
  | .firmwareUpdate _ | .lmReport _ _ _ | .lmLogread _ _ | .lmLiferead _ _ => s.lan.powered
  | .registerWrite vi _ _ => s.lan.powered && (!s.lan.recovery || vi == 64)
  | _ => s.lan.powered && !s.lan.recovery

/-- The moves open to a step. Without power only the outside acts; in recovery only Lantern besides (17 R413); after a thermal trip
the compute dies are held in reset (R424). -/
def moves (s : State) : List Move :=
  let outside : List Move := if s.inputs.isEmpty then [] else [.arrive]
  if !s.lan.powered then outside
  else if s.lan.recovery then (lanternUrgent s ++ lanternEvents s).map .own ++ outside
  else
    let u := urgentEvents s
    if !u.isEmpty then u.map .own
    else if s.lan.tripped then (heldEvents s).map .own ++ outside
    else
      let ws := issuers s
      List.flatten [ws.map .issue, ws.flatMap fun w => (mayFind s w).map (.hold w), (ownEvents s).map .own,
        s.leases.map fun x => .evict x.line, outside]

/-- The move of a step: the only one, or one of several by a free choice (10 R276). -/
def chooseMove (s : State) : Option Move :=
  match moves s with
  | [] => none
  | [m] => some m
  | m :: ms => some ((m :: ms).getD (Config.pick s.stepNo (ms.length + 1) % (ms.length + 1)) m)

/-- The chunks of overflow regions that launches have had in use (09 R251). -/
def noteHusk (s : State) : State :=
  if s.allLaunches.all fun l => l.huskKib == 0 then s
  else s.allLaunches.foldl (fun s l => s.mapLaunch l.num fun x => { x with huskTop := max x.huskTop (chunksUsed s l l.checkLog.length) }) s

/-- What the step around an instruction adds: time passes (00 R7), for the launches that wait for dispatch too (12 R327), and the step
is counted. -/
def State.tick (s : State) : State :=
  let t := noteHusk { s with cyc := s.cyc + 1 + Config.dwell s.stepNo, stepNo := s.stepNo + 1 }
  ageLaunches t (t.now - s.now)

end Sys2Proof.Machine
end

