-- ==== Sys2Proof/Machine/Race.lean ====
section
/-! DEFINITION. What a launch does beyond its instructions once it has met a race (10 R286 R287): its results have no bounds. -/

namespace Sys2Proof.Machine

/-- A free byte of a draw. -/
def wildByte (n : Nat) : Byte := BitVec.ofNat 8 n

/-- One register of a register file takes a free word. -/
def wildReg (r : VReg) (lane x : Nat) : VReg := r.set (lane % 32) (BitVec.ofNat 32 x)

/-- A register, a uniform, a predicate, a CSR, the place of a warp or a stall of its take free values. -/
def spoilWarp (d : Nat → Nat) (w : Warp) : Warp :=
  let x := BitVec.ofNat 32 (d 4)
  match d 1 % 8 with
  | 0 => { w with regs := w.regs.modify (d 2 % w.regs.length) fun t => (t.1, wildReg t.2 (d 3) (d 4)) }
  | 1 => { w with sregs := w.sregs.set (d 2 % 16) x }
  | 2 => { w with preds := w.preds.set (d 2 % 8) x }
  | 3 => { w with lnk := wildReg w.lnk (d 3) (d 4) }
  | 4 => { w with fpmode := BitVec.ofNat 4 (d 2), fpflags := BitVec.ofNat 5 (d 3), trapen := BitVec.ofNat 4 (d 4) }
  | 5 => { w with rbcause := BitVec.ofNat 16 (d 2), rbcode := BitVec.ofNat 16 (d 3), waitlim := x }
  | 6 => { w with trapCause := BitVec.ofNat 16 (d 2), trapPc := x, trapAddr := BitVec.ofNat 64 (d 3), trapLanes := BitVec.ofNat 32 (d 5) }
  | _ => { w with front := w.front.modify (d 2 % w.front.length) fun e => { e with pc := x } }

/-- A name of the warp in focus or of its slot's band is bound with a free word or loses its binding, within its quota; a shadow of its
slot takes a free word. -/
def spoilNames (d : Nat → Nat) (s : State) : State :=
  let a := d 2 % 512
  if d 1 % 2 = 0 then { s with sl := { s.sl with shadow := s.sl.shadow.modify (d 2 % 8) fun r => wildReg r (d 3) (d 4) } }
  else match boundReg s a with
  | some r => if d 5 % 2 = 0 then unbindReg s a else bindReg s a (wildReg r (d 3) (d 4))
  | none => if quotaFull s a then s else bindReg s a (wildReg (List.replicate 32 0#32) (d 3) (d 4))

/-- A byte of memory that the launch's mappings let it write. -/
def spoilMemory (s : State) (l : Launch) (va : DWord) (b : Byte) : State :=
  match enginePa s l va wAcc with
  | .ok pa => { s with mem := memPuts s.mem [(pa, b)] }
  | .error _ => s

/-- Fields of the completion record, and the failure that ends the launch. -/
def spoilLaunch (d : Nat → Nat) (l : Launch) : Launch :=
  match d 1 % 4 with
  | 0 => { l with taint := d 2, exhausted := d 3, overBudget := d 4, amDrop := d 5 }
  | 1 => { l with badRec := d 2, stranded := d 3, cohorts := d 4, heldDrop := d 5 }
  | 2 => { l with rbcode := BitVec.ofNat 16 (d 2), failCoh := if d 3 % 2 = 0 then none else some (d 4) }
  | _ => { l with failing := if d 2 % 2 = 0 then none else some (d 3 % 256) }

/-- A tile of the launch takes a free element. -/
def spoilTile (s : State) (launch : Nat) (d : Nat → Nat) : State :=
  let f := fun t : Tile => if t.launch == launch && t.phys == d 2 then
    { t with data := t.data.map fun xs => xs.set (d 3 % xs.length) (BitVec.ofNat 32 (d 4)) } else t
  s.mapCore (d 1) fun k => { k with tiles := k.tiles.map f }

/-- A free change of what a launch can reach: the values of its registers and the names bound, shadows, shared words, tiles and memory,
its control flow, its faults and its completion record. -/
def spoilOne (s : State) (launch : Nat) (d : Nat → Nat) : State :=
  match s.launch? launch with
  | none => s
  | some l =>
    let warps := s.allWarps.filter fun w => (s.cohort? w.cid).any fun c => c.launch == launch
    let w := (warps.getD (d 6 % warps.length) {}).id
    match d 0 % 7 with
    | 6 => if warps.isEmpty then s else within s w (spoilNames d)
    | 0 => if warps.isEmpty then s else s.mapWarps (fun x => x.id == w) (spoilWarp d)
    | 1 => s.mapCohort (d 1) fun c =>
        if c.launch == launch && decide (d 2 < c.sharedSize) then { c with shared := memPuts c.shared [(d 2, wildByte (d 3))] } else c
    | 2 => spoilTile s launch d
    | 3 => spoilMemory s l (BitVec.ofNat 64 (d 1)) (wildByte (d 2))
    | 4 => s.mapLaunch launch (spoilLaunch d)
    | _ => if warps.isEmpty then s else within s w fun u =>
        if u.w.front.isEmpty || u.w.frozen.isSome then u else deliver u (d 1 % 256) (BitVec.ofNat 64 (d 2)) none

/-- The launches that have met a race. -/
def racedOf (s : State) : List Nat := (s.allLaunches.filter (·.raced)).map (·.num)

/-- A free number of free changes of each of them. -/
def spoil (s : State) : State :=
  (racedOf s).foldl (fun s n =>
    let at_ := fun i : Nat => fun j : Nat => Config.wild s.stepNo (16 * (1024 * i + n % 1024) + j)
    (List.range (at_ 0 15)).foldl (fun s i => spoilOne s n (at_ (i + 1))) s) s

/-- Nothing happens while no launch has met a race. -/
theorem spoil_calm (s : State) (h : racedOf s = []) : spoil s = s := by simp [spoil, h]

end Sys2Proof.Machine
end

