-- ==== Sys2Proof/Machine/Step.lean ====
section
/-! DEFINITION. One step of the device. -/

namespace Sys2Proof.Machine

/-- A next state after which the launches that have met a race have done what they may, and time has passed. -/
def afterward : Host.Outcome State Fault Refusal → Host.Outcome State Fault Refusal
  | .next s => .next (spoil s).tick
  | .fault f => .fault f
  | .refused r => .refused r

/-- The meaning of a group, what its rebinding writes take from the reserve (01 R16), and what the issue leaves with its warp. A group
that touches registers to which the old value of an atomic is still to come waits (09 R442). -/
def issued (s : State) (i : Instr) : Host.Outcome State Fault Refusal :=
  if awaits s i ≠ [] then .next (issueEnds s (stallWarp s i.px.sos .memory (.delivered (awaits s i))))
  else match exec i s with
    | .next t => .next (issueEnds s (rebound s t i.px.sos))
    | .fault f => .fault f
    | .refused r => .refused r

/-- Issue the group at the warp in focus: fetch, decode, run. -/
def issueStep (s : State) : Host.Outcome State Fault Refusal :=
  match fetchGroup s s.cur.pc.toNat with
  | .outside => .next (issueEnds s (deliverAt s s.cur.src 0x03 (s.cur.pc.setWidth 64) s.cur.mask { fetch := true }))
  | .miss va => .next (stallWarp s false .fetch (.xlate va fetchAcc))
  | .busy n => outOf s (.error (fetchStall s (.busy n)))
  | .words ws => issued s (groupInstr ws)

/-- One move. -/
def moveStep (s : State) : Move → Host.Outcome State Fault Refusal
  | .issue w => issueStep (s.issueTo w)
  | .hold w kind => .next (holdBack (s.issueTo w) kind)
  | .own e => runOwn e s
  | .evict line => .next (l2Evict s line)
  | .arrive => match s.inputs with
    | i :: rest => if takes s i then exec i { s with inputs := rest } else .next { s with inputs := rest }
    | [] => .next s

/-- One step: a move of the device or of the outside, or time alone. -/
def step (s : State) : Host.Outcome State Fault Refusal :=
  match chooseMove s with
  | some m => afterward (moveStep s m)
  | none => afterward (.next s)

/-- The instruction with these bits stands where step fetches next: one warp of 32 threads is resident on core 0 in a
launch whose code section is that word, and the core's TLB holds the page of the code. -/
def State.withFetchWord (s : State) (nbits w : Nat) : State :=
  let s := s.unfocus
  { s with
    inputs := []
    warps := [], cohorts := [], slots := [], cores := [], launches := []
    w := { id := 1, cid := 1, resident := true, holds := 0xFFFFFFFF#32, quota := 256
           front := [{ pc := 64#32, mask := 0xFFFFFFFF#32, src := 64#32 }] }
    sl := {}
    c := { id := 1, launch := 16, warpsN := 1, resident := true }
    k := { id := 0, tlb := [{ ctx := 1, va := 0, size := 4096, pa := 4096, r := true, w := true, xd := false, attr := 0 }] }
    l := { num := 16, part := 0, ctx := 1, code := 0#64, codeOff := 64, codeSize := 256, entry := 64#32, ncoh := 1, next := 1, cohorts := 1 }
    mem := memPuts s.mem (placed 4160 (bytesOfWords [BitVec.ofNat 32 w] ++ leBytes (nbits / 8 - 4) (w / 2 ^ 32) ++ List.replicate 12 0#8)) }

end Sys2Proof.Machine
end

