-- ==== Sys2Proof/Reference.lean ====
section
/-! DEFINITION. What the statements hold the machine against: the lane computations of chapters 04 and 05 written over numbers,
one table of the instructions that compute lanes, and the plain operand forms (01 R19, 03 R64 to R71, 04 R85 to R103, 05 R123 to R153). -/

namespace Sys2Proof.Ref

open Sys2Proof.Machine

/-! Lane functions (04 R90 to R96). Arithmetic is over Nat and Int and narrowed once. -/

def ofN (n : Nat) : Word := BitVec.ofNat 32 n
def ofI (n : Int) : Word := BitVec.ofInt 32 n

/-- R92. -/
def funnel (a b d : Word) : Word := ofN ((a.toNat * 2 ^ 32 + d.toNat) / 2 ^ (b.toNat % 32))
/-- The position and the effective length of R93. -/
def posOf (b : Word) : Nat := b.toNat % 32
def lenOf (b : Word) : Nat := min (b.toNat / 256 % 64) (32 - b.toNat % 32)
/-- BFE: the field as a number, taken below zero by 2^m when its sign bit counts. -/
def extract (a b : Word) : Word :=
  let m := lenOf b
  let f := a.toNat / 2 ^ posOf b % 2 ^ m
  if b.toNat / 2 ^ 16 % 2 = 1 ∧ 0 < m ∧ 2 ^ (m - 1) ≤ f then ofI ((f : Int) - 2 ^ m) else ofN f
/-- BFI: bit by bit. -/
def insertField (a b d : Word) : Word :=
  maskOf fun i => if posOf b ≤ i ∧ i < posOf b + lenOf b then a.getLsbD (i - posOf b) else d.getLsbD i
/-- The number of 1 bits. -/
def ones (a : Word) : Nat := ((List.range 32).map fun i => a.toNat / 2 ^ i % 2).sum
/-- The four bytes in reverse order. -/
def reverseBytes (a : Word) : Word := ofN (leNat (leBytes 4 a.toNat).reverse)

/-- The immediate, sign-extended or completed by XIMM (03 R68). -/
def immS (p : Px) (imm : BitVec 16) : Word := match p.ximm with
  | some x => ofN (x.toNat * 65536 + imm.toNat)
  | none => ofI imm.toInt
/-- The immediate, zero-extended or completed by XIMM. -/
def immZ (p : Px) (imm : BitVec 16) : Word := match p.ximm with
  | some x => ofN (x.toNat * 65536 + imm.toNat)
  | none => ofN imm.toNat
/-- The immediate as the high half over zeros, or completed by XIMM. -/
def immHigh (p : Px) (imm : BitVec 16) : Word := match p.ximm with
  | some x => ofN (x.toNat * 65536 + imm.toNat)
  | none => ofN (imm.toNat * 65536)
/-- The immediate in both halves, or with the high half of XIMM. -/
def immTwice (p : Px) (imm : BitVec 16) : Word := match p.ximm with
  | some x => ofN (x.toNat * 65536 + imm.toNat)
  | none => ofN (imm.toNat * 65537)

/-- Field k of a WID: above the 5 bits of F0 and the widths of the fields below it (01 R8 R9). -/
def widthOf (l : Launch) (k : Nat) : Nat := match k with
  | 0 => 5 | 1 => l.f1 | 2 => l.f2 | 3 => l.f3 | 4 => l.f4 | _ => l.f5
def fieldOf (l : Launch) (k : Nat) (w : DWord) : Word :=
  ofN (w.toNat / 2 ^ (((List.range k).map (widthOf l)).sum) % 2 ^ widthOf l k)

/-! Instructions that compute lanes. -/

/-- What such an instruction reads, and what its lanes get. -/
structure LaneOp where
  p : Px
  d : Opnd
  /-- source operands in the order of their slots, each with its kill bit -/
  srcs : List (Opnd × Bool)
  /-- D is read before it is written -/
  readsD : Bool := false
  /-- the lanes that are written -/
  mask : Mask
  /-- the lanes' results and flags, from the sources -/
  fn : List VReg → Nat → Word × Flags

/-- A computation of each lane from the lane's own sources. -/
def lane1 (f : Word → Word) (vs : List VReg) (l : Nat) : Word × Flags := (f ((vs.getD 0 []).get l), noFlags)
def lane2 (f : Word → Word → Word) (vs : List VReg) (l : Nat) : Word × Flags :=
  (f ((vs.getD 0 []).get l) ((vs.getD 1 []).get l), noFlags)
def lane3 (f : Word → Word → Word → Word) (vs : List VReg) (l : Nat) : Word × Flags :=
  (f ((vs.getD 0 []).get l) ((vs.getD 1 []).get l) ((vs.getD 2 []).get l), noFlags)
/-- The same with flags. -/
def flag1 (f : Word → Word × Flags) (vs : List VReg) (l : Nat) : Word × Flags := f ((vs.getD 0 []).get l)
def flag2 (f : Word → Word → Word × Flags) (vs : List VReg) (l : Nat) : Word × Flags :=
  f ((vs.getD 0 []).get l) ((vs.getD 1 []).get l)
def flag3 (f : Word → Word → Word → Word × Flags) (vs : List VReg) (l : Nat) : Word × Flags :=
  f ((vs.getD 0 []).get l) ((vs.getD 1 []).get l) ((vs.getD 2 []).get l)

def opR (s : State) (p : Px) (f : RForm) (fn : List VReg → Nat → Word × Flags) : Option LaneOp :=
  some { p := p, d := f.d, srcs := [(f.a, f.ka), (f.b, f.kb)], mask := s.active p f.g, fn := fn }
def opRD (s : State) (p : Px) (f : RForm) (fn : List VReg → Nat → Word × Flags) : Option LaneOp :=
  some { p := p, d := f.d, srcs := [(f.a, f.ka), (f.b, f.kb)], readsD := true, mask := s.active p f.g, fn := fn }
def opU (s : State) (p : Px) (f : UForm) (fn : List VReg → Nat → Word × Flags) : Option LaneOp :=
  some { p := p, d := f.d, srcs := [(f.a, f.ka)], mask := s.active p f.g, fn := fn }
def opUD (s : State) (p : Px) (f : UForm) (fn : List VReg → Nat → Word × Flags) : Option LaneOp :=
  some { p := p, d := f.d, srcs := [(f.a, f.ka)], readsD := true, mask := s.active p f.g, fn := fn }
/-- Format I on D. -/
def opI (s : State) (p : Px) (d : Opnd) (g : BitVec 2) (fn : List VReg → Nat → Word × Flags) : Option LaneOp :=
  some { p := p, d := d, srcs := [], readsD := true, mask := s.active p g, fn := fn }
/-- A destination without sources. -/
def opD (s : State) (p : Px) (d : Opnd) (g : BitVec 2) (fn : Nat → Word) : Option LaneOp :=
  some { p := p, d := d, srcs := [], mask := s.active p g, fn := fun _ l => (fn l, noFlags) }
/-- A combination of the active lanes, the same for every lane. -/
def opRed (s : State) (p : Px) (f : UForm) (fn : FEnv → Mask → VReg → Word × Flags) : Option LaneOp :=
  some { p := p, d := f.d, srcs := [(f.a, f.ka)], mask := s.active p f.g
         fn := fun vs _ => fn (fenv s p) (s.active p f.g) (vs.getD 0 []) }

/-- The integer instructions of chapter 04 that write 32-bit lanes, with the effect of their row. -/
def intOp (s : State) : Instr → Option LaneOp
  | .iadd p f => opR s p f (lane2 fun a b => ofN (a.toNat + b.toNat))
  | .isub p f => opR s p f (lane2 fun a b => ofI ((a.toNat : Int) - b.toNat))
  | .imul p f => opR s p f (lane2 fun a b => ofN (a.toNat * b.toNat))
  | .imulhs p f => opR s p f (lane2 fun a b => ofI (a.toInt * b.toInt / 2 ^ 32))
  | .imulhu p f => opR s p f (lane2 fun a b => ofN (a.toNat * b.toNat / 2 ^ 32))
  | .imad p f => opRD s p f (lane3 fun a b d => ofN (a.toNat * b.toNat + d.toNat))
  | .imin p f => opR s p f (lane2 fun a b => ofI (min a.toInt b.toInt))
  | .imax p f => opR s p f (lane2 fun a b => ofI (max a.toInt b.toInt))
  | .umin p f => opR s p f (lane2 fun a b => ofN (min a.toNat b.toNat))
  | .umax p f => opR s p f (lane2 fun a b => ofN (max a.toNat b.toNat))
  | .and p f => opR s p f (lane2 fun a b => maskOf fun i => a.getLsbD i && b.getLsbD i)
  | .or p f => opR s p f (lane2 fun a b => maskOf fun i => a.getLsbD i || b.getLsbD i)
  | .xor p f => opR s p f (lane2 fun a b => maskOf fun i => a.getLsbD i != b.getLsbD i)
  | .andn p f => opR s p f (lane2 fun a b => maskOf fun i => a.getLsbD i && !b.getLsbD i)
  | .shl p f => opR s p f (lane2 fun a b => if 32 ≤ b.toNat then 0#32 else ofN (a.toNat * 2 ^ b.toNat))
  | .shr p f => opR s p f (lane2 fun a b => if 32 ≤ b.toNat then 0#32 else ofN (a.toNat / 2 ^ b.toNat))
  | .sar p f => opR s p f (lane2 fun a b => if 32 ≤ b.toNat then (if a.toInt < 0 then ofI (-1) else 0#32) else ofI (a.toInt / 2 ^ b.toNat))
  | .shfr p f => opRD s p f (lane3 funnel)
  | .bfe p f => opR s p f (lane2 extract)
  | .bfi p f => opRD s p f (lane3 insertField)
  | .mov p f => opU s p f (lane1 fun a => a)
  | .not p f => opU s p f (lane1 fun a => ofN (2 ^ 32 - 1 - a.toNat))
  | .neg p f => opU s p f (lane1 fun a => ofI (-a.toInt))
  | .abs p f => opU s p f (lane1 fun a => ofN a.toInt.natAbs)
  | .popc p f => opU s p f (lane1 fun a => ofN (ones a))
  | .clz p f => opU s p f (lane1 fun a => ofN (32 - a.toNat.size))
  | .ctz p f => opU s p f (lane1 fun a => ofN (ones (~~~ a &&& (a - 1#32))))
  | .brev p f => opU s p f (lane1 fun a => maskOf fun i => a.getLsbD (31 - i))
  | .sx8 p f => opU s p f (lane1 fun a => ofI (Int.bmod a.toNat 256))
  | .sx16 p f => opU s p f (lane1 fun a => ofI (Int.bmod a.toNat 65536))
  | .zx8 p f => opU s p f (lane1 fun a => ofN (a.toNat % 256))
  | .zx16 p f => opU s p f (lane1 fun a => ofN (a.toNat % 65536))
  | .bswap p f => opU s p f (lane1 reverseBytes)
  | .widf0 p f => opD s p f.d f.g fun l => fieldOf s.l 0 (s.w.wid.getD l 0#64)
  | .widf1 p f => opD s p f.d f.g fun l => fieldOf s.l 1 (s.w.wid.getD l 0#64)
  | .widf2 p f => opD s p f.d f.g fun l => fieldOf s.l 2 (s.w.wid.getD l 0#64)
  | .widf3 p f => opD s p f.d f.g fun l => fieldOf s.l 3 (s.w.wid.getD l 0#64)
  | .widf4 p f => opD s p f.d f.g fun l => fieldOf s.l 4 (s.w.wid.getD l 0#64)
  | .widf5 p f => opD s p f.d f.g fun l => fieldOf s.l 5 (s.w.wid.getD l 0#64)
  | .movi p f => opD s p f.d f.g fun _ => immS p f.imm
  | .qseti p f => opD s p f.d f.g fun _ => immTwice p f.imm
  | .movhi p f => opI s p f.d f.g (lane1 fun d => ofN (f.imm.toNat * 65536 + d.toNat % 65536))
  | .iaddi p f => opI s p f.d f.g (lane1 fun d => ofN (d.toNat + (immS p f.imm).toNat))
  | .andi p f => opI s p f.d f.g (lane1 fun d => maskOf fun i => d.getLsbD i && (immZ p f.imm).getLsbD i)
  | .ori p f => opI s p f.d f.g (lane1 fun d => maskOf fun i => d.getLsbD i || (immZ p f.imm).getLsbD i)
  | .xori p f => opI s p f.d f.g (lane1 fun d => maskOf fun i => d.getLsbD i != (immZ p f.imm).getLsbD i)
  | .shi p d kind n g => opI s p d g (lane1 fun a =>
      if kind = 0#2 then ofN (a.toNat * 2 ^ n.toNat) else if kind = 1#2 then ofN (a.toNat / 2 ^ n.toNat) else ofI (a.toInt / 2 ^ n.toNat))
  | .fabs p f => opU s p f (lane1 fun a => ofN (a.toNat % 2 ^ 31))
  | .fneg p f => opU s p f (lane1 fun a => ofN (a.toNat + 2 ^ 31))
  | .habs2 p f => opU s p f (lane1 fun a => maskOf fun i => a.getLsbD i && i != 15 && i != 31)
  | .babs2 p f => opU s p f (lane1 fun a => maskOf fun i => a.getLsbD i && i != 15 && i != 31)
  | .hneg2 p f => opU s p f (lane1 fun a => maskOf fun i => a.getLsbD i != (i == 15 || i == 31))
  | .bneg2 p f => opU s p f (lane1 fun a => maskOf fun i => a.getLsbD i != (i == 15 || i == 31))
  | .shfl p f => opR s p f fun vs l => (acrossLane s f.a (vs.getD 0 []) (shflLane ((vs.getD 1 []).get l) l), noFlags)
  | .redlIadd p f => opRed s p f fun _ m a => (ofN ((m.lanes.map fun l => (a.get l).toNat).sum), noFlags)
  | .redlSmin p f => opRed s p f fun _ m a => (ofI ((m.lanes.map fun l => (a.get l).toInt).foldr min (2 ^ 31 - 1)), noFlags)
  | .redlSmax p f => opRed s p f fun _ m a => (ofI ((m.lanes.map fun l => (a.get l).toInt).foldr max (-2 ^ 31)), noFlags)
  | .redlUmin p f => opRed s p f fun _ m a => (ofN ((m.lanes.map fun l => (a.get l).toNat).foldr min (2 ^ 32 - 1)), noFlags)
  | .redlUmax p f => opRed s p f fun _ m a => (ofN ((m.lanes.map fun l => (a.get l).toNat).foldr max 0), noFlags)
  | .redlAnd p f => opRed s p f fun _ m a => (maskOf fun i => m.lanes.all fun l => (a.get l).getLsbD i, noFlags)
  | .redlOr p f => opRed s p f fun _ m a => (maskOf fun i => m.lanes.any fun l => (a.get l).getLsbD i, noFlags)
  | .redlXor p f => opRed s p f fun _ m a =>
      (maskOf fun i => (m.lanes.filter fun l => (a.get l).getLsbD i).length % 2 == 1, noFlags)
  | _ => none

/-- The floating instructions and conversions that write 32-bit lanes, over the rounding, adding and scaling of Flags and Convert. -/
def floatOp (s : State) : Instr → Option LaneOp
  | .fadd p f => opR s p f (flag2 (on32 (fAdd f32) (fenv s p)))
  | .fsub p f => opR s p f (flag2 (on32 (fSub f32) (fenv s p)))
  | .fmul p f => opR s p f (flag2 (on32 (fMul f32) (fenv s p)))
  | .ffma p f => opRD s p f (flag3 fun a b d => asWord (fFma f32 (fenv s p) a.toNat b.toNat d.toNat))
  | .fmin p f => opR s p f (flag2 (on32 (minOf f32) (fenv s p)))
  | .fmax p f => opR s p f (flag2 (on32 (maxOf f32) (fenv s p)))
  | .hadd2 p f => opR s p f (flag2 (packed2 (fAdd f16) (fenv s p)))
  | .hmul2 p f => opR s p f (flag2 (packed2 (fMul f16) (fenv s p)))
  | .hfma2 p f => opRD s p f (flag3 (packed3 (fFma f16) (fenv s p)))
  | .hmin2 p f => opR s p f (flag2 (packed2 (minOf f16) (fenv s p)))
  | .hmax2 p f => opR s p f (flag2 (packed2 (maxOf f16) (fenv s p)))
  | .badd2 p f => opR s p f (flag2 (packed2 (fAdd b16) (fenv s p)))
  | .bmul2 p f => opR s p f (flag2 (packed2 (fMul b16) (fenv s p)))
  | .bfma2 p f => opRD s p f (flag3 (packed3 (fFma b16) (fenv s p)))
  | .bmin2 p f => opR s p f (flag2 (packed2 (minOf b16) (fenv s p)))
  | .bmax2 p f => opR s p f (flag2 (packed2 (maxOf b16) (fenv s p)))
  | .faddi p f => opI s p f.d f.g (flag1 fun d => on32 (fAdd f32) (fenv s p) d (immHigh p f.imm))
  | .fmuli p f => opI s p f.d f.g (flag1 fun d => on32 (fMul f32) (fenv s p) d (immHigh p f.imm))
  | .haddi2 p f => opI s p f.d f.g (flag1 fun d => packed2 (fAdd f16) (fenv s p) d (immTwice p f.imm))
  | .hmuli2 p f => opI s p f.d f.g (flag1 fun d => packed2 (fMul f16) (fenv s p) d (immTwice p f.imm))
  | .baddi2 p f => opI s p f.d f.g (flag1 fun d => packed2 (fAdd b16) (fenv s p) d (immTwice p f.imm))
  | .bmuli2 p f => opI s p f.d f.g (flag1 fun d => packed2 (fMul b16) (fenv s p) d (immTwice p f.imm))
  | .ffloor p f => opU s p f (flag1 fun a => asWord (integral 3#2 (fenv s p).flush32 a.toNat))
  | .fceil p f => opU s p f (flag1 fun a => asWord (integral 2#2 (fenv s p).flush32 a.toNat))
  | .ftrunc p f => opU s p f (flag1 fun a => asWord (integral 1#2 (fenv s p).flush32 a.toNat))
  | .frint p f => opU s p f (flag1 fun a => asWord (integral (fenv s p).mode (fenv s p).flush32 a.toNat))
  | .ffract p f => opU s p f (flag1 fun a => asWord (fractF (fenv s p).flush32 a.toNat))
  | .fsat p f => opU s p f (flag1 fun a => asWord (satF (fenv s p).flush32 a.toNat))
  | .fclass p f => opU s p f (lane1 fun a => ofN (classF a.toNat))
  | .dp2h p f => opRD s p f (flag3 (dot 6 2 (fenv s p)))
  | .dp2b p f => opRD s p f (flag3 (dot 5 2 (fenv s p)))
  | .dp4e4 p f => opRD s p f (flag3 (dot 0 4 (fenv s p)))
  | .dp4e5 p f => opRD s p f (flag3 (dot 1 4 (fenv s p)))
  | .dp4s8 p f => opRD s p f (flag3 (dot 3 4 (fenv s p)))
  | .dp8e2 p f => opRD s p f (flag3 (dot 2 8 (fenv s p)))
  | .dp8s4 p f => opRD s p f (flag3 (dot 4 8 (fenv s p)))
  | .fscl p f => opR s p f (flag2 (scaleF (fenv s p)))
  | .f2i p f => opU s p f (flag1 (toSigned (fenv s p).mode (fenv s p).flush32))
  | .f2iRz p f => opU s p f (flag1 (toSigned 1#2 (fenv s p).flush32))
  | .f2u p f => opU s p f (flag1 (toUnsigned (fenv s p).mode (fenv s p).flush32))
  | .f2uRz p f => opU s p f (flag1 (toUnsigned 1#2 (fenv s p).flush32))
  | .i2f p f => opU s p f (flag1 fun a => asWord (f32.round (fenv s p).mode (fenv s p).flush32 a.msb a.toInt.natAbs 0))
  | .u2f p f => opU s p f (flag1 fun a => asWord (f32.round (fenv s p).mode (fenv s p).flush32 false a.toNat 0))
  | .h2fLo p f => opU s p f (flag1 fun a => asWord (reformat f16 f32 (fenv s p) (a.toNat % 65536)))
  | .h2fHi p f => opU s p f (flag1 fun a => asWord (reformat f16 f32 (fenv s p) (a.toNat / 65536)))
  | .b2fLo p f => opU s p f (flag1 fun a => asWord (reformat b16 f32 (fenv s p) (a.toNat % 65536)))
  | .b2fHi p f => opU s p f (flag1 fun a => asWord (reformat b16 f32 (fenv s p) (a.toNat / 65536)))
  | .f2hLo p f => opUD s p f fun vs l => lowHalf (reformat f32 f16 (fenv s p) ((vs.getD 0 []).get l).toNat) ((vs.getD 1 []).get l)
  | .f2hHi p f => opUD s p f fun vs l => highHalf (reformat f32 f16 (fenv s p) ((vs.getD 0 []).get l).toNat) ((vs.getD 1 []).get l)
  | .f2bLo p f => opUD s p f fun vs l => lowHalf (reformat f32 b16 (fenv s p) ((vs.getD 0 []).get l).toNat) ((vs.getD 1 []).get l)
  | .f2bHi p f => opUD s p f fun vs l => highHalf (reformat f32 b16 (fenv s p) ((vs.getD 0 []).get l).toNat) ((vs.getD 1 []).get l)
  | .redlFadd p f => opRed s p f redFadd
  | .redlFmin p f => opRed s p f (redMinMax false)
  | .redlFmax p f => opRed s p f (redMinMax true)
  | .rcp p f => sfuRow s p f 0
  | .rsq p f => sfuRow s p f 1
  | .sqrt p f => sfuRow s p f 2
  | .exp2 p f => sfuRow s p f 3
  | .log2 p f => sfuRow s p f 4
  | .sin p f => sfuRow s p f 5
  | .cos p f => sfuRow s p f 6
  | .tanh p f => sfuRow s p f 7
  | _ => none
where
  /-- A 16-bit code in the low half of a word, or in the high half (05 R142). -/
  lowHalf (r : Nat × Flags) (d : Word) : Word × Flags := (ofN (d.toNat / 65536 * 65536 + r.1 % 65536), r.2)
  highHalf (r : Nat × Flags) (d : Word) : Word × Flags := (ofN (r.1 % 65536 * 65536 + d.toNat % 65536), r.2)
  /-- An SFU operation at full precision: without an APPROX word, or where approximation is off. -/
  sfuRow (s : State) (p : Px) (f : UForm) (op : Nat) : Option LaneOp :=
    if (match p.approx with | some n => apxDepth s n.toNat | none => 0) = 0 then opU s p f (flag1 fun a => sfu op 0 (fenv s p) a)
    else none

/-! Operands. -/

/-- A source that is no queue and no illegal code. -/
def plainSource (o : Opnd) : Bool := !o.isQ && !o.isBad

/-- The value of a plain source (01 R19 R20). -/
def sourceOf (s : State) : Opnd → VReg
  | .v n => readV s n.val
  | .s n => splat (s.w.sregs.getD n.val 0#32)
  | .lid => lanesOf ofN
  | .lnk => s.w.lnk
  | .ctl => splat (ofN s.now)
  | _ => splat 0#32

/-- The pattern of a PERM word for source i: A is source 0, B is source 1 (03 R71). -/
def permOf (p : Px) (i : Nat) : BitVec 4 × BitVec 5 := match p.perm with
  | some m => if i = 0 then (m.aPat, m.aPar) else (m.bPat, m.bPar)
  | none => (0#4, 0#5)

/-- The values that the lane function of an instruction sees. -/
def LaneOp.values (o : LaneOp) (s : State) : List VReg :=
  (o.srcs.zipIdx.map fun x => permuted s x.1.1 (permOf o.p x.2).1 (permOf o.p x.2).2 (sourceOf s x.1.1))
    ++ (if o.readsD then [sourceOf s o.d] else [])

/-- The operands of an instruction can be read, from slot A on, and its killed names go. -/
def LaneOp.reads (o : LaneOp) (s : State) : Except Exc (List VReg × State) := do
  let r ← o.srcs.zipIdx.foldlM (fun (x : List VReg × State) y => do
    let (v, t) ← if y.2 = 0 then readA x.2 o.p y.1.1 else readB x.2 o.p y.1.1
    .ok (x.1 ++ [v], t)) ([], s)
  let r ← (if o.readsD then do
      notQueue o.d
      let (v, t) ← readOpnd r.2 o.d
      Except.ok (r.1 ++ [v], t)
    else .ok r : Except Exc (List VReg × State))
  let t ← o.srcs.foldlM (fun t y => kill y.1 y.2 1 t) r.2
  .ok (r.1, t)

/-! Outside recovery levels, plain operands. -/

/-- Killed vector names are unbound; trap shadows and names of the band are not killed (01 R15). -/
def killed (s : State) (xs : List (Opnd × Bool)) : State :=
  xs.foldl (fun s x => match x.1 with
    | .v n => if x.2 && !isShadow s n.val && !inBand s (absName s n.val) then unbindReg s (absName s n.val) else s
    | _ => s) s

/-- A destination that can take a result in the lanes of a mask: a bound name, a fresh name within the quota, a uniform
register, lnk or zero (01 R17 R20, 04 R85). -/
def landsIn (s : State) (m : Mask) : Opnd → Bool
  | .v n => m == 0#32 || isShadow s n.val || (boundReg s (absName s n.val)).isSome || !quotaFull s (absName s n.val)
  | .s _ | .lnk | .zero => true
  | _ => false

/-- The state after a result: a vector changes in the lanes of the mask, a uniform takes the lowest lane's (04 R85). -/
def landed (s : State) (m : Mask) (v : VReg) : Opnd → State
  | .v n =>
    if m = 0#32 then s
    else if isShadow s n.val then
      { s with sl := { s.sl with shadow := s.sl.shadow.set (n.val - 88) (mergeLanes m (s.sl.shadow.getD (n.val - 88) zeros) v) } }
    else bindReg s (absName s n.val) (mergeLanes m ((boundReg s (absName s n.val)).getD zeros) v)
  | .s n => match m.lowest with
    | some l => { s with w := { s.w with sregs := s.w.sregs.set n.val (v.get l) } }
    | none => s
  | .lnk => if m = 0#32 then s else { s with w := { s.w with lnk := mergeLanes m s.w.lnk v } }
  | _ => s

/-- Flags accumulate (01 R29). -/
def flagged (s : State) (fl : Flags) : State := { s with w := { s.w with fpflags := s.w.fpflags ||| fl } }

/-- The issuing entry at the word after the group (03 R73, 04 R104). -/
def onward (s : State) (p : Px) : State :=
  { s with w := { s.w with front := addEntry { pc := s.nextPc p, mask := s.cur.mask, src := s.cur.pc } (s.w.front.erase s.cur) } }

/-- An entry of the warp in focus issues, the frontier holds at most 8, and the next word stays on this core. -/
abbrev Ready (s : State) (p : Px) : Prop :=
  s.cur ∈ s.w.front ∧ s.cur.mask ≠ 0#32 ∧ s.w.front.length ≤ 8 ∧ staysHere s (s.nextPc p) = true

/-- The state in which an instruction has run and gone on to the next word. -/
def done (p : Px) (t : State) : Host.Outcome State Fault Refusal := .next (finish (onward t p))

/-- Beyond the registers of the warp in focus, its shadows, its band and the logs of its levels, nothing has changed; of the warp
only vector names, uniform registers, lnk, FPFLAGS, the frontier and the marks of a completed group (16 R399). In a travelling
launch cargoes may have been built for the lanes that leave, and the slot may pass on (13 R350 R355). -/
def onlyLanes (s t : State) : Prop :=
  t = { s with sl := { s.sl with shadow := t.sl.shadow, bandRegs := t.sl.bandRegs, passing := t.sl.passing }
               c := { s.c with levels := t.c.levels }, k := { s.k with outb := t.k.outb }
               w := { s.w with regs := t.w.regs, sregs := t.w.sregs, lnk := t.w.lnk, fpflags := t.w.fpflags, front := t.w.front
                               stall := none, keep := .none, asked := none, icount := s.w.icount + 1, bpSkip := none
                               haltReq := t.w.haltReq, haltWhy := t.w.haltWhy, stepping := false, trans := [] } }
    ∧ (s.l.travel = false → t.k.outb = s.k.outb ∧ t.sl.passing = s.sl.passing)

/-! Pairs (04 R87 R90 R94). -/

/-- The operand of the next code. -/
def succ : Opnd → Opnd
  | .v n => Opnd.ofNat (n.val + 1)
  | .s n => Opnd.ofNat (97 + n.val)
  | o => o

/-- An even vector name, an even uniform register or zero. -/
def evenOperand : Opnd → Bool
  | .v n => n.val % 2 == 0
  | .s n => n.val % 2 == 0
  | .zero => true
  | _ => false

/-- The 64-bit value of pair source i in a lane, low half first. -/
def pairOf (s : State) (p : Px) (i : Nat) (o : Opnd) (l : Nat) : Nat :=
  let h := fun x => ((permuted s o (permOf p i).1 (permOf p i).2 (sourceOf s x)).get l).toNat
  h o + 2 ^ 32 * h (succ o)

/-- Both names of a killed pair. -/
def bothNames (o : Opnd) (k : Bool) : List (Opnd × Bool) := [(o, k), (succ o, k)]

/-- What a pair instruction reads and writes. -/
structure PairOp where
  p : Px
  d : Opnd
  /-- the operand forms are allowed -/
  ok : Bool
  kills : List (Opnd × Bool)
  mask : Mask
  fn : Nat → Nat

def pairOp (s : State) : Instr → Option PairOp
  | .iadd64 p f => some ⟨p, f.d, evenOperand f.a && evenOperand f.b && evenOperand f.d, bothNames f.a f.ka ++ bothNames f.b f.kb,
      s.active p f.g, fun l => pairOf s p 0 f.a l + pairOf s p 1 f.b l⟩
  | .isub64 p f => some ⟨p, f.d, evenOperand f.a && evenOperand f.b && evenOperand f.d, bothNames f.a f.ka ++ bothNames f.b f.kb,
      s.active p f.g, fun l => pairOf s p 0 f.a l + 2 ^ 64 - pairOf s p 1 f.b l⟩
  | .imad64 p f => some ⟨p, f.d, plainSource f.a && plainSource f.b && evenOperand f.d, [(f.a, f.ka), (f.b, f.kb)],
      s.active p f.g, fun l =>
        ((permuted s f.a (permOf p 0).1 (permOf p 0).2 (sourceOf s f.a)).get l).toNat
          * ((permuted s f.b (permOf p 1).1 (permOf p 1).2 (sourceOf s f.b)).get l).toNat + pairOf s {} 0 f.d l⟩
  | .mov64 p f => some ⟨p, f.d, evenOperand f.a && evenOperand f.d, bothNames f.a f.ka, s.active p f.g, fun l => pairOf s p 0 f.a l⟩
  | _ => none

/-- Results in consecutive registers, low word first; zero discards them (04 R87, 06 R156). -/
def landedAll (s : State) (m : Mask) : Opnd → List (Nat → Word) → State
  | _, [] => s
  | d, f :: fs => landedAll (landed s m (lanesOf f) d) m (succ d) fs
def landsAll (s : State) (m : Mask) : Opnd → List (Nat → Word) → Bool
  | _, [] => true
  | d, f :: fs => landsIn s m d && landsAll (landed s m (lanesOf f) d) m (succ d) fs
/-- The two words of a 64-bit result. -/
def twoWords (f : Nat → Nat) : List (Nat → Word) := [fun l => ofN (f l), fun l => ofN (f l / 2 ^ 32)]

/-! Compares (04 R97, 05 R132). -/

/-- The conditions of codes 0 to 5. -/
def holds (cc : BitVec 4) (x y : Int) : Bool := match cc.toNat with
  | 0 => x == y | 1 => x != y | 2 => decide (x < y) | 3 => decide (x ≤ y) | 4 => decide (y < x) | _ => decide (y ≤ x)

/-- A predicate after a compare: it changes in the lanes of the mask (04 R85). -/
def predicated (s : State) (i : Nat) (m : Mask) (f : Nat → Bool) : State :=
  if m = 0#32 then s
  else { s with w := { s.w with preds := s.w.preds.set i (maskOf fun l => if m.has l then f l else (s.w.preds.getD i 0#32).has l) } }

/-- A compare: its sources, its mask, and each predicate with its bits and flags by lane. -/
structure CompareOp where
  p : Px
  srcs : List (Opnd × Bool)
  mask : Mask
  fns : List (Nat × (Word → Word → Bool × Flags))
  /-- the codes that the format allows -/
  ok : Bool

def compareOp (s : State) : Instr → Option CompareOp
  | .icmp p f => some ⟨p, [(f.a, f.ka), (f.b, f.kb)], s.active p f.g,
      [(f.pd.toNat, fun a b => (holds f.cc a.toInt b.toInt, noFlags))], decide (f.cc.toNat < 6)⟩
  | .ucmp p f => some ⟨p, [(f.a, f.ka), (f.b, f.kb)], s.active p f.g,
      [(f.pd.toNat, fun a b => (holds f.cc a.toNat b.toNat, noFlags))], decide (f.cc.toNat < 6)⟩
  | .fcmp p f => some ⟨p, [(f.a, f.ka), (f.b, f.kb)], s.active p f.g,
      [(f.pd.toNat, fun a b => fCmp f32 (fenv s p).flush32 f.cc a.toNat b.toNat)], true⟩
  | .hcmp2 p f => some ⟨p, [(f.a, f.ka), (f.b, f.kb)], s.active p f.g,
      [(f.pd.toNat, fun a b => fCmp f16 (fenv s p).flush16 f.cc (a.toNat % 65536) (b.toNat % 65536)),
       (f.pd.toNat + 1, fun a b => fCmp f16 (fenv s p).flush16 f.cc (a.toNat / 65536) (b.toNat / 65536))], decide (f.pd.toNat % 2 = 0)⟩
  | .bcmp2 p f => some ⟨p, [(f.a, f.ka), (f.b, f.kb)], s.active p f.g,
      [(f.pd.toNat, fun a b => fCmp b16 (fenv s p).flush16 f.cc (a.toNat % 65536) (b.toNat % 65536)),
       (f.pd.toNat + 1, fun a b => fCmp b16 (fenv s p).flush16 f.cc (a.toNat / 65536) (b.toNat / 65536))], decide (f.pd.toNat % 2 = 0)⟩
  | _ => none

/-- The value that source i of an instruction with slots A and B delivers. -/
def slotValue (s : State) (p : Px) (i : Nat) (o : Opnd) : VReg :=
  permuted s o (permOf p i).1 (permOf p i).2 (sourceOf s o)

def CompareOp.bits (o : CompareOp) (s : State) (f : Word → Word → Bool × Flags) (l : Nat) : Bool × Flags :=
  f ((slotValue s o.p 0 (o.srcs.getD 0 (.zero, false)).1).get l) ((slotValue s o.p 1 (o.srcs.getD 1 (.zero, false)).1).get l)

/-! Cross-lane forms (05 R148 R151). -/

/-- The active lanes up to a lane, or below it. -/
def upTo (m : Mask) (l : Nat) : List Nat := m.lanes.filter fun x => decide (x ≤ l)
def below (m : Mask) (l : Nat) : List Nat := m.lanes.filter fun x => decide (x < l)

def opScan (s : State) (p : Px) (f : UForm) (fn : Mask → VReg → Nat → Word) : Option LaneOp :=
  some { p := p, d := f.d, srcs := [(f.a, f.ka)], mask := s.active p f.g
         fn := fun vs l => (fn (s.active p f.g) (vs.getD 0 []) l, noFlags) }

/-- The highest active lane whose B names a lane. -/
def sender (m : Mask) (b : VReg) (l : Nat) : Option Nat := (m.lanes.reverse).find? fun x => (b.get x).toNat % 32 == l

/-- Scans and XWR: D is a vector name. -/
def crossOp (s : State) : Instr → Option LaneOp
  | .scanlIadd p f => opScan s p f fun m a l => ofN (((upTo m l).map fun x => (a.get x).toNat).sum)
  | .scanlIaddEx p f => opScan s p f fun m a l => ofN (((below m l).map fun x => (a.get x).toNat).sum)
  | .scanlSmax p f => opScan s p f fun m a l => ofI (((upTo m l).map fun x => (a.get x).toInt).foldr max (-2 ^ 31))
  | .scanlOr p f => opScan s p f fun m a l => maskOf fun i => (upTo m l).any fun x => (a.get x).getLsbD i
  | .scanlFadd p f => some { p := p, d := f.d, srcs := [(f.a, f.ka)], mask := s.active p f.g
                             fn := fun vs l => ((scanFadd (fenv s p) (s.active p f.g) (vs.getD 0 [])).1 l,
                               (scanFadd (fenv s p) (s.active p f.g) (vs.getD 0 [])).2) }
  | .xwr p f =>
    let m := s.active p f.g
    let b := slotValue s p 1 f.b
    some { p := p, d := f.d, srcs := [(f.a, f.ka), (f.b, f.kb)], readsD := true, mask := m
           fn := fun vs l => (((sender m b l).map (vs.getD 0 []).get).getD ((vs.getD 2 []).get l), noFlags) }
  | _ => none

/-- A descriptor that QNT and DEQ accept: an element format, a rounding of 0 or 1 (05 R143 R145). -/
def goodDesc (d : Word) : Bool := decide (d.toNat / 256 % 16 < 5) && decide (d.toNat / 4096 % 4 < 2)
/-- Elements of 4 bits: E2M1 and SM4. -/
def smallElems (d : Word) : Bool := d.toNat / 256 % 16 == 2 || d.toNat / 256 % 16 == 4

/-! Memory accesses (chapter 06). -/

/-- Nothing stands against an access: no open level, claim, write that waits at a home, conversation, agent, stash, sheaf mark, L1 copy,
constant-path line, host write, continuation queue, debug window or check-mode log. -/
abbrev PlainMem (s : State) : Prop :=
  s.depth = 0 ∧ s.claims = [] ∧ s.held = [] ∧ s.convs = [] ∧ s.dir = [] ∧ s.stashOwners = [] ∧ s.c.maps = [] ∧ s.c.stash = []
    ∧ s.marks = [] ∧ s.k.l1 = [] ∧ s.k.cpath = [] ∧ (∀ x ∈ s.parts, x.debugWin = none) ∧ (∀ x ∈ s.allLaunches, x.check = false)
    ∧ s.hostWait = [] ∧ engineQueues s = [] ∧ queueRanges s = [] ∧ s.hostWrote = [] ∧ s.hostRead = [] ∧ s.w.hostPend = 0 ∧ (∀ x ∈ s.allLaunches, x.cqCnt = 0)
/-- Only clocks, leases, cached copies and the order against host accesses (10 R284 R286) differ, and memory. -/
def onlyMemory (s t : State) : Prop :=
  t = { s with mem := t.mem, leases := t.leases, clock := t.clock, gone := t.gone, fresh := t.fresh, devSeq := t.devSeq
               devWrote := t.devWrote, devRead := t.devRead
               w := { s.w with hostSeen := t.w.hostSeen, hostPend := t.w.hostPend, hostGot := t.w.hostGot }
               k := { s.k with pts := t.k.pts, l1 := t.k.l1, cpath := t.k.cpath } }
/-- Only cached copies, their leases and the records of guest lines and probes differ (11 R295 R296 R299). -/
def prefetched (s t : State) : Prop :=
  t = { s with leases := t.leases, clock := t.clock, gone := t.gone, fresh := t.fresh, guests := t.guests, probes := t.probes
               k := { s.k with l1 := t.k.l1 } }

/-- Bytes and words of a size (06 R156). -/
def sizeBytes (sz : BitVec 3) : Nat := match sz.toNat with
  | 0 => 1 | 1 => 1 | 2 => 2 | 3 => 2 | 4 => 4 | 5 => 8 | _ => 16
def sizeWords (sz : BitVec 3) : Nat := match sz.toNat with
  | 5 => 2 | 6 => 4 | _ => 1

/-- A data operand of a size: a pair, a group of four names, or one code that is no queue. -/
def dataForm (sz : BitVec 3) (t : Opnd) : Bool := match sizeWords sz with
  | 2 => evenOperand t
  | 4 => match t with
    | .v n => n.val % 4 == 0
    | .s n => n.val % 4 == 0
    | o => o == .zero
  | _ => plainSource t

/-- The words that a load delivers from the little-endian number of its bytes (06 R156). -/
def extended (sz : BitVec 3) (x : Nat → Nat) : List (Nat → Word) := match sz.toNat with
  | 1 => [fun l => ofI (Int.bmod (x l) 256)]
  | 3 => [fun l => ofI (Int.bmod (x l) 65536)]
  | 5 => twoWords x
  | 6 => [fun l => ofN (x l), fun l => ofN (x l / 2 ^ 32), fun l => ofN (x l / 2 ^ 64), fun l => ofN (x l / 2 ^ 96)]
  | _ => [fun l => ofN (x l)]

/-- The consecutive operands of a group, and the number that they hold in a lane. -/
def group : Nat → Opnd → List Opnd
  | 0, _ => []
  | n + 1, o => o :: group n (succ o)
def groupNumber (s : State) : List Opnd → Nat → Nat
  | [], _ => 0
  | o :: os, l => ((sourceOf s o).get l).toNat + 2 ^ 32 * groupNumber s os l

/-- The byte address of a lane: a pair, or the base pair plus the zero-extended offset (06 R155). -/
def address (s : State) (wa : Bool) (sb : BitVec 3) (a : Opnd) (l : Nat) : DWord :=
  if wa then BitVec.ofNat 64 (groupNumber s [a, succ a] l)
  else BitVec.ofNat 64 ((s.w.sregs.getD (2 * sb.toNat) 0#32).toNat + 2 ^ 32 * (s.w.sregs.getD (2 * sb.toNat + 1) 0#32).toNat
    + ((sourceOf s a).get l).toNat)
def addressForm (wa : Bool) (a : Opnd) : Bool := if wa then evenOperand a else plainSource a
def addressNames (wa : Bool) (a : Opnd) (ka : Bool) : List (Opnd × Bool) := if wa then bothNames a ka else [(a, ka)]

/-- The shared offset of a lane, modulo 2^32. -/
def sharedOffset (s : State) (sb : BitVec 3) (a : Opnd) (l : Nat) : Nat :=
  ((s.w.sregs.getD (2 * sb.toNat) 0#32).toNat + ((sourceOf s a).get l).toNat) % 2 ^ 32

/-- The physical address of a virtual byte for an access, as the core's TLB gives it. -/
def place (s : State) (acc : Access) (va : DWord) : Option Nat := (transl s va acc).map fun x => localPa s x.1

/-- Every byte of every lane is canonical and lies in local memory that the access may reach. -/
abbrev reachable (s : State) (m : Mask) (addr : Nat → DWord) (n : Nat) (acc : Access) : Prop :=
  ∀ l ∈ m.lanes, canonRange (addr l) n = true ∧ ∀ i < n, ∃ pa, place s acc (addr l + BitVec.ofNat 64 i) = some pa ∧ pa < 2 ^ 47

/-- The little-endian number of n bytes of memory at the places of a virtual address. -/
def numberAt (s : State) (acc : Access) (va : DWord) (n : Nat) : Nat :=
  leNat ((List.range n).map fun i => memGet s.mem ((place s acc (va + BitVec.ofNat 64 i)).getD 0))

/-- Byte i of lane l is the last one that a store writes at its place: a higher lane prevails (06 R159). -/
abbrev lastAt (s : State) (m : Mask) (addr : Nat → DWord) (n l i : Nat) : Prop :=
  ∀ k ∈ m.lanes, ∀ j < n, (l < k ∨ l = k ∧ i < j) →
    place s { wr := true } (addr k + BitVec.ofNat 64 j) ≠ place s { wr := true } (addr l + BitVec.ofNat 64 i)

/-- The new value of an atomic on a memory value, B and the CAS replacement (06 R164). -/
def atomicResult (aop : Nat) (m b c : Nat) : Nat :=
  let x := ofN m
  let y := ofN b
  match aop with
  | 0 => (m + b) % 2 ^ 32
  | 1 => (m + b) % 2 ^ 64
  | 2 => (fAdd f32 ⟨0#2, false, false⟩ m y.toNat).1
  | 3 => (fAdd f16 ⟨0#2, false, false⟩ (m / 65536) (b / 65536 % 65536)).1 * 65536 + (fAdd f16 ⟨0#2, false, false⟩ (m % 65536) (b % 65536)).1
  | 4 => (fAdd b16 ⟨0#2, false, false⟩ (m / 65536) (b / 65536 % 65536)).1 * 65536 + (fAdd b16 ⟨0#2, false, false⟩ (m % 65536) (b % 65536)).1
  | 5 => if x.toInt ≤ y.toInt then m else y.toNat
  | 6 => if y.toInt ≤ x.toInt then m else y.toNat
  | 7 => min m y.toNat
  | 8 => max m y.toNat
  | 9 => (fMinMax f32 false true m y.toNat).1
  | 10 => (fMinMax f32 false false m y.toNat).1
  | 11 => (x &&& y).toNat
  | 12 => (x ||| y).toNat
  | 13 => (x ^^^ y).toNat
  | 14 => y.toNat
  | _ => if m = y.toNat then c else m

/-- The lanes of an atomic one after another: the value that each saw, and the bytes at the end (06 R165). -/
def atomicChain (aop n : Nat) (val : Nat → Nat × Nat) (mem : List Host.Cell) : List (Nat × Nat) → List (Nat × Nat) × List Host.Cell
  | [] => ([], mem)
  | (l, pa) :: t =>
    let m := leNat (memGets mem pa n)
    let r := atomicChain aop n val (memPuts mem (placed pa (leBytes n (atomicResult aop m (val l).1 (val l).2)))) t
    ((l, m) :: r.1, r.2)

/-- Bytes of an AOP, the form of B, and its value with the CAS replacement (06 R163). -/
def atomicBytes (aop : Nat) : Nat := if aop = 1 then 8 else 4
def atomicForm (aop : Nat) (b : Opnd) : Bool := if aop = 1 ∨ aop = 15 then evenOperand b else plainSource b
def atomicValue (s : State) (aop : Nat) (b : Opnd) (l : Nat) : Nat × Nat :=
  if aop = 1 then (groupNumber s [b, succ b] l, 0)
  else if aop = 15 then (((sourceOf s b).get l).toNat, ((sourceOf s (succ b)).get l).toNat)
  else (((sourceOf s b).get l).toNat, 0)
def atomicWords (aop : Nat) (old : Nat → Nat) : List (Nat → Word) := if aop = 1 then twoWords old else [fun l => ofN (old l)]
def atomicDest (aop : Nat) (d : Opnd) : Bool := if aop = 1 then evenOperand d else !d.isQ

/-- The lanes of an A-format instruction: a GUARD word alone guards it (03 R65). -/
def lanesA (s : State) (p : Px) : Mask := match p.guard with
  | some _ => s.active p 3#2
  | none => s.lanes

/-! Barriers, waits, queues and stash mappings (06 R169 to R181). -/

/-- A uniform operand or zero, and its value. -/
def uniformOrZero : Opnd → Bool
  | .s _ | .zero => true
  | _ => false
def uniform (s : State) : Opnd → Nat
  | .s n => (s.w.sregs.getD n.val 0#32).toNat
  | _ => 0
/-- An even uniform pair or zero, and its value. -/
def uniformPair : Opnd → Bool
  | .s n => n.val % 2 == 0
  | .zero => true
  | _ => false
def uniform64 (s : State) : Opnd → Nat
  | .s n => (s.w.sregs.getD n.val 0#32).toNat + 2 ^ 32 * (s.w.sregs.getD (n.val + 1) 0#32).toNat
  | _ => 0

/-- The live warps of the cohort in focus. -/
def liveCount (s : State) : Nat := (s.allWarps.filter fun w => w.cid == s.c.id && w.holds != 0#32).length

/-- The warp may arrive at a barrier: it is whole, has no write held and keeps no arrival. -/
abbrev arrives (s : State) (p : Px) (g : BitVec 2) : Prop :=
  s.w.resident = true ∧ (∀ v ∈ s.warps, v.id ≠ s.w.id) ∧ s.active p g ≠ 0#32 ∧ s.cur.mask = s.w.holds
    ∧ (∀ h ∈ s.held, h.warp ≠ s.w.id) ∧ s.w.keep = .none

/-- Only barriers and what a warp keeps of its arrivals differ. -/
def onlyBars (s t : State) : Prop :=
  t = { s with c := { s.c with bars := t.c.bars }, w := { s.w with barLast := t.w.barLast, keep := t.w.keep } }
def onlyFbars (s t : State) : Prop :=
  t = { s with sl := { s.sl with fbars := t.sl.fbars }, w := { s.w with fbarLast := t.w.fbarLast, keep := t.w.keep } }

/-- The number of an arrival: the value of D, or the live warps (06 R171). -/
def arrivalCount (s : State) (d : Opnd) : Nat := if d = .zero then liveCount s else uniform s d

/-- The binding that a QBIND form makes of its argument, when the argument is allowed (06 R175); `.warp` reads its header. -/
def binding (s : State) : Instr → Option (Px × UForm × Option QKind)
  | .qbindUnbind p f => if uniform s f.a = 0 then some (p, f, none) else none
  | .qbindFibre p f => if uniform s f.a < 4 then some (p, f, some (.fibre (uniform s f.a))) else none
  | .qbindCopy p f => if uniform s f.a < 8 then some (p, f, some (.copy (uniform s f.a))) else none
  | .qbindCopydone p f => if uniform s f.a < 8 then some (p, f, some (.copydone (uniform s f.a))) else none
  | .qbindMseq p f => if uniform s f.a = 0 ∧ s.l.travel = false then some (p, f, some .mseq) else none
  | .qbindBincmd p f => if uniform s f.a = 0 then some (p, f, some .bincmd) else none
  | .qbindBinres p f => if uniform s f.a = 0 then some (p, f, some .binres) else none
  | .qbindCont p f => if uniform s f.a < s.l.cqCnt then some (p, f, some (.cont (uniform s f.a))) else none
  | .qbindAmsend p f => if uniform s f.a = 0 then some (p, f, some .amsend) else none
  | .qbindWarp p f =>
    let o := uniform s f.a
    let cap := leNat (memGets s.c.shared o 2)
    if s.l.travel = false ∧ s.c.maps = [] ∧ o % 16 = 0 ∧ o + 16 ≤ s.c.sharedSize ∧ 1 ≤ cap ∧ cap ≤ 2047 ∧ leNat (memGets s.c.shared (o + 2) 2) = 0
        ∧ leNat (memGets s.c.shared (o + 12) 4) = 0 ∧ o + 16 + 128 * cap ≤ s.c.sharedSize then some (p, f, some (.warp o)) else none
  | _ => none

/-! Control transfers (04 R104 to R114). -/

/-- The issuing entry gives way to the groups that have lanes, entries of one PC merged (R104). -/
def transferred (s : State) (gs : List (Word × Mask)) : State :=
  let join := fun (f : List Entry) (g : Word × Mask) => addEntry { pc := g.1, mask := g.2, src := s.cur.pc } f
  { s with w := { s.w with front := (gs.filter fun g => g.2 != 0#32).foldl join (s.w.front.erase s.cur) } }

/-- At most 8 entries result, and the targets lie on this core. -/
abbrev transfers (s : State) (gs : List (Word × Mask)) : Prop :=
  (transferred s gs).w.front.length ≤ 8 ∧ ∀ g ∈ gs, g.2 ≠ 0#32 → staysHere s g.1 = true

/-- The lanes that a B-format transfer takes, by its mode (R105). -/
def takenLanes (s : State) (f : BForm) : Mask :=
  let e := s.cur.mask
  let c := fun l => (s.w.preds.getD f.ps.toNat 0#32).has l != f.n
  if f.mode = 0#2 then maskOf fun l => e.has l && c l
  else if f.mode = 1#2 then e
  else if f.mode = 2#2 then (if e.lanes.any c then e else 0#32)
  else if e.lanes.all c then e else 0#32

/-- Active lanes grouped by target, in the order of their lowest lanes, and the other lanes of the entry (R107). -/
def jumpGroups (s : State) (p : Px) (m : Mask) (v : VReg) : List (Word × Mask) :=
  (((m.lanes.map fun l => v.get l).dedup).map fun x => (x, maskOf fun l => m.has l && v.get l == x)) ++ [(s.nextPc p, s.cur.mask &&& ~~~ m)]

/-- The dirty bytes of the stash lines of a range stand at their home lines (06 R180). -/
def reachHome (s t : State) (line count : Nat) : Prop :=
  ∀ y ∈ s.c.stash, y.dirty = true → line ≤ y.line → y.line < line + count →
    (∀ z ∈ s.c.stash, z.pa ≠ y.pa → z.pa + 128 ≤ y.pa ∨ y.pa + 128 ≤ z.pa) → (∀ z ∈ s.c.stash, z.pa = y.pa → z = y) →
    ∀ i < 128, memGet t.mem (y.pa + i) = memGet s.c.shared (128 * y.line + i)

/-- The warps of a cohort whose threads are all parked may be compacted, but for the entries that their new warps need (04 R113). -/
abbrev mayCompact (s : State) (ws : List Warp) : Prop :=
  s.l.travel = false ∧ s.c.levels = [] ∧ (ws.map (·.lidx)).Nodup ∧ ((ws.flatMap fun w => w.regs.map (·.1)).dedup).length ≤ s.w.quota
    ∧ (∀ w ∈ ws, (∀ e ∈ w.front, e.parked = true ∧ e.rbLanes = 0#32) ∧ w.front ≠ [] ∧ (w.front.map (·.pc)).Nodup ∧ w.stall = none
      ∧ w.frozen = none ∧ w.trapWait = none ∧ w.trapMode = false ∧ w.timerEn = false ∧ w.hostPend = 0
      ∧ (∀ h ∈ w.hmap, h = none) ∧ (∀ t ∈ s.allSlots, sameSlot w t = true → t.band = 0#8)
      ∧ w.quota = s.w.quota ∧ w.winbase = s.w.winbase ∧ w.sregs = s.w.sregs ∧ w.qbind = s.w.qbind ∧ w.fpmode = s.w.fpmode
      ∧ w.trapen = s.w.trapen ∧ w.timerLo = s.w.timerLo ∧ w.timerCmp = s.w.timerCmp ∧ w.timerOne = s.w.timerOne
      ∧ w.waitlim = s.w.waitlim ∧ w.trapPc = s.w.trapPc)
/-- The parked threads of warps in the order of R114: by the rank of their targets, then by warp, then by lane. -/
abbrev inOrder (l : Launch) (ws : List Warp) (ts : List Parked) : Prop :=
  ts.Pairwise (fun a b => if a.pc = b.pc then a.w.lidx < b.w.lidx ∨ (a.w.lidx = b.w.lidx ∧ a.lane < b.lane)
    else ranksAbove l { pc := a.pc, mask := 0#32 } { pc := b.pc, mask := 0#32 } = true)
  ∧ (∀ t ∈ ts, t.w ∈ ws ∧ ∃ e ∈ t.w.front, e.pc = t.pc ∧ t.lane ∈ e.mask.lanes)
  ∧ ∀ w ∈ ws, ∀ e ∈ w.front, ∀ n ∈ e.mask.lanes, (⟨e.pc, w, n⟩ : Parked) ∈ ts
/-- The name holds a value in the warp. -/
def boundIn (w : Warp) (name : Nat) : Bool := (assoc name w.regs).isSome
/-- The value that a name has in a lane of a warp, 0 where it is not bound (04 R114). -/
def laneOf (w : Warp) (name lane : Nat) : Word := ((assoc name w.regs).getD zeros).get lane
/-- A lane of a new warp carries what the thread had in its old warp and lane; its entry is the thread's target (04 R114). -/
def carries (v : Warp) (n : Nat) (t : Parked) : Prop :=
  v.holds.has n = true ∧ v.wid.getD n 0#64 = t.w.wid.getD t.lane 0#64 ∧ v.lnk.get n = t.w.lnk.get t.lane
    ∧ (∀ q < 8, (v.preds.getD q 0#32).has n = (t.w.preds.getD q 0#32).has t.lane) ∧ (∀ name, laneOf v name n = laneOf t.w name t.lane)
    ∧ ∃ e ∈ v.front, e.pc = t.pc ∧ e.mask.has n = true ∧ e.parked = false
/-- The cohort in focus has been compacted: warp i holds the threads from 32 * i on, and there is no other live warp (04 R114). -/
def compacted (s u : State) (ws : List Warp) (ts : List Parked) : Prop :=
  (∀ i, 32 * i < ts.length → ∃ v ∈ u.everyWarp s.c.id, v.lidx = i ∧ v.quota = s.w.quota ∧ v.winbase = s.w.winbase ∧ v.sregs = s.w.sregs
      ∧ v.qbind = s.w.qbind ∧ v.fpmode = s.w.fpmode ∧ v.fpflags = ws.foldl (fun f w => f ||| w.fpflags) 0#5
      ∧ (∀ name, boundIn v name = ((ts.drop (32 * i)).take 32).any fun t => boundIn t.w name)
      ∧ ∀ n < 32, match ts[32 * i + n]? with
        | some t => carries v n t
        | none => v.holds.has n = false)
  ∧ ∀ v ∈ u.everyWarp s.c.id, 32 * v.lidx < ts.length

/-- No thread of the machine is parked. -/
abbrev noneParked (s : State) : Prop := ∀ w ∈ s.allWarps, ∀ e ∈ w.front, e.parked = false

/-- The focus holds the only warp of its slot; it is resident. -/
abbrev aloneInSlot (s : State) : Prop := s.w.resident = true ∧ ∀ v ∈ s.warps, ¬ (v.core = s.w.core ∧ v.quarter = s.w.quarter ∧ v.slot = s.w.slot)

/-- The fibre lies in the slot in focus and in a mask (08 R234). -/
def inMask (s : State) (mask : BitVec 4) (v : Warp) : Bool :=
  v.core == s.w.core && v.quarter == s.w.quarter && v.slot == s.w.slot && mask.getLsbD v.fibre

/-! Recovery (chapters 08 and 09). -/

/-- The focus holds the only warp of its cohort, a live launched one, and names are unique. -/
abbrev Solo (s : State) : Prop :=
  s.w.resident = true ∧ s.w.cid = s.c.id ∧ s.w.handler = false ∧ s.w.holds ≠ 0#32 ∧ s.c.resident = true ∧ s.c.done = none
    ∧ (∀ v ∈ s.warps, v.cid ≠ s.c.id ∧ v.id ≠ s.w.id) ∧ (∀ x ∈ s.cohorts, x.id ≠ s.c.id)

/-- A recovery instruction may run: outside trap mode, in a level, in a launched warp (08 R233). -/
abbrev inLevel (s : State) : Prop := s.w.trapMode = false ∧ s.depth ≠ 0

/-- The home's verdict to every member of a conversation that has not left (09 R268 R270). -/
def told (s : State) (h : ConvHome) (v : Verdict) : List Notice :=
  (h.members.filter fun m => !hasLeft s m).map fun m => ⟨m.1, m.2.2, v, h.pa⟩

/-- A field of a conversation object in memory (09 R266). -/
def objectField (s : State) (pa off n : Nat) : Nat := leNat ((List.range n).map fun i => memGet s.mem (pa + off + i))

/-! Control and status registers, traps (01 R28 to R31, 08 R239 to R241, 14 R361 to R367). -/

/-- The fields of RBSTAT (01 R28). -/
def rbstat (s : State) : Nat :=
  if s.depth = 0 then 0
  else s.depth + 16 * (match s.c.levels with | v :: _ => v.alt % 8 | [] => 0) + 128 * (if s.c.conv.isSome then 1 else 0)

/-- The listed CSRs with what a read returns (R28); FIBRESTAT is fibreStat. -/
def csrRead (s : State) (n : Nat) : Option Word :=
  if n = 0x000 then some (ofN s.w.fpmode.toNat)
  else if n = 0x001 then some (ofN s.w.fpflags.toNat)
  else if n = 0x002 then some (ofN s.w.trapen.toNat)
  else if n = 0x010 then some (ofN s.now)
  else if n = 0x011 then some (if s.w.trapMode then s.w.trapHi else s.w.chipHi)
  else if n = 0x012 then some s.w.timerLo
  else if n = 0x013 then some (ofN (s.w.timerCmp.toNat / 2 ^ 32))
  else if n = 0x014 then some (ofN (s.w.timerEn.toNat + 2 * s.w.timerOne.toNat + 4 * s.w.timerPend.toNat))
  else if n = 0x020 then some (ofN (rbstat s))
  else if n = 0x021 then some (ofN s.w.rbcause.toNat)
  else if n = 0x022 then some (ofN s.w.rbcode.toNat)
  else if n = 0x023 then some (if s.w.handler then 0#32 else match s.c.conv with | some v => v.ident | none => 0#32)
  else if n = 0x030 then some (ofN s.w.winbase)
  else if n = 0x031 then some (ofN (s.w.quota % 512 + 65536 * (s.boundCount % 512)))
  else if n = 0x040 then some s.w.waitlim
  else if n = 0x050 then some (fibreStat s)
  else if n = 0x060 then some (ofN (s.l.det.toNat + 2 * s.l.check.toNat + 4 * s.l.exact.toNat))
  else if n = 0x800 then some (ofN s.w.trapCause.toNat)
  else if n = 0x801 then some s.w.trapPc
  else if n = 0x802 then some (ofN (s.w.trapAddr.toNat % 2 ^ 32))
  else if n = 0x803 then some (ofN (s.w.trapAddr.toNat / 2 ^ 32))
  else if n = 0x804 then some s.w.trapLanes
  else if n = 0x805 then some s.w.trapBlame
  else none

/-- A read of CHIPT_LO latches the upper half of chip time, in trap mode into the latch of its own (R30). -/
def latched (s : State) (n : Nat) : State :=
  if n ≠ 0x010 then s
  else if s.w.trapMode then { s with w := { s.w with trapHi := ofN (s.now / 2 ^ 32) } }
  else { s with w := { s.w with chipHi := ofN (s.now / 2 ^ 32) } }

/-- What a write leaves in a writable CSR; none where the CSR is read-only or a bit that must be 0 is set (R28 R31). -/
def csrWritten (w : Warp) (n : Nat) (x : Word) : Option Warp :=
  if n = 0x000 then (if x.toNat < 16 then some { w with fpmode := BitVec.ofNat 4 x.toNat } else none)
  else if n = 0x001 then (if x.toNat < 32 then some { w with fpflags := BitVec.ofNat 5 x.toNat } else none)
  else if n = 0x002 then (if x.toNat < 16 then some { w with trapen := BitVec.ofNat 4 x.toNat } else none)
  else if n = 0x012 then some { w with timerLo := x }
  else if n = 0x013 then some { w with timerCmp := BitVec.ofNat 64 (x.toNat * 2 ^ 32 + w.timerLo.toNat) }
  else if n = 0x014 then (if x.toNat < 8 then
    some { w with timerEn := x.getLsbD 0, timerOne := x.getLsbD 1, timerPend := w.timerPend && !x.getLsbD 2 } else none)
  else if n = 0x030 then (if x.toNat ≤ 13 then some { w with winbase := x.toNat } else none)
  else if n = 0x040 then some { w with waitlim := x }
  else if n = 0x801 then (if x.toNat % 4 = 0 then some { w with trapPc := x } else none)
  else none

/-- The warp in focus has entered its handler: trap registers, the frontier set aside, one entry of every live thread at the
handler, the slot's shadows held (08 R240, 14 R366). -/
def inHandler (s t : State) (cause detail : Nat) (pc blame : Word) (addr : DWord) (lanes : Mask) : Prop :=
  t.w.trapMode = true ∧ t.w.front = [{ pc := s.l.handlerPc, mask := s.w.holds, src := blame }]
    ∧ t.w.aside = some (s.w.front.erase s.cur, s.cur) ∧ t.sl.holder = some s.w.id
    ∧ t.w.trapCause = BitVec.ofNat 16 (256 * detail + cause) ∧ t.w.trapPc = pc &&& 0xFFFFFFFC#32 ∧ t.w.trapBlame = blame
    ∧ t.w.trapAddr = addr ∧ t.w.trapLanes = lanes
    ∧ t.w.regs = s.w.regs ∧ t.w.sregs = s.w.sregs ∧ t.w.preds = s.w.preds ∧ t.w.lnk = s.w.lnk ∧ t.w.fpmode = s.w.fpmode
    ∧ t.w.fpflags = s.w.fpflags ∧ t.w.trapen = s.w.trapen ∧ t.mem = s.mem ∧ t.c = s.c

/-- The fibre in focus is frozen with a fault kind, and a record of the fault is open (13 R343, 14 R363 R364). -/
def frozenWith (s t : State) (kind : Nat) : Prop :=
  t.w.frozen = some (.fault s.nextToken kind) ∧ t.nextToken = s.nextToken + 1
    ∧ t.faults = s.faults ++ [⟨s.nextToken, s.l.part, s.l.ctx, s.l.num, kind, .warp s.w.id⟩]
    ∧ t.w.regs = s.w.regs ∧ t.w.sregs = s.w.sregs ∧ t.w.preds = s.w.preds ∧ t.w.front = s.w.front ∧ t.c = s.c

/-- An entry issues, and the slot's shadows are free for the warp. -/
abbrev mayTrap (s : State) : Prop :=
  s.cur ∈ s.w.front ∧ (s.sl.holder = none ∨ s.sl.holder = some s.w.id) ∧ s.w.trapMode = false ∧ s.l.handlerPc ≠ 0#32
    ∧ s.w.halted = false ∧ s.w.haltReq = false ∧ s.w.stepping = false
    ∧ staysHere s s.cur.pc = true

/-! Tiles (chapter 07). -/

/-- The limits of a reservation record, by kind (07 R182 to R184); it does not span. -/
abbrev goodRecord (kind : TKind) (r : TRec) : Prop :=
  r.spanlog = 0 ∧ r.fmt ≤ 7 ∧ r.scoff < 2 ^ 32 ∧ (r.blk = false → r.scoff = 0) ∧ (r.blk = true → r.fmt < 5) ∧ (r.fmt = 2 ∨ r.fmt = 4 → r.k % 2 = 0)
    ∧ (match kind with
      | .a => r.fmt ≤ 6 ∧ 1 ≤ r.m ∧ r.m ≤ 128 ∧ 1 ≤ r.k ∧ r.k ≤ 768 ∧ r.n = 0
      | .b => r.fmt ≤ 6 ∧ 1 ≤ r.k ∧ r.k ≤ 768 ∧ r.m = 0 ∧ 1 ≤ r.n ∧ r.n ≤ (if r.fmt = 5 ∨ r.fmt = 6 then 128 else 256)
      | .c => r.fmt = 7 ∧ 1 ≤ r.m ∧ r.m ≤ 128 ∧ r.k = 0 ∧ 1 ≤ r.n ∧ r.n ≤ 768 ∧ r.m * r.n ≤ 65536)

/-- Word j of a record (R184). -/
def recordWord (r : TRec) (j : Nat) : Word :=
  if j = 0 then ofN (r.fmt + 256 * r.blk.toNat + 4096 * r.spanlog) else if j = 1 then ofN (65536 * r.m + r.n)
  else if j = 2 then ofN r.k else ofN r.scoff

/-- A handle name maps to a physical handle, or to none. -/
def named (s : State) (h : Nat) (v : Option Nat) : State := { s with w := { s.w with hmap := s.w.hmap.set h v } }

/-- Nothing that is still to come reads the tile or needs its old contents. -/
abbrev settledTile (s : State) (t : Tile) : Prop := pendingReads s.k t.phys = 0 ∧ pinnedTile s t.phys = false

/-- A write of a bound name takes a fresh physical handle over the same storage, pending until its work retires (R188); without a
spare handle it waits for one in the sequencer (R185). -/
def renamed (s : State) (h : Nat) (t : Tile) : State :=
  let u := named s h (some (freshPhys s.k))
  let new := { t with phys := freshPhys s.k, handle := spareFor s.k, data := none, scales := [], pend := some (s.cur.pc, s.k.nextOp + 1), freed := false, gang := none }
  { u with k := { s.k with tiles := new :: s.k.tiles.map fun x => if x.phys = t.phys then { x with freed := true } else x } }

/-- One more entry at the tail of the core's sequencer (R187); old is the tile that its write replaces. -/
def queued (s : State) (names : List Nat) (work : TileWork) (pages : List (Nat × Nat)) (old : Option Nat) : State :=
  let op : TileOp := { id := s.k.nextOp + 1, warp := s.w.id, cid := s.c.id, launch := s.l.num, pc := s.cur.pc, names := names, work := work, pages := pages, old := old }
  { s with k := { s.k with nextOp := s.k.nextOp + 1, seq := s.k.seq ++ [op] } }

/-- The 32 bytes of an operand map (R195) stand at a shared offset, and the map suits the tile. -/
abbrev mapAt (s : State) (off : Nat) (t : Tile) (base lstride sstride flags : Nat) : Prop :=
  let e := if t.record.fmt = 7 then 4 else if t.record.fmt = 5 ∨ t.record.fmt = 6 then 2 else 1
  off % 16 = 0 ∧ off + 32 ≤ s.c.sharedSize ∧ base < 2 ^ 64 ∧ lstride < 2 ^ 32 ∧ sstride < 2 ^ 32 ∧ flags < 64 ∧ flags / 8 ≤ 5
    ∧ (flags % 2 = 1 → base < 2 ^ 32) ∧ base % e = 0 ∧ lstride % e = 0 ∧ (t.record.blk = true → sstride ≠ 0) ∧ t.record.spanlog = 0
    ∧ memGets s.c.shared off 32 = leBytes 8 base ++ leBytes 4 lstride ++ leBytes 4 sstride ++ leBytes 4 flags ++ List.replicate 12 0#8

/-- What the map stands for. -/
def mapOf (t : Tile) (base lstride sstride flags : Nat) : OpMap :=
  { base := BitVec.ofNat 64 base, lstride := lstride, sstride := sstride, scale := BitVec.ofNat 64 (base + t.record.scoff)
    shared := flags % 2 == 1, acq := flags / 2 % 2 == 1, rel := flags / 4 % 2 == 1, scope := flags / 8 }

/-- The runs lie in the allocation, or are canonical and translated to these pages (R196). -/
abbrev runsReady (s : State) (t : Tile) (m : OpMap) (wr : Bool) (pages : List (Nat × Nat)) : Prop :=
  if m.shared then s.c.maps = [] ∧ pages = [] ∧ ∀ r ∈ tileRuns t m, r.1.toNat + r.2 ≤ s.c.sharedSize
  else (∀ r ∈ tileRuns t m, canonRange r.1 r.2 = true) ∧ runPages s { rd := !wr, wr := wr } (tileRuns t m) = .ok pages

/-- The K-steps of a loop: step j takes A at HA + j·AINC and B at HB + j·BINC, modulo 32 (R200). -/
def stepNames (ha hb ainc binc n : Nat) : List (Nat × Nat) := (List.range n).map fun j => ((ha + j * ainc) % 32, (hb + j * binc) % 32)
def physOf (s : State) (h : Nat) : Nat := (handleOf s h).getD 0

/-- The tiles of the steps suit a C tile (R201). -/
abbrev stepsFit (s : State) (c : Tile) (names : List (Nat × Nat)) : Prop :=
  c.kind = .c ∧ c.record.spanlog = 0 ∧ c.record.n ≤ 256 ∧ ∀ t ∈ names, ∃ a b, tileOf s t.1 = some a ∧ tileOf s t.2 = some b ∧ a.kind = .a ∧ b.kind = .b
    ∧ a.record.m = c.record.m ∧ a.record.k = b.record.k ∧ b.record.n = c.record.n ∧ a.record.spanlog = 0 ∧ b.record.spanlog = 0
    ∧ (b.record.fmt = 5 ∨ b.record.fmt = 6 → c.record.n ≤ 128)

/-- The state after the issue of a loop on a C tile. -/
def looped (s : State) (hc ha hb ainc binc n : Nat) (c : Tile) (acc : Bool) : State :=
  queued (renamed s hc c) (hc :: (stepNames ha hb ainc binc (min n 32)).flatMap fun t => [t.1, t.2])
    (.mm (freshPhys s.k) c.phys acc ((stepNames ha hb ainc binc n).map fun t => (physOf s t.1, physOf s t.2)) 0) [] (some c.phys)
/-- No partition has a debug window. -/
abbrev noDebug (s : State) : Prop := ∀ p ∈ s.parts, p.debugWin = none
/-- No stash, no caching agent, no claim, no waiting write and no debug window stands between the device and its memory. -/
abbrev quiet (s : State) : Prop :=
  s.stashOwners = [] ∧ s.dir = [] ∧ s.claims = [] ∧ s.held = [] ∧ s.hostWait = [] ∧ engineQueues s = [] ∧ noDebug s

/-- Where byte i of line j of a tile lies in global memory. -/
def tilePlace (m : OpMap) (pages : List (Nat × Nat)) (j i : Nat) : Nat :=
  pageAddr pages (m.base + BitVec.ofNat 64 (j * m.lstride) + BitVec.ofNat 64 i)

/-- The only entry of the core in focus has run its time. -/
abbrev ripe (s : State) (o : TileOp) : Prop :=
  s.w.resident = true ∧ o.warp = s.w.id ∧ s.k.seq = [o] ∧ o.running = true ∧ o.due ≤ s.cyc

/-! Engines (07 R207 to R216). -/

/-- A channel of a cluster's copy engine. -/
def channel (s : State) (cl ch : Nat) : Channel := (s.cluster cl).chans.getD ch {}

/-- What a COPY or FILL command of one dimension says, without HOLD and between global addresses (R207). -/
structure CopyLine where
  opc : Nat
  esz : Nat
  acq : Bool
  rel : Bool
  scope : Nat
  tag : Nat
  src : DWord
  dst : DWord
  record : DWord
  count : Nat

/-- Its eight words: the element size is 2^esz bytes. -/
def CopyLine.words (x : CopyLine) : List Word :=
  [ofN (2 ^ 28 * x.opc + 2 ^ 23 * x.esz + 2 ^ 20 * x.acq.toNat + 2 ^ 19 * x.rel.toNat + 2 ^ 16 * x.scope + x.tag),
   ofN (x.src.toNat % 2 ^ 32), ofN (x.src.toNat / 2 ^ 32), ofN (x.dst.toNat % 2 ^ 32), ofN (x.dst.toNat / 2 ^ 32),
   ofN (x.record.toNat % 2 ^ 32), ofN (x.record.toNat / 2 ^ 32), ofN x.count]

/-- The fields fit, and every address lies in the lower half of the canonical range. -/
abbrev CopyLine.fits (x : CopyLine) : Prop :=
  x.opc < 16 ∧ x.esz < 4 ∧ x.scope < 8 ∧ x.tag < 256 ∧ x.count < 2 ^ 32 ∧ x.src.toNat + x.count * 2 ^ x.esz < 2 ^ 56
    ∧ x.dst.toNat + x.count * 2 ^ x.esz < 2 ^ 56 ∧ x.record.toNat < 2 ^ 56

/-- The first check that fails, in the order of R209; 0 when none does. -/
def CopyLine.detail (x : CopyLine) : Nat :=
  if x.opc ≠ 1 ∧ x.opc ≠ 2 then 1 else if 6 ≤ x.scope then 2
  else if (x.opc = 1 ∧ x.src.toNat % 2 ^ x.esz ≠ 0) ∨ x.dst.toNat % 2 ^ x.esz ≠ 0 then 3
  else if x.record.toNat % 32 ≠ 0 then 4 else 0

/-- The command in the channel, before its acceptance. -/
def CopyLine.cmd (x : CopyLine) (id w cid launch : Nat) : CopyCmd :=
  { id := id, warp := w, cid := cid, launch := launch, fill := x.opc == 2, dims := [], esz := 2 ^ x.esz, srcSh := false, dstSh := false, acq := x.acq
    rel := x.rel, scope := x.scope, key := none, tag := x.tag, src := x.src, dst := x.dst, record := x.record, count0 := x.count, stage := .accepted }

/-- The walks of an engine to n addresses read entries that routes lead to (11 R291, 15 R388). -/
abbrev walksOk (s : State) (l : Launch) (va : DWord) (n : Nat) : Prop :=
  routed s ((walkReads s l.ctx ((List.range n).map fun i => va + BitVec.ofNat 64 i)).map (·.1)) = true
/-- n bytes at a virtual address lie at distinct places that the engine may reach. -/
abbrev placedAt (s : State) (l : Launch) (va : DWord) (acc : Access) (n : Nat) (pa : Nat → Nat) : Prop :=
  (∀ i < n, enginePa s l (va + BitVec.ofNat 64 i) acc = .ok (pa i) ∧ routed s [pa i / 128] = true) ∧ ∀ i < n, ∀ j < n, pa i = pa j → i = j
/-- Routes lead to the record of a copy command and to the entries of its walks. -/
abbrev copyRouted (s : State) (l : Launch) (m : CopyCmd) : Prop := routed s ((recordWay s l m ++ copyWalks s l m).map (·.1)) = true

/-- Exactly the n bytes at these places have taken new values. -/
def onlyBytes (s t : State) (n : Nat) (pa : Nat → Nat) (val : Nat → Byte) : Prop :=
  (∀ i < n, memGet t.mem (pa i) = val i) ∧ ∀ a, (∀ i < n, a ≠ pa i) → memGet t.mem a = memGet s.mem a

/-- The 16 bits at position i of a list of destination ids. -/
def destId (s : State) (pa : Nat → Nat) (i : Nat) : Nat := (memGet s.mem (pa (2 * i))).toNat + 256 * (memGet s.mem (pa (2 * i + 1))).toNat

/-! System software, debugging and Lantern (chapters 11, 14 to 17). -/

/-- Eight bytes of a page table (11 R289 R290). -/
abbrev pteAt (s : State) (table i e : Nat) : Prop := leNat (memGets s.mem (table + 8 * i) 8) = e
/-- An entry that points to the next table. -/
def tableEntry (next : Nat) : Nat := next + 1
/-- An entry that maps a page. -/
def pageEntry (pa attr : Nat) (r w xd : Bool) : Nat := 2 ^ 63 * xd.toNat + pa + 64 * attr + 32 + 4 * w.toNat + 2 * r.toNat + 1
/-- A page or table of this package's memory. -/
abbrev tablePlace (pa : Nat) : Prop := pa % 4096 = 0 ∧ pa < 0x9000000000

/-- The launch in focus is failing and its only cohort has ended where it stood (14 R368). -/
def launchFailed (u : State) (detail : Nat) : Prop :=
  u.l.stopAll = true ∧ u.l.failing = some detail ∧ u.c.done = some .stopped ∧ u.w.holds = 0#32

/-- The cohort in focus is the only one of its launch and has nothing open. -/
abbrev Alone (s : State) : Prop :=
  Solo s ∧ s.c.launch = s.l.num ∧ (∀ x ∈ s.cohorts, x.launch ≠ s.l.num) ∧ s.c.levels = [] ∧ s.c.conv = none ∧ s.c.hand = [] ∧ s.clusters = []

/-- The interface has a register page with these contents, and owns its partition (15 R391). -/
abbrev ownsPart (s : State) (vi : Nat) (v : VIface) (p : Part) : Prop :=
  s.vi? vi = some v ∧ v.owner = true ∧ v.part = some p.id ∧ s.part? p.id = some p

/-- Bytes [a, a + n) of virtual memory lie in the range of an invalidation: every address, or its pages (11 R292). -/
def inRange (x : Xinv) (a n : Nat) : Prop := x.pages = 0 ∨ (a < x.va + 4096 * x.pages ∧ x.va < a + n)

/-- The address of the conversation object that a message speaks of. -/
def messageVa (s : State) (m : ConvMsg) : Option DWord := match m with
  | .join _ _ va _ _ => some va
  | _ => (s.convs.find? fun h => h.pa == m.pa).map (·.va)
/-- Something that an entry for the range has translated is still to be performed: a tile transfer, a write held at a claimed line, an
atomic in a sheaf buffer, of the command's context, resident or saved, or a message to a conversation's home (11 R292). -/
def rangeInUse (s : State) (x : Xinv) : Prop :=
  let mine := fun launch : Nat => ∃ l, s.launch? launch = some l ∧ l.ctx = x.ctx
  let units := s.ctxs.flatMap (·.saved)
  (∃ o ∈ s.allCores.flatMap (·.seq) ++ units.flatMap (·.seq), mine o.launch ∧ ∃ p ∈ o.pages, inRange x p.1 4096)
    ∨ (∃ h ∈ s.held, (∃ c ∈ s.allCohorts ++ units.flatMap (·.cohorts), c.id = h.cid ∧ mine c.launch) ∧ inRange x (h.va.toNat / 128 * 128) 128)
    ∨ (∃ e ∈ s.allCores.flatMap (·.sheaf) ++ units.flatMap (·.sheaf), mine e.launch ∧ inRange x e.va.toNat (if e.aop = 1 then 8 else 4))
    ∨ ∃ m ∈ s.convMsgs, (∃ c, s.anyCohort m.cid = some c ∧ mine c.launch) ∧ ∃ va, messageVa s m = some va ∧ inRange x va.toNat 64

/-- Port port % 16 of partition port / 16, and the command that it runs next (16 R398). -/
abbrev portHas (s : State) (port : Nat) (q : Port) (writer : Nat) (x : DWord) (rest : List (Nat × DWord)) : Prop :=
  port % 16 < (s.window (port / 16)).ports.length ∧ s.port (port / 16) (port % 16) = q ∧ q.cmds = (writer, x) :: rest

/-- A command has ended with a result. -/
def portRan (u : State) (port : Nat) (q : Port) (rest : List (Nat × DWord)) (result : Nat) : Prop :=
  let y := u.port (port / 16) (port % 16)
  y.cmds = rest ∧ y.completed = q.completed + 1 ∧ y.result = result ∧ y.plaunch = q.plaunch ∧ y.pwid = q.pwid

/-- A command word. -/
def portWord (code index flags : Nat) : DWord := BitVec.ofNat 64 (code + 256 * index + 65536 * flags)

/-- The halted warp in focus is the one that the port selects, alone in its cohort. -/
abbrev viewed (s : State) (port : Nat) : Prop :=
  Solo s ∧ s.w.halted = true ∧ port % 16 < (s.window (port / 16)).ports.length
    ∧ portWarp s (port / 16) (s.port (port / 16) (port % 16)) = some s.w

/-- A halted warp after a debugger's RESUME: it goes on, out of a freeze that the debugger takes over too (14 R363, 16 R399). -/
def released (w : Warp) : Warp :=
  { w with halted := false, haltReq := false, stepping := false
           frozen := match w.frozen with | some (.fault t k) => if k = 4 ∨ k = 5 then none else some (.fault t k) | f => f }
/-- The fault of a freeze that a debugger has taken over is open no more. -/
def tokenClosed (w : Warp) (u : State) : Prop := ∀ t k, w.frozen = some (.fault t k) → k = 4 ∨ k = 5 → ∀ f ∈ u.faults, f.token ≠ t

/-- A word that a view write stores. -/
def lowWord (val : DWord) : Word := BitVec.ofNat 32 (val.toNat % 2 ^ 32)

/-- A mailbox command has ended with a result (17 R417). -/
def mailed (s u : State) (result : Nat) : Prop :=
  u.lan.lmAddr = s.lan.lmAddr ∧ u.lan.lmArg = s.lan.lmArg ∧ u.lan.lmQueue = s.lan.lmQueue ∧ u.lan.lmDone = s.lan.lmDone + 1
    ∧ u.lan.lmResult = result

/-- Lantern answers its mailbox at a buffer. -/
abbrev mailOpen (s : State) (addr : Nat) : Prop := s.lan.recovery = false ∧ addr % 64 = 0 ∧ addr < 2 ^ 50 ∧ memWf s.mem = true

end Sys2Proof.Ref
end

