-- ==== Sys2Proof/Certificates/Slice0/Obligations.lean ====
section
/-! DEFINITION. The statements about the machine. -/

open Sys2Proof Sys2Proof.Machine Sys2Proof.Ref

/-! Encoding and the step. -/

/-- 03 R70 R80: decoding the words of a well-formed instruction gives it back, words before the instruction included. -/
def Obligations.DecodeEncode : Prop :=
  ∀ (i : Instr) (ws : List Word), i.WellFormed → encode i = some ws → decodeGroup ws = .ok i

/-- Words written out from the encodings of chapters 03 to 08 decode to the instructions that they stand for. -/
def Sys2Proof.Parts.DecodeWords : Prop :=
  decodeGroup [0x020C2054#32] = .ok (.iadd {} ⟨.v 3, .v 4, .v 5, false, true, 0#2⟩)
  ∧ decodeGroup [0x404BCE00#32] = .ok (.icmp {} ⟨1#3, 2#4, .lid, .s 0, false, false, 0#2⟩)
  ∧ decodeGroup [0x5A204E10#32] = .ok (.ffma {} ⟨.v 8, .v 9, .s 1, false, false, 0#2⟩)
  ∧ decodeGroup [0xC6400003#32] = .ok (.bra {} ⟨1#3, false, 0#2, 3#19⟩)
  ∧ decodeGroup [0xCDE3C000#32] = .ok (.exit {} 0#2)

/-- 03 R79: a group that is no instruction raises the illegal-instruction fault at the issuing entry. -/
def Sys2Proof.Parts.IllegalGroups : Prop :=
  (∀ ws r, decodeGroup ws = .error r → groupInstr ws = .illegalInstruction)
  ∧ (∀ w : Word, w.toNat / 2 ^ 25 = 0 → groupInstr [w] = .illegalInstruction)
  ∧ (∀ a b c d : Word, a.toNat / 2 ^ 25 = 0x7F → b.toNat / 2 ^ 25 = 0x7F → c.toNat / 2 ^ 25 = 0x7F → d.toNat / 2 ^ 25 = 0x7F →
      groupInstr [a, b, c, d] = .illegalInstruction)
  ∧ (∀ s, exec .illegalInstruction s = .next (deliver s 0x01 0#64 none))

/-- Words written out from the encodings of chapters 03 to 08 decode to the instructions that they stand for.
03 R79: a group that is no instruction raises the illegal-instruction fault at the issuing entry. -/
def Obligations.WordsDecode : Prop := Parts.DecodeWords ∧ Parts.IllegalGroups

/-- A step that issues a warp runs the instruction that the words at its PC stand for, and time passes. Between the two, rebinding
writes take registers of the rebind reserve, or find none there and wait (01 R16); the issue leaves with its warp the cycles it took
and the end of a single step (16 R399 R406); a launch that has met a race does what it may, and nothing while there is none (10 R287).
An instruction that touches a register to which an atomic's old value is still to come takes a MEMORY stall (09 R442). -/
def Sys2Proof.Parts.StepOfIssue : Prop :=
  ∀ (s : State) (w : Nat) (ws : List Word) (i : Instr),
    let v := s.issueTo w
    (chooseMove s = some (.issue w) → fetchGroup v v.cur.pc.toNat = .words ws → decodeGroup ws = .ok i →
      (awaits v i = [] → step s = match exec i v with
        | .next t => .next (spoil (issueEnds v (rebound v t i.px.sos))).tick
        | .fault f => .fault f
        | .refused r => .refused r)
      ∧ (∀ t, awaits v i = [] → exec i v = .next t → rebinds v t = 0 → (∀ l ∈ (issueEnds v t).allLaunches, l.raced = false) →
        step s = .next (issueEnds v t).tick)
      ∧ (awaits v i ≠ [] → step s = .next (spoil (issueEnds v (stallWarp v i.px.sos .memory (.delivered (awaits v i))))).tick))
    ∧ (s.held = [] → awaits v i = [])
    ∧ (∀ t, exec i v = .next t →
      (inReserve v + rebinds v t ≤ 32 → (rebound v t i.px.sos).mem = t.mem ∧ (rebound v t i.px.sos).warps = t.warps)
      ∧ (32 < inReserve v + rebinds v t → rebinds v t ≠ 0 → rebound v t i.px.sos = stallWarp v i.px.sos .rebind (.reserve (rebinds v t))))
/-- What a step fetches: the little-endian words at consecutive addresses of the code section, while the TLB holds their page, a route
leads to it, no debug window covers it and no agent has the line modified; of a travelling launch those of the segment pinned at the
core (13 R347). -/
def Sys2Proof.Parts.FetchReadsCode : Prop :=
  ∀ (s : State) (pc : Nat), inCode s.l pc = true →
    (∀ pa attr, transl s (codeVa s.l pc) { fetch := true } = some (pa, attr) → pinnedSeg s = none →
      agentsAgainst s (localPa s pa / 128) false = [] → routed s [localPa s pa / 128] = true → (∀ x ∈ s.parts, x.debugWin = none) →
      isPxWord (BitVec.ofNat 32 (leNat ((List.range 4).map fun i => homeByte s (localPa s pa + i)))) = false →
      fetchGroup s pc = .words [BitVec.ofNat 32 (leNat ((List.range 4).map fun i => homeByte s (localPa s pa + i)))])
    ∧ (∀ g, pinnedSeg s = some g → g.start ≤ pc → pc + 4 ≤ g.start + g.len →
      isPxWord (BitVec.ofNat 32 (fieldLe g.bytes (pc - g.start) 4)) = false →
      fetchGroup s pc = .words [BitVec.ofNat 32 (fieldLe g.bytes (pc - g.start) 4)])
/-- A step that issues a warp runs the instruction that the words at its PC stand for, and time passes; between the two come the rebind
reserve, the end of a single step, and what a launch that has met a race may do. An instruction that touches a register to which an
atomic's old value is still to come waits.
What a step fetches: the little-endian words at consecutive addresses of the code section, while the TLB holds their page, a route
leads to it, no debug window covers it and no agent has the line modified; of a travelling launch those of the segment pinned at the
core.
It rests on the model's own readings and choices of logs 1, 4, 41, 55, 60, 70. -/
def Obligations.StepRunsDecoded : Prop := Parts.StepOfIssue ∧ Parts.FetchReadsCode

/-! Memory and reset. -/

/-- Every step keeps the canonical form of memory.
It rests on the model's own readings and choices of log 3. -/
def Obligations.MemoryStaysCanonical : Prop :=
  ∀ s t : State, memWf s.mem = true → step s = .next t → memWf t.mem = true

/-- What is there after a cold reset: memory in canonical form, 64 interfaces with their registers at 0, no measurement, nothing queued, nothing running; the
stretches of memory that no partition holds are scrubbed (15 R391 R394, 17 R413 R416). Memory that reads 0 is the model's choice (log 3),
and so is a device without a partition (log 2). -/
def Obligations.ResetState : Prop :=
  memWf State.reset.mem = true ∧ (∀ a, memGet State.reset.mem a = 0#8) ∧ State.reset.vis = (List.range 64).map (fun i => { id := i })
  ∧ State.reset.allWarps = [] ∧ State.reset.allCohorts = [] ∧ State.reset.allLaunches = [] ∧ State.reset.parts = [] ∧ State.reset.ctxs = []
  ∧ State.reset.claims = [] ∧ State.reset.held = [] ∧ State.reset.lan.meas = List.replicate 8 (List.replicate 32 0#8)
  ∧ State.reset.lan.lmAddr = 0 ∧ State.reset.lan.lmArg = 0 ∧ State.reset.lan.lmDone = 0 ∧ State.reset.lan.lmNonce = List.replicate 32 0#8

/-! Instructions that compute lanes (chapters 04 and 05). -/

/-- 04 R85 R90 to R96, 05 R134 R147 R149: what the integer rows write, for every operand form that can be read and written.
That the lanes left out of a write to a name killed in the same group read 0 is the model's reading (log 23). -/
def Obligations.IntegerLaneResult : Prop :=
  ∀ (s : State) (i : Instr) (o : LaneOp) (vs : List VReg) (t u v : State),
    intOp s i = some o → o.reads s = .ok (vs, t) →
    writeD t o.d o.mask (lanesOf fun l => (o.fn vs l).1) = .ok u → advance o.p u = .ok v →
    exec i s = .next (finish v)

/-- 05 R123 to R142: what the floating rows write, and the flags of the active lanes that accumulate. -/
def Sys2Proof.Parts.FloatLaneResult : Prop :=
  ∀ (s : State) (i : Instr) (o : LaneOp) (vs : List VReg) (t u v w : State),
    floatOp s i = some o → o.reads s = .ok (vs, t) →
    writeD t o.d o.mask (lanesOf fun l => (o.fn vs l).1) = .ok u → raiseFlags u (laneFlags o.mask fun l => (o.fn vs l).2) = .ok v →
    advance o.p v = .ok w → exec i s = .next (finish w)

/-- 05 R137 R138: an SFU instruction that the governor lets approximate completes as well, and a trace record is offered. -/
def Sys2Proof.Parts.SfuApproximate : Prop :=
  ∀ (s : State) (p : Px) (f : UForm) (n : BitVec 3), p.approx = some n → apxDepth s n.toNat ≠ 0 → s.depth = 0 → Ready s p →
    plainSource f.a = true → landsIn (killed s [(f.a, f.ka)]) (s.active p f.g) f.d = true →
    ∀ x ∈ [(Instr.rcp p f, 0), (.rsq p f, 1), (.sqrt p f, 2), (.exp2 p f, 3), (.log2 p f, 4), (.sin p f, 5), (.cos p f, 6), (.tanh p f, 7)],
      let r := fun l => sfu x.2 (apxDepth s n.toNat) (fenv s p) ((slotValue s p 0 f.a).get l)
      exec x.1 s = done p (traceRec (flagged (landed (killed s [(f.a, f.ka)]) (s.active p f.g) (lanesOf fun l => (r l).1) f.d)
        (laneFlags (s.active p f.g) fun l => (r l).2)) 4 0 (apxDepth s n.toNat) 0 0#32)

/-- 05 R137: the exact cases of the SFU table, at every depth. -/
def Sys2Proof.Parts.SfuExactCases : Prop :=
  ∀ (d : Nat) (v : FEnv),
    sfu 0 d v 0x00000000#32 = (0x7F800000#32, flDZ) ∧ sfu 0 d v 0x80000000#32 = (0xFF800000#32, flDZ)
    ∧ sfu 0 d v 0x7F800000#32 = (0#32, noFlags) ∧ sfu 0 d v 0xFF800000#32 = (0x80000000#32, noFlags)
    ∧ sfu 1 d v 0x00000000#32 = (0x7F800000#32, flDZ) ∧ sfu 1 d v 0x80000000#32 = (0xFF800000#32, flDZ)
    ∧ sfu 1 d v 0x7F800000#32 = (0#32, noFlags) ∧ sfu 2 d v 0x80000000#32 = (0x80000000#32, noFlags)
    ∧ sfu 2 d v 0x7F800000#32 = (0x7F800000#32, noFlags) ∧ sfu 3 d v 0xFF800000#32 = (0#32, noFlags)
    ∧ sfu 3 d v 0x80000000#32 = (0x3F800000#32, noFlags) ∧ sfu 4 d v 0x00000000#32 = (0xFF800000#32, flDZ)
    ∧ sfu 4 d v 0x3F800000#32 = (0#32, noFlags) ∧ sfu 5 d v 0x80000000#32 = (0x80000000#32, noFlags)
    ∧ sfu 5 d v 0x7F800000#32 = (0x7FC00000#32, flNV) ∧ sfu 6 d v 0x00000000#32 = (0x3F800000#32, noFlags)
    ∧ sfu 7 d v 0xFF800000#32 = (0xBF800000#32, noFlags)
    ∧ (∀ op x, op < 8 → x.toNat % 2 ^ 31 > 0x7F800000 → (sfu op d v x).1 = 0x7FC00000#32
        ∧ (sfu op d v x).2 = if x.getLsbD 22 then noFlags else flNV)

/-- 05 R123 to R142: what the floating rows write, and the flags of the active lanes that accumulate.
05 R137 R138: an SFU instruction that the governor lets approximate completes as well, and a trace record is offered.
05 R137: the exact cases of the SFU table, at every depth.
It rests on the model's own readings and choices of logs 5, 21, 23. -/
def Obligations.FloatResults : Prop := Parts.FloatLaneResult ∧ Parts.SfuApproximate ∧ Parts.SfuExactCases

/-- Outside recovery levels an instruction of either table completes on every plain operand form, with this next state and no
other change.
It rests on the model's own readings and choices of log 23. -/
def Obligations.LaneCompletes : Prop :=
  ∀ (s : State) (i : Instr) (o : LaneOp),
    (intOp s i = some o ∨ floatOp s i = some o) → s.depth = 0 → Ready s o.p →
    (∀ x ∈ o.srcs, plainSource x.1 = true) → (o.readsD = true → plainSource o.d = true) →
    landsIn (killed s o.srcs) o.mask o.d = true →
    exec i s = done o.p (flagged (landed (killed s o.srcs) o.mask (lanesOf fun l => (o.fn (o.values s) l).1) o.d)
      (laneFlags o.mask fun l => (o.fn (o.values s) l).2))

/-- The frame of the same instructions, levels open or not: a fault, a failed level and a stall leave the group without effect,
and otherwise only the destination, the killed names, FPFLAGS, the log and the issuing entry change. -/
def Obligations.LaneFrame : Prop :=
  ∀ (s t : State) (i : Instr) (o : LaneOp),
    (intOp s i = some o ∨ floatOp s i = some o) →
    (∀ x ∈ o.srcs, plainSource x.1 = true) → plainSource o.d = true → exec i s = .next t →
    (∃ code, t = deliver s code 0#64 none) ∨ (∃ cause, t = failAt s s.depth cause 0 0) ∨ (∃ k c, t = stallWarp s o.p.sos k c)
    ∨ (onlyLanes s t ∧ (∀ a, memGet t.mem a = memGet s.mem a)
      ∧ (∀ j, (∀ n : Fin 16, o.d = .s n → j ≠ n.val) → t.w.sregs.getD j 0#32 = s.w.sregs.getD j 0#32)
      ∧ (o.d ≠ .lnk → t.w.lnk = s.w.lnk)
      ∧ (∀ a, (∀ n : Fin 96, o.d = .v n ∨ (.v n, true) ∈ o.srcs → isShadow s n.val = true ∨ a ≠ absName s n.val) →
          boundReg t a = boundReg s a)
      ∧ (∀ (n : Fin 96) (l : Nat), o.d = .v n → l < 32 → o.mask.has l = false → (.v n, true) ∉ o.srcs →
          (readV t n.val).get l = (readV s n.val).get l))

/-- 06 R176: an unbound queue register raises QUEUE.UNBOUND, a wrong direction QUEUE.DIR; a fibre queue gives its oldest entry and
takes an entry while it holds fewer than 4; the warp waits otherwise.
It rests on the model's own readings and choices of log 56. -/
def Obligations.QueueForms : Prop :=
  ∀ (s : State) (q : Nat),
    (s.w.qbind.getD q none = none → qpop s q = .error (.fault 0x18 0#64 none)
      ∧ ∀ m v, qpush s q m v = .error (.fault 0x18 0#64 none))
    ∧ (∀ k, s.w.qbind.getD q none = some k → k.canPop = false → qpop s q = .error (.fault 0x19 0#64 none))
    ∧ (∀ k m v, s.w.qbind.getD q none = some k → k.canPush = false → qpush s q m v = .error (.fault 0x19 0#64 none))
    ∧ (∀ n x xs, s.w.qbind.getD q none = some (.fibre n) → s.sl.fq.getD n [] = x :: xs → earlierWaiter s (.fibre n) false = false →
        qpop s q = .ok (x, { s with sl := { s.sl with fq := s.sl.fq.set n xs } }))
    ∧ (∀ n, s.w.qbind.getD q none = some (.fibre n) → s.sl.fq.getD n [] = [] →
        qpop s q = .error (.stall .queue (.queue (.fibre n) false 1)))
    ∧ (∀ n m v, s.w.qbind.getD q none = some (.fibre n) → (s.sl.fq.getD n []).length < 4 → n < s.sl.fq.length →
        earlierWaiter s (.fibre n) true = false → (∀ h ∈ s.held, h.warp ≠ s.w.id) →
        qpush s q m v = .ok { s with sl := { s.sl with fq := s.sl.fq.set n (s.sl.fq.getD n [] ++ [v]) } })
    ∧ (∀ n m v, s.w.qbind.getD q none = some (.fibre n) → 4 ≤ (s.sl.fq.getD n []).length →
        qpush s q m v = .error (.stall .queue (.queue (.fibre n) true 1)))

/-- 09 R252 R253: the first write of a name at an open level logs its old binding, a later one logs nothing more. -/
def Sys2Proof.Parts.FirstWriteLogged : Prop :=
  ∀ (s : State) (n : Nat) (m : Mask) (v : VReg) (x : Level) (xs : List Level),
    s.w.handler = false → s.c.levels = x :: xs → isShadow s n = false → m ≠ 0#32 →
    (boundReg s (absName s n)).isSome = true →
    let e := LogEntry.reg s.w.id (absName s n) (boundReg s (absName s n))
    let merged := mergeLanes m ((boundReg s (absName s n)).getD zeros) v
    (logged s x e = true → writeV s n m v = .ok (bindReg s (absName s n) merged))
    ∧ (∀ ovf k, logged s x e = false → huskPlace s x 8 = some (ovf, k) → freePool s ≠ 0 →
      ∃ t, writeV s n m v = .ok t
        ∧ t.c.levels = { x with log := x.log ++ [e], overs := x.overs ++ [ovf], chunks := x.chunks + k } :: xs
        ∧ boundReg t (absName s n) = some merged)
    ∧ (logged s x e = false → (huskPlace s x 8 = none ∨ freePool s = 0) → writeV s n m v = .error (.fail 4 0))
/-- 09 R256 R442: a write or an atomic that waited at a claimed line is performed when no claim stands any more: its bytes and no others
change, and the old value comes to the register that waits for it. While another cohort's claim stands on the line nothing happens. -/
def Sys2Proof.Parts.HeldWrites : Prop :=
  ∀ (s : State) (h : HeldWrite), s.held = [h] → h.depth = 0 → s.stashOwners = [] → (∀ c ∈ s.allCohorts, c.stash = []) → memWf s.mem = true →
    s.hostWait = [] → engineQueues s = [] → routed s [h.line] = true →
    (s.claims = [] → s.dir = [] → h.atoms = [] → (h.bytes.map (·.1)).Nodup → ∃ t, exec (.heldWritePerform 0) s = .next t ∧ t.held = []
      ∧ (∀ b ∈ h.bytes, memGet t.mem b.1 = b.2) ∧ (∀ a, a ∉ h.bytes.map (·.1) → memGet t.mem a = memGet s.mem a))
    ∧ (∀ a, s.claims = [] → s.dir = [] → s.marks = [] → h.atoms = [a] →
      let old := leNat (memGets s.mem a.pa (atomicBytes a.aop))
      ∃ t, exec (.heldWritePerform 0) s = .next t ∧ t.held = []
        ∧ t.mem = memPuts s.mem (placed a.pa (leBytes (atomicBytes a.aop) (atomicResult a.aop old a.b.toNat a.b2.toNat)))
        ∧ (∀ n v, s.w.resident = true → h.warp = s.w.id → n < 448 → assoc n s.w.regs = some v → h.dest = [.reg n] →
          t.w.regs = if a.gives then assocPut n (lanesOf fun j => if j = a.lane then BitVec.ofNat 32 old else v.get j) s.w.regs
            else s.w.regs))
    ∧ (∀ x ∈ s.claims, x.line = h.line → x.cid ≠ h.cid → x.conv = none → exec (.heldWritePerform 0) s = .next s)
/-- 09 R252 R253: the first write of a name at an open level logs its old binding, a later one logs nothing more.
09 R256 R442: a write or an atomic that waited at a claimed line is performed when no claim stands any more, and not before; the old
value comes to the register that waits for it.
It rests on the model's own readings and choices of log 70. -/
def Obligations.LogsAndHeldWrites : Prop := Parts.FirstWriteLogged ∧ Parts.HeldWrites

/-- 04 R87 R90 R94: pair arithmetic modulo 2^64, low half in the first register, outside recovery levels. -/
def Sys2Proof.Parts.PairResult : Prop :=
  ∀ (s : State) (i : Instr) (o : PairOp), pairOp s i = some o → s.depth = 0 → Ready s o.p → o.ok = true →
    landsAll (killed s o.kills) o.mask o.d (twoWords o.fn) = true →
    exec i s = done o.p (landedAll (killed s o.kills) o.mask o.d (twoWords o.fn))

/-- 05 R148 R151 R152: scans combine the active lanes below a lane with it, XWR delivers the highest sender's value; D is a vector. -/
def Sys2Proof.Parts.CrossLaneResult : Prop :=
  ∀ (s : State) (i : Instr) (o : LaneOp), crossOp s i = some o → s.depth = 0 → Ready s o.p → o.d.isV = true →
    (∀ x ∈ o.srcs, plainSource x.1 = true) → landsIn (killed s o.srcs) o.mask o.d = true →
    exec i s = done o.p (flagged (landed (killed s o.srcs) o.mask (lanesOf fun l => (o.fn (o.values s) l).1) o.d)
      (laneFlags o.mask fun l => (o.fn (o.values s) l).2))

/-- 04 R87 R90 R94: pair arithmetic modulo 2^64, low half in the first register, outside recovery levels.
05 R148 R151 R152: scans combine the active lanes below a lane with it, XWR delivers the highest sender's value; D is a vector.
It rests on the model's own readings and choices of logs 20, 22, 23. -/
def Obligations.PairAndCrossLaneResults : Prop := Parts.PairResult ∧ Parts.CrossLaneResult

/-- 04 R97, 05 R132 R133: a compare writes its predicates in the active lanes and accumulates its flags. -/
def Sys2Proof.Parts.CompareResult : Prop :=
  ∀ (s : State) (i : Instr) (o : CompareOp), compareOp s i = some o → s.depth = 0 → Ready s o.p → o.ok = true →
    (∀ x ∈ o.srcs, plainSource x.1 = true) →
    exec i s = done o.p (flagged (o.fns.foldl (fun t x => predicated t x.1 o.mask fun l => (o.bits s x.2 l).1) (killed s o.srcs))
      (laneFlags o.mask fun l => o.fns.foldl (fun fl x => fl ||| (o.bits s x.2 l).2) noFlags))

/-- 04 R98 to R103: SEL, PLOG, VOTE, BALLOT and both directions of PMOV, on every lane of the entry that holds a thread. -/
def Sys2Proof.Parts.PredicateResult : Prop :=
  ∀ (s : State) (p : Px), s.depth = 0 → Ready s p →
    (∀ f : SelForm, plainSource f.a = true → plainSource f.b = true → landsIn s s.lanes f.d = true →
      exec (.sel p f) s = done p (landed s s.lanes (lanesOf fun l =>
        if (s.w.preds.getD f.pn.toNat 0#32).has l then (sourceOf s f.a).get l else (sourceOf s f.b).get l) f.d))
    ∧ (∀ (pn : BitVec 3) (a : Opnd), plainSource a = true →
      exec (.plog p pn a) s = done p (predicated s pn.toNat s.lanes fun l =>
        let x := ((sourceOf s a).get l).toNat
        let bit := fun i => ((s.w.preds.getD (x / 2 ^ i % 8) 0#32).has l).toNat
        x.testBit (4 * bit 8 + 2 * bit 12 + bit 16)))
    ∧ (∀ (pn : BitVec 3) (d : Opnd), landsIn s s.lanes d = true →
      exec (.vote p pn d) s = done p (landed s s.lanes (splat (
        let bits := s.lanes.lanes.map fun l => (s.w.preds.getD pn.toNat 0#32).has l
        ofN ((bits.any id).toNat + 2 * (bits.all id).toNat + 4 * (bits.all id || !bits.any id).toNat))) d))
    ∧ (∀ (pn : BitVec 3) (d : Opnd), landsIn s s.lanes d = true →
      exec (.ballot p pn d) s = done p (landed s s.lanes (splat (maskOf fun l => s.lanes.has l && (s.w.preds.getD pn.toNat 0#32).has l)) d))
    ∧ (∀ (pn : BitVec 3) (d : Opnd), landsIn s s.lanes d = true →
      exec (.pmov p pn d) s = done p (landed s s.lanes (lanesOf fun l => ofN ((s.w.preds.getD pn.toNat 0#32).has l).toNat) d))
    ∧ (∀ (pn : BitVec 3) (a b : Opnd), plainSource a = true → plainSource b = true →
      exec (.pmovPred p pn a b) s = done p (predicated s pn.toNat s.lanes fun l =>
        ((sourceOf s a).get l).toNat.testBit (((sourceOf s b).get l).toNat % 32)))

/-- 04 R98 R101 R102: VOTE and BALLOT give every lane that holds a thread one word, wherever D is and however deep the levels. -/
def Sys2Proof.Parts.LaneWords : Prop :=
  ∀ (s u v : State) (p : Px) (pn : BitVec 3) (d : Opnd), writable d = .ok () → advance p u = .ok v →
    let bits := s.lanes.lanes.map fun l => (s.w.preds.getD pn.toNat 0#32).has l
    (writeD s d s.lanes (splat (ofN ((bits.any id).toNat + 2 * (bits.all id).toNat + 4 * (bits.all id || !bits.any id).toNat))) = .ok u →
      exec (.vote p pn d) s = .next (finish v))
    ∧ (writeD s d s.lanes (splat (maskOf fun l => s.lanes.has l && (s.w.preds.getD pn.toNat 0#32).has l)) = .ok u →
      exec (.ballot p pn d) s = .next (finish v))

/-- 04 R97, 05 R132 R133: a compare writes its predicates in the active lanes and accumulates its flags.
04 R98 to R103: SEL, PLOG, VOTE, BALLOT and both directions of PMOV, on every lane of the entry that holds a thread.
04 R98 R101 R102: VOTE and BALLOT give every lane that holds a thread one word, wherever D is and however deep the levels. -/
def Obligations.PredicateResults : Prop := Parts.CompareResult ∧ Parts.PredicateResult ∧ Parts.LaneWords

/-- 05 R144 to R146: QNT packs the quantised elements of its registers and DEQ delivers one element, by the lane's descriptor. -/
def Sys2Proof.Parts.Quantise : Prop :=
  ∀ (s : State) (p : Px) (f : RForm), s.depth = 0 → Ready s p → plainSource f.b = true →
    let m := s.active p f.g
    let desc := slotValue s p 1 f.b
    (∀ l ∈ m.lanes, goodDesc (desc.get l) = true) →
    (∀ n : Fin 96, f.a = .v n → n.val % 4 = 0 → (∀ l ∈ m.lanes, smallElems (desc.get l) = true → n.val % 8 = 0) →
      let names := if m.lanes.any fun l => smallElems (desc.get l) then 8 else 4
      let gone := killed s ((List.range names).map (fun i => (Opnd.ofNat (n.val + i), f.ka)) ++ [(f.b, f.kb)])
      landsIn gone m f.d = true →
      exec (.qnt p f) s = done p (landed gone m (lanesOf fun l =>
        let d := desc.get l
        let k := if smallElems d then 8 else 4
        packElems (32 / k) ((List.range k).map fun i =>
          quantElem (f32.read false ((permuted s f.a (permOf p 0).1 (permOf p 0).2 (readV s (n.val + i))).get l).toNat)
            (d.toNat % 256) (d.toNat / 256 % 16) (d.toNat / 4096 % 4 == 1) (d.getLsbD 14))) f.d))
    ∧ (plainSource f.a = true →
      (∀ l ∈ m.lanes, smallElems (desc.get l) = true ∨ (desc.get l).toNat / 2 ^ 16 % 8 < 4) →
      landsIn (killed s [(f.a, f.ka), (f.b, f.kb)]) m f.d = true →
      exec (.deq p f) s = done p (landed (killed s [(f.a, f.ka), (f.b, f.kb)]) m (lanesOf fun l =>
        let d := desc.get l
        let k := if smallElems d then 4 else 8
        ofN (dequant (((slotValue s p 0 f.a).get l).toNat / 2 ^ (k * (d.toNat / 2 ^ 16 % 8)) % 2 ^ k) (d.toNat / 256 % 16) (d.toNat % 256)
          (d.toNat / 4096 % 4 == 1) (d.getLsbD 14))) f.d))

/-- 05 R145: an active lane whose descriptor has a format code of 5 or more or a rounding code of 2 or 3, for QNT a 4-bit format while
N is not a multiple of 8, for DEQ an element index of 4 to 7 with an 8-bit format, raises QNT.DESC before any lane writes; the fault
names the lanes. -/
def Sys2Proof.Parts.QuantiseFault : Prop :=
  ∀ (s : State) (p : Px) (f : RForm), plainSource f.b = true → writable f.d = .ok () →
    let m := s.active p f.g
    let desc := slotValue s p 1 f.b
    (∀ n : Fin 96, f.a = .v n → n.val % 4 = 0 →
      let bad := maskOf fun l => m.has l && (!goodDesc (desc.get l) || (smallElems (desc.get l) && n.val % 8 != 0))
      bad ≠ 0#32 → exec (.qnt p f) s = .next (deliver s 0x2C 0#64 (some bad)))
    ∧ (plainSource f.a = true →
      let bad := maskOf fun l => m.has l && (!goodDesc (desc.get l) || (!smallElems (desc.get l) && decide (4 ≤ (desc.get l).toNat / 2 ^ 16 % 8)))
      bad ≠ 0#32 → exec (.deq p f) s = .next (deliver s 0x2C 0#64 (some bad)))

/-- 05 R144 to R146: QNT packs the quantised elements of its registers and DEQ delivers one element, by the lane's descriptor.
05 R145: a bad descriptor of an active lane raises QNT.DESC before any lane writes; the fault names the lanes.
It rests on the model's own readings and choices of log 23. -/
def Obligations.QuantiseResult : Prop := Parts.Quantise ∧ Parts.QuantiseFault

/-! Memory instructions (chapter 06). -/

/-- 06 R154 to R160: LDG delivers the little-endian bytes at the lane's address, extended by its size; memory does not change.
It rests on the model's own readings and choices of logs 23, 70. -/
def Obligations.LoadGlobal : Prop :=
  ∀ (s : State) (p : Px) (f : MForm), PlainMem s → Ready s p → f.sz ≠ 7#3 → addressForm f.wa f.a = true → dataForm f.sz f.t = true →
    let m := s.active p f.g
    let addr := address s f.wa f.sb f.a
    let words := extended f.sz fun l => numberAt s { rd := true } (addr l) (sizeBytes f.sz)
    reachable s m addr (sizeBytes f.sz) { rd := true } → landsAll (killed s (addressNames f.wa f.a f.ka)) m f.t words = true →
    ∃ u, onlyMemory s u ∧ u.mem = s.mem
      ∧ exec (.ldg p f) s = done p (landedAll (killed u (addressNames f.wa f.a f.ka)) m f.t words)

/-- 06 R154 to R159: STG stores the low bytes of its data operand at the places of the lane's address, the highest lane prevailing;
no other byte changes, and no register but the killed names.
It rests on the model's own readings and choices of log 70. -/
def Obligations.StoreGlobal : Prop :=
  ∀ (s : State) (p : Px) (f : MForm), PlainMem s → Ready s p → f.sz ≠ 7#3 → f.sz ≠ 1#3 → f.sz ≠ 3#3 →
    addressForm f.wa f.a = true → dataForm f.sz f.t = true →
    let m := s.active p f.g
    let addr := address s f.wa f.sb f.a
    let names := group (sizeWords f.sz) f.t
    reachable s m addr (sizeBytes f.sz) { wr := true } →
    ∃ u, onlyMemory s u ∧ exec (.stg p f) s = done p (killed u (addressNames f.wa f.a f.ka ++ names.map fun o => (o, f.kt)))
      ∧ (∀ l ∈ m.lanes, ∀ i < sizeBytes f.sz, ∀ pa, place s { wr := true } (addr l + BitVec.ofNat 64 i) = some pa →
          lastAt s m addr (sizeBytes f.sz) l i → memGet u.mem pa = BitVec.ofNat 8 (groupNumber s names l / 2 ^ (8 * i)))
      ∧ (∀ a, (∀ l ∈ m.lanes, ∀ i < sizeBytes f.sz, place s { wr := true } (addr l + BitVec.ofNat 64 i) ≠ some a) →
          memGet u.mem a = memGet s.mem a)

/-- 06 R157 to R159: LDS and STS on the cohort's shared memory, where no stash mapping stands; global memory does not change.
It rests on the model's own readings and choices of logs 23, 70. -/
def Obligations.SharedAccess : Prop :=
  ∀ (s : State) (p : Px) (f : MForm), PlainMem s → Ready s p → f.sz ≠ 7#3 → plainSource f.a = true → dataForm f.sz f.t = true →
    let m := s.active p f.g
    let off := sharedOffset s f.sb f.a
    let n := sizeBytes f.sz
    let words := extended f.sz fun l => leNat (memGets s.c.shared (off l) n)
    let names := group (sizeWords f.sz) f.t
    (∀ l ∈ m.lanes, off l + n ≤ s.c.sharedSize) →
    (landsAll (killed s [(f.a, f.ka)]) m f.t words = true →
      ∃ u, onlyMemory s u ∧ u.mem = s.mem ∧ exec (.lds p f) s = done p (landedAll (killed u [(f.a, f.ka)]) m f.t words))
    ∧ (f.sz ≠ 1#3 → f.sz ≠ 3#3 →
      let shared := memPuts s.c.shared (m.lanes.flatMap fun l => placed (off l) (leBytes n (groupNumber s names l)))
      exec (.sts p f) s = done p (killed { s with c := { s.c with shared := shared } } ((f.a, f.ka) :: names.map fun o => (o, f.kt))))

/-- 06 R161: LDC loads one value for the warp into a uniform destination; without an active lane it does nothing. -/
def Sys2Proof.Parts.LoadConstant : Prop :=
  ∀ (s : State) (p : Px) (f : MForm), PlainMem s → Ready s p → f.sz ≠ 7#3 → (f.a.isS = true ∨ f.a = .zero) → addressForm f.wa f.a = true →
    dataForm f.sz f.t = true → (f.t.isS = true ∨ f.t = .zero) →
    let m := s.active p f.g
    let addr := address s f.wa f.sb f.a
    let words := extended f.sz fun _ => numberAt s { rd := true } (addr 0) (sizeBytes f.sz)
    reachable s m addr (sizeBytes f.sz) { rd := true } →
    (m = 0#32 → exec (.ldc p f) s = done p s)
    ∧ ∃ u, onlyMemory s u ∧ u.mem = s.mem ∧ exec (.ldc p f) s = done p (landedAll u m f.t words)

/-- 06 R162: PREF writes no register, changes no memory and raises no address fault, wherever its addresses lie; a line that is not
canonical, mapped or permitted is dropped. A mapped page that is not in the TLB, one of another partition, and one whose entries an
agent holds, is walked for first (11 R288 R291, 14 R368). -/
def Sys2Proof.Parts.Prefetch : Prop :=
  ∀ (s : State) (p : Px) (f : PrefForm), s.depth = 0 → Ready s p → addressForm f.wa f.a = true →
    let addr := address s f.wa f.sb f.a
    let wanted := fun x => ∃ l ∈ (s.active p f.g).lanes, (x = addr l ∨ x = addr l + 127#64) ∧ canonVa x = true
    let absent := fun x => transl s x { rd := true } = none ∧ (askFor s (walkReads s s.l.ctx [x]) ≠ none
      ∨ (∃ e, walkOwned s s.l x { rd := true } = .page e) ∨ walkOwned s s.l x { rd := true } = .bad 7)
    ((∀ x, wanted x → ¬ absent x) →
      ∃ u, prefetched s u ∧ exec (.pref p f) s = done p (killed u (addressNames f.wa f.a f.ka)))
    ∧ ((∃ x, wanted x ∧ absent x) →
      ∃ x, wanted x ∧ absent x ∧ exec (.pref p f) s = .next (stallWarp s p.sos .memory (.xlate x { rd := true } [] 1 prefSource)))

/-- 06 R161: LDC loads one value for the warp into a uniform destination; without an active lane it does nothing.
06 R162: PREF writes no register, changes no memory and raises no address fault, wherever its addresses lie; a mapped page that is not
in the TLB is walked for first.
It rests on the model's own readings and choices of log 10. -/
def Obligations.ConstantsAndPrefetch : Prop := Parts.LoadConstant ∧ Parts.Prefetch

/-- 06 R163 to R165: a global atomic acts lane after lane in ascending order on the value that the lane before left; ATG delivers the
value that each lane saw. -/
def Sys2Proof.Parts.GlobalAtomics : Prop :=
  ∀ (s : State) (p : Px) (a b : Opnd) (aop : BitVec 4), PlainMem s → Ready s p → s.l.det = false → evenOperand a = true →
    atomicForm aop.toNat b = true →
    let m := lanesA s p
    let n := atomicBytes aop.toNat
    let addr := address s true 0#3 a
    let places := m.lanes.map fun l => (l, (place s { atomic := true } (addr l)).getD 0)
    let chain := atomicChain aop.toNat n (atomicValue s aop.toNat b) s.mem places
    let words := atomicWords aop.toNat fun l => (assoc l chain.1).getD 0
    reachable s m addr n { atomic := true } → (∀ l ∈ m.lanes, (addr l).toNat % n = 0) →
    ∃ u, onlyMemory s u ∧ u.mem = chain.2 ∧ exec (.redg p ⟨a, b, aop⟩) s = done p u
      ∧ ∀ d, atomicDest aop.toNat d = true → landsAll s m d words = true →
          ∃ v, onlyMemory s v ∧ v.mem = chain.2 ∧ exec (.atg p ⟨d, a, b, aop⟩) s = done p (landedAll v m d words)

/-- 06 R163 to R165: ATS on shared memory. -/
def Sys2Proof.Parts.SharedAtomics : Prop :=
  ∀ (s : State) (p : Px) (f : AForm), PlainMem s → Ready s p → plainSource f.a = true → atomicForm f.aop.toNat f.b = true →
    atomicDest f.aop.toNat f.d = true →
    let m := lanesA s p
    let n := atomicBytes f.aop.toNat
    let off := fun l => ((sourceOf s f.a).get l).toNat
    let chain := atomicChain f.aop.toNat n (atomicValue s f.aop.toNat f.b) s.c.shared (m.lanes.map fun l => (l, off l))
    let words := atomicWords f.aop.toNat fun l => (assoc l chain.1).getD 0
    (∀ l ∈ m.lanes, off l + n ≤ s.c.sharedSize ∧ off l % n = 0) → landsAll s m f.d words = true →
    ∃ u, u = { s with c := { s.c with shared := chain.2 }, k := { s.k with l1 := u.k.l1 }
                      w := { s.w with hostSeen := u.w.hostSeen, hostPend := u.w.hostPend } }
      ∧ exec (.ats p f) s = done p (landedAll u m f.d words)

/-- 06 R166: in a deterministic launch an ATG that delivers its old value raises DET.ATOMIC; otherwise the lanes enter the sheaf
and memory keeps its bytes. -/
def Sys2Proof.Parts.DeterministicAtomics : Prop :=
  ∀ (s : State) (p : Px) (a b d : Opnd) (aop : BitVec 4), s.l.det = true → evenOperand a = true → atomicForm aop.toNat b = true →
    atomicDest aop.toNat d = true → plainSource d = true → d ≠ .lid → d ≠ .ctl →
    (d ≠ .zero → exec (.atg p ⟨d, a, b, aop⟩) s = .next (deliver s 0x30 0#64 none))
    ∧ (PlainMem s → Ready s p → s.k.sheaf = [] →
      let m := lanesA s p
      let addr := address s true 0#3 a
      reachable s m addr (atomicBytes aop.toNat) { atomic := true } → (∀ l ∈ m.lanes, (addr l).toNat % atomicBytes aop.toNat = 0) →
      ∃ u, u.mem = s.mem ∧ u = { s with marks := u.marks, k := { s.k with sheaf := u.k.sheaf } }
        ∧ (∀ x ∈ u.k.sheaf, x.launch = s.l.num ∧ x.aop = aop.toNat ∧ ∃ l ∈ m.lanes, place s { atomic := true } (addr l) = some x.pa)
        ∧ (∀ l ∈ m.lanes, ∃ x ∈ u.k.sheaf, place s { atomic := true } (addr l) = some x.pa)
        ∧ exec (.redg p ⟨a, b, aop⟩) s = done p u ∧ exec (.atg p ⟨.zero, a, b, aop⟩) s = done p u)

/-- 06 R163 to R165: a global atomic acts lane after lane in ascending order on the value that the lane before left; ATG delivers the
value that each lane saw.
06 R163 to R165: ATS on shared memory.
06 R166: in a deterministic launch an ATG that delivers its old value raises DET.ATOMIC; otherwise the lanes enter the sheaf
and memory keeps its bytes.
It rests on the model's own readings and choices of log 70. -/
def Obligations.Atomics : Prop := Parts.GlobalAtomics ∧ Parts.SharedAtomics ∧ Parts.DeterministicAtomics

/-- 06 R158 R164: an address that is not canonical raises ADDR.CANON, a shared byte outside the allocation SHARED.RANGE and a
misaligned atomic ADDR.ALIGN; the fault names the lanes that meet the condition and the lowest one's address, and acts on the state
before the group. -/
def Obligations.AddressFaults : Prop :=
  ∀ (s : State) (p : Px) (l : Nat),
    (∀ f : MForm, f.sz ≠ 7#3 → f.sz ≠ 1#3 → f.sz ≠ 3#3 → addressForm f.wa f.a = true → dataForm f.sz f.t = true → f.t ≠ .lid → f.t ≠ .ctl →
      let addr := address s f.wa f.sb f.a
      let bad := maskOf fun k => (s.active p f.g).has k && !canonRange (addr k) (sizeBytes f.sz)
      bad.lowest = some l →
      exec (.ldg p f) s = .next (deliver s 0x20 (addr l) (some bad) { rd := true })
        ∧ exec (.stg p f) s = .next (deliver s 0x20 (addr l) (some bad) { wr := true }))
    ∧ (∀ f : MForm, f.sz ≠ 7#3 → f.sz ≠ 1#3 → f.sz ≠ 3#3 → plainSource f.a = true → dataForm f.sz f.t = true → f.t ≠ .lid → f.t ≠ .ctl →
      let off := sharedOffset s f.sb f.a
      let bad := maskOf fun k => (s.active p f.g).has k && decide (s.c.sharedSize < off k + sizeBytes f.sz)
      bad.lowest = some l →
      exec (.lds p f) s = .next (deliver s 0x22 (BitVec.ofNat 64 (off l)) (some bad) { rd := true })
        ∧ exec (.sts p f) s = .next (deliver s 0x22 (BitVec.ofNat 64 (off l)) (some bad) { wr := true }))
    ∧ (∀ (a b : Opnd) (aop : BitVec 4), evenOperand a = true → atomicForm aop.toNat b = true → s.l.det = false →
      let m := lanesA s p
      let addr := address s true 0#3 a
      let n := atomicBytes aop.toNat
      let bad := maskOf fun k => m.has k && decide ((addr k).toNat % n ≠ 0)
      reachable s m addr n { atomic := true } → bad.lowest = some l →
      exec (.redg p ⟨a, b, aop⟩) s = .next (deliver s 0x21 (addr l) (some bad) { atomic := true }))

/-- 06 R167 R168, 10 R284: a fence without an active lane does nothing; among device agents it only waits for held writes; at SYS scope
an acquire ends the core's leases and orders the host's writes that its reads have returned, a release precedes every later store, and a
full fence has the cohort's dirty stash lines written back. FENCE.ENG brings the core's clock up to the time of the latest write.
It rests on the model's own readings and choices of logs 15, 27. -/
def Obligations.Fences : Prop :=
  ∀ (s : State) (p : Px) (scope : BitVec 3) (g : BitVec 2), Ready s p →
    (s.active p g = 0#32 → exec (.fenceFull p scope g) s = done p s ∧ exec (.fenceAcq p scope g) s = done p s
      ∧ exec (.fenceRel p scope g) s = done p s ∧ exec (.fenceEng p scope g) s = done p s)
    ∧ (s.active p g ≠ 0#32 → (∀ h ∈ s.held, h.warp ≠ s.w.id) →
      (scope ≠ 5#3 → exec (.fenceFull p scope g) s = done p s ∧ exec (.fenceAcq p scope g) s = done p s
        ∧ exec (.fenceRel p scope g) s = done p s)
      ∧ (let seen := { s.w with hostSeen := max s.w.hostSeen s.w.hostGot, hostPend := 0 }
        let reads := s.devRead.filter fun x => x.warp != some s.w.id
        let acquired : State := { s with k := { s.k with l1 := [] }, w := seen, devRead := reads }
        let clean := writeBackAll acquired
        exec (.fenceFull p 5#3 g) s = done p { clean with w := { clean.w with sysRel := true } }
        ∧ ((∀ y ∈ s.c.stash, y.dirty = false) → clean = acquired)
        ∧ exec (.fenceAcq p 5#3 g) s = done p acquired)
      ∧ exec (.fenceRel p 5#3 g) s = done p { s with w := { s.w with sysRel := true } }
      ∧ exec (.fenceEng p scope g) s = done p { s with k := { s.k with pts := max s.k.pts s.clock } })
    ∧ (s.active p g ≠ 0#32 → (∃ h ∈ s.held, h.warp = s.w.id) →
      exec (.fenceFull p scope g) s = .next (stallWarp s p.sos .memory .noHeld)
        ∧ exec (.fenceRel p scope g) s = .next (stallWarp s p.sos .memory .noHeld)
        ∧ exec (.fenceEng p scope g) s = .next (stallWarp s p.sos .memory .noHeld))

/-! Synchronisation, queues and stash (chapter 06). -/

/-- 06 R170 R171: an arrival that reaches the governing count completes the phase: the phase advances, the arrivals reset and the warp
goes on; before that `.sync` and `.flush` wait and `.arrive` goes on. `.wait` waits for the phase of the warp's last arrival. -/
def Sys2Proof.Parts.NamedBarriers : Prop :=
  ∀ (s : State) (p : Px) (d : Opnd) (name : BitVec 4) (g : BitVec 2),
    Ready s p → uniformOrZero d = true → s.l.travel = false → s.l.det = false → s.c.bars.length = 16 → arrives s p g →
    let b := s.bar name.toNat
    let n := arrivalCount s d
    (0 < n → n ≤ liveCount s → b.arrived = [] ∨ b.count.getD (liveCount s) = n → s.w.id ∉ b.arrived → b.held = [] →
      (n = b.arrived.length + 1 → ∃ u, onlyBars s u ∧ u.bar name.toNat = { phase := b.phase + 1 }
        ∧ exec (.barSync p d name g) s = done p u ∧ ∃ v, onlyBars s v ∧ v.bar name.toNat = { phase := b.phase + 1 }
        ∧ exec (.barArrive p d name g) s = done p v ∧ ∃ x, onlyBars s x ∧ x.bar name.toNat = { phase := b.phase + 1 }
        ∧ exec (.barFlush p d name g) s = done p x)
      ∧ (b.arrived.length + 1 < n → ∃ u, onlyBars s u ∧ (u.bar name.toNat).phase = b.phase
        ∧ (u.bar name.toNat).arrived = b.arrived ++ [s.w.id] ∧ exec (.barArrive p d name g) s = done p u
        ∧ exec (.barSync p d name g) s = .next (stallWarp u p.sos .barrier (.bar name.toNat b.phase))
        ∧ ∃ v, onlyBars s v ∧ exec (.barFlush p d name g) s = .next (stallWarp v p.sos .barrier (.bar name.toNat b.phase))))
    ∧ (0 < n → n ≤ liveCount s → (∀ ph, assoc name.toNat s.w.barLast = some ph → ph < b.phase) → exec (.barWait p d name g) s = done p s)
    ∧ (∀ ph, 0 < n → n ≤ liveCount s → assoc name.toNat s.w.barLast = some ph → b.phase ≤ ph →
        exec (.barWait p d name g) s = .next (stallWarp s p.sos .barrier (.bar name.toNat ph)))
    ∧ (s.w.id ∈ b.arrived → b.arrived.length < n → n ≤ liveCount s → b.count.getD (liveCount s) = n →
        ∃ u, onlyBars s u ∧ (u.bar name.toNat).arrived = b.arrived ∧ (u.bar name.toNat).held.map (·.1) = b.held.map (·.1) ++ [s.w.id]
          ∧ exec (.barArrive p d name g) s = .next (stallWarp u p.sos .barrier (.bar name.toNat b.phase)))

/-- 06 R170 R171: without an active lane a BAR neither arrives nor waits; an entry that does not hold every live thread raises
BAR.DIVERGED, and a count of 0, above the live warps or unlike the governing one BAR.COUNT. -/
def Sys2Proof.Parts.BarrierFaults : Prop :=
  ∀ (s : State) (p : Px) (d : Opnd) (name : BitVec 4) (g : BitVec 2), uniformOrZero d = true → s.l.travel = false →
    (s.active p g = 0#32 → Ready s p → exec (.barSync p d name g) s = done p s ∧ exec (.barArrive p d name g) s = done p s
      ∧ exec (.barWait p d name g) s = done p s ∧ exec (.barFlush p d name g) s = done p s)
    ∧ (s.active p g ≠ 0#32 → s.cur.mask ≠ s.w.holds → ∀ i ∈ [Instr.barSync p d name g, .barArrive p d name g, .barWait p d name g, .barFlush p d name g],
        exec i s = .next (deliver s 0x28 0#64 none))
    ∧ (arrives s p g → (arrivalCount s d = 0 ∨ liveCount s < arrivalCount s d
          ∨ ((s.bar name.toNat).arrived ≠ [] ∧ (s.bar name.toNat).arrived.length < (s.bar name.toNat).count.getD (liveCount s)
            ∧ (s.bar name.toNat).count.getD (liveCount s) ≠ arrivalCount s d)) →
        ∀ i ∈ [Instr.barSync p d name g, .barArrive p d name g, .barFlush p d name g], exec i s = .next (deliver s 0x29 0#64 none))
    ∧ (s.active p g ≠ 0#32 → s.cur.mask = s.w.holds → (arrivalCount s d = 0 ∨ liveCount s < arrivalCount s d) →
        exec (.barWait p d name g) s = .next (deliver s 0x29 0#64 none))

/-- 06 R172: a fibre barrier completes when every fibre of its mask has arrived; the mask must include the issuing fibre. -/
def Sys2Proof.Parts.FibreBarriers : Prop :=
  ∀ (s : State) (p : Px) (mask : BitVec 4) (g : BitVec 2), Ready s p →
    (mask.getLsbD s.w.fibre = false → ∀ i ∈ [Instr.fbarSync p mask g, .fbarArrive p mask g, .fbarWait p mask g],
      exec i s = .next (deliver s 0x02 0#64 none))
    ∧ (mask.getLsbD s.w.fibre = true → arrives s p g →
      let b := s.fbar mask
      (s.w.fibre ∉ b.arrived → b.held = [] → (∀ i < 4, mask.getLsbD i = true → i = s.w.fibre ∨ i ∈ b.arrived) →
        ∃ u, onlyFbars s u ∧ u.fbar mask = { mask := mask, phase := b.phase + 1 }
          ∧ exec (.fbarSync p mask g) s = done p u ∧ exec (.fbarArrive p mask g) s = done p u)
      ∧ (s.w.fibre ∉ b.arrived → (∃ i < 4, mask.getLsbD i = true ∧ i ≠ s.w.fibre ∧ i ∉ b.arrived) →
        ∃ u, onlyFbars s u ∧ u.fbar mask = { b with arrived := b.arrived ++ [s.w.fibre] }
          ∧ exec (.fbarArrive p mask g) s = done p u
          ∧ exec (.fbarSync p mask g) s = .next (stallWarp u p.sos .barrier (.fbar mask b.phase)))
      ∧ ((∀ ph, assoc mask.toNat s.w.fbarLast = some ph → ph < b.phase) → exec (.fbarWait p mask g) s = done p s)
      ∧ (∀ ph, assoc mask.toNat s.w.fbarLast = some ph → b.phase ≤ ph →
          exec (.fbarWait p mask g) s = .next (stallWarp s p.sos .barrier (.fbar mask ph))))

/-- 06 R170 R171: an arrival that reaches the governing count completes the phase: the phase advances, the arrivals reset and the warp
goes on; before that `.sync` and `.flush` wait and `.arrive` goes on. `.wait` waits for the phase of the warp's last arrival.
06 R170 R171: without an active lane a BAR neither arrives nor waits; an entry that does not hold every live thread raises
BAR.DIVERGED, and a count of 0, above the live warps or unlike the governing one BAR.COUNT.
06 R172: a fibre barrier completes when every fibre of its mask has arrived; the mask must include the issuing fibre.
It rests on the model's own readings and choices of logs 42, 52, 85. -/
def Obligations.Barriers : Prop := Parts.NamedBarriers ∧ Parts.BarrierFaults ∧ Parts.FibreBarriers

/-- 06 R173: WAITA, at its first issue and when it issues again after a wait, ends with status 0 when every active lane's word differs
from B, with status 1 when WAITLIM has passed since its first issue, and waits otherwise, with the time of its first issue kept. -/
def Sys2Proof.Parts.WaitsForWrites : Prop :=
  ∀ (s : State) (p : Px) (start : Nat),
    (s.w.keep = .none ∧ start = s.now ∨ ∃ seen watch, s.w.keep = .waita start seen watch) →
    ∀ f : RForm, PlainMem s → Ready s p → p.perm = none → evenOperand f.a = true → plainSource f.b = true →
      let m := s.active p f.g
      let addr := address s true 0#3 f.a
      let names := bothNames f.a f.ka ++ [(f.b, f.kb)]
      let met := ∀ l ∈ m.lanes, numberAt s { rd := true } (addr l) 4 ≠ ((sourceOf s f.b).get l).toNat
      m ≠ 0#32 → reachable s m addr 4 { rd := true } → (∀ l ∈ m.lanes, (addr l).toNat % 4 = 0) → landsIn (killed s names) m f.d = true →
      (met → ∃ u, onlyMemory s u ∧ u.mem = s.mem ∧ exec (.waita p f) s = done p (landed (killed u names) m (splat 0#32) f.d))
      ∧ (¬ met → s.w.waitlim.toNat ≤ s.now - start → ∃ u, onlyMemory s u ∧ u.mem = s.mem
          ∧ exec (.waita p f) s = done p (landed (killed u names) m (splat 1#32) f.d))
      ∧ (¬ met → s.now - start < s.w.waitlim.toNat → ∃ u watch, onlyMemory s u ∧ u.mem = s.mem
          ∧ exec (.waita p f) s = .next (stallWarp { u with w := { u.w with keep := .waita start s.now watch } } p.sos .wait .status))

/-- 06 R174: SLEEPU, at its first issue and when it issues again after it has slept, ends with status 0 or 2 at its deadline and with
status 1 when a bound completion queue holds a word, and sleeps otherwise. With TRAPEN.PMISS, status 2 enters the handler with
cause 3; TRAPPC is the PC after the SLEEPU, and the entry that issued it is set aside at that PC. -/
def Sys2Proof.Parts.Sleeps : Prop :=
  ∀ (s : State) (p : Px) (f : UForm) (start due : Nat),
    (s.w.keep = .none ∧ start = s.now ∧ due = uniform64 s f.a ∨ s.w.keep = .sleep start due) →
    s.depth = 0 → Ready s p → uniformPair f.a = true → s.active p f.g ≠ 0#32 → landsIn s (s.active p f.g) f.d = true →
      let ended := fun n : Word => landed s (s.active p f.g) (splat n) f.d
      (due ≤ s.now → lateCmds s due = [] → exec (.sleepu p f) s = done p (ended 0#32))
      ∧ (due ≤ s.now → lateCmds s due ≠ [] → s.w.trapen.getLsbD 1 = false → exec (.sleepu p f) s = done p (ended 2#32))
      ∧ (due ≤ s.now → lateCmds s due ≠ [] → s.w.trapen.getLsbD 1 = true → mayTrap s → s.l.travel = false →
          ∃ t es e, exec (.sleepu p f) s = .next t ∧ t.w.trapMode = true ∧ t.w.trapCause.toNat % 256 = 3
            ∧ t.w.front = [{ pc := s.l.handlerPc, mask := s.w.holds, src := s.cur.pc }]
            ∧ t.w.trapPc = s.nextPc p &&& 0xFFFFFFFC#32 ∧ t.w.trapBlame = s.cur.pc ∧ t.w.trapLanes = s.active p f.g
            ∧ t.w.aside = some (es, e) ∧ e.pc = s.nextPc p ∧ t.w.regs = (ended 2#32).w.regs ∧ t.w.sregs = (ended 2#32).w.sregs
            ∧ t.w.lnk = (ended 2#32).w.lnk ∧ t.mem = s.mem ∧ t.c = s.c)
      ∧ (s.now < due → wakeWord s = true → exec (.sleepu p f) s = done p (ended 1#32))
      ∧ (s.now < due → wakeWord s = false →
          exec (.sleepu p f) s = .next (stallWarp { s with w := { s.w with keep := .sleep start due } } p.sos .wait .status))

/-- 06 R173: WAITA, at its first issue and when it issues again after a wait, ends with status 0 when every active lane's word differs
from B, with status 1 when WAITLIM has passed since its first issue, and waits otherwise, with the time of its first issue kept.
06 R174: SLEEPU, at its first issue and when it issues again after it has slept, ends with status 0 or 2 at its deadline and with
status 1 when a bound completion queue holds a word, and sleeps otherwise. With TRAPEN.PMISS, status 2 enters the handler.
It rests on the model's own readings and choices of logs 23, 55. -/
def Obligations.Waits : Prop := Parts.WaitsForWrites ∧ Parts.Sleeps

/-- 06 R175 R177: a QBIND whose argument its kind allows binds the register, whatever it was bound to; without an active lane it does nothing. -/
def Sys2Proof.Parts.QueueBindings : Prop :=
  ∀ (s : State) (i : Instr) (p : Px) (f : UForm) (k : Option QKind) (q : Fin 8), binding s i = some (p, f, k) → f.d = .q q →
    uniformOrZero f.a = true → s.depth = 0 → Ready s p →
    (s.active p f.g ≠ 0#32 → exec i s = done p { s with w := { s.w with qbind := s.w.qbind.set q.val k } })
    ∧ (s.active p f.g = 0#32 → exec i s = done p s)

/-- 06 R175: an argument that the kind does not allow raises QUEUE.BIND; R179: QSTAT writes kind, entries and room. -/
def Sys2Proof.Parts.QueueStatus : Prop :=
  ∀ (s : State) (p : Px),
    (∀ (f : UForm) (q : Fin 8), f.d = .q q → uniformOrZero f.a = true → s.active p f.g ≠ 0#32 → s.l.travel = false → s.c.maps = [] →
      ∀ i ∈ [Instr.qbindUnbind p f, .qbindWarp p f, .qbindFibre p f, .qbindCopy p f, .qbindCopydone p f, .qbindMseq p f, .qbindBincmd p f,
          .qbindBinres p f, .qbindCont p f, .qbindAmsend p f],
        binding s i = none → exec i s = .next (deliver s 0x1A 0#64 none))
    ∧ (∀ (d : Opnd) (q : BitVec 3) (g : BitVec 2), s.depth = 0 → Ready s p → landsIn s (s.active p g) d = true →
      (s.w.qbind.getD q.toNat none = none → exec (.qstat p d q g) s = done p (landed s (s.active p g) (splat 0#32) d))
      ∧ (∀ k, s.w.qbind.getD q.toNat none = some k → (∀ n, k ≠ .cont n) →
          exec (.qstat p d q g) s = done p (landed s (s.active p g) (splat (ofN (2 ^ 28 * (k.sub + 1)
            + 2 ^ 16 * (if k.canPop then min (qAvail s k) 4095 else 0) + (if k.canPush then min (qRoom s k) 65535 else 0)))) d)))

/-- 06 R175 R177: a QBIND whose argument its kind allows binds the register, whatever it was bound to; without an active lane it does nothing.
06 R175: an argument that the kind does not allow raises QUEUE.BIND; R179: QSTAT writes kind, entries and room. -/
def Obligations.QueueInstructions : Prop := Parts.QueueBindings ∧ Parts.QueueStatus

/-- 06 R180: STMAP maps a range without filling a line, ends a mapping, or writes its dirty lines back; it acts when a lane is active.
The page-table entries of the range are at hand at their homes. -/
def Sys2Proof.Parts.StashMappings : Prop :=
  ∀ (s : State) (p : Px) (n : Fin 16) (g : BitVec 2) (line count : Nat), Ready s p → s.w.resident = true →
    line < 2048 → 1 ≤ count → line + count ≤ 2048 → s.w.sregs.getD n.val 0#32 = ofN (2 ^ 18 * (count - 1) + 128 * line) →
    (s.active p g = 0#32 → (∀ k : Fin 16, k.val % 2 = 0 → exec (.stmapMap p (.s n) (.s k) g) s = done p s)
      ∧ exec (.stmapUnmap p ⟨.s n, g⟩) s = done p s ∧ exec (.stmapFlush p ⟨.s n, g⟩) s = done p s)
    ∧ (s.active p g ≠ 0#32 →
      (∀ k : Fin 16, k.val % 2 = 0 →
        let base : DWord := BitVec.ofNat 64 (uniform64 s (.s k))
        base.toNat % 128 = 0 → canonRange base (128 * count) = true → 128 * (line + count) ≤ s.c.sharedSize → s.c.maps.length < 16 →
        (∀ x ∈ s.c.maps, x.line + x.lines ≤ line ∨ line + count ≤ x.line) →
        linesReady s ((walkReads s s.l.ctx (mapPages base count)).map (·.1)) false = .ok () →
        (∀ i ≤ count * 128 / 4096 + 1, noStash s (base + BitVec.ofNat 64 (min (4096 * i) (128 * count - 1))) = false) →
        exec (.stmapMap p (.s n) (.s k) g) s = done p { s with c := { s.c with maps := s.c.maps ++ [⟨line, count, base⟩] } })
      ∧ ((∃ x ∈ s.c.maps, x.line = line ∧ x.lines = count) → ∃ u, exec (.stmapUnmap p ⟨.s n, g⟩) s = done p u
          ∧ (∀ x ∈ u.c.maps, ¬ (x.line = line ∧ x.lines = count)) ∧ u.c.shared = s.c.shared
          ∧ (∀ y ∈ u.c.stash, ¬ (line ≤ y.line ∧ y.line < line + count)) ∧ u.w = s.w
          ∧ (s.c.stash.all (fun y => !y.dirty) = true → u.mem = s.mem) ∧ reachHome s u line count)
      ∧ ((∀ i < count, (mapOf s.c (line + i)).isSome = true) → ∃ u, exec (.stmapFlush p ⟨.s n, g⟩) s = done p u
          ∧ u.c.maps = s.c.maps ∧ u.c.shared = s.c.shared ∧ u.w = s.w ∧ reachHome s u line count))

/-- 06 R180 R181: STMAP raises an illegal-operand fault for a D that is no uniform code and, in a map, for an A that is no uniform pair;
STASH.RANGE for a range word with a reserved bit, for a range that may not be mapped, that is no mapping, or that is not wholly mapped. An
access that straddles the edge of a mapping raises STASH.RANGE. Nothing is changed before the fault is delivered. -/
def Sys2Proof.Parts.StashFaults : Prop :=
  ∀ (s : State) (p : Px) (g : BitVec 2),
    (∀ d a : Opnd, d.isS = false ∨ (∀ k : Fin 16, k.val % 2 = 0 → a ≠ .s k) → exec (.stmapMap p d a g) s = .next (deliver s 0x02 0#64 none))
    ∧ (∀ d : Opnd, d.isS = false → ∀ i ∈ [Instr.stmapUnmap p ⟨d, g⟩, .stmapFlush p ⟨d, g⟩], exec i s = .next (deliver s 0x02 0#64 none))
    ∧ (∀ (n k : Fin 16), k.val % 2 = 0 → s.active p g ≠ 0#32 →
      let x := s.w.sregs.getD n.val 0#32
      let line := x.toNat / 128 % 2048
      let count := x.toNat / 2 ^ 18 % 4096 + 1
      let base : DWord := BitVec.ofNat 64 (uniform64 s (.s k))
      let map := exec (.stmapMap p (.s n) (.s k) g) s
      let outOfRange := Host.Outcome.next (deliver s 0x23 0#64 none)
      (x.toNat % 128 ≠ 0 ∨ 2 ^ 30 ≤ x.toNat →
        map = outOfRange ∧ exec (.stmapUnmap p ⟨.s n, g⟩) s = outOfRange ∧ exec (.stmapFlush p ⟨.s n, g⟩) s = outOfRange)
      ∧ (base.toNat % 128 ≠ 0 ∨ canonRange base (128 * count) = false ∨ s.c.sharedSize < 128 * (line + count) ∨ 16 ≤ s.c.maps.length
          ∨ (∃ y ∈ s.c.maps, y.line < line + count ∧ line < y.line + y.lines) → map = outOfRange)
      ∧ ((∀ y ∈ s.c.maps, ¬ (y.line = line ∧ y.lines = count)) → exec (.stmapUnmap p ⟨.s n, g⟩) s = outOfRange)
      ∧ ((∃ i < count, mapOf s.c (line + i) = none) → exec (.stmapFlush p ⟨.s n, g⟩) s = outOfRange))
    ∧ (∀ (f : MForm) (l : Nat), f.sz ≠ 7#3 → f.sz ≠ 1#3 → f.sz ≠ 3#3 → plainSource f.a = true → dataForm f.sz f.t = true → f.t ≠ .lid → f.t ≠ .ctl →
      let off := sharedOffset s f.sb f.a
      let n := sizeBytes f.sz
      let bad := maskOf fun k => (s.active p f.g).has k && mapOf s.c (off k / 128) != mapOf s.c ((off k + n - 1) / 128)
      (∀ k ∈ (s.active p f.g).lanes, off k + n ≤ s.c.sharedSize) → bad.lowest = some l →
      exec (.lds p f) s = .next (deliver s 0x23 (BitVec.ofNat 64 (off l)) (some bad) { rd := true })
        ∧ exec (.sts p f) s = .next (deliver s 0x23 (BitVec.ofNat 64 (off l)) (some bad) { wr := true }))
/-- 11 R301: an idle dirty stash line is written back and stays; a line that another cohort waits to write is given up with its bytes. -/
def Sys2Proof.Parts.StashLines : Prop :=
  ∀ (s : State) (c : Nat) (x : Cohort) (t : StashLine), s.cohort? c = some x → memWf s.mem = true → t.pa % 128 = 0 → t.dirty = true →
    let bytes := fun i => memGet x.shared (128 * t.line + i)
    (x.stash.find? (fun y => y.line == t.line && y.dirty && decide (y.lastUse + 10000 ≤ s.cyc)) = some t →
      ∃ u y, exec (.stashIdleWriteback c t.line) s = .next u ∧ onlyBytes s u 128 (t.pa + ·) bytes ∧ u.stashOwners = s.stashOwners ∧ u.cohort? c = some y
        ∧ y.stash.map (·.line) = x.stash.map (·.line) ∧ ∀ z ∈ y.stash, z.pa = t.pa → z.dirty = false)
    ∧ (assoc (t.pa / 128) s.stashOwners = some c → x.stash.find? (fun y => y.pa == t.pa) = some t →
      (∃ w ∈ s.allWarps, ∃ k, w.stall = some ⟨k, .unstashed (t.pa / 128)⟩) →
      ∃ u y, exec (.stashRecall (t.pa / 128)) s = .next u ∧ onlyBytes s u 128 (t.pa + ·) bytes ∧ u.stashOwners = assocDel (t.pa / 128) s.stashOwners
        ∧ u.cohort? c = some y ∧ ∀ z ∈ y.stash, z.pa ≠ t.pa)

/-- 06 R180: STMAP maps a range without filling a line, ends a mapping, or writes its dirty lines back; it acts when a lane is active.
06 R180 R181: the faults of STMAP, and of an access that straddles the edge of a mapping.
11 R301: an idle dirty stash line is written back and stays; a line that another cohort waits to write is given up with its bytes.
It rests on the model's own readings and choices of log 52. -/
def Obligations.Stashes : Prop := Parts.StashMappings ∧ Parts.StashFaults ∧ Parts.StashLines

/-! Control flow, window, quota, fibres (chapters 04 and 08). -/

/-- 04 R104 R105 R106: BRA and CALL split the issuing entry by mode; CALL writes the PC after its word into lnk of the taken lanes. -/
def Sys2Proof.Parts.Branches : Prop :=
  ∀ (s : State) (p : Px) (f : BForm),
    let target := s.wordPc p + 4#32 * f.disp.signExtend 32
    let t := takenLanes s f
    let gs := [(target, t), (s.nextPc p, s.cur.mask &&& ~~~ t)]
    transfers s gs →
    exec (.bra p f) s = .next (finish (transferred s gs))
    ∧ (s.depth = 0 → exec (.call p f) s = .next (finish (landed (transferred s gs) t (splat (s.nextPc p)) .lnk)))

/-- 04 R107: JMP and CALLR send each active lane to its A, RET to its lnk; CALLR reads A before it writes lnk. -/
def Sys2Proof.Parts.Jumps : Prop :=
  ∀ (s : State) (p : Px) (f : UAForm), s.depth = 0 → plainSource f.a = true →
    let m := s.active p f.g
    let v := slotValue s p 0 f.a
    let gs := jumpGroups s p m v
    ((∀ l ∈ m.lanes, (v.get l).toNat % 4 = 0) → transfers s gs →
      exec (.jmp p f) s = .next (finish (transferred (killed s [(f.a, f.ka)]) gs))
      ∧ exec (.callr p f) s = .next (finish (landed (transferred (killed s [(f.a, f.ka)]) gs) m (splat (s.nextPc p)) .lnk)))
    ∧ ((∀ l ∈ m.lanes, (s.w.lnk.get l).toNat % 4 = 0) → transfers s (jumpGroups s p m s.w.lnk) →
      exec (.ret p f.g) s = .next (finish (transferred s (jumpGroups s p m s.w.lnk))))

/-- 04 R104 R107 R108, 01 R26: a misaligned target raises PC.ALIGN and a ninth entry FRONTIER.FULL; the frontier is left as it was. -/
def Sys2Proof.Parts.TransferFaults : Prop :=
  ∀ (s : State) (p : Px),
    (∀ f : UAForm, s.depth = 0 → plainSource f.a = true →
      let m := s.active p f.g
      let v := slotValue s p 0 f.a
      ∀ i ∈ [Instr.jmp p f, .callr p f],
        ((∃ l ∈ m.lanes, (v.get l).toNat % 4 ≠ 0) → exec i s = .next (deliver s 0x04 0#64 none))
        ∧ ((∀ l ∈ m.lanes, (v.get l).toNat % 4 = 0) → 8 < (transferred s (jumpGroups s p m v)).w.front.length →
            exec i s = .next (deliver s 0x05 0#64 none))) ∧
    (∀ (g : BitVec 2), (∃ l ∈ (s.active p g).lanes, (s.w.lnk.get l).toNat % 4 ≠ 0) → exec (.ret p g) s = .next (deliver s 0x04 0#64 none))
    ∧ (∀ (g : BitVec 2), (∀ l ∈ (s.active p g).lanes, (s.w.lnk.get l).toNat % 4 = 0) →
        8 < (transferred s (jumpGroups s p (s.active p g) s.w.lnk)).w.front.length → exec (.ret p g) s = .next (deliver s 0x05 0#64 none))
    ∧ (∀ f : BForm, 8 < (transferred s [(s.wordPc p + 4#32 * f.disp.signExtend 32, takenLanes s f),
          (s.nextPc p, s.cur.mask &&& ~~~ takenLanes s f)]).w.front.length →
        exec (.bra p f) s = .next (deliver s 0x05 0#64 none) ∧ (s.depth = 0 → exec (.call p f) s = .next (deliver s 0x05 0#64 none)))

/-- 04 R104 R105 R106: BRA and CALL split the issuing entry by mode; CALL writes the PC after its word into lnk of the taken lanes.
04 R107: JMP and CALLR send each active lane to its A, RET to its lnk; CALLR reads A before it writes lnk.
04 R104 R107 R108, 01 R26: a misaligned target raises PC.ALIGN and a ninth entry FRONTIER.FULL; the frontier is left as it was.
It rests on the model's own readings and choices of log 23. -/
def Obligations.Transfers : Prop := Parts.Branches ∧ Parts.Jumps ∧ Parts.TransferFaults

/-- 04 R109 to R111: EXIT ends the active lanes, the others go on; the warp's last threads release its bindings, quota, queues and
handles; inside an open level it raises EXIT.BLOCK and no lane ends. -/
def Obligations.Exits : Prop :=
  ∀ (s : State) (p : Px) (g : BitVec 2), ∀ x ∈ [(Instr.exit p g, false, false), (.exitJ p g, true, false), (.exitF p g, false, true)],
    let m := s.active p g
    let gs := [(s.nextPc p, s.cur.mask &&& ~~~ m)]
    (s.depth ≠ 0 → exec x.1 s = .next (deliver s 0x06 0#64 none))
    ∧ (s.depth = 0 → transfers s gs →
      (m = 0#32 → Ready s p → exec x.1 s = done p s)
      ∧ (m ≠ 0#32 → s.w.holds &&& ~~~ m ≠ 0#32 → noneParked s → (∃ e ∈ (transferred s gs).w.front, e.parked = false) →
        let t := transferred s gs
        exec x.1 s = .next (finish { t with w := { t.w with holds := s.w.holds &&& ~~~ m }
                                            c := { s.c with exitJ := s.c.exitJ || x.2.1, exitF := s.c.exitF || x.2.2 } }))
      ∧ (m ≠ 0#32 → s.w.holds &&& ~~~ m = 0#32 → (∀ v ∈ s.warps, v.cid ≠ s.c.id) → (∀ b ∈ s.c.bars, b.arrived = []) → s.c.hand = [] →
        ∃ t, exec x.1 s = .next t ∧ t.w.holds = 0#32 ∧ t.w.regs = [] ∧ t.w.quota = 0 ∧ t.w.front = [] ∧ t.w.qbind = List.replicate 8 none
          ∧ t.w.hmap = List.replicate 32 none ∧ t.w.exitPc = s.cur.pc ∧ t.c.exitJ = (s.c.exitJ || x.2.1) ∧ t.c.exitF = (s.c.exitF || x.2.2)
          ∧ t.mem = s.mem ∧ t.warps = s.warps))

/-- 04 R112 R113 R120: REGROUP parks the lanes of the issuing entry at its target; when every live thread of the cohort is parked and
compaction may not take place, each goes on at its target where it is; a warp with every thread parked gives its turn up. -/
def Sys2Proof.Parts.Regroup : Prop :=
  ∀ (s : State) (p : Px) (a : Opnd) (ka : Bool) (target : Word), uniformOrZero a = true → s.lanes ≠ 0#32 → s.l.travel = false →
    target = (if a = .zero then s.nextPc p else ofN (uniform s a)) →
    let front := addEntry { pc := target, mask := s.cur.mask, parked := true, src := s.cur.pc, sos := p.sos } (s.w.front.erase s.cur)
    (target.toNat % 4 ≠ 0 → exec (.regroup p a ka) s = .next (deliver s 0x04 0#64 none))
    ∧ (target.toNat % 4 = 0 → front.length ≤ 8 → s.w.resident = true → s.w.cid = s.c.id → s.w.holds ≠ 0#32 →
      ((∃ e ∈ front, e.parked = false) → exec (.regroup p a ka) s = .next (finish { s with w := { s.w with front := front } }))
      ∧ ((∀ e ∈ front, e.parked = true ∧ e.rbLanes = 0#32) → (∀ v ∈ s.warps, v.cid ≠ s.c.id ∧ v.id ≠ s.w.id) → s.w.frozen = none → s.w.trapWait = none →
        s.c.levels ≠ [] →
        let goOn := front.foldl (fun f e => addEntry { e with parked := false, sos := false } f) []
        exec (.regroup p a ka) s = .next (finish { s with w := { s.w with front := goOn } }))
      ∧ ((∀ e ∈ front, e.parked = true ∧ e.rbLanes = 0#32) →
        (∃ v ∈ s.warps, v.cid = s.c.id ∧ v.holds ≠ 0#32 ∧ ∃ e ∈ v.front, e.parked = false) →
        exec (.regroup p a ka) s = .next (finish { s with w := { s.w with front := front }
                                                          sl := { s.sl with passing := s.sl.passing || (front.any (·.sos) && !s.l.det) }
                                                          c := { s.c with passing := s.c.passing || s.l.det } })))

/-- 04 R113 R114: when the last thread of the cohort parks and every condition of R113 holds, compaction deals the parked threads out anew,
32 to a warp: which warps there are, and what each of their lanes carries. The threads are too many for a warp to be left over, or two
warps become one. -/
def Sys2Proof.Parts.Compaction : Prop :=
  ∀ (s : State) (p : Px) (a : Opnd) (ka : Bool) (target : Word) (ts : List Parked), uniformOrZero a = true → s.lanes ≠ 0#32 →
    target = (if a = .zero then s.nextPc p else ofN (uniform s a)) → target.toNat % 4 = 0 →
    let front := addEntry { pc := target, mask := s.cur.mask, parked := true, src := s.cur.pc, sos := p.sos } (s.w.front.erase s.cur)
    let ws := { s.w with front := front } :: s.warps.filter fun v => v.cid == s.c.id && v.holds != 0#32
    front.length ≤ 8 → s.w.resident = true → s.w.cid = s.c.id → s.w.holds ≠ 0#32 → mayCompact s ws → inOrder s.l ws ts →
    (∀ i, (newFront ((ts.drop (32 * i)).take 32)).length ≤ 8) → 32 * (ws.length - 1) < ts.length ∨ (ws.length = 2 ∧ ts.length ≤ 32) →
    ts.length ≤ 32 * ws.length →
    (s.allWarps.map (·.id)).Nodup → (∀ b ∈ s.c.bars, b.arrived = []) → s.c.hand = [] →
    ∃ u, exec (.regroup p a ka) s = .next u ∧ compacted s u ws ts ∧ u.mem = s.mem

/-- 04 R115: YIELD changes no state that a program can see; only whose turn it is changes. -/
def Sys2Proof.Parts.Yields : Prop :=
  ∀ (s : State) (p : Px), Ready s p →
    (s.l.det = false → exec (.yieldFibre p) s = done p { s with sl := { s.sl with passing := true } }
      ∧ exec (.yieldSched p) s = done p { s with sl := { s.sl with passing := true } } ∧ exec (.yieldDet p) s = done p s)
    ∧ (s.l.det = true → ∀ i ∈ [Instr.yieldFibre p, .yieldSched p, .yieldDet p], exec i s = done p { s with c := { s.c with passing := true } })

/-- 04 R112 R113 R120: REGROUP parks the lanes of the issuing entry at its target; when every live thread of the cohort is parked and
compaction may not take place, each goes on at its target where it is; a warp with every thread parked gives its turn up.
04 R113 R114: where it may take place, the parked threads are dealt out anew, 32 to a warp, each with what it carries.
04 R115: YIELD changes no state that a program can see; only whose turn it is changes.
It rests on the model's own readings and choices of logs 42, 43. -/
def Obligations.RegroupAndYield : Prop := Parts.Regroup ∧ Parts.Compaction ∧ Parts.Yields

/-- 04 R116 to R119: WINB sets the window base, RGROW raises the quota from the quarter's pool or reports why not, RSHRINK lowers it.
It rests on the model's own readings and choices of log 48. -/
def Obligations.WindowAndQuota : Prop :=
  ∀ (s : State) (p : Px), s.depth = 0 → Ready s p →
    (∀ imm : BitVec 16, (imm.toNat ≤ 13 → exec (.winb p imm) s = done p { s with w := { s.w with winbase := imm.toNat } })
      ∧ (13 < imm.toNat → exec (.winb p imm) s = .next (deliver s 0x02 0#64 none)))
    ∧ (∀ (d a : Opnd) (tryIt : Bool), uniformOrZero a = true → landsIn s s.lanes d = true → s.lanes ≠ 0#32 →
      let k := uniform s a
      let status := fun (t : State) (n : Nat) => done p (landed t s.lanes (splat (ofN n)) d)
      (256 < s.w.quota + k → exec (.rgrow p d a true) s = status s 2 ∧ exec (.rgrow p d a false) s = .next (deliver s 0x11 0#64 none))
      ∧ (s.w.quota + k ≤ 256 → k = 0 → exec (.rgrow p d a tryIt) s = status s 0)
      ∧ (s.w.quota + k ≤ 256 → 0 < k → k ≤ freePool s → earlierGrow s = false →
          landsIn { s with w := { s.w with quota := s.w.quota + k } } s.lanes d = true →
          exec (.rgrow p d a tryIt) s = status { s with w := { s.w with quota := s.w.quota + k } } 0)
      ∧ (s.w.quota + k ≤ 256 → freePool s < k → exec (.rgrow p d a true) s = status s 1
          ∧ exec (.rgrow p d a false) s = .next (stallWarp s p.sos .quota (.quota k))))
    ∧ (∀ a : Opnd, uniformOrZero a = true → s.lanes ≠ 0#32 →
      (uniform s a ≤ s.w.quota - s.boundCount → exec (.rshrink p a) s = done p { s with w := { s.w with quota := s.w.quota - uniform s a } })
      ∧ (s.w.quota - s.boundCount < uniform s a → exec (.rshrink p a) s = .next (deliver s 0x12 0#64 none)))

/-- 08 R234 to R237: FIBRE.START and FIBRE.STOP set the stopped marks of the fibres of a mask; SELF and STATE deliver the fibre index and
FIBRESTAT; FIBRE.WIN sets the slot's band, and every name of the issuing fibre keeps its value.
It rests on the model's own readings and choices of log 67. -/
def Obligations.FibreInstructions : Prop :=
  ∀ (s : State) (p : Px), Ready s p →
    (∀ mask : BitVec 4, s.w.resident = true → exec (.fibreStart p mask) s = done p { s with
        w := if inMask s mask s.w then { s.w with stopped := false } else s.w
        warps := s.warps.map fun v => if inMask s mask v then { v with stopped := false } else v })
    ∧ (∀ mask : BitVec 4, mask.getLsbD s.w.fibre = false → exec (.fibreStop p mask) s = done p { s with
        warps := s.warps.map fun v => if inMask s mask v then { v with stopped := true } else v })
    ∧ (∀ mask : BitVec 4, mask.getLsbD s.w.fibre = true → exec (.fibreStop p mask) s = .next (deliver s 0x02 0#64 none))
    ∧ (∀ d : Opnd, s.depth = 0 → landsIn s s.lanes d = true →
        exec (.fibreSelf p d) s = done p (landed s s.lanes (splat (ofN s.w.fibre)) d)
        ∧ exec (.fibreState p d) s = done p (landed s s.lanes (splat (fibreStat s)) d))
    ∧ (∀ a : Opnd, uniformOrZero a = true → s.depth = 0 → s.lanes ≠ 0#32 → aloneInSlot s → s.l.travel = false → uniform s a < 256 →
        s.sl.band = 0#8 → s.sl.bandRegs = [] → (s.w.regs.map (·.1)).Nodup →
        ∃ u, exec (.fibreWin p a) s = done p u ∧ u.sl.band.toNat = uniform s a ∧ (∀ n, boundReg u n = boundReg s n) ∧ u.mem = s.mem)

/-! Recovery (chapters 08 and 09). -/

/-- 08 R219 to R221: ENSURE checks its header, records the warp's arrival and waits; when every live warp has arrived the level opens,
its attempt count starts and the warp goes on after ELSEERR with one entry. 09 R252 R254: the LEVEL entry takes 32 bytes of husk; a
level that finds none fails with cause 4. -/
def Sys2Proof.Parts.LevelsOpen : Prop :=
  ∀ (s : State),
    (∀ (p : Px) (k : Fin 16) (disp : BitVec 18) (alts : List Word) (code : Nat) (pc : Word), disp ≠ 0#18 → k.val % 2 = 0 →
      parseHeader s 8 (s.wordPc p + 4#32) [] = .ok (alts, code, pc) → s.w.trapMode = false → s.w.handler = false →
      s.cur.mask = s.w.holds → s.c.levels.length < 8 →
      let level : Level := { header := s.wordPc p, test := s.wordPc p + 4#32 * disp.setWidth 32, alts := alts, code := code, codePc := pc
                             limit := min (uniform64 s (.s k)) (2 ^ 40), start := 0 }
      let t : State := { s with c := { s.c with headers := assocPut s.w.id level s.c.headers } }
      exec (.ensure p (.s k) disp) s = .next (stallWarp t p.sos .barrier (if headersFull t t.c then .opens else .never)))
    ∧ (∀ v : Level, Solo s → s.c.failing = none → s.c.headers = [(s.w.id, v)] → staysHere s (v.codePc + 4#32) = true →
      let opened : Level := { v with start := s.cyc, seqFrom := s.k.nextOp }
      let room := huskPlace { s with c := { s.c with headers := [] } } { opened with headOver := true } 32
      (∀ ovf n, room = some (ovf, n) → ∃ t, exec (.levelOpen s.c.id) s = .next t
        ∧ t.c.levels = { opened with headOver := ovf, chunks := n } :: s.c.levels ∧ t.c.failing = none
        ∧ t.c.headers = [] ∧ t.w.front = [{ pc := v.codePc + 4#32, mask := s.w.holds, src := s.cur.pc }] ∧ t.w.stall = none
        ∧ t.mem = s.mem ∧ t.w.regs = s.w.regs)
      ∧ (room = none → s.c.conv = none → ∃ t, exec (.levelOpen s.c.id) s = .next t
        ∧ t.c.failing = some ⟨s.c.levels.length + 1, 4, 0, 0⟩ ∧ t.c.headers = [] ∧ t.mem = s.mem ∧ t.w.regs = s.w.regs))

/-- 08 R223 R230 R233: RBEND parks active lanes at the test PC, and the warp goes on there when all its lanes are parked; RBABORT fails
the level with cause 8 and its code; outside a level both raise RB.STATE, in trap mode the illegal-instruction fault. -/
def Sys2Proof.Parts.LevelEnds : Prop :=
  ∀ (s : State) (p : Px),
    (s.w.trapMode = false → s.depth = 0 → (∀ g, exec (.rbend p g) s = .next (deliver s 0x53 0#64 none))
      ∧ (∀ imm, exec (.rbabort p imm) s = .next (deliver s 0x53 0#64 none)) ∧ (∀ pn, exec (.rbaccept p pn) s = .next (deliver s 0x53 0#64 none)))
    ∧ (s.w.trapMode = true → ∀ g imm, exec (.rbend p g) s = .next (deliver s 0x01 0#64 none)
      ∧ exec (.rbabort p imm) s = .next (deliver s 0x01 0#64 none))
    ∧ (∀ imm : BitVec 16, inLevel s → s.c.conv = none → s.c.failing = none →
      exec (.rbabort p imm) s = .next { s with c := { s.c with failing := some ⟨s.depth, 8, 0, imm.toNat⟩ } })
    ∧ (∀ (g : BitVec 2) (v : Level) (vs : List Level), inLevel s → s.c.levels = v :: vs → s.l.travel = false → s.active p g = s.cur.mask →
      s.cur.mask ≠ 0#32 →
      let parked : Entry := { pc := v.test, mask := s.cur.mask, parked := true, rbLanes := s.cur.mask, src := s.cur.pc }
      let front := addEntry parked (s.w.front.erase s.cur)
      front.length ≤ 8 →
      let whole : List Entry := [{ pc := v.test, mask := s.w.holds, src := s.cur.pc }]
      (front.foldl (fun k x => k ||| x.rbLanes) 0#32 = s.w.holds →
          exec (.rbend p g) s = .next (finish { s with w := { s.w with front := whole } }))
      ∧ (front.foldl (fun k x => k ||| x.rbLanes) 0#32 ≠ s.w.holds →
          exec (.rbend p g) s = .next (finish { s with w := { s.w with front := front } })))

/-- 08 R219 to R221: ENSURE checks its header, records the warp's arrival and waits; when every live warp has arrived the level opens,
its attempt count starts and the warp goes on after ELSEERR with one entry. 09 R252 R254: the LEVEL entry takes 32 bytes of husk.
08 R223 R230 R233: RBEND parks active lanes at the test PC, and the warp goes on there when all its lanes are parked; RBABORT fails
the level with cause 8 and its code; outside a level both raise RB.STATE, in trap mode the illegal-instruction fault.
It rests on the model's own readings and choices of logs 42, 46, 63. -/
def Obligations.Levels : Prop := Parts.LevelsOpen ∧ Parts.LevelEnds

/-- 08 R224 to R226, 09 R258: the last true verdict accepts the level: an outermost level leaves no log and no claim, an inner one gives its
entries to the level around it; a false one fails the level with cause 1.
It rests on the model's own readings and choices of log 42. -/
def Obligations.Verdicts : Prop :=
  ∀ (s : State) (p : Px) (pn : BitVec 3) (v : Level) (vs : List Level), Solo s → inLevel s → s.cur.mask = s.w.holds → unsettled s = false →
    s.c.levels = v :: vs → s.c.conv = none → s.c.failing = none → (∀ x ∈ v.verdicts, x.2 = true) → staysHere s (s.nextPc p) = true →
    let yes := ∀ l ∈ s.w.holds.lanes, (s.w.preds.getD pn.toNat 0#32).has l = true
    (yes → vs = [] → s.l.check = false → ∃ t, exec (.rbaccept p pn) s = .next t ∧ t.c.levels = [] ∧ t.c.failing = none
      ∧ (∀ x, x ∈ t.claims ↔ x ∈ s.claims ∧ x.cid ≠ s.c.id) ∧ t.mem = s.mem ∧ t.w.regs = s.w.regs
      ∧ t.w.front = [{ pc := s.nextPc p, mask := s.w.holds, src := s.cur.pc }])
    ∧ (∀ o os, yes → vs = o :: os → ∃ t, exec (.rbaccept p pn) s = .next t ∧ t.c.levels.length = vs.length ∧ t.claims = s.claims
      ∧ (∀ x ∈ t.c.levels, x = { o with log := x.log, overs := x.overs, chunks := x.chunks } ∨ x ∈ os)
      ∧ (∀ x ∈ t.c.levels.head?, (∀ e ∈ o.log, e ∈ x.log) ∧ (∀ e ∈ v.log, e ∈ x.log ∨ logged s x e = true))
      ∧ t.w.front = [{ pc := s.nextPc p, mask := s.w.holds, src := s.cur.pc }])
    ∧ (¬ yes → ∃ t, exec (.rbaccept p pn) s = .next t ∧ t.c.failing = some ⟨s.c.levels.length, 1, 0, 0⟩ ∧ t.mem = s.mem ∧ t.claims = s.claims)

/-- 08 R226 R228 R229, 09 R260 R264: an attempt that reaches its limit fails with cause 2; the rollback puts the logged state back, and the
next alternate starts with an empty log, or the level is exhausted: the handler is entered, or the cohort ends. -/
def Obligations.Rollbacks : Prop :=
  ∀ (s : State) (v : Level), Solo s → s.c.levels = [v] → s.c.conv = none →
    (s.c.failing = none → v.limit ≠ 0 → v.start + v.limit ≤ s.cyc → beingSaved s s.c = false → exec (.attemptLimitReached s.c.id 1) s =
      .next { s with c := { s.c with failing := some ⟨1, 2, 0, 0⟩ } })
    ∧ (∀ cause fcode abort i x j y z, s.c.failing = some ⟨1, cause, fcode, abort⟩ → copiesOpen s s.c.id 1 = false → 1 ≤ cause →
      v.log = [.uni s.w.id i x, .pred s.w.id j y, .lnk s.w.id z] → s.w.frozen = none → s.sl.holder = none →
      (∀ pc, v.alts[v.alt]? = some pc → staysHere s pc = true → s.w.trapMode = false → ∃ t, exec (.levelRollback s.c.id) s = .next t
        ∧ t.w.sregs = s.w.sregs.set i x ∧ t.w.preds = s.w.preds.set j y ∧ t.w.lnk = z ∧ t.mem = s.mem ∧ t.w.regs = s.w.regs
        ∧ t.w.rbcause = BitVec.ofNat 16 (cause + 256 * fcode) ∧ t.c.failing = none
        ∧ t.c.levels = [{ v with alt := v.alt + 1, log := [], overs := [], verdicts := [], start := s.cyc, seqFrom := s.k.nextOp }]
        ∧ t.w.front = [{ pc := pc, mask := s.w.holds, src := v.header }])
      ∧ (v.alts.length ≤ v.alt → s.w.trapen.getLsbD 2 = true → s.l.handlerPc ≠ 0#32 → s.w.halted = false → s.w.haltReq = false →
          ∃ t, exec (.levelRollback s.c.id) s = .next t
        ∧ t.c.levels = [] ∧ t.w.trapMode = true ∧ t.w.rbcode = BitVec.ofNat 16 (if cause = 8 ∧ abort ≠ 0 then abort else v.code)
        ∧ t.w.sregs = s.w.sregs.set i x
        ∧ t.w.front = [{ pc := s.l.handlerPc, mask := s.w.holds, src := v.codePc }] ∧ t.w.trapCause.toNat % 256 = 4 ∧ t.w.trapPc = v.header &&& 0xFFFFFFFC#32)
      ∧ (v.alts.length ≤ v.alt → s.w.trapen.getLsbD 2 = false → s.c.hand = [] → ∃ t, exec (.levelRollback s.c.id) s = .next t
        ∧ t.c.done = some .exhausted ∧ t.w.holds = 0#32 ∧ t.c.levels = []))

/-- 08 R231: the first CONVJ of a cohort sends its JOIN and waits; an accepted one goes on, and a turned-away one raises the home's fault. -/
def Sys2Proof.Parts.ConversationJoins : Prop :=
  ∀ (s : State) (p : Px) (k : Fin 16) (ka : Bool) (g : BitVec 2),
    let f : UAForm := ⟨.s k, ka, g⟩
    let va : DWord := BitVec.ofNat 64 (uniform64 s (.s k))
    k.val % 2 = 0 → s.w.trapMode = false → s.w.handler = false → s.c.levels ≠ [] → s.active p g ≠ 0#32 → canonRange va 64 = true → va.toNat % 64 = 0 →
    (∀ pa, PlainMem { s with c := { s.c with levels := [] } } → s.c.conv = none → s.w.keep = .none →
      place s { rd := true, wr := true } va = some pa → pa < 2 ^ 47 →
      exec (.convj p f) s = .next (stallWarp { s with convMsgs := s.convMsgs ++ [.join s.c.id s.w.id va pa s.c.levels.length]
                                                      w := { s.w with keep := .conv none } } p.sos .memory .status))
    ∧ (s.w.keep = .conv (some none) → Ready s p → ∃ t, exec (.convj p f) s = done p t ∧ t = { s with k := { s.k with pts := t.k.pts } } ∧ s.k.pts ≤ t.k.pts)
    ∧ (∀ x, s.w.keep = .none → s.c.conv = some x → x.va = va → x.depth = s.c.levels.length → Ready s p → exec (.convj p f) s = done p s)
    ∧ (∀ code, s.w.keep = .conv (some (some code)) → exec (.convj p f) s = .next (deliver s code 0#64 none))

/-- 08 R232, 09 R268 to R270: a member accepts its level on COMMIT, fails on ROLLBACK with its own cause or cause 5, and after its rollback
starts the next alternate on ADVANCE and is exhausted on EXHAUST. A verdict for a conversation that it has left changes nothing. -/
def Sys2Proof.Parts.ConversationMembers : Prop :=
  ∀ (s : State) (v : Level) (x : Conv) (rest : List Notice), Solo s → s.c.levels = [v] → s.c.conv = some x → x.depth = 1 →
    (∀ y ∈ s.savedCohorts, y.id ≠ s.c.id) →
    let told := fun verdict => s.notices = ⟨s.c.id, x.serial, verdict, x.pa⟩ :: rest
    (told .commit → s.c.failing = none → s.l.check = false → ∀ pc : Word, s.w.keep = .status pc.toNat → staysHere s pc = true →
      ∃ t, exec (.convCommitNotice 0) s = .next t ∧ t.notices = rest ∧ t.c.levels = [] ∧ t.c.conv = none ∧ (∀ y ∈ t.claims, y.cid ≠ s.c.id)
        ∧ t.w.front = [{ pc := pc, mask := s.w.holds, src := s.cur.pc }] ∧ t.mem = s.mem)
    ∧ (told .rollback → s.c.failing = none → ∃ t, exec (.convRollbackNotice 0) s = .next t ∧ t.notices = rest
        ∧ t.c.failing = some ⟨1, (x.own.getD (5, 0, 0)).1, (x.own.getD (5, 0, 0)).2.1, (x.own.getD (5, 0, 0)).2.2⟩ ∧ t.mem = s.mem)
    ∧ (told .advance → x.rolled = true → (∀ y ∈ s.c.failing, 1 ≤ y.depth) → ∀ pc, v.alts[v.alt]? = some pc → staysHere s pc = true →
      ∃ t, exec (.convAdvanceNotice 0) s = .next t ∧ t.notices = rest ∧ t.c.failing = none ∧ t.mem = s.mem
        ∧ t.c.levels = [{ v with alt := v.alt + 1, log := [], overs := [], verdicts := [], start := s.cyc, seqFrom := s.k.nextOp }]
        ∧ t.w.front = [{ pc := pc, mask := s.w.holds, src := v.header }] ∧ t.c.conv = some { x with voted := none, own := none, rolled := false })
    ∧ (told .exhaust → x.rolled = true → s.w.trapen.getLsbD 2 = false → s.c.hand = [] → (∀ y ∈ s.c.failing, 1 ≤ y.depth) →
      ∃ t, exec (.convExhaustNotice 0) s = .next t ∧ t.notices = rest ∧ t.c.done = some .exhausted ∧ t.w.holds = 0#32)
    ∧ (∀ verdict n, s.notices = ⟨s.c.id, n, verdict, x.pa⟩ :: rest → n ≠ x.serial →
      ∀ i ∈ [Instr.convCommitNotice 0, .convRollbackNotice 0, .convAdvanceNotice 0, .convExhaustNotice 0],
        exec i s = .next { s with notices := rest } ∨ exec i s = .next s)

/-- 08 R231: the first CONVJ of a cohort sends its JOIN and waits; an accepted one goes on, and a turned-away one raises the home's fault.
08 R232, 09 R268 to R270: a member accepts its level on COMMIT, fails on ROLLBACK with its own cause or cause 5, and after its rollback
starts the next alternate on ADVANCE and is exhausted on EXHAUST. A verdict for a conversation that it has left changes nothing.
It rests on the model's own readings and choices of log 47. -/
def Obligations.Conversations : Prop := Parts.ConversationJoins ∧ Parts.ConversationMembers

/-- 09 R266 to R270: the home of a conversation: a JOIN sets the member's bit of JOINED, a vote its bits of VOTED and YES, a FAIL is a false vote;
the last true vote commits, the first false one rolls back, and when all members have finished their rollbacks the attempt count advances or
the conversation is exhausted. -/
def Obligations.ConversationHome : Prop :=
  ∀ (s : State) (rest : List ConvMsg), s.stashOwners = [] → memWf s.mem = true → s.dir = [] → (∀ x ∈ s.parts, x.debugWin = none) →
    (∀ (c w : Nat) (va : DWord) (pa d : Nat) (x : Cohort), s.convMsgs = .join c w va pa d :: rest → s.cohort? c = some x → d ≤ x.levels.length →
      x.done = none → x.failing = none → x.conv = none → joinFault s pa (launchNo x.launch) = none → ∃ t, exec (.convJoinMessage 0) s = .next t ∧ t.convMsgs = rest
        ∧ (∃ m < 16, objectField t pa 8 2 = (objectField s pa 8 2 + 2 ^ m) % 2 ^ 16
          ∧ ∃ y, t.cohort? c = some y ∧ ∃ z, y.conv = some z ∧ z.va = va ∧ z.pa = pa ∧ z.member = m ∧ z.depth = d ∧ z.voted = none))
    ∧ (∀ (c pa m : Nat) (yes : Bool) (h : ConvHome), m < 16 → s.convs.find? (fun x => x.pa == pa) = some h →
      let voted := Nat.lor (objectField s pa 10 2) (2 ^ m)
      let yesBits := if yes then Nat.lor (objectField s pa 12 2) (2 ^ m)
        else objectField s pa 12 2 - (if (objectField s pa 12 2).testBit m then 2 ^ m else 0)
      ∀ i msg, ((i, msg) = (Instr.convVoteMessage 0, ConvMsg.vote c pa m yes) ∨ (yes = false ∧ (i, msg) = (Instr.convFailMessage 0, ConvMsg.fail c pa m))) →
        s.convMsgs = msg :: rest → ∃ t, exec i s = .next t ∧ t.convMsgs = rest
          ∧ objectField t pa 10 2 = voted ∧ objectField t pa 12 2 = yesBits
          ∧ (voted = objectField s pa 8 2 → yesBits = voted → bitsOf voted = objectField s pa 4 1 →
              objectField t pa 5 1 = 2 ∧ t.notices = s.notices ++ told s h .commit)
          ∧ (yesBits ≠ voted → objectField s pa 5 1 = 0 →
              objectField t pa 5 1 = 1 ∧ t.notices = s.notices ++ told s h .rollback))
    ∧ (∀ (c pa m : Nat) (alt : Bool) (h : ConvHome), m < 16 → s.convMsgs = .done c pa m alt :: rest → s.convs.find? (fun x => x.pa == pa) = some h →
      Nat.lor (objectField s pa 14 2) (2 ^ m) = objectField s pa 8 2 → ∃ t, exec (.convDoneMessage 0) s = .next t ∧ t.convMsgs = rest
        ∧ objectField t pa 10 2 = 0 ∧ objectField t pa 12 2 = 0 ∧ objectField t pa 14 2 = 0
        ∧ (h.noAlt = false → alt = true → objectField t pa 5 1 = 0 ∧ objectField t pa 16 4 = (objectField s pa 16 4 + 1) % 2 ^ 32
            ∧ t.notices = s.notices ++ told s h .advance)
        ∧ (h.noAlt = true ∨ alt = false → objectField t pa 5 1 = 3
            ∧ t.notices = s.notices ++ told s h .exhaust))

/-! System registers, traps and faults (chapters 01, 08 and 14). -/

/-- 01 R28 R30, 08 R239: MFSR delivers the CSR's value; numbers that are not listed, and those from 0x800 on outside trap mode, raise the
illegal-instruction fault on MFSR and MTSR alike. -/
def Sys2Proof.Parts.CsrReads : Prop :=
  ∀ (s : State) (p : Px) (d : Opnd) (n : BitVec 12),
    (∀ x, csrRead s n.toNat = some x → (n.toNat < 0x800 ∨ s.w.trapMode = true) → s.depth = 0 → Ready s p → landsIn s s.lanes d = true →
      exec (.mfsr p d n) s = done p (landed (latched s n.toNat) s.lanes (splat x) d))
    ∧ ((csrRead s n.toNat = none ∨ (0x800 ≤ n.toNat ∧ s.w.trapMode = false)) →
      exec (.mfsr p d n) s = .next (deliver s 0x01 0#64 none) ∧ exec (.mtsr p d n) s = .next (deliver s 0x01 0#64 none))

/-- 01 R28 R31, 08 R239: MTSR writes the value of the lowest lane into a writable CSR; a read-only CSR, and a bit that must be 0, raise the
illegal-operand fault, and nothing is written. -/
def Sys2Proof.Parts.CsrWrites : Prop :=
  ∀ (s : State) (p : Px) (d : Opnd) (n : BitVec 12) (l : Nat), plainSource d = true → s.lanes.lowest = some l →
    (csrRead s n.toNat).isSome = true → (n.toNat < 0x800 ∨ s.w.trapMode = true) →
    (∀ w, csrWritten s.w n.toNat ((sourceOf s d).get l) = some w → s.depth = 0 → Ready s p → exec (.mtsr p d n) s = done p { s with w := w })
    ∧ (csrWritten s.w n.toNat ((sourceOf s d).get l) = none → exec (.mtsr p d n) s = .next (deliver s 0x02 0#64 none))

/-- 01 R28 R30, 08 R239: MFSR delivers the CSR's value; numbers that are not listed, and those from 0x800 on outside trap mode, raise the
illegal-instruction fault on MFSR and MTSR alike.
01 R28 R31, 08 R239: MTSR writes the value of the lowest lane into a writable CSR; a read-only CSR, and a bit that must be 0, raise the
illegal-operand fault, and nothing is written. -/
def Obligations.Csrs : Prop := Parts.CsrReads ∧ Parts.CsrWrites

/-- 14 R363 R366, 09 R260: a program fault fails the open level with cause 3 and the fault's code; in trap mode it freezes the fibre with a record
of kind 5; with a handler it enters it with cause 1; otherwise it freezes the fibre with a record of kind 4. -/
def Sys2Proof.Parts.FaultDelivery : Prop :=
  ∀ (s : State) (code : Nat) (addr : DWord) (lanes : Mask), code < 256 →
    (s.depth ≠ 0 → s.c.conv = none → s.c.failing = none →
      deliver s code addr (some lanes) = { s with c := { s.c with failing := some ⟨s.depth, 3, code, 0⟩ } })
    ∧ (s.depth = 0 → s.w.trapMode = true → frozenWith s (deliver s code addr (some lanes)) 5)
    ∧ (s.depth = 0 → mayTrap s → inHandler s (deliver s code addr (some lanes)) 1 code s.cur.pc s.cur.pc addr lanes)
    ∧ (s.depth = 0 → s.w.trapMode = false → s.l.handlerPc = 0#32 → frozenWith s (deliver s code addr (some lanes)) 4)

/-- 08 R240 R244: TRAP enters the handler with cause 6, its code as detail and TRAPPC after its group; in trap mode it is illegal, and without a
handler it freezes the fibre. BRK enters with cause 5 when TRAPEN.3 asks for it. -/
def Sys2Proof.Parts.TrapEntry : Prop :=
  ∀ (s : State) (p : Px) (code : BitVec 8),
    (mayTrap s → ∃ t, exec (.trap p code) s = .next t ∧ inHandler s t 6 code.toNat (s.nextPc p) s.cur.pc 0#64 s.cur.mask)
    ∧ (s.w.trapMode = true → exec (.trap p code) s = .next (deliver s 0x01 0#64 none))
    ∧ (s.w.trapMode = false → s.l.handlerPc = 0#32 → ∃ t, exec (.trap p code) s = .next t ∧ frozenWith s t 4)
    ∧ (mayTrap s → s.w.trapen.getLsbD 3 = true → ∃ t, exec (.brk p code) s = .next t ∧ inHandler s t 5 code.toNat (s.nextPc p) s.cur.pc 0#64 s.cur.mask)
    ∧ (s.l.handlerPc ≠ 0#32 → s.w.trapMode = false → s.sl.holder ≠ none → s.sl.holder ≠ some s.w.id → ∃ t, exec (.trap p code) s = .next t
        ∧ t.w.trapMode = false ∧ t.w.trapWait = some ⟨6, code.toNat, s.nextPc p, s.cur.pc, 0#64, s.cur.mask⟩)

/-- 08 R241: TRET ends trap mode: the entries set aside come back without the threads that ended, the trapped entry at TRAPPC, and the shadows
are zeroed and free. Outside trap mode it is illegal. -/
def Sys2Proof.Parts.TrapReturn : Prop :=
  ∀ (s : State) (p : Px),
    (s.w.trapMode = false → exec (.tret p) s = .next (deliver s 0x01 0#64 none))
    ∧ (∀ es e, s.w.trapMode = true → s.w.aside = some (es, e) → s.sl.holder = some s.w.id → s.l.travel = false →
      s.w.resident = true → s.w.cid = s.c.id → (∃ x ∈ e :: es, x.parked = false ∧ x.mask &&& s.w.holds ≠ 0#32) →
      ∃ t, exec (.tret p) s = .next t ∧ t.w.trapMode = false ∧ t.w.aside = none ∧ t.sl.holder = none
        ∧ t.sl.shadow = List.replicate 8 (List.replicate 32 0#32) ∧ t.w.regs = s.w.regs ∧ t.w.sregs = s.w.sregs ∧ t.mem = s.mem
        ∧ (es = [] → e.mask &&& s.w.holds ≠ 0#32 → e.parked = false → t.w.front.map (fun x => (x.pc, x.mask)) = [(s.w.trapPc, e.mask &&& s.w.holds)])
        ∧ (∀ l, (t.w.front.any fun x => x.mask.has l) = ((e :: es).any fun x => x.mask.has l && s.w.holds.has l)))

/-- 14 R363 R366, 09 R260: a program fault fails the open level with cause 3 and the fault's code; in trap mode it freezes the fibre with a record
of kind 5; with a handler it enters it with cause 1; otherwise it freezes the fibre with a record of kind 4.
08 R240 R244: TRAP enters the handler with cause 6, its code as detail and TRAPPC after its group; in trap mode it is illegal, and without a
handler it freezes the fibre. BRK enters with cause 5 when TRAPEN.3 asks for it.
08 R241: TRET ends trap mode: the entries set aside come back without the threads that ended, the trapped entry at TRAPPC, and the shadows
are zeroed and free. Outside trap mode it is illegal.
The fault code in the record of a TRAP without a handler is a free value (log 12). -/
def Obligations.FaultsAndTraps : Prop := Parts.FaultDelivery ∧ Parts.TrapEntry ∧ Parts.TrapReturn

/-- 08 R242 R244 to R246: TBSET sets a tile buffer's bit, MARK appends a record, BRK and HALTSELF ask for a halt of a claimed launch and do nothing
otherwise. -/
def Obligations.DebugInstructions : Prop :=
  ∀ (s : State) (p : Px), Ready s p →
    (∀ code : BitVec 8, (s.w.trapMode = true ∨ s.w.trapen.getLsbD 3 = false ∨ s.l.handlerPc = 0#32) →
      (s.l.claimer = none → exec (.brk p code) s = done p s)
      ∧ (s.l.claimer ≠ none → exec (.brk p code) s = done p { s with w := { s.w with haltReq := true, haltWhy := (2, code.toNat) } }))
    ∧ (s.l.claimer = none → exec (.haltself p) s = done p s)
    ∧ (s.l.claimer ≠ none → exec (.haltself p) s = done p { s with w := { s.w with haltReq := true, haltWhy := (3, 0) } })
    ∧ (∀ (d : Opnd) (code : BitVec 12) (l : Nat), plainSource d = true → s.w.holds.lowest = some l →
      exec (.mark p d code) s = done p (traceAt s { s.cur with pc := s.wordPc p } (s.wordPc p) 2 0 0 code.toNat ((sourceOf s d).get l))
      ∧ ((s.l.claimer = none ∨ s.l.trace = false) → exec (.mark p d code) s = done p s))
    ∧ (∀ (n : Fin 16) (v : Bool) (id : Nat), s.depth = 0 → s.lanes ≠ 0#32 → s.w.sregs.getD n.val 0#32 = ofN id → 0 < id → id < 32 →
      (∃ b ∈ s.l.tbufs, b.id = id) → (∀ h ∈ s.held, h.warp ≠ s.w.id) →
      exec (.tbset p (.s n) v) s = done p { s with l := { s.l with tbufs := s.l.tbufs.map fun b => if b.id = id then { b with full := v } else b } })

/-- 01 R31, 14 R367, 06 R173 R174, 04 R120: a timer that reaches its comparator becomes pending, its trap is entered with cause 2 at a boundary, a trap
that waited for the shadows is entered once they are free, and waits end when what they wait for has come.
It rests on the model's own readings and choices of logs 49, 55. -/
def Obligations.TimersAndWaits : Prop :=
  ∀ (s : State),
    (∀ w x, s.warp? w = some x → x.holds ≠ 0#32 → x.timerEn = true → x.timerPend = false → x.timerCmp.toNat ≤ s.now →
      ∃ t, exec (.timerFire w) s = .next t ∧ t.mem = s.mem ∧ (∃ y, t.warp? w = some y ∧ y.timerPend = true)
        ∧ (x.timerOne = false ∨ (s.focus w).depth = 0 → t.warp? w = some { x with timerPend := true, timerEn := !x.timerOne }))
    ∧ (s.w.resident = true → s.w.holds ≠ 0#32 → mayTrap s → s.w.timerPend = true → s.w.trapen.getLsbD 0 = true → s.w.trapWait = none →
      s.w.stopped = false → s.w.frozen = none → s.w.stall = none → s.w.keep = .none → breaksNow s s.w.id = none →
      s.c.done = none → s.c.failing = none → ∃ t, exec (.timerTrapEntry s.w.id) s = .next t ∧ inHandler s t 2 0 s.cur.pc s.cur.pc 0#64 s.cur.mask)
    ∧ (∀ i : TrapInfo, s.w.resident = true → s.w.holds ≠ 0#32 → s.w.trapWait = some i → s.sl.holder = none → s.c.done = none → s.cur ∈ s.w.front →
      s.w.halted = false → s.w.haltReq = false → staysHere s s.cur.pc = true → i.cause ≠ 3 → i.detail < 256 → ∃ t, exec (.shadowWaitTrapEntry s.w.id) s = .next t ∧ inHandler s t i.cause i.detail i.pc i.blame i.addr i.lanes)
    ∧ (∀ w x st last watch c, s.warp? w = some x → x.holds ≠ 0#32 → x.stall = some ⟨.wait, c⟩ → x.keep = .waita st last watch →
      (last + 1000 ≤ s.now ∨ (∃ y ∈ watch, lineStamp s y.1 ≠ y.2) → ∃ t, exec (.waitaRecheck w) s = .next t ∧ t.warp? w = some { x with stall := none })
      ∧ (st + x.waitlim.toNat ≤ s.now → ∃ t, exec (.waitaTimeout w) s = .next t ∧ t.warp? w = some { x with stall := none }))
    ∧ (∀ w x st due c, s.warp? w = some x → x.holds ≠ 0#32 → x.stall = some ⟨.wait, c⟩ → x.keep = .sleep st due → due ≤ s.now →
      ∃ t, exec (.sleepuDeadline w) s = .next t ∧ t.warp? w = some { x with stall := none })
    ∧ (∀ st due c, s.w.resident = true → s.w.holds ≠ 0#32 → s.w.stall = some ⟨.wait, c⟩ → s.w.keep = .sleep st due → wakeWord s = true →
      ∃ t, exec (.sleepuCompletionWake s.w.id) s = .next t ∧ t.w = { s.w with stall := none })
    ∧ (∀ k c, s.w.resident = true → s.w.holds ≠ 0#32 → s.w.stall = some ⟨k, c⟩ →
      (c = .noHeld ∧ (∀ h ∈ s.held, h.warp ≠ s.w.id)) ∨ (∃ n ph, c = .bar n ph ∧ ph < (s.bar n).phase) ∨ (∃ va acc ls n src, c = .xlate va acc ls n src ∧ (transl s va acc).isSome = true) →
      ∃ t, exec (.stallReissue s.w.id) s = .next t ∧ t.w = { s.w with stall := none } ∧ t.mem = s.mem)

/-! Tiles (chapter 07). -/

/-- 07 R182 to R186 R190 to R194: TLALLOC binds a free name to a new tile of its record or waits, or tells through predicate 7; TLFREE unbinds a
name, and a tile that nothing uses goes; TLGIVE and TLTAKE hand a tile from one warp to another in order; a name that is not bound raises
HANDLE.STALE, a bound one HANDLE.BOUND, a wrong partner HANDLE.GIVE.
It rests on the model's own readings and choices of log 24. -/
def Obligations.TileNames : Prop :=
  ∀ (s : State) (p : Px) (h : BitVec 5) (i : BitVec 4), Ready s p → s.depth = 0 → s.k.seq.length < 32 → s.l.travel = false →
    let other := (s.w.sregs.getD i.toNat 0#32).toNat
    (∀ (kind : BitVec 2) (nw : Bool) (r : TRec), kind ≠ 3#2 → i.toNat ≤ 12 → handleOf s h.toNat = none → goodRecord (kindOfNo kind.toNat) r →
      (∀ j < 4, s.w.sregs.getD (i.toNat + j) 0#32 = recordWord r j) →
      let f : TaForm := ⟨h, kind, i, false, nw⟩
      let g := granulesOf (kindOfNo kind.toNat) r
      (∀ plane, planeFor s.k (kindOfNo kind.toNat) g = some plane → handlesUsed s < s.l.handles → (freeHandle s.k).isSome = true → s.w.asked = none →
        let tile : Tile := { phys := freshPhys s.k, handle := freeHandle s.k, launch := s.l.num, cid := s.c.id, kind := kindOfNo kind.toNat, record := r
                             plane := plane, store := freshStore s.k, granules := g }
        let u := { named s h.toNat (some (freshPhys s.k)) with k := { s.k with tiles := tile :: s.k.tiles } }
        exec (.tlalloc p f) s = done p (if nw then predicated u 7 s.w.holds (fun _ => true) else u))
      ∧ (planeFor s.k (kindOfNo kind.toNat) g = none ∨ s.l.handles ≤ handlesUsed s ∨ freeHandle s.k = none →
        (nw = true → exec (.tlalloc p f) s = done p (predicated s 7 s.w.holds fun _ => false))
        ∧ (nw = false → exec (.tlalloc p f) s = .next (stallWarp s p.sos .quota (.alloc kind.toNat g)))))
    ∧ (tileOf s h.toNat = none → ∀ x ∈ [Instr.tlfree p h, .tlgive p h i, .tlload p h i, .tlstore p h i, .tlsync p h],
        exec x s = .next (deliver s 0x38 0#64 none))
    ∧ (handleOf s h.toNat ≠ none → exec (.tltake p h i) s = .next (deliver s 0x39 0#64 none))
    ∧ (∀ phys, handleOf s h.toNat = some phys → (tileAt s.k phys).isSome = true →
      (∃ t, exec (.tlfree p h) s = done p t ∧ t = { named s h.toNat none with k := { s.k with tiles := t.k.tiles } }
        ∧ ((s.k.tiles.map (·.phys)).Nodup → ∀ x ∈ s.k.tiles, x.phys ≠ phys → x.freed = false → x.handle ≠ none → x ∈ t.k.tiles)
        ∧ (s.k.seq = [] → pinnedTile s phys = false → (∀ x ∈ s.k.tiles, x.pend = none) → ∀ x ∈ t.k.tiles, x.phys ≠ phys))
      ∧ ((∃ v ∈ s.allWarps, v.cid = s.c.id ∧ v.holds ≠ 0#32 ∧ v.lidx = other) → other ≠ s.w.lidx → handUsed s < 32 →
        exec (.tlgive p h i) s =
          done p { named s h.toNat none with c := { s.c with hand := s.c.hand ++ [(65536 * s.w.lidx + other, phys)] } })
      ∧ (other = s.w.lidx ∨ (∀ v ∈ s.allWarps, v.cid = s.c.id → v.holds ≠ 0#32 → v.lidx ≠ other) →
        exec (.tlgive p h i) s = .next (deliver s 0x3A 0#64 none)))
    ∧ (handleOf s h.toNat = none → other ≠ s.w.lidx → other < s.c.warpsN →
      let n := 65536 * other + s.w.lidx
      (∀ phys before after, s.c.hand = before ++ (n, phys) :: after → (∀ x ∈ before, x.1 ≠ n) →
        exec (.tltake p h i) s = done p { named s h.toNat (some phys) with c := { s.c with hand := before ++ after } })
      ∧ ((∀ x ∈ s.c.hand, x.1 ≠ n) →
        ((∃ v ∈ s.allWarps, v.cid = s.c.id ∧ v.holds ≠ 0#32 ∧ v.lidx = other) →
          exec (.tltake p h i) s = .next (stallWarp s p.sos .queue (.hand n)))
        ∧ ((∀ v ∈ s.allWarps, v.cid = s.c.id → v.holds ≠ 0#32 → v.lidx ≠ other) →
          exec (.tltake p h i) s = .next (deliver s 0x3A 0#64 none))))

/-- 07 R187 R188 R195 R196 R200 R201 R206: TLLOAD, TLSTORE, MMLOOP and HADT check their tiles and put one entry into the core's sequencer; the
tile that an entry writes takes a fresh physical handle. A sequencer RUN does what MMLOOP does.
It rests on the model's own readings and choices of logs 24, 45. -/
def Obligations.TileIssue : Prop :=
  ∀ (s : State) (p : Px), Ready s p → s.depth = 0 → s.k.seq.length < 32 →
    (∀ (h : BitVec 5) (i : BitVec 4) (t : Tile) (base lstride sstride flags : Nat) (pages : List (Nat × Nat)),
      tileOf s h.toNat = some t → mapAt s (s.w.sregs.getD i.toNat 0#32).toNat t base lstride sstride flags →
      let m := Ref.mapOf t base lstride sstride flags
      (runsReady s t m false pages → settledTile s t → exec (.tlload p h i) s =
        done p (queued (renamed s h.toNat t) [h.toNat] (.load (freshPhys s.k) m h.toNat 0) pages (some t.phys)))
      ∧ (runsReady s t m true pages → exec (.tlstore p h i) s = done p (queued s [h.toNat] (.store t.phys m 0) pages none)))
    ∧ (∀ (hc ha hb : BitVec 5) (i : BitVec 4) (acc : Bool) (c : Tile) (n ainc binc : Nat), tileOf s hc.toNat = some c →
      (tileOf s ha.toNat).isSome = true → (tileOf s hb.toNat).isSome = true → n < 65536 → ainc < 16 → binc < 16 → settledTile s c →
      stepsFit s c (stepNames ha.toNat hb.toNat ainc binc n) →
      let u := looped s hc.toNat ha.toNat hb.toNat ainc binc n c acc
      let loop := ofN (n + 2 ^ 16 * ainc + 2 ^ 20 * binc)
      (s.w.sregs.getD i.toNat 0#32 = loop → exec (.mmloop p ⟨hc, ha, hb, i, acc, false⟩) s = done p u)
      ∧ (s.w.resident = true → s.w.holds ≠ 0#32 →
        exec (.mseqRun s.w.id (ofN (2 ^ 28 + 2 ^ 23 * hc.toNat + 2 ^ 18 * ha.toNat + 2 ^ 13 * hb.toNat + 2 ^ 12 * acc.toNat)) loop) s = .next u))
    ∧ (∀ (f : HtForm) (d x : Tile), tileOf s f.hd.toNat = some d → tileOf s f.hs.toNat = some x → x.kind = .c → x.record.spanlog = 0 →
      d.record.spanlog = 0 → d.record.m = x.record.m → x.record.n % Nat.lcm 48 (16 * 2 ^ f.size.toNat) = 0 → settledTile s d →
      let w := s.w.sregs.getD f.s.toNat 0#32
      let u := fun quant => queued (renamed s f.hd.toNat d) [f.hd.toNat, f.hs.toNat] (.hadt (freshPhys s.k) x.phys (16 * 2 ^ f.size.toNat) quant) []
        (some d.phys)
      (f.q = false → f.s = 0#4 → d.kind = .c → d.record.n = x.record.n → exec (.hadt p f) s = done p (u none))
      ∧ (f.q = true → quantOk w d.record = true → d.kind = .a → d.record.k = x.record.n → exec (.hadt p f) s = done p (u (some w))))

/-- 07 R185 R187 R197 R199: TLSYNC waits while an entry of the warp that named the handle is in the sequencer, and any tile instruction while the
queue is full; an entry starts when the tiles that it reads are filled and the one that it writes has a handle; broadcast rows fill the allocation
that they are for, and wait for one that is still to come.
It rests on the model's own readings and choices of logs 44, 45. -/
def Obligations.TileOrder : Prop :=
  ∀ (s : State),
    (∀ (p : Px) (h : BitVec 5), Ready s p → (tileOf s h.toNat).isSome = true →
      let mine := s.k.seq.filter fun o => o.warp == s.w.id
      let here := mine.filter fun o => o.names.contains h.toNat
      (32 ≤ s.k.seq.length → ∀ i ∈ [Instr.tlsync p h, .tlsyncAll p, .tlfree p h], exec i s = .next (stallWarp s p.sos .queue .seqRoom))
      ∧ (s.k.seq.length < 32 →
      (here = [] → ∃ pts, s.k.pts ≤ pts ∧ exec (.tlsync p h) s = done p { s with k := { s.k with pts := pts } })
      ∧ (here ≠ [] → exec (.tlsync p h) s = .next (stallWarp s p.sos .operand (.tiles (here.map (·.id)))))
      ∧ (mine = [] → ∃ pts, s.k.pts ≤ pts ∧ exec (.tlsyncAll p) s = done p { s with k := { s.k with pts := pts } })
      ∧ (mine ≠ [] → exec (.tlsyncAll p) s = .next (stallWarp s p.sos .operand (.tiles (mine.map (·.id)))))))
    ∧ (∀ (core : Nat) (o : TileOp), (s.coreOf core).seq = [o] → o.hold = none → o.running = false →
      (∀ d m n k, o.work = .load d m n k → m.acq = false) →
      (∀ d m b, o.work = .store d m b → m.acq = false) →
      ((∀ x ∈ o.work.reads, ∀ t, tileAt (s.coreOf core) x = some t → t.pend = none) →
        (∀ x, o.work.writes = some x → ∀ t, tileAt (s.coreOf core) x = some t → t.handle ≠ none) →
        ∃ u, exec (.tileSequencerStart core o.id) s = .next u ∧ u.mem = s.mem
          ∧ (u.coreOf core).seq = [{ o with running := true, due := s.cyc + workTime (s.coreOf core) o.rest }])
      ∧ ((∃ x ∈ o.work.reads, ∃ t, tileAt (s.coreOf core) x = some t ∧ t.pend ≠ none) → exec (.tileSequencerStart core o.id) s = .next s)
      ∧ ((∃ x t, o.work.writes = some x ∧ tileAt (s.coreOf core) x = some t ∧ t.handle = none) → exec (.tileSequencerStart core o.id) s = .next s))
    ∧ (∀ (core i : Nat) (r : Rows) (l : Launch), (s.coreOf core).arrived[i]? = some r → s.launch? r.launch = some l → l.doneIdx.contains r.index = false →
      l.stopAll = false →
      let there := s.allCohorts.find? fun c => c.launch == r.launch && c.index == r.index
      let before := fun c : Cohort => ∃ j < i, ∃ x y, rowsMeet s core j = some (x, some y) ∧ y.1.core = c.core
      (∀ c t, there = some c → c.done = none → (s.coreOf c.core).tiles.find? (fun t => t.gang == some (c.id, r.name, r.nth)) = some t → t.freed = false →
        (before c → exec (.aRowsBroadcastArrive core i) s = .next s)
        ∧ (¬ before c → ∃ u, exec (.aRowsBroadcastArrive core i) s = .next u ∧ (u.coreOf core).arrived = (s.coreOf core).arrived.eraseIdx i
          ∧ ∃ x, tileAt (u.coreOf c.core) t.phys = some x ∧ x.data = some r.data ∧ x.scales = r.scales ∧ x.pend = none))
      ∧ (∀ c, there = some c → c.done = none → (∀ t ∈ (s.coreOf c.core).tiles, t.gang ≠ some (c.id, r.name, r.nth)) →
        (allocCount (s.coreOf c.core) c.id r.name).1 < r.nth → exec (.aRowsBroadcastArrive core i) s = .next s)
      ∧ (there = none → exec (.aRowsBroadcastArrive core i) s = .next s))

/-- 07 R187 R196 R198 R202: an entry that retires leaves the sequencer: a load fills its tile from the bytes of its lines, a store writes the codes
of its tile to these places and nothing else, a matrix loop gives each C element its K-steps in order, each rounded once.
It rests on the model's own readings and choices of logs 27, 45. -/
def Obligations.TileRetire : Prop :=
  ∀ (s : State) (o : TileOp), ripe s o →
    let reach := o.farSince = none ∧ routed s (workLines s s.k o) = true
    (∀ (dst name : Nat) (m : OpMap) (t : Tile), o.work = .load dst m name 0 → m.shared = false → tileAt s.k dst = some t → fmtBits t.record.fmt = 8 →
      t.record.blk = false → t.freed = false → quiet s → reach → ∃ u, exec (.tileInstrRetire s.k.id o.id) s = .next u ∧ u.k.seq = [] ∧ u.mem = s.mem
        ∧ ∃ x, tileAt u.k dst = some x ∧ x.pend = none ∧ x.data = some ((List.range (tileLines t)).flatMap fun j =>
            (List.range (tileLineLen t)).map fun i => ofN (memGet s.mem (tilePlace m o.pages j i)).toNat))
    ∧ (∀ (src : Nat) (m : OpMap) (t : Tile) (d : List Word), o.work = .store src m 0 → m.shared = false → m.rel = false → tileAt s.k src = some t →
      fmtBits t.record.fmt = 8 → t.record.blk = false → t.data = some d → quiet s → reach → (∀ x ∈ s.allLaunches, x.check = false) → memWf s.mem = true →
      (∀ j < tileLines t, ∀ j' < tileLines t, ∀ i < tileLineLen t, ∀ i' < tileLineLen t,
        tilePlace m o.pages j i = tilePlace m o.pages j' i' → j = j' ∧ i = i') →
      ∃ u, exec (.tileInstrRetire s.k.id o.id) s = .next u ∧ u.k.seq = []
        ∧ (∀ j < tileLines t, ∀ i < tileLineLen t, memGet u.mem (tilePlace m o.pages j i) = BitVec.ofNat 8 (d.getD (j * tileLineLen t + i) 0#32).toNat)
        ∧ (∀ a, (∀ j < tileLines t, ∀ i < tileLineLen t, a ≠ tilePlace m o.pages j i) → memGet u.mem a = memGet s.mem a))
    ∧ (∀ (dst old pa pb : Nat) (t a b : Tile) (x y : List Word), o.work = .mm dst old false [(pa, pb)] 0 → tileAt s.k dst = some t → t.freed = false →
      pa ≠ pb → tileAt s.k pa = some a → tileAt s.k pb = some b → a.data = some x → b.data = some y →
      ∃ u, exec (.tileInstrRetire s.k.id o.id) s = .next u ∧ u.k.seq = [] ∧ u.mem = s.mem ∧ ∃ z, tileAt u.k dst = some z ∧ z.pend = none
        ∧ z.data = some ((List.range (t.record.m * t.record.localN)).map fun i =>
          let da : TData := { fmt := a.record.fmt, len := tileLineLen a, data := x, scales := a.scales, blk := a.record.blk }
          let db : TData := { fmt := b.record.fmt, len := tileLineLen b, data := y, scales := b.scales, blk := b.record.blk }
          ofN (f32.deliver 0#2 false (sumNums 0#2 [f32.read false 0, stepSum 0 da db (i / t.record.localN) (i % t.record.localN)]).1).1))
    ∧ (∀ (dst src n : Nat) (t x : Tile) (d : List Word), o.work = .hadt dst src n none → tileAt s.k dst = some t → t.freed = false →
      tileAt s.k src = some x → x.data = some d → ∃ u, exec (.tileInstrRetire s.k.id o.id) s = .next u ∧ u.k.seq = []
        ∧ ∃ z, tileAt u.k dst = some z ∧ z.pend = none ∧ z.data = some ((List.range t.record.m).flatMap fun i =>
          hadRow n ((List.range x.record.n).map fun j => d.getD (i * x.record.n + j) 0#32)))

/-! Engines (chapter 07). -/

/-- 07 R207 to R210: a complete command is checked in the table's order: it is rejected with its DETAIL, or accepted with the promise of R210;
the record is written before the first read; a finished FILL has written its bytes and no others and pushes a completion word; a command
whose translation is not served by its promise fails with DETAIL 1.
It rests on the model's own readings and choices of logs 25, 27, 62. -/
def Obligations.CopyCommands : Prop :=
  ∀ (s : State) (cl ch : Nat),
    (∀ (w : Nat) (v : Warp) (y : Cohort) (x : CopyLine), s.warp? w = some v → s.cohort? v.cid = some y → ch < (s.cluster cl).chans.length →
      (channel s cl ch).parts = [(w, x.words)] → x.fits →
      let c := channel s cl ch
      let m := x.cmd s.nextId w v.cid y.launch
      ∃ u, exec (if x.opc = 2 then .fillCmd cl ch w else .copyCmd cl ch w) s = .next u ∧ u.mem = s.mem ∧ (channel u cl ch).parts = []
        ∧ (x.detail ≠ 0 → (channel u cl ch).cmds = c.cmds ++ [{ m with final := some (4, x.detail, 0) }])
        ∧ (x.detail = 0 → let promise := max s.now c.last + 2000 + ceilDiv (x.count * 2 ^ x.esz) c.g
            (channel u cl ch).last = promise ∧ (channel u cl ch).cmds = c.cmds ++ [{ m with promise := promise }]))
    ∧ (∀ (m : CopyCmd) (l : Launch), (channel s cl ch).cmds = [m] → s.launch? m.launch = some l → m.final = none → m.dstSh = false → savedCohort s m.cid = false →
      (channel s cl ch).words.length < 64 →
      let done := fun state detail : Nat => (channel s cl ch).words ++ [(m.cid, ofN (2 ^ 24 * m.tag + 2 ^ 16 * state + 2 ^ 8 * detail))]
      (∀ pa, m.stage = .accepted → m.openFault = none → m.lost = false → m.record ≠ 0#64 → enginePa s l m.record { wr := true } = .ok pa → copyRouted s l m → quiet s → memWf s.mem = true →
        ∃ u, exec (.copyCmdComplete cl ch 0) s = .next u ∧ (channel u cl ch).cmds = [{ m with stage := .running }]
          ∧ onlyBytes s u 16 (pa + ·) fun i => (leBytes 4 (2 ^ 24 * m.tag + 2 ^ 16) ++ leBytes 4 0 ++ leBytes 8 m.promise).getD i 0#8)
      ∧ (∀ pa, m.stage = .running → m.openFault = none → m.lost = false → m.acq = false → m.fill = true → m.dims = [] → 0 < m.esz → m.record = 0#64 →
        (m.rel && m.scope == 5) = false → l.check = false → copyRouted s l m → quiet s → memWf s.mem = true →
        placedAt s l m.dst { wr := true } (m.count0 * m.esz) pa →
        ∃ u, exec (.copyCmdComplete cl ch 0) s = .next u ∧ (channel u cl ch).cmds = [] ∧ (channel u cl ch).words = done 2 0
          ∧ onlyBytes s u (m.count0 * m.esz) pa fun i => BitVec.ofNat 8 (m.src.toNat / 256 ^ (i % m.esz)))
      ∧ (∀ token kind, m.stage = .running → m.openFault = some (token, kind) → m.record = 0#64 → m.promise ≠ 0 → m.promise ≤ s.now →
        ∃ u, exec (.copyPromiseExpiry cl ch 0) s = .next u ∧ (channel u cl ch).cmds = [] ∧ (channel u cl ch).words = done 3 1
          ∧ ∀ f ∈ u.faults, f.token ≠ token))

/-- 07 R212 to R214: a complete command leaves its queue whole; OPEN makes an empty bin set, COUNT adds up the destination ids of its array, BIND is noted,
CLOSE writes the counts and pushes the result word; a command with a reserved OP only pushes a result word with status 3.
It rests on the model's own readings and choices of logs 28, 62. -/
def Obligations.ThresherCommands : Prop :=
  ∀ (s : State) (die w set : Nat), set < 16 →
    (∀ (m : ThrCmd) (l : Launch), (s.die die).thr.cmds = [m] → m.warp = w → m.openFault = none → m.lost = false → m.farSince = none →
      s.launch? m.launch = some l →
      let t := (s.die die).thr
      let head := fun op low : Nat => ofN (2 ^ 28 * op + 2 ^ 24 * set + low)
      (∀ n lo hi, 1 ≤ n → n ≤ 4096 → (∀ b ∈ t.sets, ¬ (b.launch = m.launch ∧ b.set = set)) → m.words = [head 1 n, lo, hi] → ∃ u, exec (.thresherOpen die w) s = .next u ∧ (u.die die).thr.cmds = [] ∧ u.mem = s.mem
        ∧ (u.die die).thr.sets = t.sets ++ [{ launch := m.launch, set := set, ndest := n, addr := hi ++ lo, counts := List.replicate n 0 }])
      ∧ (∀ (n : Nat) (lo hi : Word) (b : BinSet) (pa : Nat → Nat), n < 2 ^ 32 → m.words = [head 2 0, lo, hi, ofN n] → t.sets = [b] → b.launch = m.launch → b.set = set →
        b.counts.length = b.ndest → placedAt s l (hi ++ lo) { rd := true } (2 * n) pa → walksOk s l (hi ++ lo) (2 * n) → quiet s →
        ∃ u, exec (.thresherCount die w) s = .next u ∧ (u.die die).thr.cmds = [] ∧ u.mem = s.mem ∧ ∃ c : BinSet, (u.die die).thr.sets = [c]
          ∧ c = { b with counts := c.counts, overflow := c.overflow, total := b.total + n } ∧ c.counts.length = b.ndest
          ∧ (∀ d < b.ndest, c.counts.getD d 0 = b.counts.getD d 0 + ((List.range n).filter fun i => destId s pa i == d).length)
          ∧ c.overflow = b.overflow + ((List.range n).filter fun i => decide (b.ndest ≤ destId s pa i)).length)
      ∧ (∀ (key dest field dim mult shift : Nat) (bias : Word) (b : BinSet), key < 256 → dest < 65536 → dest < b.ndest → field < 2 → dim < 16 → mult < 65536 → shift < 32 →
        m.words = [head 3 (2 ^ 16 * key + dest), ofN (16 * dim + field), ofN (2 ^ 16 * shift + mult), bias] → t.sets = [b] → b.launch = m.launch → b.set = set →
        ∃ u, exec (.thresherBind die w) s = .next u ∧ (u.die die).thr.cmds = [] ∧ u.mem = s.mem
          ∧ (u.die die).thr.sets = [{ b with binds := b.binds ++ [{ key := key, dest := dest, dim := dim, field := field, mult := mult, shift := shift, bias := bias }] }])
      ∧ (∀ (b : BinSet) (pa : Nat → Nat), m.words = [head 4 0] → t.sets = [b] → b.launch = m.launch → b.set = set → b.binds = [] → b.bad = false →
        (t.results.filter fun r => r.1 == m.launch).length < 32 → b.counts.length = b.ndest → l.check = false → quiet s → memWf s.mem = true → walksOk s l b.addr (4 * b.ndest) →
        placedAt s l b.addr { wr := true } (4 * b.ndest) pa →
        ∃ u, exec (.thresherClose die w) s = .next u ∧ (u.die die).thr.cmds = [] ∧ (u.die die).thr.sets = []
          ∧ onlyBytes s u (4 * b.ndest) pa (fun i => BitVec.ofNat 8 (b.counts.getD (i / 4) 0 / 256 ^ (i % 4)))
          ∧ (u.die die).thr.results = t.results ++
              [(m.launch, ofN (2 ^ 28 * set + 2 ^ 24 * (if b.overflow = 0 then 0 else 1) + min b.total (2 ^ 24 - 1)))]))
    ∧ (∀ (v : Warp) (y : Cohort) (op low : Nat) (ws : List Word), s.warp? w = some v → s.cohort? v.cid = some y → (s.die die).thr.cmds = [] → op < 16 → low < 2 ^ 24 →
      ws.headD 0#32 = ofN (2 ^ 28 * op + 2 ^ 24 * set + low) → ws.length = thrLen (ws.headD 0#32) → (s.die die).thr.parts = [(w, ws)] →
      ∃ u, exec (if op = 1 then .thresherOpen die w else if op = 2 then .thresherCount die w else if op = 3 then .thresherBind die w
          else .thresherClose die w) s = .next u ∧ u.mem = s.mem ∧ (u.die die).thr.parts = []
        ∧ (u.die die).thr.cmds = [{ id := s.nextId, warp := w, launch := y.launch, words := ws }])
    ∧ (∀ (m : ThrCmd) (l : Launch) (op : Nat), (s.die die).thr.cmds = [m] → m.warp = w → m.openFault = none → s.launch? m.launch = some l → op = 0 ∨ 4 < op ∧ op < 16 →
      m.words = [ofN (2 ^ 28 * op + 2 ^ 24 * set)] → ((s.die die).thr.results.filter fun r => r.1 == m.launch).length < 32 →
      ∃ u, exec (.thresherClose die w) s = .next u ∧ u.mem = s.mem ∧ (u.die die).thr.cmds = []
        ∧ (u.die die).thr.results = (s.die die).thr.results ++ [(m.launch, ofN (2 ^ 28 * set + 2 ^ 24 * 3))])

/-- 07 R216, 12 R323 R324: a message arrives in its sender's order; one with a bad handler or for a cohort that has ended is dropped and counted; a
handler warp starts at its handler with all lanes, the payload in v0, and the sender and the count in s0 to s2.
It rests on the model's own readings and choices of log 29. -/
def Obligations.ActiveMessages : Prop :=
  ∀ (s : State),
    (∀ (core i : Nat) (m : AmMsg) (l : Launch), (s.coreOf core).am[i]? = some m → m.arrived = false → s.launch? m.launch = some l →
      let behind := ∃ x ∈ (s.coreOf core).am.take i, amFlow s x m = true ∧ x.arrived = false
      let bad := m.handler.toNat % 4 ≠ 0 ∨ 28 < m.count.toNat ∨ m.target.toNat ∈ l.doneIdx
      (behind → exec (.amArrive core i) s = .next s)
      ∧ (¬ behind → ¬ bad → ∃ u, exec (.amArrive core i) s = .next u ∧ u.mem = s.mem ∧ u.launch? m.launch = some l
        ∧ (u.coreOf core).am = (s.coreOf core).am.modify i fun x => { x with arrived := true })
      ∧ (¬ behind → bad → ∃ u, exec (.amArrive core i) s = .next u ∧ u.mem = s.mem ∧ u.launch? m.launch = some { l with amDrop := l.amDrop + 1 }
        ∧ (u.coreOf core).am = (s.coreOf core).am.eraseIdx i))
    ∧ (∀ (c lidx k i : Nat) (at_ : Nat × Nat × Nat) (m : AmMsg) (x : Cohort) (l : Launch), spawnReady s c = some (lidx, at_, k, i, m) → s.cohort? c = some x →
      s.launch? x.launch = some l → ∃ u, exec (.handlerWarpSpawn c) s = .next u ∧ u.mem = s.mem ∧ (u.coreOf k).am = (s.coreOf k).am.eraseIdx i
        ∧ ∃ w ∈ u.warps, w.id = s.nextId ∧ w.cid = c ∧ w.core = x.core ∧ (w.quarter, w.slot, w.fibre) = at_ ∧ w.lidx = lidx ∧ w.handler = true
          ∧ w.front = [{ pc := m.handler, mask := 0xFFFFFFFF#32, src := m.handler }] ∧ w.holds = 0xFFFFFFFF#32 ∧ w.quota = l.quota ∧ w.stall = none
          ∧ (∀ n, n < 32 → w.wid.getD n 0#64 = BitVec.ofNat 64 (x.record.widBase.toNat + 32 * lidx + n))
          ∧ (∀ j, j < 32 → ((assoc 0 w.regs).getD zeros).get j = if j < m.count.toNat then m.payload.getD j 0#32 else 0#32)
          ∧ w.sregs.take 3 = [ofN m.sender, ofN (m.sender / 2 ^ 32), m.count])

/-! Launches, cohorts and contexts (chapters 04, 09, 12 to 15). -/

/-- 15 R391 R392, 12 R314: a new tail is taken, one too far ahead stops its queue with cause 4, a misaligned entry is skipped with cause 1, and a
header that passes every check becomes a launch under the partition's next number; LQCFG of an enabled queue changes only its enable bit.
It rests on the model's own readings and choices of log 32. -/
def Obligations.LaunchQueues : Prop :=
  ∀ (s : State) (vi q : Nat) (v : VIface) (p : Part) (x : LQueue), s.vi? vi = some v → v.part = some p.id → s.part? p.id = some p → v.lqs[q]? = some x →
    let puts := fun (u : State) (y : LQueue) => u.vi? vi = some { v with lqs := v.lqs.set q y }
    let error := fun cause : Nat => BitVec.ofNat 64 (x.head % 2 ^ 32 * 2 ^ 32 + cause * 256 + min 255 (x.err.toNat % 256 + 1))
    (x.enabled = true → x.stopped = false → deviceMemory s p.id x.tailAt.toNat = true → s.stashOwners = [] → s.dir = [] → noDebug s →
      let tail := leNat (memGets s.mem (localPa s x.tailAt.toNat) 8)
      let diff := (tail + 2 ^ 64 - x.lastTail) % 2 ^ 64
      let fresh := 1 ≤ diff ∧ diff < 2 ^ 63
      let slot := localPa s (x.base.toNat + 8 * (x.head % 2 ^ (x.cfg.toNat % 32)))
      let entry := leNat (memGets s.mem slot 8)
      (x.lastTail < 2 ^ 64 → x.head < 2 ^ 64 → fresh →
        ((tail + 2 ^ 64 - x.head) % 2 ^ 64 ≤ 2 ^ (x.cfg.toNat % 32) →
          ∃ u, exec (.launchQueueTail vi q) s = .next u ∧ u.mem = s.mem ∧ puts u { x with lastTail := tail })
        ∧ (2 ^ (x.cfg.toNat % 32) < (tail + 2 ^ 64 - x.head) % 2 ^ 64 →
          ∃ u, exec (.launchQueueTail vi q) s = .next u ∧ u.mem = s.mem ∧ puts u { x with stopped := true, err := error 4 }))
      ∧ (¬ fresh → x.head % 2 ^ 64 ≠ x.lastTail → queueMemory s p.id (x.base.toNat + 8 * (x.head % 2 ^ (x.cfg.toNat % 32))) = true →
        (entry % 128 ≠ 0 → ∃ u, exec (.launchQueueTail vi q) s = .next u ∧ u.mem = s.mem ∧ u.launches = s.launches
          ∧ puts u { x with head := x.head + 1, err := error 1 })
        ∧ (∀ (h : List Byte) (l : Launch) (t : State), entry % 128 = 0 → l.travel = false →
          let taken := mapLq s vi q fun y => { y with head := y.head + 1 }
          let promise := if l.promiseF then promiseOf l p s.now else 0
          readVa taken (asCtx p.id (x.cfg.toNat / 2 ^ 32)) (BitVec.ofNat 64 entry) 128 = some h →
          checkHeader taken h p vi (x.cfg.toNat / 2 ^ 32) = .ok l →
          writeRecord taken (asCtx p.id (x.cfg.toNat / 2 ^ 32)) (BitVec.ofNat 64 (fieldLe h 0x58 8)) 1 0 promise p.nextLaunch = some t →
          ∃ u, exec (.launchQueueTail vi q) s = .next u ∧ u.mem = t.mem ∧ u.launches = t.launches ++
              [{ l with num := 16 * p.nextLaunch + p.id, accepted := s.now, promise := promise, exact := p.exact, hostAt := t.hostSeq }])))
    ∧ (∀ val : DWord, (x.enabled = true → ∃ u, exec (.lqcfgWrite vi q val) s = .next u ∧ u.mem = s.mem
          ∧ puts u { x with cfg := (x.cfg &&& ~~~ 0x100#64) ||| (val &&& 0x100#64) })
      ∧ (x.enabled = false → val.getLsbD 8 = true → (∃ c ∈ s.ctxs, c.num = val.toNat / 2 ^ 32 ∧ c.part = p.id ∧ c.releasing = false ∧ c.killed = false) →
        4 ≤ val.toNat % 32 → val.toNat % 32 ≤ 16 → x.base.toNat % 4096 = 0 → x.tailAt.toNat % 128 = 0 → queueMemory s p.id x.base.toNat = true →
        deviceMemory s p.id x.tailAt.toNat = true → ∃ u, exec (.lqcfgWrite vi q val) s = .next u ∧ u.mem = s.mem
          ∧ puts u { x with cfg := val &&& 0xFFFFFFFF0000011F#64, stopped := false })
      ∧ (x.enabled = false → x.base.toNat % 4096 ≠ 0 ∨ x.tailAt.toNat % 128 ≠ 0 ∨ val.toNat % 32 < 4 ∨ 16 < val.toNat % 32 →
        ∃ u, exec (.lqcfgWrite vi q val) s = .next u ∧ u.mem = s.mem ∧ puts u { x with cfg := val &&& 0xFFFFFFFF0000001F#64 }))

/-- 12 R322 to R324 R326: on an empty part the dispatcher takes the next cohort of a launch, and its warp starts as R324 gives.
It rests on the model's own readings and choices of log 4. -/
def Obligations.Dispatches : Prop :=
  ∀ (s : State) (cl : Nat) (l : Launch) (p : Part), s.w.resident = false → s.warps = [] → s.cohorts = [] → s.slots = [] → s.cores = [] → s.launches = [l] →
    s.parts = [p] → p.clusters.contains cl = true → p.reserve = [] → l.part = p.id → (∀ c ∈ s.ctxs, c.killed = false ∧ c.releasing = false) →
    l.stopAll = false → l.promiseF = false → l.travel = false → l.f3 = 0 → l.f4 = 0 → l.cqCnt = 0 → l.tbufs = [] → l.warps = 1 → l.next < l.ncoh →
    l.quota ≤ 256 → l.shared ≤ 262144 → l.handles ≤ 120 → l.vi < 64 → l.next * 2 ^ (5 + l.f1) < 2 ^ 64 →
    ∃ u w c, exec (.cohortDispatch cl) s = .next u ∧ u.mem = s.mem ∧ u.warps = [w] ∧ u.cohorts = [c]
      ∧ (∃ m, u.launch? l.num = some m ∧ m.next = l.next + 1 ∧ m.cohorts = l.cohorts + 1 ∧ m.eligTicks = 0 ∧ m.waitSince = none)
      ∧ c.core = 8 * cl ∧ c.launch = l.num ∧ c.index = l.next ∧ c.sharedSize = l.shared ∧ c.shared = [] ∧ c.levels = [] ∧ c.done = none ∧ c.resident = true
      ∧ w.cid = c.id ∧ w.core = 8 * cl ∧ w.lidx = 0 ∧ w.handler = false ∧ w.holds = 0xFFFFFFFF#32 ∧ w.regs = [] ∧ w.winbase = 0 ∧ w.quota = l.quota
      ∧ (∀ n, n < 32 → w.wid.getD n 0#64 = BitVec.ofNat 64 (l.next * 2 ^ (5 + l.f1) + n))
      ∧ w.front = [{ pc := l.entry, mask := 0xFFFFFFFF#32, src := l.entry }] ∧ w.preds = List.replicate 8 0#32 ∧ w.lnk = List.replicate 32 0#32
      ∧ w.sregs = [ofN l.args.toNat, ofN (l.args.toNat / 2 ^ 32), ofN l.frame.toNat, ofN (l.frame.toNat / 2 ^ 32)] ++ List.replicate 12 0#32
      ∧ w.qbind = List.replicate 8 none ∧ w.hmap = List.replicate 32 none ∧ w.fpmode.toNat = l.fpctl.toNat % 16 ∧ w.trapen.toNat = l.fpctl.toNat / 16
      ∧ w.fpflags = 0#5 ∧ w.trapMode = false ∧ w.stall = none

/-- 04 R110, 12 R318 R333 R334 R340, 09 R271: a cohort whose last thread has ended is gone with its claims, after one decrement of its join counter;
the first parent record whose queue has room takes its place; at a budget end, or when its promise is near, a promise launch's cohorts are ended;
a launch with nothing left to run ends; the first run of a check launch is undone, and the second starts at its first cohort.
It rests on the model's own readings and choices of logs 34, 35, 65. -/
def Obligations.LaunchLife : Prop :=
  ∀ (s : State),
    (∀ (c : Nat) (x : Cohort) (l : Launch), s.cohort? c = some x → s.launch? x.launch = some l → l.travel = false → s.dir = [] → cohortDone s c = true →
      (∃ u, exec (.cohortCompletion c) s = .next u ∧ u.cohort? c = none ∧ (∀ w ∈ u.allWarps, w.cid ≠ c) ∧ ∀ y ∈ u.claims, y.cid ≠ c)
      ∧ (∀ pa, x.exitJ = true → x.record.join ≠ 0#64 → x.done = none → x.stash = [] → l.check = false → s.stashOwners = [] → noDebug s → memWf s.mem = true →
        joinPa s l x.record.join = some pa → 1 < leNat (memGets s.mem pa 4) →
        ∃ u, exec (.cohortCompletion c) s = .next u ∧ leNat (memGets u.mem pa 4) = leNat (memGets s.mem pa 4) - 1
          ∧ ∀ a, a < pa ∨ pa + 4 ≤ a → memGet u.mem a = memGet s.mem a))
    ∧ (∀ (n : Nat) (l : Launch), s.launch? n = some l →
      (∀ q b, (l.parents.find? fun t => decide (queueCount s l t.1 8 - queueCount s l t.1 0 < 2 ^ l.cqLog)) = some (q, b) →
        ∃ u m, exec (.parentPlacement n) s = .next u ∧ u.launch? n = some m ∧ m.parents = l.parents.erase (q, b))
      ∧ (l.promiseF = true → l.stopAll = false → l.promise ≤ s.now + 4000 → s.clusters = [] → (∀ c ∈ s.allCohorts, c.launch ≠ n) →
        ∃ u m, exec (.promiseDrainEnd n) s = .next u ∧ u.mem = s.mem ∧ u.launch? n = some m
          ∧ m = { l with stopAll := true, heldDrop := l.heldDrop + heldCount s n, stranded := l.stranded + (l.ncoh - l.next) + l.parents.length, parents := [] })
      ∧ (launchOver s l = true → restarts l = false → ∃ u, exec (.launchEnd n) s = .next u ∧ u.launch? n = none)
      ∧ (∀ va pa old, launchOver s l = true → restarts l = true → l.det = false → l.cqCnt = 0 → l.checkLog = [(va, pa, old)] → old.length = 128 →
        s.stashOwners = [] → memWf s.mem = true → ∃ u m, exec (.checkRunRestart n) s = .next u ∧ u.launch? n = some m ∧ m.checkRun = 2 ∧ m.next = 0
          ∧ m.cohorts = 0 ∧ m.checkLog = [] ∧ m.digest1.isSome = true ∧ onlyBytes s u 128 (pa + ·) (old.getD · 0#8)))
    ∧ (Solo s → s.l.promiseF = true → s.c.launch = s.l.num → s.c.budgetEnd ≤ s.now → s.c.levels = [] → s.c.conv = none → s.c.hand = [] → s.clusters = [] →
      ∃ u, exec (.budgetEnd s.c.id) s = .next u ∧ u.mem = s.mem ∧ u.c.done = some .overBudget ∧ u.w.holds = 0#32 ∧ ∀ y ∈ u.claims, y.cid ≠ s.c.id)

/-- 12 R329, 13 R360, 14 R369 R370 R371 R375, 09 R264: a launch that waits is watched for 100,000 ticks before a context is chosen; the cores of a
pre-empted unit, all of them quiesced, are saved together into its context, without warps that have ended; a resumed one, whose pins all had a place, comes
back with every warp as it was, under tile numbers that its core does not use, its attempt counts paused meanwhile; a travelling launch's table then has
one generation more and names the new cores.
It rests on the model's own readings and choices of log 36. -/
def Obligations.Preemptions : Prop :=
  ∀ (s : State),
    (∀ (n : Nat) (l : Launch), s.launch? n = some l → l.stopAll = false → l.promiseF = false →
      let waits := hasReady s l = true ∧ ∀ p, s.part? l.part = some p → ∀ cl ∈ p.clusters, offer s l cl = none
      (waits → l.waitSince = none → ∃ u, exec (.preemptTrigger n) s = .next u ∧ u.mem = s.mem ∧ u.launch? n = some { l with waitSince := some s.now })
      ∧ (¬ waits → l.waitSince ≠ none → ∃ u, exec (.preemptTrigger n) s = .next u ∧ u.mem = s.mem ∧ u.launch? n = some { l with waitSince := none })
      ∧ (∀ t, waits → l.waitSince = some t → s.now < t + 100000 → exec (.preemptTrigger n) s = .next s)
      ∧ (∀ t x core c, waits → l.waitSince = some t → t + 100000 ≤ s.now → victimOf s l = some (x, core) → s.ctx? x = some c →
        ∃ u d, exec (.preemptTrigger n) s = .next u ∧ u.mem = s.mem ∧ u.ctx? x = some d ∧ core ∈ d.preempt ∧ ∀ k ∈ c.preempt, k ∈ d.preempt))
    ∧ (∀ (ctx core : Nat) (c : Ctx), s.ctx? ctx = some c → core ∈ c.preempt → c.killed = false → (∀ k ∈ c.preempt, quiesced s ctx k = true) →
      ∃ u d, exec (.preemption ctx core) s = .next u ∧ u.ctx? ctx = some d ∧ d.preempt = []
        ∧ (∀ k ∈ c.preempt, ∀ x ∈ unitCohorts s ctx k, u.cohort? x.id = none ∧ ∃ v ∈ d.saved, ∃ y ∈ v.cohorts, y.id = x.id)
        ∧ (c.preempt = [core] → unitCohorts s ctx core ≠ [] → ∃ v, d.saved = c.saved ++ [v] ∧ v.core = core ∧ v.at_ = s.cyc
          ∧ (∀ w ∈ s.allWarps, (∃ x ∈ unitCohorts s ctx core, x.id = w.cid) → (w.holds ≠ 0#32 → w ∈ v.warps) ∧ w ∉ u.allWarps)
          ∧ (∀ x ∈ unitCohorts s ctx core, ∃ y ∈ v.cohorts, y.id = x.id ∧ y.levels = x.levels)))
    ∧ (∀ (ctx i : Nat) (c : Ctx) (v : Saved) (at_ : List (Saved × Nat)) (deal : List (Nat × Nat)), resumeDue s ctx i = some (c, v, at_, deal) → c.replies = [] →
      (∀ t ∈ at_, t.1.short = []) →
      (v.pin = none → (∃ k, (v, k) ∈ at_) ∧ ∃ u, exec (.contextResume ctx i) s = .next u ∧ u.mem = s.mem ∧ ∀ t ∈ at_,
        (∀ w ∈ (renumber (s.coreOf t.2) t.1).warps, ∃ slot, { w with core := t.2, slot := slot } ∈ u.allWarps)
        ∧ (∀ x ∈ (renumber (s.coreOf t.2) t.1).cohorts, ∃ y ∈ u.allCohorts, y.id = x.id ∧ y.core = t.2
          ∧ y.levels = x.levels.map fun z => { z with start := z.start + (s.cyc - t.1.at_) }))
      ∧ (∀ n g l, v.pin = some (n, g) → s.launch? n = some l → ∃ u m, exec (.contextResume ctx i) s = .next u ∧ u.mem = s.mem ∧ u.launch? n = some m
        ∧ m.gen = l.gen + 1 ∧ m.segs.map (·.cores) = l.segs.zipIdx.map fun x => (deal.filter fun t => t.2 == x.2).map (·.1)))

/-- 13 R349 R350 R353 to R356 R358: a transfer out of its core's segment makes a cargo with the lanes, names and registers of that moment, which takes them
out of the warp when it departs; a cargo is sent while fewer than 56 general entries of its target are taken, lands in its sender's order, and starts a warp with what it carries; a mooring queue
that has been full for 10,000 ticks has its segment pinned on an idle core.
It rests on the model's own readings and choices of logs 33, 57. -/
def Obligations.Travels : Prop :=
  ∀ (s : State),
    (∀ (p : Px) (f : BForm) (t : Nat), s.l.travel = true → s.w.trapMode = false → s.w.front = [s.cur] → s.cur.mask ≠ 0#32 → takenLanes s f = s.cur.mask →
      let target := s.wordPc p + 4#32 * f.disp.signExtend 32
      let e := s.cur
      staysHere s target = false → targetOf s target (s.w.wid.getD 0 0#64) = some t → s.depth = 0 → s.boundCount ≤ 128 → unsettled s = false →
      outUsed s < 64 → (∀ c ∈ s.k.outb, c.warp ≠ s.w.id) → ∃ u c, exec (.bra p f) s = .next u ∧ u.mem = s.mem ∧ u.k.outb = s.k.outb ++ [c]
        ∧ u.w.front = [{ pc := target, mask := e.mask, src := e.pc }] ∧ u.w.holds = s.w.holds ∧ c.warp = s.w.id ∧ c.target = t ∧ c.sender = s.k.id
        ∧ c.pc = target ∧ c.lanes = e.mask ∧ c.placed = false ∧ c.sent = false
        ∧ c.sregs = s.w.sregs ∧ c.lnk = s.w.lnk ∧ c.winbase = s.w.winbase ∧ c.quota = s.w.quota ∧ c.preds = s.w.preds.map (· &&& e.mask)
        ∧ c.names.map (·.1) = s.w.regs.map (·.1)
        ∧ (∀ a v, (a, v) ∈ s.w.regs → ∃ x, (a, x) ∈ c.names ∧ ∀ n, n < 32 → x.get n = if e.mask.has n then v.get n else 0#32))
    ∧ (∀ c : Cargo, s.w.resident = true → departs s = some c → s.w.holds &&& ~~~ c.lanes ≠ 0#32 →
      (∃ x ∈ s.w.front, x.parked = false ∧ x.mask &&& ~~~ c.lanes ≠ 0#32) → ∃ u, exec (.cargoDeparture s.w.id) s = .next u ∧ u.mem = s.mem
        ∧ u.k.outb = s.k.outb.erase c ++ [{ c with placed := true, seq := (assoc c.target s.k.sentTo).getD 0 }]
        ∧ u.w = { s.w with holds := s.w.holds &&& ~~~ c.lanes
                           front := (s.w.front.map fun x => { x with mask := x.mask &&& ~~~ c.lanes, rbLanes := x.rbLanes &&& ~~~ c.lanes }).filter
                             fun x => x.mask != 0#32 })
    ∧ (∀ (core i : Nat) (c : Cargo), (s.coreOf core).outb[i]? = some c →
      (c.sent = false → c.placed = true → (∀ l, s.launch? c.launch = some l → preempted s l.ctx core = false) →
        (∀ x ∈ (s.coreOf core).outb, x.placed = true → x.sent = false → x.target = c.target → c.seq ≤ x.seq) →
        ((entriesOf s c.target).filter fun x => !x.reserved).length < 56 → ∃ u, exec (.cargoRetry core i) s = .next u ∧ u.mem = s.mem
        ∧ (u.coreOf core).outb = (s.coreOf core).outb.set i { c with sent := true, reserved := false })
      ∧ (c.sent = true → (∀ x ∈ (s.coreOf core).outb, x.placed = true → x.target = c.target → c.seq ≤ x.seq) →
        ∃ u, exec (.cargoLanding core i) s = .next u ∧ u.mem = s.mem
        ∧ (u.coreOf core).outb = (s.coreOf core).outb.eraseIdx i ∧ (u.coreOf c.target).moor = (s.coreOf c.target).moor ++ [c]))
    ∧ (∀ (core : Nat) (c : Cargo) (l : Launch) (at_ : Nat × Nat × Nat), landReady s core = some (c, l, at_) →
      ∃ u, exec (.landedWarpStart core) s = .next u ∧ u.mem = s.mem ∧ (u.coreOf core).moor = (s.coreOf core).moor.tail
        ∧ ∃ w ∈ u.warps, w.core = core ∧ (w.quarter, w.slot, w.fibre) = at_ ∧ w.holds = c.lanes ∧ w.front = [{ pc := c.pc, mask := c.lanes, src := c.pc }]
          ∧ w.regs = c.names ∧ w.sregs = c.sregs ∧ w.preds = c.preds ∧ w.lnk = c.lnk ∧ w.winbase = c.winbase ∧ w.quota = c.quota ∧ w.fpmode = c.fpmode
          ∧ w.fpflags = c.fpflags ∧ w.trapen = c.trapen ∧ w.timerCmp = c.timerCmp ∧ w.waitlim = c.waitlim ∧ w.rbcause = c.rbcause ∧ w.hmap = List.replicate 32 none
          ∧ (∀ n, n < 32 → w.wid.getD n 0#64 = c.widBase + BitVec.ofNat 64 n))
    ∧ (∀ (core since num g c : Nat) (l : Launch) (p : Part) (x : Segment), (s.coreOf core).moorFullSince = some since → since + 10000 ≤ s.now →
      (s.coreOf core).pin = some (num, g) → s.launch? num = some l → s.part? l.part = some p → idleCore s p = some c → l.segs[g]? = some x → x.cores.length < 16 →
      ∃ u m, exec (.segmentReplication core) s = .next u ∧ u.mem = s.mem ∧ (u.coreOf c).pin = some (num, g) ∧ u.launch? num = some m
        ∧ m.segs[g]? = some { x with cores := x.cores ++ [c] } ∧ m.gen = l.gen + 1)

/-! The memory system (chapter 11). -/

/-- 11 R302 to R305: a read or an ownership of a line that nobody holds is granted at once; other holders are probed first, and the request is granted
when the last answer has come, dirty data being written; notices and REGION-DONE take an agent out of a vector; two halves of one state
and one vector merge.
It rests on the model's own readings and choices of logs 37, 59. -/
def Obligations.Directory : Prop :=
  ∀ (s : State) (agent line : Nat), s.stashOwners = [] → s.hostWait = [] → heldGranule s (128 * line) = true →
    (agent = 64 → biasOf s (line / 32) = .host) →
    let holds := fun (u : State) (st : DirSt) (vec : List Nat) => ∃ r, regionOf u line = some r ∧ r.st = st ∧ r.vec = vec
    (s.dir = [] → s.probes = [] → s.dirWait = [] →
      (∃ u, exec (.dirReadRequest agent line) s = .next u ∧ u.mem = s.mem ∧ holds u .s [agent])
      ∧ (∃ u, exec (.dirOwnershipRequest agent line) s = .next u ∧ u.mem = s.mem ∧ holds u .e [agent]))
    ∧ (∀ (r : Region) (b : Nat), s.dir = [r] → s.probes = [] → s.dirWait = [] → r.recalled = false → r.base = 128 * line → r.size = 128 → r.vec = [b] → b ≠ agent →
      (b = 64 → biasOf s (line / 32) ≠ .dev) → (∃ u, exec (.dirOwnershipRequest agent line) s = .next u ∧ u.mem = s.mem ∧ u.dir = s.dir
        ∧ u.probes = [{ agent := b, line := line, inval := true }] ∧ u.dirWait = [⟨s.nextId, agent, line, true⟩])
      ∧ (r.st = .s → ∃ u, exec (.dirReadRequest agent line) s = .next u ∧ u.mem = s.mem ∧ holds u .s [b, agent])
      ∧ (r.st = .e → ∃ u, exec (.dirReadRequest agent line) s = .next u ∧ u.mem = s.mem ∧ u.dir = s.dir
        ∧ u.probes = [{ agent := b, line := line, inval := false }] ∧ u.dirWait = [⟨s.nextId, agent, line, false⟩])
      ∧ (∀ (seq : Nat) (bs : List Byte), memWf s.mem = true → bs.length = 128 → b ≠ 64 → ∃ u, exec (.evictionNotice b line seq (some bs)) s = .next u
        ∧ onlyBytes s u 128 (128 * line + ·) (bs.getD · 0#8) ∧ regionOf u line = none)
      ∧ (∀ seq, ∃ u, exec (.regionDone b r.base seq) s = .next u ∧ u.mem = s.mem ∧ u.dir = []))
    ∧ (∀ (r : Region) (b n : Nat), s.dir = [r] → r.recalled = false → r.base = 128 * line → r.size = 128 → r.vec = [b] → b ≠ agent → b ≠ 64 →
      s.probes = [{ agent := b, line := line, inval := true }] → s.dirWait = [⟨n, agent, line, true⟩] → memWf s.mem = true →
      (∀ t ∈ s.bias, ∀ start vi, t.2 ≠ .toDev start [] vi) →
      (∀ bs : List Byte, bs.length = 128 → ∃ u, exec (.probeAnswer b line (.data bs)) s = .next u ∧ u.probes = [] ∧ u.dirWait = []
        ∧ onlyBytes s u 128 (128 * line + ·) (bs.getD · 0#8) ∧ holds u .e [agent])
      ∧ (∃ u, exec (.probeAnswer b line .clean) s = .next u ∧ u.probes = [] ∧ u.dirWait = [] ∧ u.mem = s.mem ∧ holds u .e [agent])
      ∧ (∀ n, (b, line, n) ∈ s.notes → ∃ u, exec (.probeAnswer b line (.miss n)) s = .next u ∧ u.probes = [] ∧ holds u .e [agent])
      ∧ (∀ n, (b, line, n) ∉ s.notes → ∃ u, exec (.probeAnswer b line (.miss n)) s = .next u ∧ u.dir = s.dir ∧ u.probes.length = 1))
    ∧ (∀ (a b : Region) (size : Nat), s.dir = [a, b] → a.size = size → b.size = size → 0 < size → a.base % (2 * size) = 0 → b.base = a.base + size →
      2 * size ≤ 65536 → a.st = b.st → (∀ n, n ∈ a.vec ↔ n ∈ b.vec) → a.recalled = false → b.recalled = false → max a.touch b.touch + 100000 ≤ s.now →
      (∀ t ∈ s.bias, ∀ start vi, t.2 ≠ .toDev start [] vi) →
      ∃ u, exec (.regionMerge a.base size) s = .next u ∧ u.mem = s.mem ∧ u.dir = [{ a with size := 2 * size, touch := max a.touch b.touch }])

/-- 09 R256 R440, 11 R299 R305 to R308: a host write changes its bytes alone; one to device memory waits while a claim stands there, one to host memory does
not; a host read takes a line only under host bias; a page flips
to host bias at once and to device bias when the host has answered for its lines, or back after 50,000 ticks; a line of another
package or of the host leaves with an invalidation.
It rests on the model's own readings and choices of logs 15, 16. -/
def Obligations.HostAccess : Prop :=
  ∀ (s : State),
    (∀ (pa : Nat) (bytes : List Byte), pa + bytes.length ≤ 0x9000000000 → 0 < bytes.length → heldGranule s pa = true →
      heldGranule s (pa + bytes.length - 1) = true → s.dir = [] → s.probes = [] → s.dirWait = [] → s.hostWait = [] → s.held = [] → engineQueues s = [] →
      noDebug s → s.stashOwners = [] → s.bias = [] → memWf s.mem = true →
      (s.claims = [] → ∃ u, exec (.hostMemWrite pa bytes) s = .next u ∧ onlyBytes s u bytes.length (pa + ·) (bytes.getD · 0#8))
      ∧ ((∃ x ∈ s.claims, pa / 128 = x.line) → ∃ u, exec (.hostMemWrite pa bytes) s = .next u ∧ u.mem = s.mem ∧ u.hostWait = [⟨s.nextId, pa, bytes⟩]))
    ∧ (∀ (pa : Nat) (bytes : List Byte), pa + bytes.length ≤ 0x9000000000 → 0 < bytes.length → heldGranule s pa = false →
      exec (.hostMemWrite pa bytes) s = .next s)
    ∧ (∀ (pa : Nat) (bytes : List Byte), 0x8000000000000 ≤ pa → pa + bytes.length ≤ 0x10000000000000 → 0 < bytes.length → s.dir = [] → s.probes = [] →
      s.dirWait = [] → s.hostWait = [] → noDebug s → s.stashOwners = [] →
      memWf s.mem = true → ∃ u, exec (.hostMemWrite pa bytes) s = .next u ∧ onlyBytes s u bytes.length (pa + ·) (bytes.getD · 0#8) ∧ u.claims = s.claims)
    ∧ (∀ (pa n : Nat), 0 < n → pa + n ≤ 0x9000000000 → ((∀ i < n, assoc ((pa + i) / 4096) s.bias = none) → ∃ u, exec (.hostMemRead pa n) s = .next u ∧ u.mem = s.mem
        ∧ u.dir = s.dir ∧ (s.devWrote = [] → u = { s with hostSeq := s.hostSeq + 1, hostRead := u.hostRead, devRead := u.devRead }))
      ∧ (assoc (pa / 4096) s.bias = some .host → (pa + n - 1) / 4096 = pa / 4096 → s.dir = [] → s.probes = [] → s.dirWait = [] → s.hostWait = [] → s.stashOwners = [] →
        ∃ u r, exec (.hostMemRead pa n) s = .next u ∧ u.mem = s.mem ∧ regionOf u (pa / 128) = some r ∧ 64 ∈ r.vec))
    ∧ (∀ (vi page part : Nat) (v : VIface), s.vi? vi = some v → v.part = some part → 4096 * page < 0x9000000000 →
      ownedPage s part (4096 * page) = true → s.dir = [] → s.biasWait = [] → flipping s page = false → (s.bias.map (·.1)).Nodup →
      (∃ u, exec (.biasToHost vi (BitVec.ofNat 64 (4096 * page + 8))) s = .next u ∧ u.mem = s.mem ∧ biasOf u page = .host)
      ∧ (∃ u, exec (.biasToDev vi (BitVec.ofNat 64 (4096 * page + 4))) s = .next u ∧ u.mem = s.mem ∧ biasOf u page = .dev))
    ∧ (∀ (page line t vi : Nat) (v : VIface), s.vi? vi = some v → line / 32 = page → assoc page s.bias = some (.toDev t [line] vi) →
      (s.probes = [] → s.dir = [] → (s.bias.map (·.1)).Nodup →
        (s.now < t + 50000 → ∃ u, exec (.bisnpAnswer line none) s = .next u ∧ u.mem = s.mem ∧ biasOf u page = .dev)
        ∧ (t + 50000 ≤ s.now → exec (.bisnpAnswer line none) s = .next s))
      ∧ (t + 50000 ≤ s.now → ∃ u, exec (.biasFlipTimeout page) s = .next u ∧ u.mem = s.mem ∧ biasOf u page = .host
        ∧ ∃ y, u.vi? vi = some y ∧ y.biasStat.toNat / 16 % 16 = 3)
      ∧ (s.now < t + 50000 → exec (.biasFlipTimeout page) s = .next s))
    ∧ (∀ line : Nat, 0x8000000000000 ≤ 128 * line → s.stashOwners = [] → ∃ u, exec (.hostCacheSnoop line .invalidate) s = .next u ∧ u.mem = s.mem
      ∧ (∀ g ∈ u.guests, g.line ≠ line) ∧ ∀ x ∈ u.k.l1, x.pa ≠ 128 * line)
    ∧ (∀ line : Nat, 0x1000000000000 ≤ 128 * line → 128 * line < 0x8000000000000 → s.stashOwners = [] → ∃ u, exec (.agentProbe line true) s = .next u ∧ u.mem = s.mem
      ∧ (∀ g ∈ u.guests, g.line ≠ line) ∧ ∀ x ∈ u.k.l1, x.pa ≠ 128 * line)

/-- 11 R289 to R291, 14 R363 R364 R368: a walk through five tables finds the page that a level-0 entry maps, with its rights; an entry with V = 0 is
not mapped. A page that is found comes into the TLB, and a warp without one freezes with an open fault of its kind. -/
def Sys2Proof.Parts.PageWalks : Prop :=
  ∀ (s : State),
    (∀ (ctx : Nat) (c : Ctx) (va : DWord) (t3 t2 t1 t0 : Nat), s.ctx? ctx = some c → s.stashOwners = [] → noDebug s → tablePlace c.root →
      tablePlace t3 → tablePlace t2 → tablePlace t1 → tablePlace t0 → pteAt s c.root (va.toNat / 2 ^ 48 % 512) (tableEntry t3) →
      pteAt s t3 (va.toNat / 2 ^ 39 % 512) (tableEntry t2) → pteAt s t2 (va.toNat / 2 ^ 30 % 512) (tableEntry t1) → pteAt s t1 (va.toNat / 2 ^ 21 % 512) (tableEntry t0) →
      (∀ (pa attr : Nat) (r w xd : Bool), tablePlace pa → attr < 3 → pteAt s t0 (va.toNat / 2 ^ 12 % 512) (pageEntry pa attr r w xd) →
        walk s ctx va = .page { ctx := ctx, va := va.toNat / 4096 * 4096, size := 4096, pa := pa, r := r, w := w, xd := xd, attr := attr })
      ∧ (∀ e, pteAt s t0 (va.toNat / 2 ^ 12 % 512) (2 * e) → walk s ctx va = .bad 1))
    ∧ (∀ (k : StallKind) (va : DWord) (acc : Access) (lanes : List (Nat × DWord)) (n source : Nat), s.w.resident = true → s.w.holds ≠ 0#32 →
      s.w.stall = some ⟨k, .xlate va acc lanes n source⟩ → s.w.frozen = none → transl s va acc = none → s.dir = [] →
      walkFar s (walkVas s va acc lanes n) = none →
      (∀ e, walkOwned s s.l va acc = .page e → s.k.tlb.length < 256 →
        ∃ u, exec (.pageWalk s.w.id) s = .next u ∧ u.mem = s.mem ∧ u.w = (if source = 2 then { s.w with trans := s.w.trans ++ [e] } else s.w)
          ∧ u.k = { s.k with tlb := s.k.tlb ++ [e] })
      ∧ (∀ kind, walkOwned s s.l va acc = .bad kind → source = prefSource → kind ≠ 7 → ∃ u, exec (.pageWalk s.w.id) s = .next u ∧ u.mem = s.mem
        ∧ u.w = { s.w with stall := none } ∧ u.faults = s.faults)
      ∧ (∀ kind, walkOwned s s.l va acc = .bad kind → source ≠ prefSource → kind ≠ 7 → ∃ u addr mask, exec (.pageWalk s.w.id) s = .next u
        ∧ u.w = { s.w with stall := none, frozen := some (.xlate s.nextToken (kind - 1) addr mask acc) }
        ∧ u.faults = s.faults ++ [⟨s.nextToken, s.l.part, s.l.ctx, s.l.num, kind, .warp s.w.id⟩] ∧ u.k = s.k ∧ u.c = s.c)
      ∧ (∀ c, walkOwned s s.l va acc = .bad 7 → s.ctx? s.l.ctx = some c → ∃ u, exec (.pageWalk s.w.id) s = .next u
        ∧ u.w = { s.w with stall := none, frozen := some (.fault s.nextToken 7) } ∧ u.ctx? s.l.ctx = some { c with killed := true }
        ∧ u.lan.queue = s.lan.queue ++ [(5, s.l.part, [])]))

/-- 14 R365: RETRY lets the fibre go on, UNSERVICEABLE gives it the fault back as a program fault with code 0x70 and up, KILL kills the context;
a reply whose token names no open fault of the partition does nothing. -/
def Sys2Proof.Parts.FaultReplies : Prop :=
  ∀ (s : State) (vi token : Nat) (v : VIface) (p : Part) (f : OpenFault), ownsPart s vi v p → f.token = token → s.faults = [f] →
    (f.part ≠ p.id → exec (.faultReplyRetry vi token) s = .next s ∧ exec (.faultReplyUnserviceable vi token) s = .next s
      ∧ exec (.faultReplyKill vi token) s = .next s)
    ∧ (f.part = p.id →
      (∀ c, faultSaved s f = true → s.ctx? f.ctx = some c → ∀ i ∈ [(1, Instr.faultReplyRetry vi token), (2, .faultReplyUnserviceable vi token), (3, .faultReplyKill vi token)],
        ∃ u, exec i.2 s = .next u ∧ u.faults = s.faults ∧ u.mem = s.mem ∧ u.ctx? f.ctx = some { c with replies := c.replies ++ [(token, i.1)] })
      ∧ (∀ w x, f.src = .warp w → f.kind ≤ 3 → savedWarp s w = none → s.warp? w = some x → ∃ u, exec (.faultReplyRetry vi token) s = .next u
        ∧ u.faults = [] ∧ u.mem = s.mem ∧ u.warp? w = some { x with frozen := none })
      ∧ (∀ k addr lanes acc, f.src = .warp s.w.id → f.kind ≤ 3 → savedWarp s s.w.id = none → s.w.resident = true → s.w.frozen = some (.xlate token k addr lanes acc) →
        k < 3 → s.depth = 0 → mayTrap s → ∃ u, exec (.faultReplyUnserviceable vi token) s = .next u ∧ u.faults = []
          ∧ inHandler s u 1 (0x70 + k) s.cur.pc s.cur.pc addr lanes)
      ∧ (∀ c, faultSaved s f = false → s.ctx? f.ctx = some c → ∃ u, exec (.faultReplyKill vi token) s = .next u ∧ u.faults = [] ∧ u.mem = s.mem
        ∧ u.ctx? f.ctx = some { c with killed := true }))

/-- 11 R289 to R291, 14 R363 R364 R368: a walk through five tables finds the page that a level-0 entry maps, with its rights; an entry with V = 0 is
not mapped. A page that is found comes into the TLB, and a warp without one freezes with an open fault of its kind.
14 R365: RETRY lets the fibre go on, UNSERVICEABLE gives it the fault back as a program fault with code 0x70 and up, KILL kills the context;
a reply whose token names no open fault of the partition does nothing.
It rests on the model's own readings and choices of log 19. -/
def Obligations.TranslationFaults : Prop := Parts.PageWalks ∧ Parts.FaultReplies

/-- 14 R368, 15 R388: uncorrectable data, read by a fibre or through the tile path, and a package out of reach for 100,000 ticks end the launch FAILED with
detail 1 and are logged as machine checks; a command of the Thresher that reads such data is lost; a violation freezes the fibre, is logged and kills the context; a killed context's launches end FAILED with detail 2, its levels
neither roll back nor commit, and it is released.
It rests on the model's own readings and choices of logs 30, 31, 61, 86. -/
def Obligations.MachineChecks : Prop :=
  ∀ (s : State),
    (Alone s → s.l.failing = none →
      (∃ u d, exec (.machineCheck (.warp s.w.id)) s = .next u ∧ launchFailed u 1 ∧ d.length = 12 ∧ u.lan.queue = s.lan.queue ++ [(6, s.l.part, d)])
      ∧ (∀ k p t, s.w.stall = some ⟨k, .route p⟩ → s.fabric.routes.getD p 0 = 0 → s.fabric.lost = [(s.w.id, p, t)] →
        (t + 100000 ≤ s.now → ∃ u, exec (.unreachableTimeout s.w.id) s = .next u ∧ launchFailed u 1 ∧ u.fabric.lost = [])
        ∧ (s.now < t + 100000 → exec (.unreachableTimeout s.w.id) s = .next s))
      ∧ (∀ core op o, seqOp s core op = some o → o.warp = s.w.id → exec (.machineCheck (.tile core op)) s = exec (.machineCheck (.warp s.w.id)) s))
    ∧ (∀ die i m, (s.die die).thr.cmds[i]? = some m → ∃ u d, exec (.machineCheck (.thr die i)) s = .next u ∧ u.mem = s.mem
      ∧ (u.die die).thr.cmds = (s.die die).thr.cmds.set i { m with lost := true, openFault := none }
      ∧ d.length = 12 ∧ u.lan.queue = s.lan.queue ++ [(6, ((s.launch? m.launch).map (·.part)).getD 0, d)])
    ∧ (∀ (addr : DWord) (c : Ctx), s.w.resident = true → s.w.holds ≠ 0#32 → s.ctx? s.l.ctx = some c → ∃ u, exec (.securityViolation s.w.id addr) s = .next u
      ∧ u.w = { s.w with frozen := some (.fault s.nextToken 7) } ∧ u.ctx? s.l.ctx = some { c with killed := true }
      ∧ u.lan.queue = s.lan.queue ++ [(5, s.l.part, [])])
    ∧ (∀ (ctx : Nat) (c : Ctx), s.ctx? ctx = some c → (c.killed = false → exec (.contextKill ctx) s = .next s)
      ∧ (c.killed = true → Solo s → s.l.ctx = ctx → s.c.launch = s.l.num → (∀ x ∈ s.cohorts, x.launch ≠ s.l.num) → s.launches = [] → s.c.hand = [] → s.clusters = [] →
        ∃ u d l y, exec (.contextKill ctx) s = .next u ∧ u.mem = s.mem ∧ u.ctx? ctx = some d ∧ d.killed = false ∧ d.releasing = true ∧ d.saved = []
          ∧ (∀ f ∈ u.faults, f.ctx ≠ ctx) ∧ (∀ x ∈ u.claims, x.launch ≠ s.l.num) ∧ u.launch? s.l.num = some l ∧ l.stopAll = true ∧ l.failing = some 2
          ∧ u.cohort? s.c.id = some y ∧ y.done = some .stopped ∧ y.levels = [] ∧ ∀ w ∈ u.allWarps, w.cid = s.c.id → w.holds = 0#32))

/-- 11 R292, 15 R391: a write of XINVCMD (xinvCommand) by the interface that owns a partition starts an invalidation of a context's range at XINVADDR and
shows it busy; one by any other interface changes nothing. -/
def Sys2Proof.Parts.InvalidationStarts : Prop :=
  ∀ (s : State) (vi : Nat) (v : VIface) (cmd : DWord), s.vi? vi = some v →
    (∀ p, ownsPart s vi v p → ∃ u, exec (.xinvCommand vi cmd) s = .next u ∧ u.mem = s.mem ∧ u.xinv = s.xinv ++
        [{ part := p.id, vi := vi, ctx := cmd.toNat / 2 ^ 32, va := v.xinvAddr.toNat, pages := cmd.toNat % 2 ^ 32 }]
      ∧ u.vi? vi = some { v with xinvStat := v.xinvStat ||| 1#64 })
    ∧ (v.owner = false ∨ v.part = none → exec (.xinvCommand vi cmd) s = .next s)

/-- 11 R292, 15 R391: the first command of a partition completes (xinvComplete) when nothing that an old entry has translated is still to be performed: no core
holds an entry of the range any more, and XINVSTAT counts it. While something is, it waits; without a command nothing happens. -/
def Sys2Proof.Parts.InvalidationCompletes : Prop :=
  ∀ (s : State) (part : Nat),
    (∀ (x : Xinv) (v : VIface), s.xinv.find? (fun y => y.part == part) = some x → s.vi? x.vi = some v →
      (¬ rangeInUse s x → ∃ u y, exec (.xinvComplete part) s = .next u ∧ (s.stashOwners = [] → u.mem = s.mem) ∧ u.xinv = s.xinv.erase x
        ∧ (∀ k ∈ u.allCores, ∀ e ∈ k.tlb, e.ctx = x.ctx → ¬ inRange x e.va e.size) ∧ (∀ w ∈ u.allWarps, ∀ e ∈ w.trans, e.ctx = x.ctx → ¬ inRange x e.va e.size)
        ∧ u.vi? x.vi = some y ∧ y.xinvStat.toNat % 2 = (if ∃ z ∈ s.xinv.erase x, z.part = part then 1 else 0)
        ∧ (v.xinvStat.toNat / 2 < 2 ^ 63 - 1 → y.xinvStat.toNat / 2 = v.xinvStat.toNat / 2 + 1))
      ∧ (rangeInUse s x → exec (.xinvComplete part) s = .next s))
    ∧ ((∀ x ∈ s.xinv, x.part ≠ part) → exec (.xinvComplete part) s = .next s)

/-- 11 R296: a core's logical clock advances (ptsAdvance) by 1 for every 64 cycles that have passed since it last did, and not before. -/
def Sys2Proof.Parts.LogicalClocks : Prop :=
  ∀ (s : State) (core : Nat), (∃ k ∈ s.allCores, k.id = core) → let k := s.coreOf core
    (s.cyc < k.ptsAt + 64 → exec (.ptsAdvance core) s = .next s)
    ∧ (k.ptsAt + 64 ≤ s.cyc → ∃ u, exec (.ptsAdvance core) s = .next u ∧ u.mem = s.mem
      ∧ u.coreOf core = { k with pts := k.pts + (s.cyc - k.ptsAt) / 64, ptsAt := k.ptsAt + 64 * ((s.cyc - k.ptsAt) / 64) })

/-- 11 R310, 17 R422: what a patrol (patrolScrub) corrects, and what it finds uncorrectable, is counted for its stack in the lifetime record; nothing else
happens, no machine check among it. -/
def Sys2Proof.Parts.Patrols : Prop :=
  ∀ (s : State) (stack : Nat), stack < 12 →
    exec (.patrolScrub stack .clean) s = .next s
    ∧ exec (.patrolScrub stack .corrected) s = .next { s with lan := { s.lan with vol := { s.lan.vol with soft := s.lan.vol.soft.modify stack (· + 1) } } }
    ∧ exec (.patrolScrub stack .uncorrectable) s = .next { s with lan := { s.lan with vol := { s.lan.vol with hard := s.lan.vol.hard.modify stack (· + 1) } } }

/-- 11 R292, 15 R391: a write of XINVCMD (xinvCommand) by the interface that owns a partition starts an invalidation of a context's range at XINVADDR and
shows it busy; one by any other interface changes nothing.
11 R292, 15 R391: the first command of a partition completes (xinvComplete) when nothing that an old entry has translated is still to be performed: no core
holds an entry of the range any more, and XINVSTAT counts it. While something is, it waits; without a command nothing happens.
11 R296: a core's logical clock advances (ptsAdvance) by 1 for every 64 cycles that have passed since it last did, and not before.
11 R310, 17 R422: what a patrol (patrolScrub) corrects, and what it finds uncorrectable, is counted for its stack in the lifetime record; nothing else
happens, no machine check among it.
It rests on the model's own readings and choices of log 18. -/
def Obligations.Invalidations : Prop := Parts.InvalidationStarts ∧ Parts.InvalidationCompletes ∧ Parts.LogicalClocks ∧ Parts.Patrols

/-- 15 R391 R393, 14 R372, 17 R419 R420: writes of an interface's registers; software's FQHEAD makes room for a record that waits; a context is made
where its save area has room, and a destroyed one without launches goes with its TLB entries and its partition's L1 lines, once the partition's pages
are in device bias.
It rests on the model's own readings and choices of log 38. -/
def Obligations.InterfaceRegisters : Prop :=
  ∀ (s : State) (vi : Nat) (v : VIface) (val : DWord), s.vi? vi = some v → vi ≠ 64 →
    (∀ q < 4, (∃ u, exec (.registerWrite vi (0x40 + 0x40 * q) val) s = .next u ∧ u.mem = s.mem
        ∧ u.vi? vi = some { v with lqs := v.lqs.modify q fun x => { x with base := val } })
      ∧ ∃ u, exec (.registerWrite vi (0x50 + 0x40 * q) val) s = .next u ∧ u.mem = s.mem
        ∧ u.vi? vi = some { v with lqs := v.lqs.modify q fun x => { x with tailAt := val } })
    ∧ (v.owner = false → exec (.registerWrite vi 0x200 val) s = .next s ∧ exec (.registerWrite vi 0x208 val) s = .next s
      ∧ exec (.registerWrite vi 0x240 val) s = .next s ∧ exec (.fqheadWrite vi val) s = .next s)
    ∧ (∀ p, ownsPart s vi v p →
      (∃ u, exec (.registerWrite vi 0x200 val) s = .next u ∧ u.mem = s.mem ∧ u.vi? vi = some { v with fqBase := val })
      ∧ (∃ u, exec (.registerWrite vi 0x240 val) s = .next u ∧ u.mem = s.mem ∧ u.vi? vi = some { v with xinvAddr := val })
      ∧ (s.fqWait = [] → (∃ u, exec (.registerWrite vi 0x208 val) s = .next u ∧ u.mem = s.mem ∧ u.vi? vi = some { v with fqCfg := val &&& 0x11F#64 })
        ∧ ∃ u, exec (.fqheadWrite vi val) s = .next u ∧ u.mem = s.mem ∧ u.vi? vi = some { v with fqHead := val })
      ∧ (∀ bs : List Byte, s.fqWait = [(p.id, bs)] → bs.length = 64 → s.vis = [v] → v.fqCfg.getLsbD 8 = true → fqPlaced s p.id v = true → memWf s.mem = true →
        let size := 2 ^ (v.fqCfg.toNat % 32)
        (v.fqTail - val).toNat < size → ∃ u, exec (.fqheadWrite vi val) s = .next u ∧ u.fqWait = []
          ∧ onlyBytes s u 64 (localPa s v.fqBase.toNat + 64 * (v.fqTail.toNat % size) + ·) (bs.getD · 0#8))
      ∧ (∀ root, root % 4096 = 0 → root < 2 ^ 64 → s.nextCtx < 2 ^ 32 →
        (((s.ctxs.filter fun c => c.part == p.id).length + 1) * 2496 ≤ 1024 * p.granules.length → ∃ u y, exec (.ctxCreate vi (BitVec.ofNat 64 (root + 1))) s = .next u
          ∧ u.mem = s.mem ∧ u.ctxs = s.ctxs ++ [{ num := s.nextCtx, part := p.id, root := root, base := Config.ctxBase s.nextCtx }] ∧ u.vi? vi = some y
          ∧ y.ctxStat.toNat = 2 ^ 32 * s.nextCtx + (if s.ctxs.any fun c => c.releasing && c.owner == vi then 1 else 0))
        ∧ (1024 * p.granules.length < ((s.ctxs.filter fun c => c.part == p.id).length + 1) * 2496 → ∃ u y, exec (.ctxCreate vi (BitVec.ofNat 64 (root + 1))) s = .next u
          ∧ u.mem = s.mem ∧ u.ctxs = s.ctxs ∧ u.vi? vi = some y ∧ y.ctxStat.toNat / 16 % 16 = 1))
      ∧ (∀ c : Ctx, s.ctxs = [c] → c.num = v.ctxStat.toNat / 2 ^ 32 → c.part = p.id →
        (c.releasing = false → c.killed = false → ∃ u y, exec (.ctxDestroy vi 2#64) s = .next u ∧ u.mem = s.mem ∧ u.ctxs = [{ c with releasing := true, owner := vi }]
          ∧ u.vi? vi = some y ∧ y.ctxStat.toNat % 16 = 1)
        ∧ (c.releasing = true → c.killed = false → (∀ l ∈ s.allLaunches, l.ctx ≠ c.num) →
          (partBias s c.part = [] → ∃ u, exec (.contextReleaseScrub c.num) s = .next u ∧ (s.stashOwners = [] → c.husk = [] → u.mem = s.mem)
            ∧ u.ctxs = [] ∧ (∀ k ∈ u.allCores, (∀ e ∈ k.tlb, e.ctx ≠ c.num) ∧ ∀ x ∈ k.l1, x.part ≠ c.part)
            ∧ u.lan.queue = s.lan.queue ++ [(3, c.part, leBytes 4 c.num ++ leBytes 4 Config.scrubClasses)])
          ∧ (∀ page, s.bias = [(page, .host)] → ownedPage s c.part (4096 * page) = true → ∃ u, exec (.contextReleaseScrub c.num) s = .next u ∧ u.mem = s.mem
            ∧ u.ctxs = s.ctxs ∧ biasOf u page ≠ .host))))

/-- 15 R381 R384 R387 R388 R394: requests to the partition manager within their limits take effect and others change nothing; a destroyed partition's
granules read 0; a rectangle is stitched while its partition is idle; a link that is down leaves every route.
It rests on the model's own readings and choices of log 57. -/
def Obligations.PartitionsAndFabric : Prop :=
  ∀ (s : State) (part : Nat),
    (s.part? part = none → part < 16 → (s.parts.map (·.l2ways)).sum < 16 → ∃ u, exec (.partitionConfig part .create) s = .next u ∧ u.mem = s.mem
      ∧ u.parts = s.parts ++ [{ id := part }] ∧ u.lan.queue = s.lan.queue ++ [(4, part, [])])
    ∧ (∀ p : Part, s.parts = [p] → p.id = part →
      ((∃ c ∈ s.ctxs, c.part = part) → ∀ r, (r = .destroy ∨ (∃ cs, r = .clusters cs) ∨ (∃ gs, r = .memory gs) ∨ (∃ n, r = .l2ways n) ∨ ∃ g, r = .debugWindow g) →
        exec (.partitionConfig part r) s = .next s)
      ∧ ((∀ c ∈ s.ctxs, c.part ≠ part) →
        (biasedIn s p p.granules ≠ [] → exec (.partitionConfig part .destroy) s = .next { s with parts := [{ p with closing := some .destroy }] })
        ∧ (biasedIn s p p.granules = [] → memWf s.mem = true → ∃ u, exec (.partitionConfig part .destroy) s = .next u ∧ u.parts = []
          ∧ (∀ a, a / 2 ^ 30 ∈ p.granules → memGet u.mem a = 0#8) ∧ ∀ a, a / 2 ^ 30 ∉ p.granules → memGet u.mem a = memGet s.mem a)
        ∧ (∀ cs : List Nat, cs ≠ [] → cs.Nodup → (∀ c ∈ cs, c < 48) → ∃ u, exec (.partitionConfig part (.clusters cs)) s = .next u ∧ u.mem = s.mem
          ∧ u.parts = [{ p with clusters := cs, reserve := p.reserve.filter cs.contains
                                stitch := p.stitch.filter fun x => (rectClusters x.1).all cs.contains }])
        ∧ (∀ n, exec (.partitionConfig part (.l2ways n)) s = .next (if 1 ≤ n ∧ n ≤ 16 then { s with parts := [{ p with l2ways := n }] } else s)))
      ∧ (∀ w, exec (.partitionConfig part (.bandwidth w)) s = .next (if 1 ≤ w ∧ w ≤ 255 then { s with parts := [{ p with bandwidth := w }] } else s))
      ∧ (∀ b, (∀ l ∈ s.allLaunches, l.part ≠ part) → exec (.partitionConfig part (.exact b)) s = .next { s with parts := [{ p with exact := b }] })
      ∧ (∀ (rect : Rect) (pattern : StitchPattern), pattern = .mesh ∨ pattern = .ring ∨ pattern = .torus → rectClusters rect ≠ [] →
        (∀ c ∈ rectClusters rect, c ∈ p.clusters) →
        ((∀ c ∈ s.allCohorts, c.resident = false) → ∃ u q, exec (.stitch part rect pattern) s = .next u ∧ u.mem = s.mem ∧ u.parts = [q] ∧ (rect, pattern) ∈ q.stitch
          ∧ ∀ x ∈ q.stitch, x.1 = rect → x.2 = pattern)
        ∧ ((∃ c ∈ s.allCohorts, c.resident = true ∧ clusterOf c.core ∈ p.clusters) → exec (.stitch part rect pattern) s = .next s))
      ∧ (∀ die router input, ((die, router, input) ∈ s.fabric.blocked → exec (.nocInputBlocked die router input) s = .next s)
        ∧ ((die, router, input) ∉ s.fabric.blocked → ∃ u, exec (.nocInputBlocked die router input) s = .next u ∧ u.mem = s.mem
          ∧ (die, router, input) ∈ u.fabric.blocked
          ∧ u.parts = [{ p with drains := p.drains + (if 12 * die + router ∈ p.clusters then 1 else 0) }])))
    ∧ (∀ link, ∃ u, exec (.plLinkDown link) s = .next u ∧ u.mem = s.mem ∧ link ∈ u.fabric.downLinks ∧ u.fabric.routes.length = s.fabric.routes.length
      ∧ ∀ i j, (u.fabric.routes.getD i 0).testBit j = ((s.fabric.routes.getD i 0).testBit j && j != link))
    ∧ (∀ number routes, exec (.routeTableSet number routes) s =
      .next (if number < 64 ∧ routes.length = 64 then { s with fabric := { s.fabric with pkg := number, routes := routes } } else s))

/-! Debugging (chapter 16). -/

/-- 16 R398 R399: the commands of a port: ATTACH claims a launch for the launch that wrote it, DETACH ends the claim; HALT, RESUME and STEP act on the
warp that holds the port's thread, HALTC and RESUMEC on its cohort, SETBP and CLRBP on a breakpoint; results 1 to 6 say why one did not run. -/
def Sys2Proof.Parts.DebugPorts : Prop :=
  ∀ (s : State) (port : Nat) (q : Port) (writer : Nat) (x : DWord) (rest : List (Nat × DWord)), portHas s port q writer x rest →
    let num := 16 * q.plaunch.toNat + port / 16
    (x.toNat % 256 = 0 ∨ 9 < x.toNat % 256 → ∃ u, exec (.attach port) s = .next u ∧ portRan u port q rest 5 ∧ u.mem = s.mem ∧ u.launches = s.launches)
    ∧ (∀ flags l, flags < 4 → x = portWord 1 0 flags → s.launch? num = some l →
      (num = writer → ∃ u, exec (.attach port) s = .next u ∧ portRan u port q rest 5 ∧ u.launch? num = some l)
      ∧ (∀ z, num ≠ writer → l.claimer = some z → z ≠ writer → ∃ u, exec (.attach port) s = .next u ∧ portRan u port q rest 4 ∧ u.launch? num = some l)
      ∧ (num ≠ writer → l.claimer = none ∨ l.claimer = some writer → ∃ u, exec (.attach port) s = .next u ∧ portRan u port q rest 0
        ∧ u.launch? num = some { l with claimer := some writer, claimAt := s.cyc, trace := flags % 2 == 1, sample := flags / 2 == 1 }))
    ∧ (∀ code b, b < 16 → x = portWord code b 0 → ∀ i ∈ [(2, Instr.detach port), (3, .halt port), (4, .haltc port), (5, .resume port), (6, .resumec port),
        (7, .step port), (8, .setbp port), (9, .clrbp port)], code = i.1 →
      (s.launch? num = none → ∃ u, exec i.2 s = .next u ∧ portRan u port q rest 6)
      ∧ (∀ l, s.launch? num = some l → l.claimer ≠ some writer → ∃ u, exec i.2 s = .next u ∧ portRan u port q rest 1)
      ∧ (∀ l, s.launch? num = some l → l.claimer = some writer → 3 ≤ code → code ≤ 7 → portWarp s (port / 16) q = none →
        (savedHolder s num q.pwid = none → ∃ u, exec i.2 s = .next u ∧ portRan u port q rest 2)
        ∧ ((savedHolder s num q.pwid).isSome = true → ∃ u, exec i.2 s = .next u ∧ portRan u port q rest 7)))
    ∧ (∀ l b, s.launch? num = some l → l.claimer = some writer → b < 16 →
      (x = portWord 2 0 0 → ∃ u, exec (.detach port) s = .next u ∧ portRan u port q rest 0 ∧ u.mem = s.mem
        ∧ u.launch? num = some { l with claimer := none, trace := false, sample := false }
        ∧ (∀ w ∈ u.allWarps, (∃ c, s.cohort? w.cid = some c ∧ c.launch = num) → w.halted = false ∧ w.haltReq = false)
        ∧ ∀ y ∈ (u.port (port / 16) (port % 16)).bps, y.armed = false)
      ∧ (x = portWord 8 b 0 → (q.bps.getD b {}).pc.toNat % 4 = 0 → ∃ u, exec (.setbp port) s = .next u ∧ portRan u port q rest 0
        ∧ (u.port (port / 16) (port % 16)).bps = q.bps.modify b fun y => { y with armed := true })
      ∧ (x = portWord 8 b 0 → (q.bps.getD b {}).pc.toNat % 4 ≠ 0 → ∃ u, exec (.setbp port) s = .next u ∧ portRan u port q rest 5
        ∧ (u.port (port / 16) (port % 16)).bps = q.bps)
      ∧ (x = portWord 9 b 0 → ∃ u, exec (.clrbp port) s = .next u ∧ portRan u port q rest 0
        ∧ (u.port (port / 16) (port % 16)).bps = q.bps.modify b fun y => { y with armed := false })
      ∧ (∀ w, portWarp s (port / 16) q = some w → s.warp? w.id = some w →
        (x = portWord 3 0 0 → ∃ u, exec (.halt port) s = .next u ∧ portRan u port q rest 0
          ∧ u.warp? w.id = some (if w.halted then w else { w with haltReq := true, haltWhy := (0, 0) }))
        ∧ (x = portWord 4 0 0 → ∃ u, exec (.haltc port) s = .next u ∧ portRan u port q rest 0
          ∧ ∀ v ∈ u.allWarps, v.cid = w.cid → v.holds ≠ 0#32 → v.halted = true ∨ v.haltReq = true)
        ∧ (x = portWord 5 0 0 → w.halted = true → ∃ u, exec (.resume port) s = .next u ∧ portRan u port q rest 0
          ∧ u.warp? w.id = some (released w) ∧ tokenClosed w u)
        ∧ (x = portWord 5 0 0 → w.halted = false → ∃ u, exec (.resume port) s = .next u ∧ portRan u port q rest 3 ∧ u.warp? w.id = some w)
        ∧ (x = portWord 6 0 0 → ∃ u, exec (.resumec port) s = .next u ∧ portRan u port q rest 0 ∧ ∀ v ∈ u.allWarps, v.cid = w.cid → v.halted = false)
        ∧ (x = portWord 7 0 0 → w.halted = true → ∃ u, exec (.step port) s = .next u ∧ portRan u port q rest 0
          ∧ u.warp? w.id = some { released w with stepping := true } ∧ tokenClosed w u)))

/-- 16 R400 to R403 R411: a requested halt takes effect when earlier work is done, an armed breakpoint asks for one; the views of a halted warp show
and change its state and answer 0 with result 3 of a running one; a sample is due once in a period; the governor moves within 0 to 7. -/
def Sys2Proof.Parts.DebugViews : Prop :=
  ∀ (s : State),
    (s.w.resident = true → s.w.holds ≠ 0#32 → s.w.haltReq = true → s.w.halted = false → unsettled s = false →
      ∃ u, exec (.warpHaltTakesEffect s.w.id) s = .next u ∧ u.w = { s.w with halted := true, haltReq := false, stepping := false } ∧ u.c = s.c
        ∧ ((s.l.claimer = none ∨ s.l.trace = false) → u.mem = s.mem))
    ∧ (∀ (z : Window) (q : Port) (b : BPoint) (e : Entry) (n : Nat), s.w.resident = true → holdsSlot s.w = true → s.w.stall = none → s.w.haltReq = false →
      s.w.bpSkip = none → s.w.cid = s.c.id → s.c.launch = s.l.num → s.l.claimer ≠ none →
      topEntry s.l (s.w.front.filter fun e => !e.parked && atHome s.l s.w (s.coreOf s.w.core).pin e.pc) = some e →
      s.windows = [z] → z.part = s.l.part → z.ports = [q] → q.plaunch.toNat = s.l.num / 16 → b ∈ q.bps → b.armed = true → b.pc = e.pc →
      (e.mask &&& s.w.holds).has n = true → n < 32 → s.w.wid.getD n 0#64 &&& b.mask = b.val →
      ∃ u j, exec (.breakpointHit s.w.id) s = .next u ∧ u.mem = s.mem ∧ u.w = { s.w with haltReq := true, haltWhy := (1, j), bpSkip := some (0, j, e.pc) })
    ∧ (∀ (port : Nat) (val : DWord), viewed s port →
      (∀ (a l : Nat) (v : VReg), a < 512 → l < 32 → boundReg s a = some v → inBand s a = false → v.length = 32 →
        let off := 0x10000 + 128 * a + 4 * l
        (∃ u, exec (.regviewWrite port off 4 val) s = .next u ∧ u.mem = s.mem ∧ boundReg u a = some (v.set l (lowWord val))
          ∧ ∀ b, b ≠ a → boundReg u b = boundReg s b)
        ∧ ∃ u, exec (.viewRead port off 4) s = .next u ∧ u.mem = s.mem ∧ u.w = s.w ∧ (u.port (port / 16) (port % 16)).data = (v.get l).setWidth 64)
      ∧ (∀ a, a < 512 → boundReg s a = none → quotaFull s a = true → ∃ u, exec (.regviewWrite port (0x10000 + 128 * a) 4 val) s = .next u ∧ u.w = s.w
          ∧ (u.port (port / 16) (port % 16)).result = 5)
      ∧ (∀ i, i < 16 → exec (.fibviewWrite port (0x20400 + 4 * i) 4 val) s = .next { s with w := { s.w with sregs := s.w.sregs.set i (lowWord val) } })
      ∧ (∀ i, i < 8 → exec (.fibviewWrite port (0x20440 + 4 * i) 4 val) s = .next { s with w := { s.w with preds := s.w.preds.set i (lowWord val) } }
        ∧ exec (.fibviewWrite port (0x20560 + 8 * i) 4 val) s = .next { s with
            w := { s.w with front := s.w.front.modify i fun e => { e with pc := lowWord val, src := lowWord val } } })
      ∧ (∀ o, o + 4 ≤ s.c.sharedSize → o + 4 ≤ 0x40000 → memWf s.c.shared = true → ∃ u, exec (.shviewWrite port (0x40000 + o) 4 val) s = .next u ∧ u.w = s.w ∧ u.mem = s.mem
        ∧ (∀ i < 4, memGet u.c.shared (o + i) = BitVec.ofNat 8 (val.toNat / 2 ^ (8 * i)))
        ∧ ∀ a, a < o ∨ o + 4 ≤ a → memGet u.c.shared a = memGet s.c.shared a)
      ∧ (∀ (t : Tile) (d : List Word) (i : Nat), s.w.core = s.k.id → tileOf s (s.port (port / 16) (port % 16)).phandle = some t → t.pend = none → t.data = some d →
        t.record.blk = false → fmtBits t.record.fmt = 8 → d.length = tileLines t * tileLineLen t → (∀ x ∈ d, x.toNat < 256) → i < d.length → i < 0x40000 →
        ∃ u x, exec (.tileviewWrite port (0x80000 + i) 1 val) s = .next u ∧ u.w = s.w ∧ tileAt u.k t.phys = some x ∧ x.data = some (d.set i (ofN (val.toNat % 256)))))
    ∧ (∀ (port : Nat) (val : DWord) (w : Warp), portWarp s (port / 16) (s.port (port / 16) (port % 16)) = some w → w.halted = false →
      port % 16 < (s.window (port / 16)).ports.length →
      (∃ u, exec (.regviewWrite port 0x10000 4 val) s = .next u ∧ u.w = s.w ∧ u.warps = s.warps ∧ (u.port (port / 16) (port % 16)).result = 3)
      ∧ ∃ u, exec (.viewRead port 0x10000 4) s = .next u ∧ (u.port (port / 16) (port % 16)).data = 0#64 ∧ (u.port (port / 16) (port % 16)).result = 3)
    ∧ (∀ core, (sampleDue s core = false → exec (.sample core) s = .next s)
      ∧ (∀ t x, sampleAt s core = some t → t ≤ s.cyc → sampleWarps s core = [(x, s.w.id)] → s.w.resident = true → ∃ u, exec (.sample core) s = .next u
        ∧ u.w = s.w ∧ u.c = s.c ∧ (u.coreOf core).lastSample = t ∧ (u.coreOf core).sampleLast = some x))
    ∧ (∀ cl, let g := s.cluster cl
      (s.now < g.govAt + 10000 → exec (.governorUpdate cl) s = .next s)
      ∧ (g.govAt + 10000 ≤ s.now → g.gov ≤ 7 → ∃ u, exec (.governorUpdate cl) s = .next u ∧ u.mem = s.mem ∧ (u.cluster cl).govAt = g.govAt + 10000
        ∧ (u.cluster cl).gov ≤ 7 ∧ (u.cluster cl).gov ≤ g.gov + 1 ∧ g.gov ≤ (u.cluster cl).gov + 1 ∧ (u.cluster cl).droop = false
        ∧ (g.droop = true → (u.cluster cl).gov = min (g.gov + 1) 7)))

/-- 16 R398 R399: the commands of a port: ATTACH claims a launch for the launch that wrote it, DETACH ends the claim; HALT, RESUME and STEP act on the
warp that holds the port's thread, HALTC and RESUMEC on its cohort, SETBP and CLRBP on a breakpoint; results 1 to 6 say why one did not run.
16 R400 to R403 R411: a requested halt takes effect when earlier work is done, an armed breakpoint asks for one; the views of a halted warp show
and change its state and answer 0 with result 3 of a running one; a sample is due once in a period; the governor moves within 0 to 7.
It rests on the model's own readings and choices of logs 11, 13, 41, 83. -/
def Obligations.Debugging : Prop := Parts.DebugPorts ∧ Parts.DebugViews

/-! Lantern (chapter 17). -/

/-- 17 R416 to R418: LMADDR, LMARG and LMNONCE take what is written, and a write of LMCMD puts its command behind those before it; a REPORT is written
with its identity, nonce, measurements, boot count and partition hash and takes one signature; LOGREAD writes the entries from a SEQ that is held, and
LIFEREAD the counters; results 1, 3 and 4 say why nothing was written. -/
def Sys2Proof.Parts.LanternMailbox : Prop :=
  ∀ (s : State) (addr arg : Nat),
    (∀ val : DWord, exec (.registerWrite 64 0x08 val) s = .next { s with lan := { s.lan with lmAddr := val } }
      ∧ exec (.registerWrite 64 0x10 val) s = .next { s with lan := { s.lan with lmArg := val } }
      ∧ (∀ j < 4, exec (.registerWrite 64 (0x20 + 8 * j) val) s =
        .next { s with lan := { s.lan with lmNonce := s.lan.lmNonce.take (8 * j) ++ leBytes 8 val.toNat ++ s.lan.lmNonce.drop (8 * j + 8) } })
      ∧ exec (.registerWrite 64 0x00 val) s =
        .next { s with lan := { s.lan with lmQueue := s.lan.lmQueue ++ [(val, s.lan.lmAddr, s.lan.lmArg, s.lan.lmNonce)] } })
    ∧ (s.lan.recovery = true ∨ addr % 64 ≠ 0 → (∀ nonce, ∃ u, exec (.lmReport addr arg nonce) s = .next u ∧ mailed s u 1 ∧ u.mem = s.mem)
      ∧ (∃ u, exec (.lmLogread addr arg) s = .next u ∧ mailed s u 1 ∧ u.mem = s.mem)
      ∧ ∃ u, exec (.lmLiferead addr arg) s = .next u ∧ mailed s u 1 ∧ u.mem = s.mem)
    ∧ (mailOpen s addr → let pa := 0x8000000000000 + addr
      (∀ nonce : List Byte, nonce.length = 32 → arg < 16 ∨ arg = 0xFFFF → s.lan.meas.length = 8 → (∀ m ∈ s.lan.meas, m.length = 32) → s.lan.chain.length = 32 →
        (s.lan.leaf.isSome = true ∨ s.lan.spent < 2 ^ 40 → ∃ u, exec (.lmReport addr arg nonce) s = .next u ∧ mailed s u 0 ∧ u.lan.leaf = none
          ∧ (s.lan.leafLow < 2 ^ 20 → u.lan.spent = s.lan.spent + (if s.lan.leaf = none then 1 else 0))
          ∧ memGets u.mem pa 40 = leBytes 4 0x4A374154 ++ leBytes 2 1 ++ leBytes 2 arg ++ nonce
          ∧ memGets u.mem (pa + 0x28) 256 = s.lan.meas.flatten ∧ memGets u.mem (pa + 0x128) 40 = leBytes 8 (s.lan.nextSeq - 1) ++ s.lan.chain
          ∧ memGets u.mem (pa + 0x150) 16 = leBytes 8 s.lan.boots ++ leBytes 8 s.now
          ∧ memGets u.mem (pa + 0x160) 64 = sha256 s.lan.life.bytes ++ (if arg = 0xFFFF then List.replicate 32 0#8 else partHash s arg)
          ∧ ∀ a, a < pa ∨ pa + 4116 ≤ a → memGet u.mem a = memGet s.mem a)
        ∧ (s.lan.leaf = none → 2 ^ 40 ≤ s.lan.spent → ∃ u, exec (.lmReport addr arg nonce) s = .next u ∧ mailed s u 4 ∧ u.mem = s.mem
          ∧ u.lan.spent = s.lan.spent))
      ∧ ((∀ r ∈ s.lan.log, r.bytes.length = 64) → s.lan.checkpoints = [] →
        (∀ r more, s.lan.log.filter (fun r => decide (arg ≤ r.seq)) = r :: more → r.seq = arg → ∃ u, exec (.lmLogread addr arg) s = .next u ∧ mailed s u 0
          ∧ memGets u.mem pa 64 = r.bytes ∧ ∀ a, a < pa ∨ pa + 16384 ≤ a → memGet u.mem a = memGet s.mem a)
        ∧ ((∀ r ∈ s.lan.log, r.seq ≠ arg) → ∃ u, exec (.lmLogread addr arg) s = .next u ∧ mailed s u 3 ∧ u.mem = s.mem))
      ∧ (∃ u, exec (.lmLiferead addr 0) s = .next u ∧ (s.lan.life.bytes.length < 2 ^ 50 → mailed s u 0
        ∧ memGets u.mem pa s.lan.life.bytes.length = s.lan.life.bytes ∧ ∀ a, a < pa ∨ pa + s.lan.life.bytes.length ≤ a → memGet u.mem a = memGet s.mem a)))

/-- 17 R413 R415 R421 R422: the Keeper may append types 0x40 to 0x7F and extend MEAS4 to MEAS7, anything else is logged as a violation; an entry's CHAIN covers
the one before it; a checkpoint takes a signature; the volatile counters fold into the record, saturating. -/
def Sys2Proof.Parts.LanternLog : Prop :=
  ∀ (s : State),
    (∀ (type part : Nat) (data : List Byte), let put := fun x => { s with lan := { s.lan with queue := s.lan.queue ++ [x] } }
      (0x40 ≤ type → type ≤ 0x7F → s.lan.queue.length < 256 → exec (.logAppendRequest type part data) s = .next (put (type, part, data)))
      ∧ (0x40 ≤ type → type ≤ 0x7F → 256 ≤ s.lan.queue.length →
        exec (.logAppendRequest type part data) s = .next { s with lan := { s.lan with waiting := s.lan.waiting ++ [(type, part, data)] } })
      ∧ (type < 0x40 ∨ 0x7F < type → exec (.logAppendRequest type part data) s = .next (put (5, part, []))))
    ∧ (∀ (type part : Nat) (data : List Byte) (rest : List (Nat × Nat × List Byte)), s.lan.queue = (type, part, data) :: rest → s.lan.waiting = [] → data.length = 12 →
      s.lan.log.length < 16384 → ∃ r : LogRec, (flushLog s).lan.log = s.lan.log ++ [r] ∧ r.seq = s.lan.nextSeq ∧ (flushLog s).lan.nextSeq = s.lan.nextSeq + 1
        ∧ r.bytes.take 8 = leBytes 8 s.lan.nextSeq ∧ (r.bytes.drop 16).take 16 = leBytes 2 type ++ leBytes 1 part ++ leBytes 1 0 ++ data
        ∧ (flushLog s).lan.chain = sha256 (s.lan.chain ++ r.bytes.take 32) ∧ r.bytes.drop 32 = (flushLog s).lan.chain)
    ∧ ((s.lan.checkDue = false ∨ (s.lan.leaf = none ∧ 2 ^ 40 ≤ s.lan.spent) → exec .logCheckpoint s = .next s)
      ∧ (s.lan.checkDue = true → s.lan.leaf.isSome = true ∨ s.lan.spent < 2 ^ 40 → ∃ u, exec .logCheckpoint s = .next u ∧ u.mem = s.mem ∧ u.lan.leaf = none
        ∧ (s.lan.leafLow < 2 ^ 20 → u.lan.spent = s.lan.spent + (if s.lan.leaf = none then 1 else 0)) ∧ u.lan.checkDue = false
        ∧ u.lan.checkpoints.length ≤ 64 ∧ u.lan.queue = s.lan.queue ++ [(7, 255, [])]
        ∧ ∃ c, u.lan.checkpoints.getLast? = some c ∧ c.1 = s.lan.nextSeq - 1 ∧ c.2.1 = s.lan.chain ∧ c.2.2.length = 3604))
    ∧ (∀ (i : Nat) (d : List Byte), d.length = 32 →
      (4 ≤ i → i < 8 → ∃ u, exec (.measExtend i d) s = .next u ∧ u.mem = s.mem ∧ u.lan.meas = s.lan.meas.modify i (fun x => sha256 (x ++ d))
        ∧ u.lan.queue = s.lan.queue ++ [(8, 255, [])])
      ∧ (i < 4 → ∃ u, exec (.measExtend i d) s = .next u ∧ u.lan.meas = s.lan.meas ∧ u.lan.queue = s.lan.queue ++ [(5, 255, [])]))
    ∧ ((s.now < s.lan.foldAt → s.lan.foldNow = false → exec .lifetimeFold s = .next s)
      ∧ (s.lan.foldAt ≤ s.now ∨ s.lan.foldNow = true → let hour := s.lan.foldAt ≤ s.now
        ∃ u, exec .lifetimeFold s = .next u ∧ u.mem = s.mem ∧ u.lan.vol = {} ∧ u.lan.foldNow = false
        ∧ u.lan.foldAt = (if hour then s.lan.foldAt + 3600000000000 else s.lan.foldAt)
        ∧ u.lan.life.hours = min (s.lan.life.hours + (s.lan.vol.hours + (if hour then 1 else 0))) (2 ^ 64 - 1)
        ∧ u.lan.life.excursions = min (s.lan.life.excursions + s.lan.vol.excursions) (2 ^ 64 - 1) ∧ u.lan.life.trips = min (s.lan.life.trips + s.lan.vol.trips) (2 ^ 64 - 1)
        ∧ u.lan.life.copyFailed = min (s.lan.life.copyFailed + s.lan.vol.copyFailed) (2 ^ 64 - 1)))

/-- 17 R413 to R415 R422 to R424: without power only Lantern's store, counters and fuses are left; a cold reset zeroes the measurements and extends them along the
boot chain, from slot B where slot A fails, or ends in recovery; a fuse only rises; droops, excursions and trips are counted, and a trip kills every context and
holds the dies until the kills have ended. -/
def Sys2Proof.Parts.LanternLife : Prop :=
  ∀ (s : State),
    (∃ u, exec .powerLoss s = .next u ∧ u.mem = [] ∧ u.allWarps = [] ∧ u.ctxs = [] ∧ u.lan.powered = false ∧ u.lan.log = s.lan.log ∧ u.lan.chain = s.lan.chain
      ∧ u.lan.spent = s.lan.spent ∧ u.lan.leaf = none ∧ u.lan.boots = s.lan.boots ∧ u.lan.fuseMin = s.lan.fuseMin ∧ u.lan.keyHash = s.lan.keyHash
      ∧ u.lan.life = s.lan.life)
    ∧ (∀ boot : BootImages, let zero : List Byte := List.replicate 32 0#8
      let a := s.lan.slotA.getD boot.slotA
      let b := s.lan.slotB.getD boot.slotB
      let image := if acceptsImage s.lan a then a else b
      (boot.fusesOk = true → acceptsImage s.lan image = true → acceptsImage s.lan boot.memFw = true → acceptsImage s.lan boot.linkFw = true →
        ∃ u, exec (.coldReset boot) s = .next u
        ∧ u.mem = [] ∧ u.allWarps = [] ∧ u.lan.recovery = false ∧ u.lan.powered = true ∧ u.lan.boots = s.lan.boots + 1 ∧ u.lan.spent = s.lan.spent
        ∧ u.lan.meas = [sha256 (zero ++ boot.rom), sha256 (zero ++ image.digest), sha256 (zero ++ boot.memFw.digest), sha256 (zero ++ boot.linkFw.digest),
            sha256 (zero ++ boot.table), zero, zero, zero])
      ∧ (boot.fusesOk = true → acceptsImage s.lan image = false → ∃ u, exec (.coldReset boot) s = .next u ∧ u.lan.recovery = true
        ∧ u.lan.boots = s.lan.boots + 1 ∧ u.lan.meas = sha256 (zero ++ boot.rom) :: List.replicate 7 zero)
      ∧ (boot.fusesOk = true → acceptsImage s.lan image = true → acceptsImage s.lan boot.memFw = false ∨ acceptsImage s.lan boot.linkFw = false →
        ∃ u, exec (.coldReset boot) s = .next u ∧ u.lan.recovery = true ∧ u.lan.boots = s.lan.boots + 1)
      ∧ (boot.fusesOk = false → ∃ u, exec (.coldReset boot) s = .next u ∧ u.lan.recovery = true ∧ u.lan.boots = s.lan.boots + 1))
    ∧ (∀ (x : Signed) (minimum : Nat), (∃ u, exec (.fuseRaise x minimum) s = .next u ∧ s.lan.fuseMin ≤ u.lan.fuseMin ∧ u.mem = s.mem)
      ∧ (signedBy s.lan x (beBytes 32 minimum) minimum = true → minimum ≤ 64 → s.lan.fuseMin < minimum → ∃ u, exec (.fuseRaise x minimum) s = .next u
        ∧ u.lan.fuseMin = minimum ∧ u.lan.queue = s.lan.queue ++ [(9, 255, [])]))
    ∧ (∀ image, (s.lan.recovery = false → exec (.firmwareUpdate image) s = .next s)
      ∧ (s.lan.recovery = true → acceptsImage s.lan image = true → exec (.firmwareUpdate image) s = .next { s with lan := { s.lan with slotA := some image } })
      ∧ (s.lan.recovery = true → acceptsImage s.lan image = false → ∃ u, exec (.firmwareUpdate image) s = .next u ∧ u.lan.slotA = s.lan.slotA))
    ∧ exec .keeperRestart s = .next s
    ∧ (∀ die < 4, ∃ u, exec (.voltageDroopEvent die) s = .next u ∧ u.mem = s.mem ∧ u.lan.vol.droops = s.lan.vol.droops.modify die (· + 1)
      ∧ ∀ i < 12, (u.cluster (12 * die + i)).droop = true)
    ∧ (∀ sensor, exec (.thermalExcursion sensor) s = .next (s.tally fun x => { x with excursions := x.excursions + 1 })
      ∧ (s.lan.tripped = true → exec (.thermalTrip sensor) s = .next { s with lan := { s.lan with cool := false } })
      ∧ (s.lan.tripped = false → ∃ u, exec (.thermalTrip sensor) s = .next u ∧ u.mem = s.mem ∧ u.lan.tripped = true ∧ u.lan.vol.trips = s.lan.vol.trips + 1
        ∧ u.lan.queue.length = s.lan.queue.length + 1 ∧ ∀ c ∈ u.ctxs, c.killed = true))
    ∧ ((s.lan.tripped = true → killsOver s = true → ∃ u, exec .thermalRecovery s = .next u ∧ u.mem = s.mem ∧ u.lan.tripped = false ∧ u.allCores = [])
      ∧ (s.lan.tripped = true → killsOver s = false → exec .thermalRecovery s = .next { s with lan := { s.lan with cool := true } })
      ∧ (s.lan.tripped = false → exec .thermalRecovery s = .next s))

/-- 17 R416 to R418: LMADDR, LMARG and LMNONCE take what is written, and a write of LMCMD puts its command behind those before it; a REPORT is written
with its identity, nonce, measurements, boot count and partition hash and takes one signature; LOGREAD writes the entries from a SEQ that is held, and
LIFEREAD the counters; results 1, 3 and 4 say why nothing was written.
17 R413 R415 R421 R422: the Keeper may append types 0x40 to 0x7F and extend MEAS4 to MEAS7, anything else is logged as a violation; an entry's CHAIN covers
the one before it; a checkpoint takes a signature; the volatile counters fold into the record, saturating.
17 R413 to R415 R422 to R424: without power only Lantern's store, counters and fuses are left; a cold reset zeroes the measurements and extends them along the
boot chain, from slot B where slot A fails, or ends in recovery; a fuse only rises; droops, excursions and trips are counted, and a trip kills every context and
holds the dies until the kills have ended.
It rests on the model's own readings and choices of logs 9, 39, 40, 84. -/
def Obligations.Lantern : Prop := Parts.LanternMailbox ∧ Parts.LanternLog ∧ Parts.LanternLife
end

