-- ==== Sys2Proof/Laws/Memory.lean ====
section
/-! SUPPORT. Memory: a write is read back, other bytes stay, and every operation that writes memory keeps the canonical form. -/

namespace Sys2Proof.Laws

open Sys2Proof.Machine

/-! The canonical form, by the first address. -/

theorem memWf_tail {c : Host.Cell} {m : List Host.Cell} (h : memWf (c :: m) = true) : memWf m = true := by
  cases m with
  | nil => rfl
  | cons d m => simp [memWf] at h; exact h.2

theorem memWf_head {a : Nat} {x : Byte} {m : List Host.Cell} (h : memWf ((a, x) :: m) = true) : x ≠ unlisted := by
  cases m with
  | nil => simpa [memWf] using h
  | cons d m => simp [memWf] at h; exact h.1.2

theorem memWf_lt {a b : Nat} {x y : Byte} {m : List Host.Cell} (h : memWf ((a, x) :: (b, y) :: m) = true) : a < b := by
  simp [memWf] at h; exact h.1.1

/-- Addresses of a canonical list lie above its first. -/
theorem memWf_above {a : Nat} {x : Byte} {m : List Host.Cell} (h : memWf ((a, x) :: m) = true) : ∀ c ∈ m, a < c.1 := by
  induction m generalizing a x with
  | nil => simp
  | cons d m ih =>
    obtain ⟨b, y⟩ := d
    intro c hc
    have hab := memWf_lt h
    rcases List.mem_cons.mp hc with rfl | hc
    · exact hab
    · exact Nat.lt_trans hab (ih (memWf_tail h) c hc)

theorem memWf_cons {a : Nat} {x : Byte} {m : List Host.Cell} (hx : x ≠ unlisted) (hm : memWf m = true) (ha : ∀ c ∈ m, a < c.1) :
    memWf ((a, x) :: m) = true := by
  cases m with
  | nil => simpa [memWf] using hx
  | cons d m => obtain ⟨b, y⟩ := d; simpa [memWf, hx, hm] using ha (b, y) (by simp)

theorem memGet_below {m : List Host.Cell} {a : Nat} (h : ∀ c ∈ m, a < c.1) : memGet m a = unlisted := by
  cases m with
  | nil => rfl
  | cons d m => obtain ⟨b, y⟩ := d; have hb : a < b := h (b, y) (by simp); simp [memGet, hb, Nat.ne_of_lt hb]

/-! One byte. -/

theorem memPut_mem {m : List Host.Cell} {a : Nat} {x : Byte} : ∀ c ∈ memPut m a x, c.1 = a ∨ c ∈ m := by
  induction m with
  | nil => intro c; simp only [memPut]; split <;> simp_all
  | cons d m ih =>
    obtain ⟨b, y⟩ := d
    intro c hc
    simp only [memPut] at hc
    split at hc
    · split at hc <;> simp_all; grind
    · split at hc
      · split at hc <;> simp_all; grind
      · rcases List.mem_cons.mp hc with rfl | hc
        · simp
        · rcases ih c hc with h | h <;> simp [h]

theorem memWf_memPut (m : List Host.Cell) (a : Nat) (x : Byte) (h : memWf m = true) : memWf (memPut m a x) = true := by
  induction m with
  | nil => simp only [memPut]; split <;> simp_all [memWf]
  | cons d m ih =>
    obtain ⟨b, y⟩ := d
    have ht := memWf_tail h
    have hy := memWf_head h
    have hb := memWf_above h
    simp only [memPut]
    split
    · rename_i e; subst e
      split
      · exact ht
      · exact memWf_cons ‹_› ht hb
    · split
      · split
        · exact h
        · refine memWf_cons ‹_› h fun c hc => ?_
          rcases List.mem_cons.mp hc with rfl | hc
          · assumption
          · exact Nat.lt_trans ‹_› (hb c hc)
      · refine memWf_cons hy (ih ht) fun c hc => ?_
        rcases memPut_mem c hc with hc | hc
        · omega
        · exact hb c hc

theorem memGet_memPut_same (m : List Host.Cell) (a : Nat) (x : Byte) (h : memWf m = true) : memGet (memPut m a x) a = x := by
  induction m with
  | nil => simp only [memPut]; split <;> simp_all [memGet]
  | cons d m ih =>
    obtain ⟨b, y⟩ := d
    simp only [memPut]
    split
    · rename_i e; subst e
      split
      · rename_i e; rw [e]; exact memGet_below (memWf_above h)
      · simp [memGet]
    · split
      · split
        · rename_i e; simp [memGet, *]
        · simp [memGet]
      · simp [memGet, *, ih (memWf_tail h)]

theorem memGet_memPut_ne (m : List Host.Cell) (a b : Nat) (x : Byte) (h : memWf m = true) (hb : b ≠ a) :
    memGet (memPut m a x) b = memGet m b := by
  induction m with
  | nil => simp only [memPut]; split <;> simp [memGet, hb]
  | cons d m ih =>
    obtain ⟨k, y⟩ := d
    simp only [memPut]
    split
    · rename_i e; subst e
      split
      · rename_i e
        simp only [memGet, if_neg hb]
        split
        · exact memGet_below fun c hc => Nat.lt_trans ‹_› (memWf_above h c hc)
        · rfl
      · simp [memGet, hb]
    · split
      · split
        · rfl
        · simp only [memGet, if_neg hb]
          split
          · have : b ≠ k := by omega
            simp [this]; omega
          · rfl
      · simp only [memGet]; split
        · rfl
        · split
          · rfl
          · exact ih (memWf_tail h)

/-! Several bytes. -/

theorem memWf_memPuts (bs : List (Nat × Byte)) (m : List Host.Cell) (h : memWf m = true) : memWf (memPuts m bs) = true := by
  induction bs generalizing m with
  | nil => exact h
  | cons b bs ih => exact ih _ (memWf_memPut m b.1 b.2 h)

/-- A byte at no place of the list stays. -/
theorem memGet_memPuts_other (bs : List (Nat × Byte)) (m : List Host.Cell) (a : Nat) (h : memWf m = true) (ha : a ∉ bs.map (·.1)) :
    memGet (memPuts m bs) a = memGet m a := by
  induction bs generalizing m with
  | nil => rfl
  | cons b bs ih =>
    simp only [List.map_cons, List.mem_cons, not_or] at ha
    exact (ih _ (memWf_memPut m b.1 b.2 h) ha.2).trans (memGet_memPut_ne m b.1 a b.2 h ha.1)

/-- A byte at exactly one place of the list is the one put there. -/
theorem memGet_memPuts_at (bs : List (Nat × Byte)) (m : List Host.Cell) (b : Nat × Byte) (h : memWf m = true) (hb : b ∈ bs)
    (hn : (bs.map (·.1)).Nodup) : memGet (memPuts m bs) b.1 = b.2 := by
  induction bs generalizing m with
  | nil => simp at hb
  | cons c bs ih =>
    simp only [List.map_cons, List.nodup_cons] at hn
    have hw := memWf_memPut m c.1 c.2 h
    rcases List.mem_cons.mp hb with rfl | hb
    · exact (memGet_memPuts_other bs _ _ hw hn.1).trans (memGet_memPut_same m b.1 b.2 h)
    · exact ih _ hw hb hn.2

theorem memWf_filter (q : Host.Cell → Bool) (m : List Host.Cell) (h : memWf m = true) : memWf (m.filter q) = true := by
  induction m with
  | nil => rfl
  | cons d m ih =>
    obtain ⟨a, x⟩ := d
    simp only [List.filter_cons]
    split
    · exact memWf_cons (memWf_head h) (ih (memWf_tail h)) fun c hc => memWf_above h c (List.mem_of_mem_filter hc)
    · exact ih (memWf_tail h)

/-! The operations of the machine that write memory. -/

theorem writeBack_mem (s : State) (c : Cohort) (t : StashLine) :
    (writeBack s c t).mem = if t.dirty then memPuts s.mem (placed t.pa (memGets c.shared (128 * t.line) 128)) else s.mem := by
  cases h : t.dirty <;> simp only [writeBack, h, if_true, if_false, Bool.false_eq_true]

theorem memWf_writeBack (s : State) (c : Cohort) (t : StashLine) (h : memWf s.mem = true) : memWf (writeBack s c t).mem = true := by
  rw [writeBack_mem]; split
  · exact memWf_memPuts _ _ h
  · exact h

theorem memWf_recallLine (s : State) (n : Nat) (h : memWf s.mem = true) : memWf (recallLine s n).mem = true := by
  unfold recallLine
  split
  · exact h
  · split
    · exact h
    · split
      · exact h
      · exact memWf_writeBack _ _ _ h

theorem memWf_foldl {α : Type} (f : State → α → State) (hf : ∀ s x, memWf s.mem = true → memWf (f s x).mem = true)
    (xs : List α) (s : State) (h : memWf s.mem = true) : memWf (xs.foldl f s).mem = true := by
  induction xs generalizing s with
  | nil => exact h
  | cons x xs ih => exact ih _ (hf s x h)

theorem memWf_writeBackAll (s : State) (h : memWf s.mem = true) : memWf (writeBackAll s).mem = true :=
  memWf_foldl _ (fun _ _ h => memWf_writeBack _ _ _ h) _ _ h

@[simp] theorem noteGuest_mem (s : State) (n : Nat) (b : Bool) : (noteGuest s n b).mem = s.mem := by unfold noteGuest; split <;> rfl
@[simp] theorem setLease_mem (s : State) (n a b : Nat) : (setLease s n a b).mem = s.mem := by unfold setLease; simp only []; split <;> rfl
@[simp] theorem markRace_mem (s : State) (b : Bool) : (markRace s b).mem = s.mem := by unfold markRace; split <;> rfl
@[simp] theorem noteWrite_mem (s : State) (n : List Nat) (b : Bool) : (noteWrite s n b).mem = s.mem := by simp [noteWrite, noteFor]

theorem memWf_homePerform (s : State) (bs : List (Nat × Byte)) (h : memWf s.mem = true) : memWf (homePerform s bs).mem = true :=
  memWf_memPuts _ _ (memWf_foldl _ (fun s n h => by simpa using memWf_recallLine s n h) _ _ h)

theorem memWf_homeWrite (s : State) (bs : List (Nat × Byte)) (h : memWf s.mem = true) : memWf (homeWrite s bs).mem = true :=
  memWf_foldl _ (fun s n h => by simpa using h) _ _ (memWf_homePerform s bs h)

theorem memWf_performAt (s : State) (n : Nat) (bs : List (Nat × Byte)) (rel atomic : Bool) (h : memWf s.mem = true) :
    memWf (performAt s n bs rel atomic).mem = true := by
  unfold performAt; simp only []
  split <;> cases atomic <;> simpa using memWf_memPuts _ _ h

theorem memWf_fqFlush (s : State) (part n : Nat) (h : memWf s.mem = true) : memWf (fqFlush s part n).mem = true := by
  induction n generalizing s with
  | zero => exact h
  | succ n ih =>
    unfold fqFlush
    split
    · simp only []
      split
      · exact ih _ (memWf_memPuts _ _ h)
      · exact h
    · exact h

theorem memWf_reset_cells : memWf ([] : List Host.Cell) = true := rfl

end Sys2Proof.Laws
end

