-- ==== Sys2Proof/Laws/State.lean ====
section
/-! SUPPORT. What each update of the state leaves alone, field by field. -/

namespace Sys2Proof.Laws

open Sys2Proof.Machine

/-! mapVi -/

@[simp] theorem mapVi_w (s : State) (i : Nat) (f : VIface → VIface) : (s.mapVi i f).w = s.w := rfl
@[simp] theorem mapVi_sl (s : State) (i : Nat) (f : VIface → VIface) : (s.mapVi i f).sl = s.sl := rfl
@[simp] theorem mapVi_c (s : State) (i : Nat) (f : VIface → VIface) : (s.mapVi i f).c = s.c := rfl
@[simp] theorem mapVi_k (s : State) (i : Nat) (f : VIface → VIface) : (s.mapVi i f).k = s.k := rfl
@[simp] theorem mapVi_l (s : State) (i : Nat) (f : VIface → VIface) : (s.mapVi i f).l = s.l := rfl
@[simp] theorem mapVi_warps (s : State) (i : Nat) (f : VIface → VIface) : (s.mapVi i f).warps = s.warps := rfl
@[simp] theorem mapVi_slots (s : State) (i : Nat) (f : VIface → VIface) : (s.mapVi i f).slots = s.slots := rfl
@[simp] theorem mapVi_cohorts (s : State) (i : Nat) (f : VIface → VIface) : (s.mapVi i f).cohorts = s.cohorts := rfl
@[simp] theorem mapVi_cores (s : State) (i : Nat) (f : VIface → VIface) : (s.mapVi i f).cores = s.cores := rfl
@[simp] theorem mapVi_launches (s : State) (i : Nat) (f : VIface → VIface) : (s.mapVi i f).launches = s.launches := rfl
@[simp] theorem mapVi_clusters (s : State) (i : Nat) (f : VIface → VIface) : (s.mapVi i f).clusters = s.clusters := rfl
@[simp] theorem mapVi_dies (s : State) (i : Nat) (f : VIface → VIface) : (s.mapVi i f).dies = s.dies := rfl
@[simp] theorem mapVi_parts (s : State) (i : Nat) (f : VIface → VIface) : (s.mapVi i f).parts = s.parts := rfl
@[simp] theorem mapVi_ctxs (s : State) (i : Nat) (f : VIface → VIface) : (s.mapVi i f).ctxs = s.ctxs := rfl
@[simp] theorem mapVi_fqWait (s : State) (i : Nat) (f : VIface → VIface) : (s.mapVi i f).fqWait = s.fqWait := rfl
@[simp] theorem mapVi_faults (s : State) (i : Nat) (f : VIface → VIface) : (s.mapVi i f).faults = s.faults := rfl
@[simp] theorem mapVi_mem (s : State) (i : Nat) (f : VIface → VIface) : (s.mapVi i f).mem = s.mem := rfl
@[simp] theorem mapVi_claims (s : State) (i : Nat) (f : VIface → VIface) : (s.mapVi i f).claims = s.claims := rfl
@[simp] theorem mapVi_held (s : State) (i : Nat) (f : VIface → VIface) : (s.mapVi i f).held = s.held := rfl
@[simp] theorem mapVi_convMsgs (s : State) (i : Nat) (f : VIface → VIface) : (s.mapVi i f).convMsgs = s.convMsgs := rfl
@[simp] theorem mapVi_notices (s : State) (i : Nat) (f : VIface → VIface) : (s.mapVi i f).notices = s.notices := rfl
@[simp] theorem mapVi_convs (s : State) (i : Nat) (f : VIface → VIface) : (s.mapVi i f).convs = s.convs := rfl
@[simp] theorem mapVi_leases (s : State) (i : Nat) (f : VIface → VIface) : (s.mapVi i f).leases = s.leases := rfl
@[simp] theorem mapVi_stashOwners (s : State) (i : Nat) (f : VIface → VIface) : (s.mapVi i f).stashOwners = s.stashOwners := rfl
@[simp] theorem mapVi_dir (s : State) (i : Nat) (f : VIface → VIface) : (s.mapVi i f).dir = s.dir := rfl
@[simp] theorem mapVi_probes (s : State) (i : Nat) (f : VIface → VIface) : (s.mapVi i f).probes = s.probes := rfl
@[simp] theorem mapVi_guests (s : State) (i : Nat) (f : VIface → VIface) : (s.mapVi i f).guests = s.guests := rfl
@[simp] theorem mapVi_bias (s : State) (i : Nat) (f : VIface → VIface) : (s.mapVi i f).bias = s.bias := rfl
@[simp] theorem mapVi_marks (s : State) (i : Nat) (f : VIface → VIface) : (s.mapVi i f).marks = s.marks := rfl
@[simp] theorem mapVi_xinv (s : State) (i : Nat) (f : VIface → VIface) : (s.mapVi i f).xinv = s.xinv := rfl
@[simp] theorem mapVi_windows (s : State) (i : Nat) (f : VIface → VIface) : (s.mapVi i f).windows = s.windows := rfl
@[simp] theorem mapVi_fabric (s : State) (i : Nat) (f : VIface → VIface) : (s.mapVi i f).fabric = s.fabric := rfl
@[simp] theorem mapVi_lan (s : State) (i : Nat) (f : VIface → VIface) : (s.mapVi i f).lan = s.lan := rfl
@[simp] theorem mapVi_cyc (s : State) (i : Nat) (f : VIface → VIface) : (s.mapVi i f).cyc = s.cyc := rfl
@[simp] theorem mapVi_inputs (s : State) (i : Nat) (f : VIface → VIface) : (s.mapVi i f).inputs = s.inputs := rfl
@[simp] theorem mapVi_stepNo (s : State) (i : Nat) (f : VIface → VIface) : (s.mapVi i f).stepNo = s.stepNo := rfl
@[simp] theorem mapVi_fresh (s : State) (i : Nat) (f : VIface → VIface) : (s.mapVi i f).fresh = s.fresh := rfl
@[simp] theorem mapVi_nextToken (s : State) (i : Nat) (f : VIface → VIface) : (s.mapVi i f).nextToken = s.nextToken := rfl
@[simp] theorem mapVi_nextId (s : State) (i : Nat) (f : VIface → VIface) : (s.mapVi i f).nextId = s.nextId := rfl
@[simp] theorem mapVi_nextCtx (s : State) (i : Nat) (f : VIface → VIface) : (s.mapVi i f).nextCtx = s.nextCtx := rfl
@[simp] theorem mapVi_dirWait (s : State) (i : Nat) (f : VIface → VIface) : (s.mapVi i f).dirWait = s.dirWait := rfl
@[simp] theorem mapVi_notes (s : State) (i : Nat) (f : VIface → VIface) : (s.mapVi i f).notes = s.notes := rfl
@[simp] theorem mapVi_biasWait (s : State) (i : Nat) (f : VIface → VIface) : (s.mapVi i f).biasWait = s.biasWait := rfl
@[simp] theorem mapVi_hostWait (s : State) (i : Nat) (f : VIface → VIface) : (s.mapVi i f).hostWait = s.hostWait := rfl
@[simp] theorem mapVi_hostSeq (s : State) (i : Nat) (f : VIface → VIface) : (s.mapVi i f).hostSeq = s.hostSeq := rfl
@[simp] theorem mapVi_hostWrote (s : State) (i : Nat) (f : VIface → VIface) : (s.mapVi i f).hostWrote = s.hostWrote := rfl
@[simp] theorem mapVi_hostRead (s : State) (i : Nat) (f : VIface → VIface) : (s.mapVi i f).hostRead = s.hostRead := rfl
@[simp] theorem mapVi_devSeq (s : State) (i : Nat) (f : VIface → VIface) : (s.mapVi i f).devSeq = s.devSeq := rfl
@[simp] theorem mapVi_devWrote (s : State) (i : Nat) (f : VIface → VIface) : (s.mapVi i f).devWrote = s.devWrote := rfl
@[simp] theorem mapVi_devRead (s : State) (i : Nat) (f : VIface → VIface) : (s.mapVi i f).devRead = s.devRead := rfl
@[simp] theorem mapVi_hostAcq (s : State) (i : Nat) (f : VIface → VIface) : (s.mapVi i f).hostAcq = s.hostAcq := rfl
@[simp] theorem mapVi_gone (s : State) (i : Nat) (f : VIface → VIface) : (s.mapVi i f).gone = s.gone := rfl
@[simp] theorem mapVi_clock (s : State) (i : Nat) (f : VIface → VIface) : (s.mapVi i f).clock = s.clock := rfl
@[simp] theorem mapVi_hostOwn (s : State) (i : Nat) (f : VIface → VIface) : (s.mapVi i f).hostOwn = s.hostOwn := rfl

/-! mapCtx -/

@[simp] theorem mapCtx_w (s : State) (i : Nat) (f : Ctx → Ctx) : (s.mapCtx i f).w = s.w := rfl
@[simp] theorem mapCtx_sl (s : State) (i : Nat) (f : Ctx → Ctx) : (s.mapCtx i f).sl = s.sl := rfl
@[simp] theorem mapCtx_c (s : State) (i : Nat) (f : Ctx → Ctx) : (s.mapCtx i f).c = s.c := rfl
@[simp] theorem mapCtx_k (s : State) (i : Nat) (f : Ctx → Ctx) : (s.mapCtx i f).k = s.k := rfl
@[simp] theorem mapCtx_l (s : State) (i : Nat) (f : Ctx → Ctx) : (s.mapCtx i f).l = s.l := rfl
@[simp] theorem mapCtx_warps (s : State) (i : Nat) (f : Ctx → Ctx) : (s.mapCtx i f).warps = s.warps := rfl
@[simp] theorem mapCtx_slots (s : State) (i : Nat) (f : Ctx → Ctx) : (s.mapCtx i f).slots = s.slots := rfl
@[simp] theorem mapCtx_cohorts (s : State) (i : Nat) (f : Ctx → Ctx) : (s.mapCtx i f).cohorts = s.cohorts := rfl
@[simp] theorem mapCtx_cores (s : State) (i : Nat) (f : Ctx → Ctx) : (s.mapCtx i f).cores = s.cores := rfl
@[simp] theorem mapCtx_launches (s : State) (i : Nat) (f : Ctx → Ctx) : (s.mapCtx i f).launches = s.launches := rfl
@[simp] theorem mapCtx_clusters (s : State) (i : Nat) (f : Ctx → Ctx) : (s.mapCtx i f).clusters = s.clusters := rfl
@[simp] theorem mapCtx_dies (s : State) (i : Nat) (f : Ctx → Ctx) : (s.mapCtx i f).dies = s.dies := rfl
@[simp] theorem mapCtx_parts (s : State) (i : Nat) (f : Ctx → Ctx) : (s.mapCtx i f).parts = s.parts := rfl
@[simp] theorem mapCtx_vis (s : State) (i : Nat) (f : Ctx → Ctx) : (s.mapCtx i f).vis = s.vis := rfl
@[simp] theorem mapCtx_fqWait (s : State) (i : Nat) (f : Ctx → Ctx) : (s.mapCtx i f).fqWait = s.fqWait := rfl
@[simp] theorem mapCtx_faults (s : State) (i : Nat) (f : Ctx → Ctx) : (s.mapCtx i f).faults = s.faults := rfl
@[simp] theorem mapCtx_mem (s : State) (i : Nat) (f : Ctx → Ctx) : (s.mapCtx i f).mem = s.mem := rfl
@[simp] theorem mapCtx_claims (s : State) (i : Nat) (f : Ctx → Ctx) : (s.mapCtx i f).claims = s.claims := rfl
@[simp] theorem mapCtx_held (s : State) (i : Nat) (f : Ctx → Ctx) : (s.mapCtx i f).held = s.held := rfl
@[simp] theorem mapCtx_convMsgs (s : State) (i : Nat) (f : Ctx → Ctx) : (s.mapCtx i f).convMsgs = s.convMsgs := rfl
@[simp] theorem mapCtx_notices (s : State) (i : Nat) (f : Ctx → Ctx) : (s.mapCtx i f).notices = s.notices := rfl
@[simp] theorem mapCtx_convs (s : State) (i : Nat) (f : Ctx → Ctx) : (s.mapCtx i f).convs = s.convs := rfl
@[simp] theorem mapCtx_leases (s : State) (i : Nat) (f : Ctx → Ctx) : (s.mapCtx i f).leases = s.leases := rfl
@[simp] theorem mapCtx_stashOwners (s : State) (i : Nat) (f : Ctx → Ctx) : (s.mapCtx i f).stashOwners = s.stashOwners := rfl
@[simp] theorem mapCtx_dir (s : State) (i : Nat) (f : Ctx → Ctx) : (s.mapCtx i f).dir = s.dir := rfl
@[simp] theorem mapCtx_probes (s : State) (i : Nat) (f : Ctx → Ctx) : (s.mapCtx i f).probes = s.probes := rfl
@[simp] theorem mapCtx_guests (s : State) (i : Nat) (f : Ctx → Ctx) : (s.mapCtx i f).guests = s.guests := rfl
@[simp] theorem mapCtx_bias (s : State) (i : Nat) (f : Ctx → Ctx) : (s.mapCtx i f).bias = s.bias := rfl
@[simp] theorem mapCtx_marks (s : State) (i : Nat) (f : Ctx → Ctx) : (s.mapCtx i f).marks = s.marks := rfl
@[simp] theorem mapCtx_xinv (s : State) (i : Nat) (f : Ctx → Ctx) : (s.mapCtx i f).xinv = s.xinv := rfl
@[simp] theorem mapCtx_windows (s : State) (i : Nat) (f : Ctx → Ctx) : (s.mapCtx i f).windows = s.windows := rfl
@[simp] theorem mapCtx_fabric (s : State) (i : Nat) (f : Ctx → Ctx) : (s.mapCtx i f).fabric = s.fabric := rfl
@[simp] theorem mapCtx_lan (s : State) (i : Nat) (f : Ctx → Ctx) : (s.mapCtx i f).lan = s.lan := rfl
@[simp] theorem mapCtx_cyc (s : State) (i : Nat) (f : Ctx → Ctx) : (s.mapCtx i f).cyc = s.cyc := rfl
@[simp] theorem mapCtx_inputs (s : State) (i : Nat) (f : Ctx → Ctx) : (s.mapCtx i f).inputs = s.inputs := rfl
@[simp] theorem mapCtx_stepNo (s : State) (i : Nat) (f : Ctx → Ctx) : (s.mapCtx i f).stepNo = s.stepNo := rfl
@[simp] theorem mapCtx_fresh (s : State) (i : Nat) (f : Ctx → Ctx) : (s.mapCtx i f).fresh = s.fresh := rfl
@[simp] theorem mapCtx_nextToken (s : State) (i : Nat) (f : Ctx → Ctx) : (s.mapCtx i f).nextToken = s.nextToken := rfl
@[simp] theorem mapCtx_nextId (s : State) (i : Nat) (f : Ctx → Ctx) : (s.mapCtx i f).nextId = s.nextId := rfl
@[simp] theorem mapCtx_nextCtx (s : State) (i : Nat) (f : Ctx → Ctx) : (s.mapCtx i f).nextCtx = s.nextCtx := rfl
@[simp] theorem mapCtx_dirWait (s : State) (i : Nat) (f : Ctx → Ctx) : (s.mapCtx i f).dirWait = s.dirWait := rfl
@[simp] theorem mapCtx_notes (s : State) (i : Nat) (f : Ctx → Ctx) : (s.mapCtx i f).notes = s.notes := rfl
@[simp] theorem mapCtx_biasWait (s : State) (i : Nat) (f : Ctx → Ctx) : (s.mapCtx i f).biasWait = s.biasWait := rfl
@[simp] theorem mapCtx_hostWait (s : State) (i : Nat) (f : Ctx → Ctx) : (s.mapCtx i f).hostWait = s.hostWait := rfl
@[simp] theorem mapCtx_hostSeq (s : State) (i : Nat) (f : Ctx → Ctx) : (s.mapCtx i f).hostSeq = s.hostSeq := rfl
@[simp] theorem mapCtx_hostWrote (s : State) (i : Nat) (f : Ctx → Ctx) : (s.mapCtx i f).hostWrote = s.hostWrote := rfl
@[simp] theorem mapCtx_hostRead (s : State) (i : Nat) (f : Ctx → Ctx) : (s.mapCtx i f).hostRead = s.hostRead := rfl
@[simp] theorem mapCtx_devSeq (s : State) (i : Nat) (f : Ctx → Ctx) : (s.mapCtx i f).devSeq = s.devSeq := rfl
@[simp] theorem mapCtx_devWrote (s : State) (i : Nat) (f : Ctx → Ctx) : (s.mapCtx i f).devWrote = s.devWrote := rfl
@[simp] theorem mapCtx_devRead (s : State) (i : Nat) (f : Ctx → Ctx) : (s.mapCtx i f).devRead = s.devRead := rfl
@[simp] theorem mapCtx_hostAcq (s : State) (i : Nat) (f : Ctx → Ctx) : (s.mapCtx i f).hostAcq = s.hostAcq := rfl
@[simp] theorem mapCtx_gone (s : State) (i : Nat) (f : Ctx → Ctx) : (s.mapCtx i f).gone = s.gone := rfl
@[simp] theorem mapCtx_clock (s : State) (i : Nat) (f : Ctx → Ctx) : (s.mapCtx i f).clock = s.clock := rfl
@[simp] theorem mapCtx_hostOwn (s : State) (i : Nat) (f : Ctx → Ctx) : (s.mapCtx i f).hostOwn = s.hostOwn := rfl

/-! mapPart -/

@[simp] theorem mapPart_w (s : State) (i : Nat) (f : Part → Part) : (s.mapPart i f).w = s.w := rfl
@[simp] theorem mapPart_sl (s : State) (i : Nat) (f : Part → Part) : (s.mapPart i f).sl = s.sl := rfl
@[simp] theorem mapPart_c (s : State) (i : Nat) (f : Part → Part) : (s.mapPart i f).c = s.c := rfl
@[simp] theorem mapPart_k (s : State) (i : Nat) (f : Part → Part) : (s.mapPart i f).k = s.k := rfl
@[simp] theorem mapPart_l (s : State) (i : Nat) (f : Part → Part) : (s.mapPart i f).l = s.l := rfl
@[simp] theorem mapPart_warps (s : State) (i : Nat) (f : Part → Part) : (s.mapPart i f).warps = s.warps := rfl
@[simp] theorem mapPart_slots (s : State) (i : Nat) (f : Part → Part) : (s.mapPart i f).slots = s.slots := rfl
@[simp] theorem mapPart_cohorts (s : State) (i : Nat) (f : Part → Part) : (s.mapPart i f).cohorts = s.cohorts := rfl
@[simp] theorem mapPart_cores (s : State) (i : Nat) (f : Part → Part) : (s.mapPart i f).cores = s.cores := rfl
@[simp] theorem mapPart_launches (s : State) (i : Nat) (f : Part → Part) : (s.mapPart i f).launches = s.launches := rfl
@[simp] theorem mapPart_clusters (s : State) (i : Nat) (f : Part → Part) : (s.mapPart i f).clusters = s.clusters := rfl
@[simp] theorem mapPart_dies (s : State) (i : Nat) (f : Part → Part) : (s.mapPart i f).dies = s.dies := rfl
@[simp] theorem mapPart_vis (s : State) (i : Nat) (f : Part → Part) : (s.mapPart i f).vis = s.vis := rfl
@[simp] theorem mapPart_ctxs (s : State) (i : Nat) (f : Part → Part) : (s.mapPart i f).ctxs = s.ctxs := rfl
@[simp] theorem mapPart_fqWait (s : State) (i : Nat) (f : Part → Part) : (s.mapPart i f).fqWait = s.fqWait := rfl
@[simp] theorem mapPart_faults (s : State) (i : Nat) (f : Part → Part) : (s.mapPart i f).faults = s.faults := rfl
@[simp] theorem mapPart_mem (s : State) (i : Nat) (f : Part → Part) : (s.mapPart i f).mem = s.mem := rfl
@[simp] theorem mapPart_claims (s : State) (i : Nat) (f : Part → Part) : (s.mapPart i f).claims = s.claims := rfl
@[simp] theorem mapPart_held (s : State) (i : Nat) (f : Part → Part) : (s.mapPart i f).held = s.held := rfl
@[simp] theorem mapPart_convMsgs (s : State) (i : Nat) (f : Part → Part) : (s.mapPart i f).convMsgs = s.convMsgs := rfl
@[simp] theorem mapPart_notices (s : State) (i : Nat) (f : Part → Part) : (s.mapPart i f).notices = s.notices := rfl
@[simp] theorem mapPart_convs (s : State) (i : Nat) (f : Part → Part) : (s.mapPart i f).convs = s.convs := rfl
@[simp] theorem mapPart_leases (s : State) (i : Nat) (f : Part → Part) : (s.mapPart i f).leases = s.leases := rfl
@[simp] theorem mapPart_stashOwners (s : State) (i : Nat) (f : Part → Part) : (s.mapPart i f).stashOwners = s.stashOwners := rfl
@[simp] theorem mapPart_dir (s : State) (i : Nat) (f : Part → Part) : (s.mapPart i f).dir = s.dir := rfl
@[simp] theorem mapPart_probes (s : State) (i : Nat) (f : Part → Part) : (s.mapPart i f).probes = s.probes := rfl
@[simp] theorem mapPart_guests (s : State) (i : Nat) (f : Part → Part) : (s.mapPart i f).guests = s.guests := rfl
@[simp] theorem mapPart_bias (s : State) (i : Nat) (f : Part → Part) : (s.mapPart i f).bias = s.bias := rfl
@[simp] theorem mapPart_marks (s : State) (i : Nat) (f : Part → Part) : (s.mapPart i f).marks = s.marks := rfl
@[simp] theorem mapPart_xinv (s : State) (i : Nat) (f : Part → Part) : (s.mapPart i f).xinv = s.xinv := rfl
@[simp] theorem mapPart_windows (s : State) (i : Nat) (f : Part → Part) : (s.mapPart i f).windows = s.windows := rfl
@[simp] theorem mapPart_fabric (s : State) (i : Nat) (f : Part → Part) : (s.mapPart i f).fabric = s.fabric := rfl
@[simp] theorem mapPart_lan (s : State) (i : Nat) (f : Part → Part) : (s.mapPart i f).lan = s.lan := rfl
@[simp] theorem mapPart_cyc (s : State) (i : Nat) (f : Part → Part) : (s.mapPart i f).cyc = s.cyc := rfl
@[simp] theorem mapPart_inputs (s : State) (i : Nat) (f : Part → Part) : (s.mapPart i f).inputs = s.inputs := rfl
@[simp] theorem mapPart_stepNo (s : State) (i : Nat) (f : Part → Part) : (s.mapPart i f).stepNo = s.stepNo := rfl
@[simp] theorem mapPart_fresh (s : State) (i : Nat) (f : Part → Part) : (s.mapPart i f).fresh = s.fresh := rfl
@[simp] theorem mapPart_nextToken (s : State) (i : Nat) (f : Part → Part) : (s.mapPart i f).nextToken = s.nextToken := rfl
@[simp] theorem mapPart_nextId (s : State) (i : Nat) (f : Part → Part) : (s.mapPart i f).nextId = s.nextId := rfl
@[simp] theorem mapPart_nextCtx (s : State) (i : Nat) (f : Part → Part) : (s.mapPart i f).nextCtx = s.nextCtx := rfl
@[simp] theorem mapPart_dirWait (s : State) (i : Nat) (f : Part → Part) : (s.mapPart i f).dirWait = s.dirWait := rfl
@[simp] theorem mapPart_notes (s : State) (i : Nat) (f : Part → Part) : (s.mapPart i f).notes = s.notes := rfl
@[simp] theorem mapPart_biasWait (s : State) (i : Nat) (f : Part → Part) : (s.mapPart i f).biasWait = s.biasWait := rfl
@[simp] theorem mapPart_hostWait (s : State) (i : Nat) (f : Part → Part) : (s.mapPart i f).hostWait = s.hostWait := rfl
@[simp] theorem mapPart_hostSeq (s : State) (i : Nat) (f : Part → Part) : (s.mapPart i f).hostSeq = s.hostSeq := rfl
@[simp] theorem mapPart_hostWrote (s : State) (i : Nat) (f : Part → Part) : (s.mapPart i f).hostWrote = s.hostWrote := rfl
@[simp] theorem mapPart_hostRead (s : State) (i : Nat) (f : Part → Part) : (s.mapPart i f).hostRead = s.hostRead := rfl
@[simp] theorem mapPart_devSeq (s : State) (i : Nat) (f : Part → Part) : (s.mapPart i f).devSeq = s.devSeq := rfl
@[simp] theorem mapPart_devWrote (s : State) (i : Nat) (f : Part → Part) : (s.mapPart i f).devWrote = s.devWrote := rfl
@[simp] theorem mapPart_devRead (s : State) (i : Nat) (f : Part → Part) : (s.mapPart i f).devRead = s.devRead := rfl
@[simp] theorem mapPart_hostAcq (s : State) (i : Nat) (f : Part → Part) : (s.mapPart i f).hostAcq = s.hostAcq := rfl
@[simp] theorem mapPart_gone (s : State) (i : Nat) (f : Part → Part) : (s.mapPart i f).gone = s.gone := rfl
@[simp] theorem mapPart_clock (s : State) (i : Nat) (f : Part → Part) : (s.mapPart i f).clock = s.clock := rfl
@[simp] theorem mapPart_hostOwn (s : State) (i : Nat) (f : Part → Part) : (s.mapPart i f).hostOwn = s.hostOwn := rfl

/-! tally -/

@[simp] theorem tally_w (s : State) (f : Life → Life) : (s.tally f).w = s.w := rfl
@[simp] theorem tally_sl (s : State) (f : Life → Life) : (s.tally f).sl = s.sl := rfl
@[simp] theorem tally_c (s : State) (f : Life → Life) : (s.tally f).c = s.c := rfl
@[simp] theorem tally_k (s : State) (f : Life → Life) : (s.tally f).k = s.k := rfl
@[simp] theorem tally_l (s : State) (f : Life → Life) : (s.tally f).l = s.l := rfl
@[simp] theorem tally_warps (s : State) (f : Life → Life) : (s.tally f).warps = s.warps := rfl
@[simp] theorem tally_slots (s : State) (f : Life → Life) : (s.tally f).slots = s.slots := rfl
@[simp] theorem tally_cohorts (s : State) (f : Life → Life) : (s.tally f).cohorts = s.cohorts := rfl
@[simp] theorem tally_cores (s : State) (f : Life → Life) : (s.tally f).cores = s.cores := rfl
@[simp] theorem tally_launches (s : State) (f : Life → Life) : (s.tally f).launches = s.launches := rfl
@[simp] theorem tally_clusters (s : State) (f : Life → Life) : (s.tally f).clusters = s.clusters := rfl
@[simp] theorem tally_dies (s : State) (f : Life → Life) : (s.tally f).dies = s.dies := rfl
@[simp] theorem tally_parts (s : State) (f : Life → Life) : (s.tally f).parts = s.parts := rfl
@[simp] theorem tally_vis (s : State) (f : Life → Life) : (s.tally f).vis = s.vis := rfl
@[simp] theorem tally_ctxs (s : State) (f : Life → Life) : (s.tally f).ctxs = s.ctxs := rfl
@[simp] theorem tally_fqWait (s : State) (f : Life → Life) : (s.tally f).fqWait = s.fqWait := rfl
@[simp] theorem tally_faults (s : State) (f : Life → Life) : (s.tally f).faults = s.faults := rfl
@[simp] theorem tally_mem (s : State) (f : Life → Life) : (s.tally f).mem = s.mem := rfl
@[simp] theorem tally_claims (s : State) (f : Life → Life) : (s.tally f).claims = s.claims := rfl
@[simp] theorem tally_held (s : State) (f : Life → Life) : (s.tally f).held = s.held := rfl
@[simp] theorem tally_convMsgs (s : State) (f : Life → Life) : (s.tally f).convMsgs = s.convMsgs := rfl
@[simp] theorem tally_notices (s : State) (f : Life → Life) : (s.tally f).notices = s.notices := rfl
@[simp] theorem tally_convs (s : State) (f : Life → Life) : (s.tally f).convs = s.convs := rfl
@[simp] theorem tally_leases (s : State) (f : Life → Life) : (s.tally f).leases = s.leases := rfl
@[simp] theorem tally_stashOwners (s : State) (f : Life → Life) : (s.tally f).stashOwners = s.stashOwners := rfl
@[simp] theorem tally_dir (s : State) (f : Life → Life) : (s.tally f).dir = s.dir := rfl
@[simp] theorem tally_probes (s : State) (f : Life → Life) : (s.tally f).probes = s.probes := rfl
@[simp] theorem tally_guests (s : State) (f : Life → Life) : (s.tally f).guests = s.guests := rfl
@[simp] theorem tally_bias (s : State) (f : Life → Life) : (s.tally f).bias = s.bias := rfl
@[simp] theorem tally_marks (s : State) (f : Life → Life) : (s.tally f).marks = s.marks := rfl
@[simp] theorem tally_xinv (s : State) (f : Life → Life) : (s.tally f).xinv = s.xinv := rfl
@[simp] theorem tally_windows (s : State) (f : Life → Life) : (s.tally f).windows = s.windows := rfl
@[simp] theorem tally_fabric (s : State) (f : Life → Life) : (s.tally f).fabric = s.fabric := rfl
@[simp] theorem tally_cyc (s : State) (f : Life → Life) : (s.tally f).cyc = s.cyc := rfl
@[simp] theorem tally_inputs (s : State) (f : Life → Life) : (s.tally f).inputs = s.inputs := rfl
@[simp] theorem tally_stepNo (s : State) (f : Life → Life) : (s.tally f).stepNo = s.stepNo := rfl
@[simp] theorem tally_fresh (s : State) (f : Life → Life) : (s.tally f).fresh = s.fresh := rfl
@[simp] theorem tally_nextToken (s : State) (f : Life → Life) : (s.tally f).nextToken = s.nextToken := rfl
@[simp] theorem tally_nextId (s : State) (f : Life → Life) : (s.tally f).nextId = s.nextId := rfl
@[simp] theorem tally_nextCtx (s : State) (f : Life → Life) : (s.tally f).nextCtx = s.nextCtx := rfl
@[simp] theorem tally_dirWait (s : State) (f : Life → Life) : (s.tally f).dirWait = s.dirWait := rfl
@[simp] theorem tally_notes (s : State) (f : Life → Life) : (s.tally f).notes = s.notes := rfl
@[simp] theorem tally_biasWait (s : State) (f : Life → Life) : (s.tally f).biasWait = s.biasWait := rfl
@[simp] theorem tally_hostWait (s : State) (f : Life → Life) : (s.tally f).hostWait = s.hostWait := rfl
@[simp] theorem tally_hostSeq (s : State) (f : Life → Life) : (s.tally f).hostSeq = s.hostSeq := rfl
@[simp] theorem tally_hostWrote (s : State) (f : Life → Life) : (s.tally f).hostWrote = s.hostWrote := rfl
@[simp] theorem tally_hostRead (s : State) (f : Life → Life) : (s.tally f).hostRead = s.hostRead := rfl
@[simp] theorem tally_devSeq (s : State) (f : Life → Life) : (s.tally f).devSeq = s.devSeq := rfl
@[simp] theorem tally_devWrote (s : State) (f : Life → Life) : (s.tally f).devWrote = s.devWrote := rfl
@[simp] theorem tally_devRead (s : State) (f : Life → Life) : (s.tally f).devRead = s.devRead := rfl
@[simp] theorem tally_hostAcq (s : State) (f : Life → Life) : (s.tally f).hostAcq = s.hostAcq := rfl
@[simp] theorem tally_gone (s : State) (f : Life → Life) : (s.tally f).gone = s.gone := rfl
@[simp] theorem tally_clock (s : State) (f : Life → Life) : (s.tally f).clock = s.clock := rfl
@[simp] theorem tally_hostOwn (s : State) (f : Life → Life) : (s.tally f).hostOwn = s.hostOwn := rfl

/-! mapLaunch -/

@[simp] theorem mapLaunch_w (s : State) (i : Nat) (f : Launch → Launch) : (s.mapLaunch i f).w = s.w := rfl
@[simp] theorem mapLaunch_sl (s : State) (i : Nat) (f : Launch → Launch) : (s.mapLaunch i f).sl = s.sl := rfl
@[simp] theorem mapLaunch_c (s : State) (i : Nat) (f : Launch → Launch) : (s.mapLaunch i f).c = s.c := rfl
@[simp] theorem mapLaunch_k (s : State) (i : Nat) (f : Launch → Launch) : (s.mapLaunch i f).k = s.k := rfl
@[simp] theorem mapLaunch_warps (s : State) (i : Nat) (f : Launch → Launch) : (s.mapLaunch i f).warps = s.warps := rfl
@[simp] theorem mapLaunch_slots (s : State) (i : Nat) (f : Launch → Launch) : (s.mapLaunch i f).slots = s.slots := rfl
@[simp] theorem mapLaunch_cohorts (s : State) (i : Nat) (f : Launch → Launch) : (s.mapLaunch i f).cohorts = s.cohorts := rfl
@[simp] theorem mapLaunch_cores (s : State) (i : Nat) (f : Launch → Launch) : (s.mapLaunch i f).cores = s.cores := rfl
@[simp] theorem mapLaunch_clusters (s : State) (i : Nat) (f : Launch → Launch) : (s.mapLaunch i f).clusters = s.clusters := rfl
@[simp] theorem mapLaunch_dies (s : State) (i : Nat) (f : Launch → Launch) : (s.mapLaunch i f).dies = s.dies := rfl
@[simp] theorem mapLaunch_parts (s : State) (i : Nat) (f : Launch → Launch) : (s.mapLaunch i f).parts = s.parts := rfl
@[simp] theorem mapLaunch_vis (s : State) (i : Nat) (f : Launch → Launch) : (s.mapLaunch i f).vis = s.vis := rfl
@[simp] theorem mapLaunch_ctxs (s : State) (i : Nat) (f : Launch → Launch) : (s.mapLaunch i f).ctxs = s.ctxs := rfl
@[simp] theorem mapLaunch_fqWait (s : State) (i : Nat) (f : Launch → Launch) : (s.mapLaunch i f).fqWait = s.fqWait := rfl
@[simp] theorem mapLaunch_faults (s : State) (i : Nat) (f : Launch → Launch) : (s.mapLaunch i f).faults = s.faults := rfl
@[simp] theorem mapLaunch_mem (s : State) (i : Nat) (f : Launch → Launch) : (s.mapLaunch i f).mem = s.mem := rfl
@[simp] theorem mapLaunch_claims (s : State) (i : Nat) (f : Launch → Launch) : (s.mapLaunch i f).claims = s.claims := rfl
@[simp] theorem mapLaunch_held (s : State) (i : Nat) (f : Launch → Launch) : (s.mapLaunch i f).held = s.held := rfl
@[simp] theorem mapLaunch_convMsgs (s : State) (i : Nat) (f : Launch → Launch) : (s.mapLaunch i f).convMsgs = s.convMsgs := rfl
@[simp] theorem mapLaunch_notices (s : State) (i : Nat) (f : Launch → Launch) : (s.mapLaunch i f).notices = s.notices := rfl
@[simp] theorem mapLaunch_convs (s : State) (i : Nat) (f : Launch → Launch) : (s.mapLaunch i f).convs = s.convs := rfl
@[simp] theorem mapLaunch_leases (s : State) (i : Nat) (f : Launch → Launch) : (s.mapLaunch i f).leases = s.leases := rfl
@[simp] theorem mapLaunch_stashOwners (s : State) (i : Nat) (f : Launch → Launch) : (s.mapLaunch i f).stashOwners = s.stashOwners := rfl
@[simp] theorem mapLaunch_dir (s : State) (i : Nat) (f : Launch → Launch) : (s.mapLaunch i f).dir = s.dir := rfl
@[simp] theorem mapLaunch_probes (s : State) (i : Nat) (f : Launch → Launch) : (s.mapLaunch i f).probes = s.probes := rfl
@[simp] theorem mapLaunch_guests (s : State) (i : Nat) (f : Launch → Launch) : (s.mapLaunch i f).guests = s.guests := rfl
@[simp] theorem mapLaunch_bias (s : State) (i : Nat) (f : Launch → Launch) : (s.mapLaunch i f).bias = s.bias := rfl
@[simp] theorem mapLaunch_marks (s : State) (i : Nat) (f : Launch → Launch) : (s.mapLaunch i f).marks = s.marks := rfl
@[simp] theorem mapLaunch_xinv (s : State) (i : Nat) (f : Launch → Launch) : (s.mapLaunch i f).xinv = s.xinv := rfl
@[simp] theorem mapLaunch_windows (s : State) (i : Nat) (f : Launch → Launch) : (s.mapLaunch i f).windows = s.windows := rfl
@[simp] theorem mapLaunch_fabric (s : State) (i : Nat) (f : Launch → Launch) : (s.mapLaunch i f).fabric = s.fabric := rfl
@[simp] theorem mapLaunch_lan (s : State) (i : Nat) (f : Launch → Launch) : (s.mapLaunch i f).lan = s.lan := rfl
@[simp] theorem mapLaunch_cyc (s : State) (i : Nat) (f : Launch → Launch) : (s.mapLaunch i f).cyc = s.cyc := rfl
@[simp] theorem mapLaunch_inputs (s : State) (i : Nat) (f : Launch → Launch) : (s.mapLaunch i f).inputs = s.inputs := rfl
@[simp] theorem mapLaunch_stepNo (s : State) (i : Nat) (f : Launch → Launch) : (s.mapLaunch i f).stepNo = s.stepNo := rfl
@[simp] theorem mapLaunch_fresh (s : State) (i : Nat) (f : Launch → Launch) : (s.mapLaunch i f).fresh = s.fresh := rfl
@[simp] theorem mapLaunch_nextToken (s : State) (i : Nat) (f : Launch → Launch) : (s.mapLaunch i f).nextToken = s.nextToken := rfl
@[simp] theorem mapLaunch_nextId (s : State) (i : Nat) (f : Launch → Launch) : (s.mapLaunch i f).nextId = s.nextId := rfl
@[simp] theorem mapLaunch_nextCtx (s : State) (i : Nat) (f : Launch → Launch) : (s.mapLaunch i f).nextCtx = s.nextCtx := rfl
@[simp] theorem mapLaunch_dirWait (s : State) (i : Nat) (f : Launch → Launch) : (s.mapLaunch i f).dirWait = s.dirWait := rfl
@[simp] theorem mapLaunch_notes (s : State) (i : Nat) (f : Launch → Launch) : (s.mapLaunch i f).notes = s.notes := rfl
@[simp] theorem mapLaunch_biasWait (s : State) (i : Nat) (f : Launch → Launch) : (s.mapLaunch i f).biasWait = s.biasWait := rfl
@[simp] theorem mapLaunch_hostWait (s : State) (i : Nat) (f : Launch → Launch) : (s.mapLaunch i f).hostWait = s.hostWait := rfl
@[simp] theorem mapLaunch_hostSeq (s : State) (i : Nat) (f : Launch → Launch) : (s.mapLaunch i f).hostSeq = s.hostSeq := rfl
@[simp] theorem mapLaunch_hostWrote (s : State) (i : Nat) (f : Launch → Launch) : (s.mapLaunch i f).hostWrote = s.hostWrote := rfl
@[simp] theorem mapLaunch_hostRead (s : State) (i : Nat) (f : Launch → Launch) : (s.mapLaunch i f).hostRead = s.hostRead := rfl
@[simp] theorem mapLaunch_devSeq (s : State) (i : Nat) (f : Launch → Launch) : (s.mapLaunch i f).devSeq = s.devSeq := rfl
@[simp] theorem mapLaunch_devWrote (s : State) (i : Nat) (f : Launch → Launch) : (s.mapLaunch i f).devWrote = s.devWrote := rfl
@[simp] theorem mapLaunch_devRead (s : State) (i : Nat) (f : Launch → Launch) : (s.mapLaunch i f).devRead = s.devRead := rfl
@[simp] theorem mapLaunch_hostAcq (s : State) (i : Nat) (f : Launch → Launch) : (s.mapLaunch i f).hostAcq = s.hostAcq := rfl
@[simp] theorem mapLaunch_gone (s : State) (i : Nat) (f : Launch → Launch) : (s.mapLaunch i f).gone = s.gone := rfl
@[simp] theorem mapLaunch_clock (s : State) (i : Nat) (f : Launch → Launch) : (s.mapLaunch i f).clock = s.clock := rfl
@[simp] theorem mapLaunch_hostOwn (s : State) (i : Nat) (f : Launch → Launch) : (s.mapLaunch i f).hostOwn = s.hostOwn := rfl

/-! mapCohort -/

@[simp] theorem mapCohort_w (s : State) (i : Nat) (f : Cohort → Cohort) : (s.mapCohort i f).w = s.w := rfl
@[simp] theorem mapCohort_sl (s : State) (i : Nat) (f : Cohort → Cohort) : (s.mapCohort i f).sl = s.sl := rfl
@[simp] theorem mapCohort_k (s : State) (i : Nat) (f : Cohort → Cohort) : (s.mapCohort i f).k = s.k := rfl
@[simp] theorem mapCohort_l (s : State) (i : Nat) (f : Cohort → Cohort) : (s.mapCohort i f).l = s.l := rfl
@[simp] theorem mapCohort_warps (s : State) (i : Nat) (f : Cohort → Cohort) : (s.mapCohort i f).warps = s.warps := rfl
@[simp] theorem mapCohort_slots (s : State) (i : Nat) (f : Cohort → Cohort) : (s.mapCohort i f).slots = s.slots := rfl
@[simp] theorem mapCohort_cores (s : State) (i : Nat) (f : Cohort → Cohort) : (s.mapCohort i f).cores = s.cores := rfl
@[simp] theorem mapCohort_launches (s : State) (i : Nat) (f : Cohort → Cohort) : (s.mapCohort i f).launches = s.launches := rfl
@[simp] theorem mapCohort_clusters (s : State) (i : Nat) (f : Cohort → Cohort) : (s.mapCohort i f).clusters = s.clusters := rfl
@[simp] theorem mapCohort_dies (s : State) (i : Nat) (f : Cohort → Cohort) : (s.mapCohort i f).dies = s.dies := rfl
@[simp] theorem mapCohort_parts (s : State) (i : Nat) (f : Cohort → Cohort) : (s.mapCohort i f).parts = s.parts := rfl
@[simp] theorem mapCohort_vis (s : State) (i : Nat) (f : Cohort → Cohort) : (s.mapCohort i f).vis = s.vis := rfl
@[simp] theorem mapCohort_ctxs (s : State) (i : Nat) (f : Cohort → Cohort) : (s.mapCohort i f).ctxs = s.ctxs := rfl
@[simp] theorem mapCohort_fqWait (s : State) (i : Nat) (f : Cohort → Cohort) : (s.mapCohort i f).fqWait = s.fqWait := rfl
@[simp] theorem mapCohort_faults (s : State) (i : Nat) (f : Cohort → Cohort) : (s.mapCohort i f).faults = s.faults := rfl
@[simp] theorem mapCohort_mem (s : State) (i : Nat) (f : Cohort → Cohort) : (s.mapCohort i f).mem = s.mem := rfl
@[simp] theorem mapCohort_claims (s : State) (i : Nat) (f : Cohort → Cohort) : (s.mapCohort i f).claims = s.claims := rfl
@[simp] theorem mapCohort_held (s : State) (i : Nat) (f : Cohort → Cohort) : (s.mapCohort i f).held = s.held := rfl
@[simp] theorem mapCohort_convMsgs (s : State) (i : Nat) (f : Cohort → Cohort) : (s.mapCohort i f).convMsgs = s.convMsgs := rfl
@[simp] theorem mapCohort_notices (s : State) (i : Nat) (f : Cohort → Cohort) : (s.mapCohort i f).notices = s.notices := rfl
@[simp] theorem mapCohort_convs (s : State) (i : Nat) (f : Cohort → Cohort) : (s.mapCohort i f).convs = s.convs := rfl
@[simp] theorem mapCohort_leases (s : State) (i : Nat) (f : Cohort → Cohort) : (s.mapCohort i f).leases = s.leases := rfl
@[simp] theorem mapCohort_stashOwners (s : State) (i : Nat) (f : Cohort → Cohort) : (s.mapCohort i f).stashOwners = s.stashOwners := rfl
@[simp] theorem mapCohort_dir (s : State) (i : Nat) (f : Cohort → Cohort) : (s.mapCohort i f).dir = s.dir := rfl
@[simp] theorem mapCohort_probes (s : State) (i : Nat) (f : Cohort → Cohort) : (s.mapCohort i f).probes = s.probes := rfl
@[simp] theorem mapCohort_guests (s : State) (i : Nat) (f : Cohort → Cohort) : (s.mapCohort i f).guests = s.guests := rfl
@[simp] theorem mapCohort_bias (s : State) (i : Nat) (f : Cohort → Cohort) : (s.mapCohort i f).bias = s.bias := rfl
@[simp] theorem mapCohort_marks (s : State) (i : Nat) (f : Cohort → Cohort) : (s.mapCohort i f).marks = s.marks := rfl
@[simp] theorem mapCohort_xinv (s : State) (i : Nat) (f : Cohort → Cohort) : (s.mapCohort i f).xinv = s.xinv := rfl
@[simp] theorem mapCohort_windows (s : State) (i : Nat) (f : Cohort → Cohort) : (s.mapCohort i f).windows = s.windows := rfl
@[simp] theorem mapCohort_fabric (s : State) (i : Nat) (f : Cohort → Cohort) : (s.mapCohort i f).fabric = s.fabric := rfl
@[simp] theorem mapCohort_lan (s : State) (i : Nat) (f : Cohort → Cohort) : (s.mapCohort i f).lan = s.lan := rfl
@[simp] theorem mapCohort_cyc (s : State) (i : Nat) (f : Cohort → Cohort) : (s.mapCohort i f).cyc = s.cyc := rfl
@[simp] theorem mapCohort_inputs (s : State) (i : Nat) (f : Cohort → Cohort) : (s.mapCohort i f).inputs = s.inputs := rfl
@[simp] theorem mapCohort_stepNo (s : State) (i : Nat) (f : Cohort → Cohort) : (s.mapCohort i f).stepNo = s.stepNo := rfl
@[simp] theorem mapCohort_fresh (s : State) (i : Nat) (f : Cohort → Cohort) : (s.mapCohort i f).fresh = s.fresh := rfl
@[simp] theorem mapCohort_nextToken (s : State) (i : Nat) (f : Cohort → Cohort) : (s.mapCohort i f).nextToken = s.nextToken := rfl
@[simp] theorem mapCohort_nextId (s : State) (i : Nat) (f : Cohort → Cohort) : (s.mapCohort i f).nextId = s.nextId := rfl
@[simp] theorem mapCohort_nextCtx (s : State) (i : Nat) (f : Cohort → Cohort) : (s.mapCohort i f).nextCtx = s.nextCtx := rfl
@[simp] theorem mapCohort_dirWait (s : State) (i : Nat) (f : Cohort → Cohort) : (s.mapCohort i f).dirWait = s.dirWait := rfl
@[simp] theorem mapCohort_notes (s : State) (i : Nat) (f : Cohort → Cohort) : (s.mapCohort i f).notes = s.notes := rfl
@[simp] theorem mapCohort_biasWait (s : State) (i : Nat) (f : Cohort → Cohort) : (s.mapCohort i f).biasWait = s.biasWait := rfl
@[simp] theorem mapCohort_hostWait (s : State) (i : Nat) (f : Cohort → Cohort) : (s.mapCohort i f).hostWait = s.hostWait := rfl
@[simp] theorem mapCohort_hostSeq (s : State) (i : Nat) (f : Cohort → Cohort) : (s.mapCohort i f).hostSeq = s.hostSeq := rfl
@[simp] theorem mapCohort_hostWrote (s : State) (i : Nat) (f : Cohort → Cohort) : (s.mapCohort i f).hostWrote = s.hostWrote := rfl
@[simp] theorem mapCohort_hostRead (s : State) (i : Nat) (f : Cohort → Cohort) : (s.mapCohort i f).hostRead = s.hostRead := rfl
@[simp] theorem mapCohort_devSeq (s : State) (i : Nat) (f : Cohort → Cohort) : (s.mapCohort i f).devSeq = s.devSeq := rfl
@[simp] theorem mapCohort_devWrote (s : State) (i : Nat) (f : Cohort → Cohort) : (s.mapCohort i f).devWrote = s.devWrote := rfl
@[simp] theorem mapCohort_devRead (s : State) (i : Nat) (f : Cohort → Cohort) : (s.mapCohort i f).devRead = s.devRead := rfl
@[simp] theorem mapCohort_hostAcq (s : State) (i : Nat) (f : Cohort → Cohort) : (s.mapCohort i f).hostAcq = s.hostAcq := rfl
@[simp] theorem mapCohort_gone (s : State) (i : Nat) (f : Cohort → Cohort) : (s.mapCohort i f).gone = s.gone := rfl
@[simp] theorem mapCohort_clock (s : State) (i : Nat) (f : Cohort → Cohort) : (s.mapCohort i f).clock = s.clock := rfl
@[simp] theorem mapCohort_hostOwn (s : State) (i : Nat) (f : Cohort → Cohort) : (s.mapCohort i f).hostOwn = s.hostOwn := rfl

/-! mapWarps -/

@[simp] theorem mapWarps_sl (s : State) (q : Warp → Bool) (f : Warp → Warp) : (s.mapWarps q f).sl = s.sl := rfl
@[simp] theorem mapWarps_c (s : State) (q : Warp → Bool) (f : Warp → Warp) : (s.mapWarps q f).c = s.c := rfl
@[simp] theorem mapWarps_k (s : State) (q : Warp → Bool) (f : Warp → Warp) : (s.mapWarps q f).k = s.k := rfl
@[simp] theorem mapWarps_l (s : State) (q : Warp → Bool) (f : Warp → Warp) : (s.mapWarps q f).l = s.l := rfl
@[simp] theorem mapWarps_slots (s : State) (q : Warp → Bool) (f : Warp → Warp) : (s.mapWarps q f).slots = s.slots := rfl
@[simp] theorem mapWarps_cohorts (s : State) (q : Warp → Bool) (f : Warp → Warp) : (s.mapWarps q f).cohorts = s.cohorts := rfl
@[simp] theorem mapWarps_cores (s : State) (q : Warp → Bool) (f : Warp → Warp) : (s.mapWarps q f).cores = s.cores := rfl
@[simp] theorem mapWarps_launches (s : State) (q : Warp → Bool) (f : Warp → Warp) : (s.mapWarps q f).launches = s.launches := rfl
@[simp] theorem mapWarps_clusters (s : State) (q : Warp → Bool) (f : Warp → Warp) : (s.mapWarps q f).clusters = s.clusters := rfl
@[simp] theorem mapWarps_dies (s : State) (q : Warp → Bool) (f : Warp → Warp) : (s.mapWarps q f).dies = s.dies := rfl
@[simp] theorem mapWarps_parts (s : State) (q : Warp → Bool) (f : Warp → Warp) : (s.mapWarps q f).parts = s.parts := rfl
@[simp] theorem mapWarps_vis (s : State) (q : Warp → Bool) (f : Warp → Warp) : (s.mapWarps q f).vis = s.vis := rfl
@[simp] theorem mapWarps_ctxs (s : State) (q : Warp → Bool) (f : Warp → Warp) : (s.mapWarps q f).ctxs = s.ctxs := rfl
@[simp] theorem mapWarps_fqWait (s : State) (q : Warp → Bool) (f : Warp → Warp) : (s.mapWarps q f).fqWait = s.fqWait := rfl
@[simp] theorem mapWarps_faults (s : State) (q : Warp → Bool) (f : Warp → Warp) : (s.mapWarps q f).faults = s.faults := rfl
@[simp] theorem mapWarps_mem (s : State) (q : Warp → Bool) (f : Warp → Warp) : (s.mapWarps q f).mem = s.mem := rfl
@[simp] theorem mapWarps_claims (s : State) (q : Warp → Bool) (f : Warp → Warp) : (s.mapWarps q f).claims = s.claims := rfl
@[simp] theorem mapWarps_held (s : State) (q : Warp → Bool) (f : Warp → Warp) : (s.mapWarps q f).held = s.held := rfl
@[simp] theorem mapWarps_convMsgs (s : State) (q : Warp → Bool) (f : Warp → Warp) : (s.mapWarps q f).convMsgs = s.convMsgs := rfl
@[simp] theorem mapWarps_notices (s : State) (q : Warp → Bool) (f : Warp → Warp) : (s.mapWarps q f).notices = s.notices := rfl
@[simp] theorem mapWarps_convs (s : State) (q : Warp → Bool) (f : Warp → Warp) : (s.mapWarps q f).convs = s.convs := rfl
@[simp] theorem mapWarps_leases (s : State) (q : Warp → Bool) (f : Warp → Warp) : (s.mapWarps q f).leases = s.leases := rfl
@[simp] theorem mapWarps_stashOwners (s : State) (q : Warp → Bool) (f : Warp → Warp) : (s.mapWarps q f).stashOwners = s.stashOwners := rfl
@[simp] theorem mapWarps_dir (s : State) (q : Warp → Bool) (f : Warp → Warp) : (s.mapWarps q f).dir = s.dir := rfl
@[simp] theorem mapWarps_probes (s : State) (q : Warp → Bool) (f : Warp → Warp) : (s.mapWarps q f).probes = s.probes := rfl
@[simp] theorem mapWarps_guests (s : State) (q : Warp → Bool) (f : Warp → Warp) : (s.mapWarps q f).guests = s.guests := rfl
@[simp] theorem mapWarps_bias (s : State) (q : Warp → Bool) (f : Warp → Warp) : (s.mapWarps q f).bias = s.bias := rfl
@[simp] theorem mapWarps_marks (s : State) (q : Warp → Bool) (f : Warp → Warp) : (s.mapWarps q f).marks = s.marks := rfl
@[simp] theorem mapWarps_xinv (s : State) (q : Warp → Bool) (f : Warp → Warp) : (s.mapWarps q f).xinv = s.xinv := rfl
@[simp] theorem mapWarps_windows (s : State) (q : Warp → Bool) (f : Warp → Warp) : (s.mapWarps q f).windows = s.windows := rfl
@[simp] theorem mapWarps_fabric (s : State) (q : Warp → Bool) (f : Warp → Warp) : (s.mapWarps q f).fabric = s.fabric := rfl
@[simp] theorem mapWarps_lan (s : State) (q : Warp → Bool) (f : Warp → Warp) : (s.mapWarps q f).lan = s.lan := rfl
@[simp] theorem mapWarps_cyc (s : State) (q : Warp → Bool) (f : Warp → Warp) : (s.mapWarps q f).cyc = s.cyc := rfl
@[simp] theorem mapWarps_inputs (s : State) (q : Warp → Bool) (f : Warp → Warp) : (s.mapWarps q f).inputs = s.inputs := rfl
@[simp] theorem mapWarps_stepNo (s : State) (q : Warp → Bool) (f : Warp → Warp) : (s.mapWarps q f).stepNo = s.stepNo := rfl
@[simp] theorem mapWarps_fresh (s : State) (q : Warp → Bool) (f : Warp → Warp) : (s.mapWarps q f).fresh = s.fresh := rfl
@[simp] theorem mapWarps_nextToken (s : State) (q : Warp → Bool) (f : Warp → Warp) : (s.mapWarps q f).nextToken = s.nextToken := rfl
@[simp] theorem mapWarps_nextId (s : State) (q : Warp → Bool) (f : Warp → Warp) : (s.mapWarps q f).nextId = s.nextId := rfl
@[simp] theorem mapWarps_nextCtx (s : State) (q : Warp → Bool) (f : Warp → Warp) : (s.mapWarps q f).nextCtx = s.nextCtx := rfl
@[simp] theorem mapWarps_dirWait (s : State) (q : Warp → Bool) (f : Warp → Warp) : (s.mapWarps q f).dirWait = s.dirWait := rfl
@[simp] theorem mapWarps_notes (s : State) (q : Warp → Bool) (f : Warp → Warp) : (s.mapWarps q f).notes = s.notes := rfl
@[simp] theorem mapWarps_biasWait (s : State) (q : Warp → Bool) (f : Warp → Warp) : (s.mapWarps q f).biasWait = s.biasWait := rfl
@[simp] theorem mapWarps_hostWait (s : State) (q : Warp → Bool) (f : Warp → Warp) : (s.mapWarps q f).hostWait = s.hostWait := rfl
@[simp] theorem mapWarps_hostSeq (s : State) (q : Warp → Bool) (f : Warp → Warp) : (s.mapWarps q f).hostSeq = s.hostSeq := rfl
@[simp] theorem mapWarps_hostWrote (s : State) (q : Warp → Bool) (f : Warp → Warp) : (s.mapWarps q f).hostWrote = s.hostWrote := rfl
@[simp] theorem mapWarps_hostRead (s : State) (q : Warp → Bool) (f : Warp → Warp) : (s.mapWarps q f).hostRead = s.hostRead := rfl
@[simp] theorem mapWarps_devSeq (s : State) (q : Warp → Bool) (f : Warp → Warp) : (s.mapWarps q f).devSeq = s.devSeq := rfl
@[simp] theorem mapWarps_devWrote (s : State) (q : Warp → Bool) (f : Warp → Warp) : (s.mapWarps q f).devWrote = s.devWrote := rfl
@[simp] theorem mapWarps_devRead (s : State) (q : Warp → Bool) (f : Warp → Warp) : (s.mapWarps q f).devRead = s.devRead := rfl
@[simp] theorem mapWarps_hostAcq (s : State) (q : Warp → Bool) (f : Warp → Warp) : (s.mapWarps q f).hostAcq = s.hostAcq := rfl
@[simp] theorem mapWarps_gone (s : State) (q : Warp → Bool) (f : Warp → Warp) : (s.mapWarps q f).gone = s.gone := rfl
@[simp] theorem mapWarps_clock (s : State) (q : Warp → Bool) (f : Warp → Warp) : (s.mapWarps q f).clock = s.clock := rfl
@[simp] theorem mapWarps_hostOwn (s : State) (q : Warp → Bool) (f : Warp → Warp) : (s.mapWarps q f).hostOwn = s.hostOwn := rfl

/-! finish -/

@[simp] theorem finish_sl (s : State) : (finish s).sl = s.sl := rfl
@[simp] theorem finish_c (s : State) : (finish s).c = s.c := rfl
@[simp] theorem finish_k (s : State) : (finish s).k = s.k := rfl
@[simp] theorem finish_l (s : State) : (finish s).l = s.l := rfl
@[simp] theorem finish_warps (s : State) : (finish s).warps = s.warps := rfl
@[simp] theorem finish_slots (s : State) : (finish s).slots = s.slots := rfl
@[simp] theorem finish_cohorts (s : State) : (finish s).cohorts = s.cohorts := rfl
@[simp] theorem finish_cores (s : State) : (finish s).cores = s.cores := rfl
@[simp] theorem finish_launches (s : State) : (finish s).launches = s.launches := rfl
@[simp] theorem finish_clusters (s : State) : (finish s).clusters = s.clusters := rfl
@[simp] theorem finish_dies (s : State) : (finish s).dies = s.dies := rfl
@[simp] theorem finish_parts (s : State) : (finish s).parts = s.parts := rfl
@[simp] theorem finish_vis (s : State) : (finish s).vis = s.vis := rfl
@[simp] theorem finish_ctxs (s : State) : (finish s).ctxs = s.ctxs := rfl
@[simp] theorem finish_fqWait (s : State) : (finish s).fqWait = s.fqWait := rfl
@[simp] theorem finish_faults (s : State) : (finish s).faults = s.faults := rfl
@[simp] theorem finish_mem (s : State) : (finish s).mem = s.mem := rfl
@[simp] theorem finish_claims (s : State) : (finish s).claims = s.claims := rfl
@[simp] theorem finish_held (s : State) : (finish s).held = s.held := rfl
@[simp] theorem finish_convMsgs (s : State) : (finish s).convMsgs = s.convMsgs := rfl
@[simp] theorem finish_notices (s : State) : (finish s).notices = s.notices := rfl
@[simp] theorem finish_convs (s : State) : (finish s).convs = s.convs := rfl
@[simp] theorem finish_leases (s : State) : (finish s).leases = s.leases := rfl
@[simp] theorem finish_stashOwners (s : State) : (finish s).stashOwners = s.stashOwners := rfl
@[simp] theorem finish_dir (s : State) : (finish s).dir = s.dir := rfl
@[simp] theorem finish_probes (s : State) : (finish s).probes = s.probes := rfl
@[simp] theorem finish_guests (s : State) : (finish s).guests = s.guests := rfl
@[simp] theorem finish_bias (s : State) : (finish s).bias = s.bias := rfl
@[simp] theorem finish_marks (s : State) : (finish s).marks = s.marks := rfl
@[simp] theorem finish_xinv (s : State) : (finish s).xinv = s.xinv := rfl
@[simp] theorem finish_windows (s : State) : (finish s).windows = s.windows := rfl
@[simp] theorem finish_fabric (s : State) : (finish s).fabric = s.fabric := rfl
@[simp] theorem finish_lan (s : State) : (finish s).lan = s.lan := rfl
@[simp] theorem finish_cyc (s : State) : (finish s).cyc = s.cyc := rfl
@[simp] theorem finish_inputs (s : State) : (finish s).inputs = s.inputs := rfl
@[simp] theorem finish_stepNo (s : State) : (finish s).stepNo = s.stepNo := rfl
@[simp] theorem finish_fresh (s : State) : (finish s).fresh = s.fresh := rfl
@[simp] theorem finish_nextToken (s : State) : (finish s).nextToken = s.nextToken := rfl
@[simp] theorem finish_nextId (s : State) : (finish s).nextId = s.nextId := rfl
@[simp] theorem finish_nextCtx (s : State) : (finish s).nextCtx = s.nextCtx := rfl
@[simp] theorem finish_dirWait (s : State) : (finish s).dirWait = s.dirWait := rfl
@[simp] theorem finish_notes (s : State) : (finish s).notes = s.notes := rfl
@[simp] theorem finish_biasWait (s : State) : (finish s).biasWait = s.biasWait := rfl
@[simp] theorem finish_hostWait (s : State) : (finish s).hostWait = s.hostWait := rfl
@[simp] theorem finish_hostSeq (s : State) : (finish s).hostSeq = s.hostSeq := rfl
@[simp] theorem finish_hostWrote (s : State) : (finish s).hostWrote = s.hostWrote := rfl
@[simp] theorem finish_hostRead (s : State) : (finish s).hostRead = s.hostRead := rfl
@[simp] theorem finish_devSeq (s : State) : (finish s).devSeq = s.devSeq := rfl
@[simp] theorem finish_devWrote (s : State) : (finish s).devWrote = s.devWrote := rfl
@[simp] theorem finish_devRead (s : State) : (finish s).devRead = s.devRead := rfl
@[simp] theorem finish_hostAcq (s : State) : (finish s).hostAcq = s.hostAcq := rfl
@[simp] theorem finish_gone (s : State) : (finish s).gone = s.gone := rfl
@[simp] theorem finish_clock (s : State) : (finish s).clock = s.clock := rfl
@[simp] theorem finish_hostOwn (s : State) : (finish s).hostOwn = s.hostOwn := rfl

/-! stallWarp -/

@[simp] theorem stallWarp_k (s : State) (b : Bool) (k : StallKind) (x : Cond) : (stallWarp s b k x).k = s.k := rfl
@[simp] theorem stallWarp_l (s : State) (b : Bool) (k : StallKind) (x : Cond) : (stallWarp s b k x).l = s.l := rfl
@[simp] theorem stallWarp_warps (s : State) (b : Bool) (k : StallKind) (x : Cond) : (stallWarp s b k x).warps = s.warps := rfl
@[simp] theorem stallWarp_slots (s : State) (b : Bool) (k : StallKind) (x : Cond) : (stallWarp s b k x).slots = s.slots := rfl
@[simp] theorem stallWarp_cohorts (s : State) (b : Bool) (k : StallKind) (x : Cond) : (stallWarp s b k x).cohorts = s.cohorts := rfl
@[simp] theorem stallWarp_cores (s : State) (b : Bool) (k : StallKind) (x : Cond) : (stallWarp s b k x).cores = s.cores := rfl
@[simp] theorem stallWarp_launches (s : State) (b : Bool) (k : StallKind) (x : Cond) : (stallWarp s b k x).launches = s.launches := rfl
@[simp] theorem stallWarp_clusters (s : State) (b : Bool) (k : StallKind) (x : Cond) : (stallWarp s b k x).clusters = s.clusters := rfl
@[simp] theorem stallWarp_dies (s : State) (b : Bool) (k : StallKind) (x : Cond) : (stallWarp s b k x).dies = s.dies := rfl
@[simp] theorem stallWarp_parts (s : State) (b : Bool) (k : StallKind) (x : Cond) : (stallWarp s b k x).parts = s.parts := rfl
@[simp] theorem stallWarp_vis (s : State) (b : Bool) (k : StallKind) (x : Cond) : (stallWarp s b k x).vis = s.vis := rfl
@[simp] theorem stallWarp_ctxs (s : State) (b : Bool) (k : StallKind) (x : Cond) : (stallWarp s b k x).ctxs = s.ctxs := rfl
@[simp] theorem stallWarp_fqWait (s : State) (b : Bool) (k : StallKind) (x : Cond) : (stallWarp s b k x).fqWait = s.fqWait := rfl
@[simp] theorem stallWarp_faults (s : State) (b : Bool) (k : StallKind) (x : Cond) : (stallWarp s b k x).faults = s.faults := rfl
@[simp] theorem stallWarp_mem (s : State) (b : Bool) (k : StallKind) (x : Cond) : (stallWarp s b k x).mem = s.mem := rfl
@[simp] theorem stallWarp_claims (s : State) (b : Bool) (k : StallKind) (x : Cond) : (stallWarp s b k x).claims = s.claims := rfl
@[simp] theorem stallWarp_held (s : State) (b : Bool) (k : StallKind) (x : Cond) : (stallWarp s b k x).held = s.held := rfl
@[simp] theorem stallWarp_convMsgs (s : State) (b : Bool) (k : StallKind) (x : Cond) : (stallWarp s b k x).convMsgs = s.convMsgs := rfl
@[simp] theorem stallWarp_notices (s : State) (b : Bool) (k : StallKind) (x : Cond) : (stallWarp s b k x).notices = s.notices := rfl
@[simp] theorem stallWarp_convs (s : State) (b : Bool) (k : StallKind) (x : Cond) : (stallWarp s b k x).convs = s.convs := rfl
@[simp] theorem stallWarp_leases (s : State) (b : Bool) (k : StallKind) (x : Cond) : (stallWarp s b k x).leases = s.leases := rfl
@[simp] theorem stallWarp_stashOwners (s : State) (b : Bool) (k : StallKind) (x : Cond) : (stallWarp s b k x).stashOwners = s.stashOwners := rfl
@[simp] theorem stallWarp_dir (s : State) (b : Bool) (k : StallKind) (x : Cond) : (stallWarp s b k x).dir = s.dir := rfl
@[simp] theorem stallWarp_probes (s : State) (b : Bool) (k : StallKind) (x : Cond) : (stallWarp s b k x).probes = s.probes := rfl
@[simp] theorem stallWarp_guests (s : State) (b : Bool) (k : StallKind) (x : Cond) : (stallWarp s b k x).guests = s.guests := rfl
@[simp] theorem stallWarp_bias (s : State) (b : Bool) (k : StallKind) (x : Cond) : (stallWarp s b k x).bias = s.bias := rfl
@[simp] theorem stallWarp_marks (s : State) (b : Bool) (k : StallKind) (x : Cond) : (stallWarp s b k x).marks = s.marks := rfl
@[simp] theorem stallWarp_xinv (s : State) (b : Bool) (k : StallKind) (x : Cond) : (stallWarp s b k x).xinv = s.xinv := rfl
@[simp] theorem stallWarp_windows (s : State) (b : Bool) (k : StallKind) (x : Cond) : (stallWarp s b k x).windows = s.windows := rfl
@[simp] theorem stallWarp_fabric (s : State) (b : Bool) (k : StallKind) (x : Cond) : (stallWarp s b k x).fabric = s.fabric := rfl
@[simp] theorem stallWarp_lan (s : State) (b : Bool) (k : StallKind) (x : Cond) : (stallWarp s b k x).lan = s.lan := rfl
@[simp] theorem stallWarp_cyc (s : State) (b : Bool) (k : StallKind) (x : Cond) : (stallWarp s b k x).cyc = s.cyc := rfl
@[simp] theorem stallWarp_inputs (s : State) (b : Bool) (k : StallKind) (x : Cond) : (stallWarp s b k x).inputs = s.inputs := rfl
@[simp] theorem stallWarp_stepNo (s : State) (b : Bool) (k : StallKind) (x : Cond) : (stallWarp s b k x).stepNo = s.stepNo := rfl
@[simp] theorem stallWarp_fresh (s : State) (b : Bool) (k : StallKind) (x : Cond) : (stallWarp s b k x).fresh = s.fresh := rfl
@[simp] theorem stallWarp_nextToken (s : State) (b : Bool) (k : StallKind) (x : Cond) : (stallWarp s b k x).nextToken = s.nextToken := rfl
@[simp] theorem stallWarp_nextId (s : State) (b : Bool) (k : StallKind) (x : Cond) : (stallWarp s b k x).nextId = s.nextId := rfl
@[simp] theorem stallWarp_nextCtx (s : State) (b : Bool) (k : StallKind) (x : Cond) : (stallWarp s b k x).nextCtx = s.nextCtx := rfl
@[simp] theorem stallWarp_dirWait (s : State) (b : Bool) (k : StallKind) (x : Cond) : (stallWarp s b k x).dirWait = s.dirWait := rfl
@[simp] theorem stallWarp_notes (s : State) (b : Bool) (k : StallKind) (x : Cond) : (stallWarp s b k x).notes = s.notes := rfl
@[simp] theorem stallWarp_biasWait (s : State) (b : Bool) (k : StallKind) (x : Cond) : (stallWarp s b k x).biasWait = s.biasWait := rfl
@[simp] theorem stallWarp_hostWait (s : State) (b : Bool) (k : StallKind) (x : Cond) : (stallWarp s b k x).hostWait = s.hostWait := rfl
@[simp] theorem stallWarp_hostSeq (s : State) (b : Bool) (k : StallKind) (x : Cond) : (stallWarp s b k x).hostSeq = s.hostSeq := rfl
@[simp] theorem stallWarp_hostWrote (s : State) (b : Bool) (k : StallKind) (x : Cond) : (stallWarp s b k x).hostWrote = s.hostWrote := rfl
@[simp] theorem stallWarp_hostRead (s : State) (b : Bool) (k : StallKind) (x : Cond) : (stallWarp s b k x).hostRead = s.hostRead := rfl
@[simp] theorem stallWarp_devSeq (s : State) (b : Bool) (k : StallKind) (x : Cond) : (stallWarp s b k x).devSeq = s.devSeq := rfl
@[simp] theorem stallWarp_devWrote (s : State) (b : Bool) (k : StallKind) (x : Cond) : (stallWarp s b k x).devWrote = s.devWrote := rfl
@[simp] theorem stallWarp_devRead (s : State) (b : Bool) (k : StallKind) (x : Cond) : (stallWarp s b k x).devRead = s.devRead := rfl
@[simp] theorem stallWarp_hostAcq (s : State) (b : Bool) (k : StallKind) (x : Cond) : (stallWarp s b k x).hostAcq = s.hostAcq := rfl
@[simp] theorem stallWarp_gone (s : State) (b : Bool) (k : StallKind) (x : Cond) : (stallWarp s b k x).gone = s.gone := rfl
@[simp] theorem stallWarp_clock (s : State) (b : Bool) (k : StallKind) (x : Cond) : (stallWarp s b k x).clock = s.clock := rfl
@[simp] theorem stallWarp_hostOwn (s : State) (b : Bool) (k : StallKind) (x : Cond) : (stallWarp s b k x).hostOwn = s.hostOwn := rfl

/-! trapNow -/

@[simp] theorem trapNow_c (s : State) (t : TrapInfo) (e : Entry) : (trapNow s t e).c = s.c := rfl
@[simp] theorem trapNow_k (s : State) (t : TrapInfo) (e : Entry) : (trapNow s t e).k = s.k := rfl
@[simp] theorem trapNow_l (s : State) (t : TrapInfo) (e : Entry) : (trapNow s t e).l = s.l := rfl
@[simp] theorem trapNow_warps (s : State) (t : TrapInfo) (e : Entry) : (trapNow s t e).warps = s.warps := rfl
@[simp] theorem trapNow_slots (s : State) (t : TrapInfo) (e : Entry) : (trapNow s t e).slots = s.slots := rfl
@[simp] theorem trapNow_cohorts (s : State) (t : TrapInfo) (e : Entry) : (trapNow s t e).cohorts = s.cohorts := rfl
@[simp] theorem trapNow_cores (s : State) (t : TrapInfo) (e : Entry) : (trapNow s t e).cores = s.cores := rfl
@[simp] theorem trapNow_launches (s : State) (t : TrapInfo) (e : Entry) : (trapNow s t e).launches = s.launches := rfl
@[simp] theorem trapNow_clusters (s : State) (t : TrapInfo) (e : Entry) : (trapNow s t e).clusters = s.clusters := rfl
@[simp] theorem trapNow_dies (s : State) (t : TrapInfo) (e : Entry) : (trapNow s t e).dies = s.dies := rfl
@[simp] theorem trapNow_parts (s : State) (t : TrapInfo) (e : Entry) : (trapNow s t e).parts = s.parts := rfl
@[simp] theorem trapNow_vis (s : State) (t : TrapInfo) (e : Entry) : (trapNow s t e).vis = s.vis := rfl
@[simp] theorem trapNow_ctxs (s : State) (t : TrapInfo) (e : Entry) : (trapNow s t e).ctxs = s.ctxs := rfl
@[simp] theorem trapNow_fqWait (s : State) (t : TrapInfo) (e : Entry) : (trapNow s t e).fqWait = s.fqWait := rfl
@[simp] theorem trapNow_faults (s : State) (t : TrapInfo) (e : Entry) : (trapNow s t e).faults = s.faults := rfl
@[simp] theorem trapNow_mem (s : State) (t : TrapInfo) (e : Entry) : (trapNow s t e).mem = s.mem := rfl
@[simp] theorem trapNow_claims (s : State) (t : TrapInfo) (e : Entry) : (trapNow s t e).claims = s.claims := rfl
@[simp] theorem trapNow_held (s : State) (t : TrapInfo) (e : Entry) : (trapNow s t e).held = s.held := rfl
@[simp] theorem trapNow_convMsgs (s : State) (t : TrapInfo) (e : Entry) : (trapNow s t e).convMsgs = s.convMsgs := rfl
@[simp] theorem trapNow_notices (s : State) (t : TrapInfo) (e : Entry) : (trapNow s t e).notices = s.notices := rfl
@[simp] theorem trapNow_convs (s : State) (t : TrapInfo) (e : Entry) : (trapNow s t e).convs = s.convs := rfl
@[simp] theorem trapNow_leases (s : State) (t : TrapInfo) (e : Entry) : (trapNow s t e).leases = s.leases := rfl
@[simp] theorem trapNow_stashOwners (s : State) (t : TrapInfo) (e : Entry) : (trapNow s t e).stashOwners = s.stashOwners := rfl
@[simp] theorem trapNow_dir (s : State) (t : TrapInfo) (e : Entry) : (trapNow s t e).dir = s.dir := rfl
@[simp] theorem trapNow_probes (s : State) (t : TrapInfo) (e : Entry) : (trapNow s t e).probes = s.probes := rfl
@[simp] theorem trapNow_guests (s : State) (t : TrapInfo) (e : Entry) : (trapNow s t e).guests = s.guests := rfl
@[simp] theorem trapNow_bias (s : State) (t : TrapInfo) (e : Entry) : (trapNow s t e).bias = s.bias := rfl
@[simp] theorem trapNow_marks (s : State) (t : TrapInfo) (e : Entry) : (trapNow s t e).marks = s.marks := rfl
@[simp] theorem trapNow_xinv (s : State) (t : TrapInfo) (e : Entry) : (trapNow s t e).xinv = s.xinv := rfl
@[simp] theorem trapNow_windows (s : State) (t : TrapInfo) (e : Entry) : (trapNow s t e).windows = s.windows := rfl
@[simp] theorem trapNow_fabric (s : State) (t : TrapInfo) (e : Entry) : (trapNow s t e).fabric = s.fabric := rfl
@[simp] theorem trapNow_lan (s : State) (t : TrapInfo) (e : Entry) : (trapNow s t e).lan = s.lan := rfl
@[simp] theorem trapNow_cyc (s : State) (t : TrapInfo) (e : Entry) : (trapNow s t e).cyc = s.cyc := rfl
@[simp] theorem trapNow_inputs (s : State) (t : TrapInfo) (e : Entry) : (trapNow s t e).inputs = s.inputs := rfl
@[simp] theorem trapNow_stepNo (s : State) (t : TrapInfo) (e : Entry) : (trapNow s t e).stepNo = s.stepNo := rfl
@[simp] theorem trapNow_fresh (s : State) (t : TrapInfo) (e : Entry) : (trapNow s t e).fresh = s.fresh := rfl
@[simp] theorem trapNow_nextToken (s : State) (t : TrapInfo) (e : Entry) : (trapNow s t e).nextToken = s.nextToken := rfl
@[simp] theorem trapNow_nextId (s : State) (t : TrapInfo) (e : Entry) : (trapNow s t e).nextId = s.nextId := rfl
@[simp] theorem trapNow_nextCtx (s : State) (t : TrapInfo) (e : Entry) : (trapNow s t e).nextCtx = s.nextCtx := rfl
@[simp] theorem trapNow_dirWait (s : State) (t : TrapInfo) (e : Entry) : (trapNow s t e).dirWait = s.dirWait := rfl
@[simp] theorem trapNow_notes (s : State) (t : TrapInfo) (e : Entry) : (trapNow s t e).notes = s.notes := rfl
@[simp] theorem trapNow_biasWait (s : State) (t : TrapInfo) (e : Entry) : (trapNow s t e).biasWait = s.biasWait := rfl
@[simp] theorem trapNow_hostWait (s : State) (t : TrapInfo) (e : Entry) : (trapNow s t e).hostWait = s.hostWait := rfl
@[simp] theorem trapNow_hostSeq (s : State) (t : TrapInfo) (e : Entry) : (trapNow s t e).hostSeq = s.hostSeq := rfl
@[simp] theorem trapNow_hostWrote (s : State) (t : TrapInfo) (e : Entry) : (trapNow s t e).hostWrote = s.hostWrote := rfl
@[simp] theorem trapNow_hostRead (s : State) (t : TrapInfo) (e : Entry) : (trapNow s t e).hostRead = s.hostRead := rfl
@[simp] theorem trapNow_devSeq (s : State) (t : TrapInfo) (e : Entry) : (trapNow s t e).devSeq = s.devSeq := rfl
@[simp] theorem trapNow_devWrote (s : State) (t : TrapInfo) (e : Entry) : (trapNow s t e).devWrote = s.devWrote := rfl
@[simp] theorem trapNow_devRead (s : State) (t : TrapInfo) (e : Entry) : (trapNow s t e).devRead = s.devRead := rfl
@[simp] theorem trapNow_hostAcq (s : State) (t : TrapInfo) (e : Entry) : (trapNow s t e).hostAcq = s.hostAcq := rfl
@[simp] theorem trapNow_gone (s : State) (t : TrapInfo) (e : Entry) : (trapNow s t e).gone = s.gone := rfl
@[simp] theorem trapNow_clock (s : State) (t : TrapInfo) (e : Entry) : (trapNow s t e).clock = s.clock := rfl
@[simp] theorem trapNow_hostOwn (s : State) (t : TrapInfo) (e : Entry) : (trapNow s t e).hostOwn = s.hostOwn := rfl

/-! noteFor -/

@[simp] theorem noteFor_w (s : State) (a : Nat) (n : List Nat) (b : Bool) : (noteFor s a n b).w = s.w := rfl
@[simp] theorem noteFor_sl (s : State) (a : Nat) (n : List Nat) (b : Bool) : (noteFor s a n b).sl = s.sl := rfl
@[simp] theorem noteFor_c (s : State) (a : Nat) (n : List Nat) (b : Bool) : (noteFor s a n b).c = s.c := rfl
@[simp] theorem noteFor_k (s : State) (a : Nat) (n : List Nat) (b : Bool) : (noteFor s a n b).k = s.k := rfl
@[simp] theorem noteFor_l (s : State) (a : Nat) (n : List Nat) (b : Bool) : (noteFor s a n b).l = s.l := rfl
@[simp] theorem noteFor_warps (s : State) (a : Nat) (n : List Nat) (b : Bool) : (noteFor s a n b).warps = s.warps := rfl
@[simp] theorem noteFor_slots (s : State) (a : Nat) (n : List Nat) (b : Bool) : (noteFor s a n b).slots = s.slots := rfl
@[simp] theorem noteFor_cohorts (s : State) (a : Nat) (n : List Nat) (b : Bool) : (noteFor s a n b).cohorts = s.cohorts := rfl
@[simp] theorem noteFor_cores (s : State) (a : Nat) (n : List Nat) (b : Bool) : (noteFor s a n b).cores = s.cores := rfl
@[simp] theorem noteFor_launches (s : State) (a : Nat) (n : List Nat) (b : Bool) : (noteFor s a n b).launches = s.launches := rfl
@[simp] theorem noteFor_clusters (s : State) (a : Nat) (n : List Nat) (b : Bool) : (noteFor s a n b).clusters = s.clusters := rfl
@[simp] theorem noteFor_dies (s : State) (a : Nat) (n : List Nat) (b : Bool) : (noteFor s a n b).dies = s.dies := rfl
@[simp] theorem noteFor_parts (s : State) (a : Nat) (n : List Nat) (b : Bool) : (noteFor s a n b).parts = s.parts := rfl
@[simp] theorem noteFor_vis (s : State) (a : Nat) (n : List Nat) (b : Bool) : (noteFor s a n b).vis = s.vis := rfl
@[simp] theorem noteFor_ctxs (s : State) (a : Nat) (n : List Nat) (b : Bool) : (noteFor s a n b).ctxs = s.ctxs := rfl
@[simp] theorem noteFor_fqWait (s : State) (a : Nat) (n : List Nat) (b : Bool) : (noteFor s a n b).fqWait = s.fqWait := rfl
@[simp] theorem noteFor_faults (s : State) (a : Nat) (n : List Nat) (b : Bool) : (noteFor s a n b).faults = s.faults := rfl
@[simp] theorem noteFor_mem (s : State) (a : Nat) (n : List Nat) (b : Bool) : (noteFor s a n b).mem = s.mem := rfl
@[simp] theorem noteFor_claims (s : State) (a : Nat) (n : List Nat) (b : Bool) : (noteFor s a n b).claims = s.claims := rfl
@[simp] theorem noteFor_held (s : State) (a : Nat) (n : List Nat) (b : Bool) : (noteFor s a n b).held = s.held := rfl
@[simp] theorem noteFor_convMsgs (s : State) (a : Nat) (n : List Nat) (b : Bool) : (noteFor s a n b).convMsgs = s.convMsgs := rfl
@[simp] theorem noteFor_notices (s : State) (a : Nat) (n : List Nat) (b : Bool) : (noteFor s a n b).notices = s.notices := rfl
@[simp] theorem noteFor_convs (s : State) (a : Nat) (n : List Nat) (b : Bool) : (noteFor s a n b).convs = s.convs := rfl
@[simp] theorem noteFor_leases (s : State) (a : Nat) (n : List Nat) (b : Bool) : (noteFor s a n b).leases = s.leases := rfl
@[simp] theorem noteFor_stashOwners (s : State) (a : Nat) (n : List Nat) (b : Bool) : (noteFor s a n b).stashOwners = s.stashOwners := rfl
@[simp] theorem noteFor_dir (s : State) (a : Nat) (n : List Nat) (b : Bool) : (noteFor s a n b).dir = s.dir := rfl
@[simp] theorem noteFor_probes (s : State) (a : Nat) (n : List Nat) (b : Bool) : (noteFor s a n b).probes = s.probes := rfl
@[simp] theorem noteFor_guests (s : State) (a : Nat) (n : List Nat) (b : Bool) : (noteFor s a n b).guests = s.guests := rfl
@[simp] theorem noteFor_bias (s : State) (a : Nat) (n : List Nat) (b : Bool) : (noteFor s a n b).bias = s.bias := rfl
@[simp] theorem noteFor_marks (s : State) (a : Nat) (n : List Nat) (b : Bool) : (noteFor s a n b).marks = s.marks := rfl
@[simp] theorem noteFor_xinv (s : State) (a : Nat) (n : List Nat) (b : Bool) : (noteFor s a n b).xinv = s.xinv := rfl
@[simp] theorem noteFor_windows (s : State) (a : Nat) (n : List Nat) (b : Bool) : (noteFor s a n b).windows = s.windows := rfl
@[simp] theorem noteFor_fabric (s : State) (a : Nat) (n : List Nat) (b : Bool) : (noteFor s a n b).fabric = s.fabric := rfl
@[simp] theorem noteFor_lan (s : State) (a : Nat) (n : List Nat) (b : Bool) : (noteFor s a n b).lan = s.lan := rfl
@[simp] theorem noteFor_cyc (s : State) (a : Nat) (n : List Nat) (b : Bool) : (noteFor s a n b).cyc = s.cyc := rfl
@[simp] theorem noteFor_inputs (s : State) (a : Nat) (n : List Nat) (b : Bool) : (noteFor s a n b).inputs = s.inputs := rfl
@[simp] theorem noteFor_stepNo (s : State) (a : Nat) (n : List Nat) (b : Bool) : (noteFor s a n b).stepNo = s.stepNo := rfl
@[simp] theorem noteFor_fresh (s : State) (a : Nat) (n : List Nat) (b : Bool) : (noteFor s a n b).fresh = s.fresh := rfl
@[simp] theorem noteFor_nextToken (s : State) (a : Nat) (n : List Nat) (b : Bool) : (noteFor s a n b).nextToken = s.nextToken := rfl
@[simp] theorem noteFor_nextId (s : State) (a : Nat) (n : List Nat) (b : Bool) : (noteFor s a n b).nextId = s.nextId := rfl
@[simp] theorem noteFor_nextCtx (s : State) (a : Nat) (n : List Nat) (b : Bool) : (noteFor s a n b).nextCtx = s.nextCtx := rfl
@[simp] theorem noteFor_dirWait (s : State) (a : Nat) (n : List Nat) (b : Bool) : (noteFor s a n b).dirWait = s.dirWait := rfl
@[simp] theorem noteFor_notes (s : State) (a : Nat) (n : List Nat) (b : Bool) : (noteFor s a n b).notes = s.notes := rfl
@[simp] theorem noteFor_biasWait (s : State) (a : Nat) (n : List Nat) (b : Bool) : (noteFor s a n b).biasWait = s.biasWait := rfl
@[simp] theorem noteFor_hostWait (s : State) (a : Nat) (n : List Nat) (b : Bool) : (noteFor s a n b).hostWait = s.hostWait := rfl
@[simp] theorem noteFor_hostSeq (s : State) (a : Nat) (n : List Nat) (b : Bool) : (noteFor s a n b).hostSeq = s.hostSeq := rfl
@[simp] theorem noteFor_hostAcq (s : State) (a : Nat) (n : List Nat) (b : Bool) : (noteFor s a n b).hostAcq = s.hostAcq := rfl
@[simp] theorem noteFor_gone (s : State) (a : Nat) (n : List Nat) (b : Bool) : (noteFor s a n b).gone = s.gone := rfl
@[simp] theorem noteFor_clock (s : State) (a : Nat) (n : List Nat) (b : Bool) : (noteFor s a n b).clock = s.clock := rfl
@[simp] theorem noteFor_hostOwn (s : State) (a : Nat) (n : List Nat) (b : Bool) : (noteFor s a n b).hostOwn = s.hostOwn := rfl

/-! takeOld -/

@[simp] theorem takeOld_c (d : List Await) (o : List (Nat × Nat)) (s : State) : (takeOld d o s).c = s.c := rfl
@[simp] theorem takeOld_k (d : List Await) (o : List (Nat × Nat)) (s : State) : (takeOld d o s).k = s.k := rfl
@[simp] theorem takeOld_l (d : List Await) (o : List (Nat × Nat)) (s : State) : (takeOld d o s).l = s.l := rfl
@[simp] theorem takeOld_warps (d : List Await) (o : List (Nat × Nat)) (s : State) : (takeOld d o s).warps = s.warps := rfl
@[simp] theorem takeOld_slots (d : List Await) (o : List (Nat × Nat)) (s : State) : (takeOld d o s).slots = s.slots := rfl
@[simp] theorem takeOld_cohorts (d : List Await) (o : List (Nat × Nat)) (s : State) : (takeOld d o s).cohorts = s.cohorts := rfl
@[simp] theorem takeOld_cores (d : List Await) (o : List (Nat × Nat)) (s : State) : (takeOld d o s).cores = s.cores := rfl
@[simp] theorem takeOld_launches (d : List Await) (o : List (Nat × Nat)) (s : State) : (takeOld d o s).launches = s.launches := rfl
@[simp] theorem takeOld_clusters (d : List Await) (o : List (Nat × Nat)) (s : State) : (takeOld d o s).clusters = s.clusters := rfl
@[simp] theorem takeOld_dies (d : List Await) (o : List (Nat × Nat)) (s : State) : (takeOld d o s).dies = s.dies := rfl
@[simp] theorem takeOld_parts (d : List Await) (o : List (Nat × Nat)) (s : State) : (takeOld d o s).parts = s.parts := rfl
@[simp] theorem takeOld_vis (d : List Await) (o : List (Nat × Nat)) (s : State) : (takeOld d o s).vis = s.vis := rfl
@[simp] theorem takeOld_ctxs (d : List Await) (o : List (Nat × Nat)) (s : State) : (takeOld d o s).ctxs = s.ctxs := rfl
@[simp] theorem takeOld_fqWait (d : List Await) (o : List (Nat × Nat)) (s : State) : (takeOld d o s).fqWait = s.fqWait := rfl
@[simp] theorem takeOld_faults (d : List Await) (o : List (Nat × Nat)) (s : State) : (takeOld d o s).faults = s.faults := rfl
@[simp] theorem takeOld_mem (d : List Await) (o : List (Nat × Nat)) (s : State) : (takeOld d o s).mem = s.mem := rfl
@[simp] theorem takeOld_claims (d : List Await) (o : List (Nat × Nat)) (s : State) : (takeOld d o s).claims = s.claims := rfl
@[simp] theorem takeOld_held (d : List Await) (o : List (Nat × Nat)) (s : State) : (takeOld d o s).held = s.held := rfl
@[simp] theorem takeOld_convMsgs (d : List Await) (o : List (Nat × Nat)) (s : State) : (takeOld d o s).convMsgs = s.convMsgs := rfl
@[simp] theorem takeOld_notices (d : List Await) (o : List (Nat × Nat)) (s : State) : (takeOld d o s).notices = s.notices := rfl
@[simp] theorem takeOld_convs (d : List Await) (o : List (Nat × Nat)) (s : State) : (takeOld d o s).convs = s.convs := rfl
@[simp] theorem takeOld_leases (d : List Await) (o : List (Nat × Nat)) (s : State) : (takeOld d o s).leases = s.leases := rfl
@[simp] theorem takeOld_stashOwners (d : List Await) (o : List (Nat × Nat)) (s : State) : (takeOld d o s).stashOwners = s.stashOwners := rfl
@[simp] theorem takeOld_dir (d : List Await) (o : List (Nat × Nat)) (s : State) : (takeOld d o s).dir = s.dir := rfl
@[simp] theorem takeOld_probes (d : List Await) (o : List (Nat × Nat)) (s : State) : (takeOld d o s).probes = s.probes := rfl
@[simp] theorem takeOld_guests (d : List Await) (o : List (Nat × Nat)) (s : State) : (takeOld d o s).guests = s.guests := rfl
@[simp] theorem takeOld_bias (d : List Await) (o : List (Nat × Nat)) (s : State) : (takeOld d o s).bias = s.bias := rfl
@[simp] theorem takeOld_marks (d : List Await) (o : List (Nat × Nat)) (s : State) : (takeOld d o s).marks = s.marks := rfl
@[simp] theorem takeOld_xinv (d : List Await) (o : List (Nat × Nat)) (s : State) : (takeOld d o s).xinv = s.xinv := rfl
@[simp] theorem takeOld_windows (d : List Await) (o : List (Nat × Nat)) (s : State) : (takeOld d o s).windows = s.windows := rfl
@[simp] theorem takeOld_fabric (d : List Await) (o : List (Nat × Nat)) (s : State) : (takeOld d o s).fabric = s.fabric := rfl
@[simp] theorem takeOld_lan (d : List Await) (o : List (Nat × Nat)) (s : State) : (takeOld d o s).lan = s.lan := rfl
@[simp] theorem takeOld_cyc (d : List Await) (o : List (Nat × Nat)) (s : State) : (takeOld d o s).cyc = s.cyc := rfl
@[simp] theorem takeOld_inputs (d : List Await) (o : List (Nat × Nat)) (s : State) : (takeOld d o s).inputs = s.inputs := rfl
@[simp] theorem takeOld_stepNo (d : List Await) (o : List (Nat × Nat)) (s : State) : (takeOld d o s).stepNo = s.stepNo := rfl
@[simp] theorem takeOld_fresh (d : List Await) (o : List (Nat × Nat)) (s : State) : (takeOld d o s).fresh = s.fresh := rfl
@[simp] theorem takeOld_nextToken (d : List Await) (o : List (Nat × Nat)) (s : State) : (takeOld d o s).nextToken = s.nextToken := rfl
@[simp] theorem takeOld_nextId (d : List Await) (o : List (Nat × Nat)) (s : State) : (takeOld d o s).nextId = s.nextId := rfl
@[simp] theorem takeOld_nextCtx (d : List Await) (o : List (Nat × Nat)) (s : State) : (takeOld d o s).nextCtx = s.nextCtx := rfl
@[simp] theorem takeOld_dirWait (d : List Await) (o : List (Nat × Nat)) (s : State) : (takeOld d o s).dirWait = s.dirWait := rfl
@[simp] theorem takeOld_notes (d : List Await) (o : List (Nat × Nat)) (s : State) : (takeOld d o s).notes = s.notes := rfl
@[simp] theorem takeOld_biasWait (d : List Await) (o : List (Nat × Nat)) (s : State) : (takeOld d o s).biasWait = s.biasWait := rfl
@[simp] theorem takeOld_hostWait (d : List Await) (o : List (Nat × Nat)) (s : State) : (takeOld d o s).hostWait = s.hostWait := rfl
@[simp] theorem takeOld_hostSeq (d : List Await) (o : List (Nat × Nat)) (s : State) : (takeOld d o s).hostSeq = s.hostSeq := rfl
@[simp] theorem takeOld_hostWrote (d : List Await) (o : List (Nat × Nat)) (s : State) : (takeOld d o s).hostWrote = s.hostWrote := rfl
@[simp] theorem takeOld_hostRead (d : List Await) (o : List (Nat × Nat)) (s : State) : (takeOld d o s).hostRead = s.hostRead := rfl
@[simp] theorem takeOld_devSeq (d : List Await) (o : List (Nat × Nat)) (s : State) : (takeOld d o s).devSeq = s.devSeq := rfl
@[simp] theorem takeOld_devWrote (d : List Await) (o : List (Nat × Nat)) (s : State) : (takeOld d o s).devWrote = s.devWrote := rfl
@[simp] theorem takeOld_devRead (d : List Await) (o : List (Nat × Nat)) (s : State) : (takeOld d o s).devRead = s.devRead := rfl
@[simp] theorem takeOld_hostAcq (d : List Await) (o : List (Nat × Nat)) (s : State) : (takeOld d o s).hostAcq = s.hostAcq := rfl
@[simp] theorem takeOld_gone (d : List Await) (o : List (Nat × Nat)) (s : State) : (takeOld d o s).gone = s.gone := rfl
@[simp] theorem takeOld_clock (d : List Await) (o : List (Nat × Nat)) (s : State) : (takeOld d o s).clock = s.clock := rfl
@[simp] theorem takeOld_hostOwn (d : List Await) (o : List (Nat × Nat)) (s : State) : (takeOld d o s).hostOwn = s.hostOwn := rfl

/-! releaseClaims -/

@[simp] theorem releaseClaims_w (s : State) : (releaseClaims s).w = s.w := rfl
@[simp] theorem releaseClaims_sl (s : State) : (releaseClaims s).sl = s.sl := rfl
@[simp] theorem releaseClaims_c (s : State) : (releaseClaims s).c = s.c := rfl
@[simp] theorem releaseClaims_k (s : State) : (releaseClaims s).k = s.k := rfl
@[simp] theorem releaseClaims_l (s : State) : (releaseClaims s).l = s.l := rfl
@[simp] theorem releaseClaims_warps (s : State) : (releaseClaims s).warps = s.warps := rfl
@[simp] theorem releaseClaims_slots (s : State) : (releaseClaims s).slots = s.slots := rfl
@[simp] theorem releaseClaims_cohorts (s : State) : (releaseClaims s).cohorts = s.cohorts := rfl
@[simp] theorem releaseClaims_cores (s : State) : (releaseClaims s).cores = s.cores := rfl
@[simp] theorem releaseClaims_launches (s : State) : (releaseClaims s).launches = s.launches := rfl
@[simp] theorem releaseClaims_clusters (s : State) : (releaseClaims s).clusters = s.clusters := rfl
@[simp] theorem releaseClaims_dies (s : State) : (releaseClaims s).dies = s.dies := rfl
@[simp] theorem releaseClaims_parts (s : State) : (releaseClaims s).parts = s.parts := rfl
@[simp] theorem releaseClaims_vis (s : State) : (releaseClaims s).vis = s.vis := rfl
@[simp] theorem releaseClaims_ctxs (s : State) : (releaseClaims s).ctxs = s.ctxs := rfl
@[simp] theorem releaseClaims_fqWait (s : State) : (releaseClaims s).fqWait = s.fqWait := rfl
@[simp] theorem releaseClaims_faults (s : State) : (releaseClaims s).faults = s.faults := rfl
@[simp] theorem releaseClaims_mem (s : State) : (releaseClaims s).mem = s.mem := rfl
@[simp] theorem releaseClaims_held (s : State) : (releaseClaims s).held = s.held := rfl
@[simp] theorem releaseClaims_convMsgs (s : State) : (releaseClaims s).convMsgs = s.convMsgs := rfl
@[simp] theorem releaseClaims_notices (s : State) : (releaseClaims s).notices = s.notices := rfl
@[simp] theorem releaseClaims_convs (s : State) : (releaseClaims s).convs = s.convs := rfl
@[simp] theorem releaseClaims_leases (s : State) : (releaseClaims s).leases = s.leases := rfl
@[simp] theorem releaseClaims_stashOwners (s : State) : (releaseClaims s).stashOwners = s.stashOwners := rfl
@[simp] theorem releaseClaims_dir (s : State) : (releaseClaims s).dir = s.dir := rfl
@[simp] theorem releaseClaims_probes (s : State) : (releaseClaims s).probes = s.probes := rfl
@[simp] theorem releaseClaims_guests (s : State) : (releaseClaims s).guests = s.guests := rfl
@[simp] theorem releaseClaims_bias (s : State) : (releaseClaims s).bias = s.bias := rfl
@[simp] theorem releaseClaims_marks (s : State) : (releaseClaims s).marks = s.marks := rfl
@[simp] theorem releaseClaims_xinv (s : State) : (releaseClaims s).xinv = s.xinv := rfl
@[simp] theorem releaseClaims_windows (s : State) : (releaseClaims s).windows = s.windows := rfl
@[simp] theorem releaseClaims_fabric (s : State) : (releaseClaims s).fabric = s.fabric := rfl
@[simp] theorem releaseClaims_lan (s : State) : (releaseClaims s).lan = s.lan := rfl
@[simp] theorem releaseClaims_cyc (s : State) : (releaseClaims s).cyc = s.cyc := rfl
@[simp] theorem releaseClaims_inputs (s : State) : (releaseClaims s).inputs = s.inputs := rfl
@[simp] theorem releaseClaims_stepNo (s : State) : (releaseClaims s).stepNo = s.stepNo := rfl
@[simp] theorem releaseClaims_fresh (s : State) : (releaseClaims s).fresh = s.fresh := rfl
@[simp] theorem releaseClaims_nextToken (s : State) : (releaseClaims s).nextToken = s.nextToken := rfl
@[simp] theorem releaseClaims_nextId (s : State) : (releaseClaims s).nextId = s.nextId := rfl
@[simp] theorem releaseClaims_nextCtx (s : State) : (releaseClaims s).nextCtx = s.nextCtx := rfl
@[simp] theorem releaseClaims_dirWait (s : State) : (releaseClaims s).dirWait = s.dirWait := rfl
@[simp] theorem releaseClaims_notes (s : State) : (releaseClaims s).notes = s.notes := rfl
@[simp] theorem releaseClaims_biasWait (s : State) : (releaseClaims s).biasWait = s.biasWait := rfl
@[simp] theorem releaseClaims_hostWait (s : State) : (releaseClaims s).hostWait = s.hostWait := rfl
@[simp] theorem releaseClaims_hostSeq (s : State) : (releaseClaims s).hostSeq = s.hostSeq := rfl
@[simp] theorem releaseClaims_hostWrote (s : State) : (releaseClaims s).hostWrote = s.hostWrote := rfl
@[simp] theorem releaseClaims_hostRead (s : State) : (releaseClaims s).hostRead = s.hostRead := rfl
@[simp] theorem releaseClaims_devSeq (s : State) : (releaseClaims s).devSeq = s.devSeq := rfl
@[simp] theorem releaseClaims_devWrote (s : State) : (releaseClaims s).devWrote = s.devWrote := rfl
@[simp] theorem releaseClaims_devRead (s : State) : (releaseClaims s).devRead = s.devRead := rfl
@[simp] theorem releaseClaims_hostAcq (s : State) : (releaseClaims s).hostAcq = s.hostAcq := rfl
@[simp] theorem releaseClaims_gone (s : State) : (releaseClaims s).gone = s.gone := rfl
@[simp] theorem releaseClaims_clock (s : State) : (releaseClaims s).clock = s.clock := rfl
@[simp] theorem releaseClaims_hostOwn (s : State) : (releaseClaims s).hostOwn = s.hostOwn := rfl

/-! keeperLog -/

@[simp] theorem keeperLog_w (s : State) (t p : Nat) (d : List Byte) : (keeperLog s t p d).w = s.w := rfl
@[simp] theorem keeperLog_sl (s : State) (t p : Nat) (d : List Byte) : (keeperLog s t p d).sl = s.sl := rfl
@[simp] theorem keeperLog_c (s : State) (t p : Nat) (d : List Byte) : (keeperLog s t p d).c = s.c := rfl
@[simp] theorem keeperLog_k (s : State) (t p : Nat) (d : List Byte) : (keeperLog s t p d).k = s.k := rfl
@[simp] theorem keeperLog_l (s : State) (t p : Nat) (d : List Byte) : (keeperLog s t p d).l = s.l := rfl
@[simp] theorem keeperLog_warps (s : State) (t p : Nat) (d : List Byte) : (keeperLog s t p d).warps = s.warps := rfl
@[simp] theorem keeperLog_slots (s : State) (t p : Nat) (d : List Byte) : (keeperLog s t p d).slots = s.slots := rfl
@[simp] theorem keeperLog_cohorts (s : State) (t p : Nat) (d : List Byte) : (keeperLog s t p d).cohorts = s.cohorts := rfl
@[simp] theorem keeperLog_cores (s : State) (t p : Nat) (d : List Byte) : (keeperLog s t p d).cores = s.cores := rfl
@[simp] theorem keeperLog_launches (s : State) (t p : Nat) (d : List Byte) : (keeperLog s t p d).launches = s.launches := rfl
@[simp] theorem keeperLog_clusters (s : State) (t p : Nat) (d : List Byte) : (keeperLog s t p d).clusters = s.clusters := rfl
@[simp] theorem keeperLog_dies (s : State) (t p : Nat) (d : List Byte) : (keeperLog s t p d).dies = s.dies := rfl
@[simp] theorem keeperLog_parts (s : State) (t p : Nat) (d : List Byte) : (keeperLog s t p d).parts = s.parts := rfl
@[simp] theorem keeperLog_vis (s : State) (t p : Nat) (d : List Byte) : (keeperLog s t p d).vis = s.vis := rfl
@[simp] theorem keeperLog_ctxs (s : State) (t p : Nat) (d : List Byte) : (keeperLog s t p d).ctxs = s.ctxs := rfl
@[simp] theorem keeperLog_fqWait (s : State) (t p : Nat) (d : List Byte) : (keeperLog s t p d).fqWait = s.fqWait := rfl
@[simp] theorem keeperLog_faults (s : State) (t p : Nat) (d : List Byte) : (keeperLog s t p d).faults = s.faults := rfl
@[simp] theorem keeperLog_mem (s : State) (t p : Nat) (d : List Byte) : (keeperLog s t p d).mem = s.mem := rfl
@[simp] theorem keeperLog_claims (s : State) (t p : Nat) (d : List Byte) : (keeperLog s t p d).claims = s.claims := rfl
@[simp] theorem keeperLog_held (s : State) (t p : Nat) (d : List Byte) : (keeperLog s t p d).held = s.held := rfl
@[simp] theorem keeperLog_convMsgs (s : State) (t p : Nat) (d : List Byte) : (keeperLog s t p d).convMsgs = s.convMsgs := rfl
@[simp] theorem keeperLog_notices (s : State) (t p : Nat) (d : List Byte) : (keeperLog s t p d).notices = s.notices := rfl
@[simp] theorem keeperLog_convs (s : State) (t p : Nat) (d : List Byte) : (keeperLog s t p d).convs = s.convs := rfl
@[simp] theorem keeperLog_leases (s : State) (t p : Nat) (d : List Byte) : (keeperLog s t p d).leases = s.leases := rfl
@[simp] theorem keeperLog_stashOwners (s : State) (t p : Nat) (d : List Byte) : (keeperLog s t p d).stashOwners = s.stashOwners := rfl
@[simp] theorem keeperLog_dir (s : State) (t p : Nat) (d : List Byte) : (keeperLog s t p d).dir = s.dir := rfl
@[simp] theorem keeperLog_probes (s : State) (t p : Nat) (d : List Byte) : (keeperLog s t p d).probes = s.probes := rfl
@[simp] theorem keeperLog_guests (s : State) (t p : Nat) (d : List Byte) : (keeperLog s t p d).guests = s.guests := rfl
@[simp] theorem keeperLog_bias (s : State) (t p : Nat) (d : List Byte) : (keeperLog s t p d).bias = s.bias := rfl
@[simp] theorem keeperLog_marks (s : State) (t p : Nat) (d : List Byte) : (keeperLog s t p d).marks = s.marks := rfl
@[simp] theorem keeperLog_xinv (s : State) (t p : Nat) (d : List Byte) : (keeperLog s t p d).xinv = s.xinv := rfl
@[simp] theorem keeperLog_windows (s : State) (t p : Nat) (d : List Byte) : (keeperLog s t p d).windows = s.windows := rfl
@[simp] theorem keeperLog_fabric (s : State) (t p : Nat) (d : List Byte) : (keeperLog s t p d).fabric = s.fabric := rfl
@[simp] theorem keeperLog_cyc (s : State) (t p : Nat) (d : List Byte) : (keeperLog s t p d).cyc = s.cyc := rfl
@[simp] theorem keeperLog_inputs (s : State) (t p : Nat) (d : List Byte) : (keeperLog s t p d).inputs = s.inputs := rfl
@[simp] theorem keeperLog_stepNo (s : State) (t p : Nat) (d : List Byte) : (keeperLog s t p d).stepNo = s.stepNo := rfl
@[simp] theorem keeperLog_fresh (s : State) (t p : Nat) (d : List Byte) : (keeperLog s t p d).fresh = s.fresh := rfl
@[simp] theorem keeperLog_nextToken (s : State) (t p : Nat) (d : List Byte) : (keeperLog s t p d).nextToken = s.nextToken := rfl
@[simp] theorem keeperLog_nextId (s : State) (t p : Nat) (d : List Byte) : (keeperLog s t p d).nextId = s.nextId := rfl
@[simp] theorem keeperLog_nextCtx (s : State) (t p : Nat) (d : List Byte) : (keeperLog s t p d).nextCtx = s.nextCtx := rfl
@[simp] theorem keeperLog_dirWait (s : State) (t p : Nat) (d : List Byte) : (keeperLog s t p d).dirWait = s.dirWait := rfl
@[simp] theorem keeperLog_notes (s : State) (t p : Nat) (d : List Byte) : (keeperLog s t p d).notes = s.notes := rfl
@[simp] theorem keeperLog_biasWait (s : State) (t p : Nat) (d : List Byte) : (keeperLog s t p d).biasWait = s.biasWait := rfl
@[simp] theorem keeperLog_hostWait (s : State) (t p : Nat) (d : List Byte) : (keeperLog s t p d).hostWait = s.hostWait := rfl
@[simp] theorem keeperLog_hostSeq (s : State) (t p : Nat) (d : List Byte) : (keeperLog s t p d).hostSeq = s.hostSeq := rfl
@[simp] theorem keeperLog_hostWrote (s : State) (t p : Nat) (d : List Byte) : (keeperLog s t p d).hostWrote = s.hostWrote := rfl
@[simp] theorem keeperLog_hostRead (s : State) (t p : Nat) (d : List Byte) : (keeperLog s t p d).hostRead = s.hostRead := rfl
@[simp] theorem keeperLog_devSeq (s : State) (t p : Nat) (d : List Byte) : (keeperLog s t p d).devSeq = s.devSeq := rfl
@[simp] theorem keeperLog_devWrote (s : State) (t p : Nat) (d : List Byte) : (keeperLog s t p d).devWrote = s.devWrote := rfl
@[simp] theorem keeperLog_devRead (s : State) (t p : Nat) (d : List Byte) : (keeperLog s t p d).devRead = s.devRead := rfl
@[simp] theorem keeperLog_hostAcq (s : State) (t p : Nat) (d : List Byte) : (keeperLog s t p d).hostAcq = s.hostAcq := rfl
@[simp] theorem keeperLog_gone (s : State) (t p : Nat) (d : List Byte) : (keeperLog s t p d).gone = s.gone := rfl
@[simp] theorem keeperLog_clock (s : State) (t p : Nat) (d : List Byte) : (keeperLog s t p d).clock = s.clock := rfl
@[simp] theorem keeperLog_hostOwn (s : State) (t p : Nat) (d : List Byte) : (keeperLog s t p d).hostOwn = s.hostOwn := rfl

/-! Bindings of names. -/

@[simp] theorem bindReg_c (s : State) (a : Nat) (v : VReg) : (bindReg s a v).c = s.c := by unfold bindReg; split <;> rfl
@[simp] theorem bindReg_k (s : State) (a : Nat) (v : VReg) : (bindReg s a v).k = s.k := by unfold bindReg; split <;> rfl
@[simp] theorem bindReg_l (s : State) (a : Nat) (v : VReg) : (bindReg s a v).l = s.l := by unfold bindReg; split <;> rfl
@[simp] theorem bindReg_warps (s : State) (a : Nat) (v : VReg) : (bindReg s a v).warps = s.warps := by unfold bindReg; split <;> rfl
@[simp] theorem bindReg_slots (s : State) (a : Nat) (v : VReg) : (bindReg s a v).slots = s.slots := by unfold bindReg; split <;> rfl
@[simp] theorem bindReg_cohorts (s : State) (a : Nat) (v : VReg) : (bindReg s a v).cohorts = s.cohorts := by unfold bindReg; split <;> rfl
@[simp] theorem bindReg_cores (s : State) (a : Nat) (v : VReg) : (bindReg s a v).cores = s.cores := by unfold bindReg; split <;> rfl
@[simp] theorem bindReg_launches (s : State) (a : Nat) (v : VReg) : (bindReg s a v).launches = s.launches := by unfold bindReg; split <;> rfl
@[simp] theorem bindReg_clusters (s : State) (a : Nat) (v : VReg) : (bindReg s a v).clusters = s.clusters := by unfold bindReg; split <;> rfl
@[simp] theorem bindReg_dies (s : State) (a : Nat) (v : VReg) : (bindReg s a v).dies = s.dies := by unfold bindReg; split <;> rfl
@[simp] theorem bindReg_parts (s : State) (a : Nat) (v : VReg) : (bindReg s a v).parts = s.parts := by unfold bindReg; split <;> rfl
@[simp] theorem bindReg_vis (s : State) (a : Nat) (v : VReg) : (bindReg s a v).vis = s.vis := by unfold bindReg; split <;> rfl
@[simp] theorem bindReg_ctxs (s : State) (a : Nat) (v : VReg) : (bindReg s a v).ctxs = s.ctxs := by unfold bindReg; split <;> rfl
@[simp] theorem bindReg_fqWait (s : State) (a : Nat) (v : VReg) : (bindReg s a v).fqWait = s.fqWait := by unfold bindReg; split <;> rfl
@[simp] theorem bindReg_faults (s : State) (a : Nat) (v : VReg) : (bindReg s a v).faults = s.faults := by unfold bindReg; split <;> rfl
@[simp] theorem bindReg_mem (s : State) (a : Nat) (v : VReg) : (bindReg s a v).mem = s.mem := by unfold bindReg; split <;> rfl
@[simp] theorem bindReg_claims (s : State) (a : Nat) (v : VReg) : (bindReg s a v).claims = s.claims := by unfold bindReg; split <;> rfl
@[simp] theorem bindReg_held (s : State) (a : Nat) (v : VReg) : (bindReg s a v).held = s.held := by unfold bindReg; split <;> rfl
@[simp] theorem bindReg_convMsgs (s : State) (a : Nat) (v : VReg) : (bindReg s a v).convMsgs = s.convMsgs := by unfold bindReg; split <;> rfl
@[simp] theorem bindReg_notices (s : State) (a : Nat) (v : VReg) : (bindReg s a v).notices = s.notices := by unfold bindReg; split <;> rfl
@[simp] theorem bindReg_convs (s : State) (a : Nat) (v : VReg) : (bindReg s a v).convs = s.convs := by unfold bindReg; split <;> rfl
@[simp] theorem bindReg_leases (s : State) (a : Nat) (v : VReg) : (bindReg s a v).leases = s.leases := by unfold bindReg; split <;> rfl
@[simp] theorem bindReg_stashOwners (s : State) (a : Nat) (v : VReg) : (bindReg s a v).stashOwners = s.stashOwners := by unfold bindReg; split <;> rfl
@[simp] theorem bindReg_dir (s : State) (a : Nat) (v : VReg) : (bindReg s a v).dir = s.dir := by unfold bindReg; split <;> rfl
@[simp] theorem bindReg_probes (s : State) (a : Nat) (v : VReg) : (bindReg s a v).probes = s.probes := by unfold bindReg; split <;> rfl
@[simp] theorem bindReg_guests (s : State) (a : Nat) (v : VReg) : (bindReg s a v).guests = s.guests := by unfold bindReg; split <;> rfl
@[simp] theorem bindReg_bias (s : State) (a : Nat) (v : VReg) : (bindReg s a v).bias = s.bias := by unfold bindReg; split <;> rfl
@[simp] theorem bindReg_marks (s : State) (a : Nat) (v : VReg) : (bindReg s a v).marks = s.marks := by unfold bindReg; split <;> rfl
@[simp] theorem bindReg_xinv (s : State) (a : Nat) (v : VReg) : (bindReg s a v).xinv = s.xinv := by unfold bindReg; split <;> rfl
@[simp] theorem bindReg_windows (s : State) (a : Nat) (v : VReg) : (bindReg s a v).windows = s.windows := by unfold bindReg; split <;> rfl
@[simp] theorem bindReg_fabric (s : State) (a : Nat) (v : VReg) : (bindReg s a v).fabric = s.fabric := by unfold bindReg; split <;> rfl
@[simp] theorem bindReg_lan (s : State) (a : Nat) (v : VReg) : (bindReg s a v).lan = s.lan := by unfold bindReg; split <;> rfl
@[simp] theorem bindReg_cyc (s : State) (a : Nat) (v : VReg) : (bindReg s a v).cyc = s.cyc := by unfold bindReg; split <;> rfl
@[simp] theorem bindReg_inputs (s : State) (a : Nat) (v : VReg) : (bindReg s a v).inputs = s.inputs := by unfold bindReg; split <;> rfl
@[simp] theorem bindReg_stepNo (s : State) (a : Nat) (v : VReg) : (bindReg s a v).stepNo = s.stepNo := by unfold bindReg; split <;> rfl
@[simp] theorem bindReg_fresh (s : State) (a : Nat) (v : VReg) : (bindReg s a v).fresh = s.fresh := by unfold bindReg; split <;> rfl
@[simp] theorem bindReg_nextToken (s : State) (a : Nat) (v : VReg) : (bindReg s a v).nextToken = s.nextToken := by unfold bindReg; split <;> rfl
@[simp] theorem bindReg_nextId (s : State) (a : Nat) (v : VReg) : (bindReg s a v).nextId = s.nextId := by unfold bindReg; split <;> rfl
@[simp] theorem bindReg_nextCtx (s : State) (a : Nat) (v : VReg) : (bindReg s a v).nextCtx = s.nextCtx := by unfold bindReg; split <;> rfl
@[simp] theorem bindReg_dirWait (s : State) (a : Nat) (v : VReg) : (bindReg s a v).dirWait = s.dirWait := by unfold bindReg; split <;> rfl
@[simp] theorem bindReg_notes (s : State) (a : Nat) (v : VReg) : (bindReg s a v).notes = s.notes := by unfold bindReg; split <;> rfl
@[simp] theorem bindReg_biasWait (s : State) (a : Nat) (v : VReg) : (bindReg s a v).biasWait = s.biasWait := by unfold bindReg; split <;> rfl
@[simp] theorem bindReg_hostWait (s : State) (a : Nat) (v : VReg) : (bindReg s a v).hostWait = s.hostWait := by unfold bindReg; split <;> rfl
@[simp] theorem bindReg_hostSeq (s : State) (a : Nat) (v : VReg) : (bindReg s a v).hostSeq = s.hostSeq := by unfold bindReg; split <;> rfl
@[simp] theorem bindReg_hostWrote (s : State) (a : Nat) (v : VReg) : (bindReg s a v).hostWrote = s.hostWrote := by unfold bindReg; split <;> rfl
@[simp] theorem bindReg_hostRead (s : State) (a : Nat) (v : VReg) : (bindReg s a v).hostRead = s.hostRead := by unfold bindReg; split <;> rfl
@[simp] theorem bindReg_devSeq (s : State) (a : Nat) (v : VReg) : (bindReg s a v).devSeq = s.devSeq := by unfold bindReg; split <;> rfl
@[simp] theorem bindReg_devWrote (s : State) (a : Nat) (v : VReg) : (bindReg s a v).devWrote = s.devWrote := by unfold bindReg; split <;> rfl
@[simp] theorem bindReg_devRead (s : State) (a : Nat) (v : VReg) : (bindReg s a v).devRead = s.devRead := by unfold bindReg; split <;> rfl
@[simp] theorem bindReg_hostAcq (s : State) (a : Nat) (v : VReg) : (bindReg s a v).hostAcq = s.hostAcq := by unfold bindReg; split <;> rfl
@[simp] theorem bindReg_gone (s : State) (a : Nat) (v : VReg) : (bindReg s a v).gone = s.gone := by unfold bindReg; split <;> rfl
@[simp] theorem bindReg_clock (s : State) (a : Nat) (v : VReg) : (bindReg s a v).clock = s.clock := by unfold bindReg; split <;> rfl
@[simp] theorem bindReg_hostOwn (s : State) (a : Nat) (v : VReg) : (bindReg s a v).hostOwn = s.hostOwn := by unfold bindReg; split <;> rfl
@[simp] theorem bindReg_w_sregs (s : State) (a : Nat) (v : VReg) : (bindReg s a v).w.sregs = s.w.sregs := by unfold bindReg; split <;> rfl
@[simp] theorem bindReg_w_preds (s : State) (a : Nat) (v : VReg) : (bindReg s a v).w.preds = s.w.preds := by unfold bindReg; split <;> rfl
@[simp] theorem bindReg_w_lnk (s : State) (a : Nat) (v : VReg) : (bindReg s a v).w.lnk = s.w.lnk := by unfold bindReg; split <;> rfl
@[simp] theorem bindReg_w_winbase (s : State) (a : Nat) (v : VReg) : (bindReg s a v).w.winbase = s.w.winbase := by unfold bindReg; split <;> rfl
@[simp] theorem bindReg_w_front (s : State) (a : Nat) (v : VReg) : (bindReg s a v).w.front = s.w.front := by unfold bindReg; split <;> rfl
@[simp] theorem bindReg_w_holds (s : State) (a : Nat) (v : VReg) : (bindReg s a v).w.holds = s.w.holds := by unfold bindReg; split <;> rfl
@[simp] theorem bindReg_w_quota (s : State) (a : Nat) (v : VReg) : (bindReg s a v).w.quota = s.w.quota := by unfold bindReg; split <;> rfl
@[simp] theorem bindReg_w_fpmode (s : State) (a : Nat) (v : VReg) : (bindReg s a v).w.fpmode = s.w.fpmode := by unfold bindReg; split <;> rfl
@[simp] theorem bindReg_w_fpflags (s : State) (a : Nat) (v : VReg) : (bindReg s a v).w.fpflags = s.w.fpflags := by unfold bindReg; split <;> rfl
@[simp] theorem bindReg_w_trapen (s : State) (a : Nat) (v : VReg) : (bindReg s a v).w.trapen = s.w.trapen := by unfold bindReg; split <;> rfl
@[simp] theorem bindReg_w_trapMode (s : State) (a : Nat) (v : VReg) : (bindReg s a v).w.trapMode = s.w.trapMode := by unfold bindReg; split <;> rfl
@[simp] theorem bindReg_w_handler (s : State) (a : Nat) (v : VReg) : (bindReg s a v).w.handler = s.w.handler := by unfold bindReg; split <;> rfl
@[simp] theorem bindReg_w_id (s : State) (a : Nat) (v : VReg) : (bindReg s a v).w.id = s.w.id := by unfold bindReg; split <;> rfl
@[simp] theorem bindReg_w_cid (s : State) (a : Nat) (v : VReg) : (bindReg s a v).w.cid = s.w.cid := by unfold bindReg; split <;> rfl
@[simp] theorem bindReg_w_qbind (s : State) (a : Nat) (v : VReg) : (bindReg s a v).w.qbind = s.w.qbind := by unfold bindReg; split <;> rfl
@[simp] theorem bindReg_w_hmap (s : State) (a : Nat) (v : VReg) : (bindReg s a v).w.hmap = s.w.hmap := by unfold bindReg; split <;> rfl
@[simp] theorem bindReg_w_wid (s : State) (a : Nat) (v : VReg) : (bindReg s a v).w.wid = s.w.wid := by unfold bindReg; split <;> rfl
@[simp] theorem unbindReg_c (s : State) (a : Nat) : (unbindReg s a).c = s.c := by unfold unbindReg; split <;> rfl
@[simp] theorem unbindReg_k (s : State) (a : Nat) : (unbindReg s a).k = s.k := by unfold unbindReg; split <;> rfl
@[simp] theorem unbindReg_l (s : State) (a : Nat) : (unbindReg s a).l = s.l := by unfold unbindReg; split <;> rfl
@[simp] theorem unbindReg_warps (s : State) (a : Nat) : (unbindReg s a).warps = s.warps := by unfold unbindReg; split <;> rfl
@[simp] theorem unbindReg_slots (s : State) (a : Nat) : (unbindReg s a).slots = s.slots := by unfold unbindReg; split <;> rfl
@[simp] theorem unbindReg_cohorts (s : State) (a : Nat) : (unbindReg s a).cohorts = s.cohorts := by unfold unbindReg; split <;> rfl
@[simp] theorem unbindReg_cores (s : State) (a : Nat) : (unbindReg s a).cores = s.cores := by unfold unbindReg; split <;> rfl
@[simp] theorem unbindReg_launches (s : State) (a : Nat) : (unbindReg s a).launches = s.launches := by unfold unbindReg; split <;> rfl
@[simp] theorem unbindReg_clusters (s : State) (a : Nat) : (unbindReg s a).clusters = s.clusters := by unfold unbindReg; split <;> rfl
@[simp] theorem unbindReg_dies (s : State) (a : Nat) : (unbindReg s a).dies = s.dies := by unfold unbindReg; split <;> rfl
@[simp] theorem unbindReg_parts (s : State) (a : Nat) : (unbindReg s a).parts = s.parts := by unfold unbindReg; split <;> rfl
@[simp] theorem unbindReg_vis (s : State) (a : Nat) : (unbindReg s a).vis = s.vis := by unfold unbindReg; split <;> rfl
@[simp] theorem unbindReg_ctxs (s : State) (a : Nat) : (unbindReg s a).ctxs = s.ctxs := by unfold unbindReg; split <;> rfl
@[simp] theorem unbindReg_fqWait (s : State) (a : Nat) : (unbindReg s a).fqWait = s.fqWait := by unfold unbindReg; split <;> rfl
@[simp] theorem unbindReg_faults (s : State) (a : Nat) : (unbindReg s a).faults = s.faults := by unfold unbindReg; split <;> rfl
@[simp] theorem unbindReg_mem (s : State) (a : Nat) : (unbindReg s a).mem = s.mem := by unfold unbindReg; split <;> rfl
@[simp] theorem unbindReg_claims (s : State) (a : Nat) : (unbindReg s a).claims = s.claims := by unfold unbindReg; split <;> rfl
@[simp] theorem unbindReg_held (s : State) (a : Nat) : (unbindReg s a).held = s.held := by unfold unbindReg; split <;> rfl
@[simp] theorem unbindReg_convMsgs (s : State) (a : Nat) : (unbindReg s a).convMsgs = s.convMsgs := by unfold unbindReg; split <;> rfl
@[simp] theorem unbindReg_notices (s : State) (a : Nat) : (unbindReg s a).notices = s.notices := by unfold unbindReg; split <;> rfl
@[simp] theorem unbindReg_convs (s : State) (a : Nat) : (unbindReg s a).convs = s.convs := by unfold unbindReg; split <;> rfl
@[simp] theorem unbindReg_leases (s : State) (a : Nat) : (unbindReg s a).leases = s.leases := by unfold unbindReg; split <;> rfl
@[simp] theorem unbindReg_stashOwners (s : State) (a : Nat) : (unbindReg s a).stashOwners = s.stashOwners := by unfold unbindReg; split <;> rfl
@[simp] theorem unbindReg_dir (s : State) (a : Nat) : (unbindReg s a).dir = s.dir := by unfold unbindReg; split <;> rfl
@[simp] theorem unbindReg_probes (s : State) (a : Nat) : (unbindReg s a).probes = s.probes := by unfold unbindReg; split <;> rfl
@[simp] theorem unbindReg_guests (s : State) (a : Nat) : (unbindReg s a).guests = s.guests := by unfold unbindReg; split <;> rfl
@[simp] theorem unbindReg_bias (s : State) (a : Nat) : (unbindReg s a).bias = s.bias := by unfold unbindReg; split <;> rfl
@[simp] theorem unbindReg_marks (s : State) (a : Nat) : (unbindReg s a).marks = s.marks := by unfold unbindReg; split <;> rfl
@[simp] theorem unbindReg_xinv (s : State) (a : Nat) : (unbindReg s a).xinv = s.xinv := by unfold unbindReg; split <;> rfl
@[simp] theorem unbindReg_windows (s : State) (a : Nat) : (unbindReg s a).windows = s.windows := by unfold unbindReg; split <;> rfl
@[simp] theorem unbindReg_fabric (s : State) (a : Nat) : (unbindReg s a).fabric = s.fabric := by unfold unbindReg; split <;> rfl
@[simp] theorem unbindReg_lan (s : State) (a : Nat) : (unbindReg s a).lan = s.lan := by unfold unbindReg; split <;> rfl
@[simp] theorem unbindReg_cyc (s : State) (a : Nat) : (unbindReg s a).cyc = s.cyc := by unfold unbindReg; split <;> rfl
@[simp] theorem unbindReg_inputs (s : State) (a : Nat) : (unbindReg s a).inputs = s.inputs := by unfold unbindReg; split <;> rfl
@[simp] theorem unbindReg_stepNo (s : State) (a : Nat) : (unbindReg s a).stepNo = s.stepNo := by unfold unbindReg; split <;> rfl
@[simp] theorem unbindReg_fresh (s : State) (a : Nat) : (unbindReg s a).fresh = s.fresh := by unfold unbindReg; split <;> rfl
@[simp] theorem unbindReg_nextToken (s : State) (a : Nat) : (unbindReg s a).nextToken = s.nextToken := by unfold unbindReg; split <;> rfl
@[simp] theorem unbindReg_nextId (s : State) (a : Nat) : (unbindReg s a).nextId = s.nextId := by unfold unbindReg; split <;> rfl
@[simp] theorem unbindReg_nextCtx (s : State) (a : Nat) : (unbindReg s a).nextCtx = s.nextCtx := by unfold unbindReg; split <;> rfl
@[simp] theorem unbindReg_dirWait (s : State) (a : Nat) : (unbindReg s a).dirWait = s.dirWait := by unfold unbindReg; split <;> rfl
@[simp] theorem unbindReg_notes (s : State) (a : Nat) : (unbindReg s a).notes = s.notes := by unfold unbindReg; split <;> rfl
@[simp] theorem unbindReg_biasWait (s : State) (a : Nat) : (unbindReg s a).biasWait = s.biasWait := by unfold unbindReg; split <;> rfl
@[simp] theorem unbindReg_hostWait (s : State) (a : Nat) : (unbindReg s a).hostWait = s.hostWait := by unfold unbindReg; split <;> rfl
@[simp] theorem unbindReg_hostSeq (s : State) (a : Nat) : (unbindReg s a).hostSeq = s.hostSeq := by unfold unbindReg; split <;> rfl
@[simp] theorem unbindReg_hostWrote (s : State) (a : Nat) : (unbindReg s a).hostWrote = s.hostWrote := by unfold unbindReg; split <;> rfl
@[simp] theorem unbindReg_hostRead (s : State) (a : Nat) : (unbindReg s a).hostRead = s.hostRead := by unfold unbindReg; split <;> rfl
@[simp] theorem unbindReg_devSeq (s : State) (a : Nat) : (unbindReg s a).devSeq = s.devSeq := by unfold unbindReg; split <;> rfl
@[simp] theorem unbindReg_devWrote (s : State) (a : Nat) : (unbindReg s a).devWrote = s.devWrote := by unfold unbindReg; split <;> rfl
@[simp] theorem unbindReg_devRead (s : State) (a : Nat) : (unbindReg s a).devRead = s.devRead := by unfold unbindReg; split <;> rfl
@[simp] theorem unbindReg_hostAcq (s : State) (a : Nat) : (unbindReg s a).hostAcq = s.hostAcq := by unfold unbindReg; split <;> rfl
@[simp] theorem unbindReg_gone (s : State) (a : Nat) : (unbindReg s a).gone = s.gone := by unfold unbindReg; split <;> rfl
@[simp] theorem unbindReg_clock (s : State) (a : Nat) : (unbindReg s a).clock = s.clock := by unfold unbindReg; split <;> rfl
@[simp] theorem unbindReg_hostOwn (s : State) (a : Nat) : (unbindReg s a).hostOwn = s.hostOwn := by unfold unbindReg; split <;> rfl
@[simp] theorem unbindReg_w_sregs (s : State) (a : Nat) : (unbindReg s a).w.sregs = s.w.sregs := by unfold unbindReg; split <;> rfl
@[simp] theorem unbindReg_w_preds (s : State) (a : Nat) : (unbindReg s a).w.preds = s.w.preds := by unfold unbindReg; split <;> rfl
@[simp] theorem unbindReg_w_lnk (s : State) (a : Nat) : (unbindReg s a).w.lnk = s.w.lnk := by unfold unbindReg; split <;> rfl
@[simp] theorem unbindReg_w_winbase (s : State) (a : Nat) : (unbindReg s a).w.winbase = s.w.winbase := by unfold unbindReg; split <;> rfl
@[simp] theorem unbindReg_w_front (s : State) (a : Nat) : (unbindReg s a).w.front = s.w.front := by unfold unbindReg; split <;> rfl
@[simp] theorem unbindReg_w_holds (s : State) (a : Nat) : (unbindReg s a).w.holds = s.w.holds := by unfold unbindReg; split <;> rfl
@[simp] theorem unbindReg_w_quota (s : State) (a : Nat) : (unbindReg s a).w.quota = s.w.quota := by unfold unbindReg; split <;> rfl
@[simp] theorem unbindReg_w_fpmode (s : State) (a : Nat) : (unbindReg s a).w.fpmode = s.w.fpmode := by unfold unbindReg; split <;> rfl
@[simp] theorem unbindReg_w_fpflags (s : State) (a : Nat) : (unbindReg s a).w.fpflags = s.w.fpflags := by unfold unbindReg; split <;> rfl
@[simp] theorem unbindReg_w_trapen (s : State) (a : Nat) : (unbindReg s a).w.trapen = s.w.trapen := by unfold unbindReg; split <;> rfl
@[simp] theorem unbindReg_w_trapMode (s : State) (a : Nat) : (unbindReg s a).w.trapMode = s.w.trapMode := by unfold unbindReg; split <;> rfl
@[simp] theorem unbindReg_w_handler (s : State) (a : Nat) : (unbindReg s a).w.handler = s.w.handler := by unfold unbindReg; split <;> rfl
@[simp] theorem unbindReg_w_id (s : State) (a : Nat) : (unbindReg s a).w.id = s.w.id := by unfold unbindReg; split <;> rfl
@[simp] theorem unbindReg_w_cid (s : State) (a : Nat) : (unbindReg s a).w.cid = s.w.cid := by unfold unbindReg; split <;> rfl
@[simp] theorem unbindReg_w_qbind (s : State) (a : Nat) : (unbindReg s a).w.qbind = s.w.qbind := by unfold unbindReg; split <;> rfl
@[simp] theorem unbindReg_w_hmap (s : State) (a : Nat) : (unbindReg s a).w.hmap = s.w.hmap := by unfold unbindReg; split <;> rfl
@[simp] theorem unbindReg_w_wid (s : State) (a : Nat) : (unbindReg s a).w.wid = s.w.wid := by unfold unbindReg; split <;> rfl

/-! The warp after a group. -/

@[simp] theorem finish_w_id (s : State) : (finish s).w.id = s.w.id := rfl
@[simp] theorem stallWarp_w_id (s : State) (b : Bool) (k : StallKind) (x : Cond) : (stallWarp s b k x).w.id = s.w.id := rfl
@[simp] theorem finish_w_cid (s : State) : (finish s).w.cid = s.w.cid := rfl
@[simp] theorem stallWarp_w_cid (s : State) (b : Bool) (k : StallKind) (x : Cond) : (stallWarp s b k x).w.cid = s.w.cid := rfl
@[simp] theorem finish_w_holds (s : State) : (finish s).w.holds = s.w.holds := rfl
@[simp] theorem stallWarp_w_holds (s : State) (b : Bool) (k : StallKind) (x : Cond) : (stallWarp s b k x).w.holds = s.w.holds := rfl
@[simp] theorem finish_w_front (s : State) : (finish s).w.front = s.w.front := rfl
@[simp] theorem stallWarp_w_front (s : State) (b : Bool) (k : StallKind) (x : Cond) : (stallWarp s b k x).w.front = s.w.front := rfl
@[simp] theorem finish_w_regs (s : State) : (finish s).w.regs = s.w.regs := rfl
@[simp] theorem stallWarp_w_regs (s : State) (b : Bool) (k : StallKind) (x : Cond) : (stallWarp s b k x).w.regs = s.w.regs := rfl
@[simp] theorem finish_w_sregs (s : State) : (finish s).w.sregs = s.w.sregs := rfl
@[simp] theorem stallWarp_w_sregs (s : State) (b : Bool) (k : StallKind) (x : Cond) : (stallWarp s b k x).w.sregs = s.w.sregs := rfl
@[simp] theorem finish_w_preds (s : State) : (finish s).w.preds = s.w.preds := rfl
@[simp] theorem stallWarp_w_preds (s : State) (b : Bool) (k : StallKind) (x : Cond) : (stallWarp s b k x).w.preds = s.w.preds := rfl
@[simp] theorem finish_w_lnk (s : State) : (finish s).w.lnk = s.w.lnk := rfl
@[simp] theorem stallWarp_w_lnk (s : State) (b : Bool) (k : StallKind) (x : Cond) : (stallWarp s b k x).w.lnk = s.w.lnk := rfl
@[simp] theorem finish_w_winbase (s : State) : (finish s).w.winbase = s.w.winbase := rfl
@[simp] theorem stallWarp_w_winbase (s : State) (b : Bool) (k : StallKind) (x : Cond) : (stallWarp s b k x).w.winbase = s.w.winbase := rfl
@[simp] theorem finish_w_quota (s : State) : (finish s).w.quota = s.w.quota := rfl
@[simp] theorem stallWarp_w_quota (s : State) (b : Bool) (k : StallKind) (x : Cond) : (stallWarp s b k x).w.quota = s.w.quota := rfl
@[simp] theorem finish_w_fpmode (s : State) : (finish s).w.fpmode = s.w.fpmode := rfl
@[simp] theorem stallWarp_w_fpmode (s : State) (b : Bool) (k : StallKind) (x : Cond) : (stallWarp s b k x).w.fpmode = s.w.fpmode := rfl
@[simp] theorem finish_w_fpflags (s : State) : (finish s).w.fpflags = s.w.fpflags := rfl
@[simp] theorem stallWarp_w_fpflags (s : State) (b : Bool) (k : StallKind) (x : Cond) : (stallWarp s b k x).w.fpflags = s.w.fpflags := rfl
@[simp] theorem finish_w_trapen (s : State) : (finish s).w.trapen = s.w.trapen := rfl
@[simp] theorem stallWarp_w_trapen (s : State) (b : Bool) (k : StallKind) (x : Cond) : (stallWarp s b k x).w.trapen = s.w.trapen := rfl
@[simp] theorem finish_w_qbind (s : State) : (finish s).w.qbind = s.w.qbind := rfl
@[simp] theorem stallWarp_w_qbind (s : State) (b : Bool) (k : StallKind) (x : Cond) : (stallWarp s b k x).w.qbind = s.w.qbind := rfl
@[simp] theorem finish_w_hmap (s : State) : (finish s).w.hmap = s.w.hmap := rfl
@[simp] theorem stallWarp_w_hmap (s : State) (b : Bool) (k : StallKind) (x : Cond) : (stallWarp s b k x).w.hmap = s.w.hmap := rfl
@[simp] theorem finish_w_handler (s : State) : (finish s).w.handler = s.w.handler := rfl
@[simp] theorem stallWarp_w_handler (s : State) (b : Bool) (k : StallKind) (x : Cond) : (stallWarp s b k x).w.handler = s.w.handler := rfl
@[simp] theorem finish_w_trapMode (s : State) : (finish s).w.trapMode = s.w.trapMode := rfl
@[simp] theorem stallWarp_w_trapMode (s : State) (b : Bool) (k : StallKind) (x : Cond) : (stallWarp s b k x).w.trapMode = s.w.trapMode := rfl
@[simp] theorem finish_w_frozen (s : State) : (finish s).w.frozen = s.w.frozen := rfl
@[simp] theorem stallWarp_w_frozen (s : State) (b : Bool) (k : StallKind) (x : Cond) : (stallWarp s b k x).w.frozen = s.w.frozen := rfl
@[simp] theorem finish_w_wid (s : State) : (finish s).w.wid = s.w.wid := rfl
@[simp] theorem stallWarp_w_wid (s : State) (b : Bool) (k : StallKind) (x : Cond) : (stallWarp s b k x).w.wid = s.w.wid := rfl
@[simp] theorem finish_w_barLast (s : State) : (finish s).w.barLast = s.w.barLast := rfl
@[simp] theorem stallWarp_w_barLast (s : State) (b : Bool) (k : StallKind) (x : Cond) : (stallWarp s b k x).w.barLast = s.w.barLast := rfl
@[simp] theorem finish_w_fbarLast (s : State) : (finish s).w.fbarLast = s.w.fbarLast := rfl
@[simp] theorem stallWarp_w_fbarLast (s : State) (b : Bool) (k : StallKind) (x : Cond) : (stallWarp s b k x).w.fbarLast = s.w.fbarLast := rfl
@[simp] theorem finish_w_hostSeen (s : State) : (finish s).w.hostSeen = s.w.hostSeen := rfl
@[simp] theorem stallWarp_w_hostSeen (s : State) (b : Bool) (k : StallKind) (x : Cond) : (stallWarp s b k x).w.hostSeen = s.w.hostSeen := rfl
@[simp] theorem finish_w_hostPend (s : State) : (finish s).w.hostPend = s.w.hostPend := rfl
@[simp] theorem stallWarp_w_hostPend (s : State) (b : Bool) (k : StallKind) (x : Cond) : (stallWarp s b k x).w.hostPend = s.w.hostPend := rfl
@[simp] theorem finish_w_sysRel (s : State) : (finish s).w.sysRel = s.w.sysRel := rfl
@[simp] theorem stallWarp_w_sysRel (s : State) (b : Bool) (k : StallKind) (x : Cond) : (stallWarp s b k x).w.sysRel = s.w.sysRel := rfl

end Sys2Proof.Laws
end

