-- ==== Sys2Proof/Laws/Operands.lean ====
section
/-! SUPPORT. One law for each shared operation of an instruction: what it does on plain forms outside recovery levels, and all that a
fault, a trap and a failure can do. -/

namespace Sys2Proof.Laws

open Sys2Proof.Machine Sys2Proof.Ref

/-! The log. -/

/-- Outside recovery levels nothing is logged. -/
theorem logEntry_outside (s : State) (e : LogEntry) (h : s.depth = 0) : logEntry s e = .ok s := by simp [logEntry, h]

/-- What logging can do: nothing, one more entry at the open level, with its place in the husk, or a failure of the level. -/
theorem logEntry_cases (s : State) (e : LogEntry) :
    logEntry s e = .ok s
    ∨ (∃ v vs ovf n, s.c.levels = v :: vs ∧ huskPlace s v e.size = some (ovf, n) ∧
        logEntry s e = .ok { s with c := { s.c with levels := { v with log := v.log ++ [e], overs := v.overs ++ [ovf], chunks := v.chunks + n } :: vs } })
    ∨ logEntry s e = .error (.fail 4 0) := by
  by_cases h0 : s.depth = 0
  · exact .inl (logEntry_outside s e h0)
  · cases hl : s.c.levels with
    | nil => exact .inl (by simp [logEntry, h0, logInto, hl])
    | cons v vs =>
      by_cases h1 : logged s v e = true
      · exact .inl (by simp [logEntry, h0, logInto, hl, h1])
      · cases hp : huskPlace s v e.size with
        | none => exact .inr (.inr (by simp [logEntry, h0, logInto, hl, h1, hp]))
        | some x =>
          right
          simp only [logEntry, h0, if_false, logInto, hl, List.getElem?_cons_zero, h1, hp, List.set_cons_zero, Bool.false_eq_true]
          split
          · split
            · exact .inr rfl
            · exact .inl ⟨v, vs, x.1, x.2, rfl, hp, rfl⟩
          · exact .inl ⟨v, vs, x.1, x.2, rfl, hp, by simp⟩

/-! Sources. -/

theorem readOpnd_plain (s : State) (o : Opnd) (h : plainSource o = true) : readOpnd s o = .ok (sourceOf s o, s) := by
  cases o <;> simp_all [readOpnd, sourceOf, plainSource, Opnd.isQ, Opnd.isBad, readS, zeros, splat, lanesOf, ofN, ctlWord]

theorem readable_plain (o : Opnd) (h : plainSource o = true) : readable o = .ok () := by
  cases o <;> simp_all [readable, need, plainSource, Opnd.isQ, Opnd.isBad]

theorem readA_plain (s : State) (p : Px) (o : Opnd) (h : plainSource o = true) :
    readA s p o = .ok (permuted s o (permOf p 0).1 (permOf p 0).2 (sourceOf s o), s) := by
  simp [readA, readOpnd_plain s o h, permOf]
  cases p.perm <;> simp [permuted, bind, Except.bind]

theorem readB_plain (s : State) (p : Px) (o : Opnd) (h : plainSource o = true) :
    readB s p o = .ok (permuted s o (permOf p 1).1 (permOf p 1).2 (sourceOf s o), s) := by
  simp [readB, readOpnd_plain s o h, permOf]
  cases p.perm <;> simp [permuted, bind, Except.bind]

/-! Kills. -/

theorem assocDel_none {α : Type} (k : Nat) (xs : List (Nat × α)) (h : assoc k xs = none) : assocDel k xs = xs := by
  induction xs with
  | nil => rfl
  | cons x t ih => obtain ⟨j, y⟩ := x; simp only [assoc] at h; split at h <;> simp_all [assocDel]

theorem kill_plain (s : State) (o : Opnd) (b : Bool) (h : s.depth = 0) : kill o b 1 s = .ok (killed s [(o, b)]) := by
  cases o with
  | v n =>
    cases b
    · simp [kill, killed]
    · simp only [kill, killed, List.foldl, Bool.true_and, List.range_one, List.foldlM, if_true, Nat.add_zero, killV]
      by_cases h1 : isShadow s n.val = true <;> by_cases h2 : inBand s (absName s n.val) = true <;>
        simp [h1, h2, logEntry_outside _ _ h, bind, Except.bind, pure, Except.pure]
      by_cases h3 : boundReg s (absName s n.val) = none
      · simp [h3, unbindReg, h2]
        rw [assocDel_none]
        simpa [boundReg, h2] using h3
      · simp [h3]
  | _ => simp [kill, killed]

@[simp] theorem depth_killed (s : State) (xs : List (Opnd × Bool)) : (killed s xs).depth = s.depth := by
  induction xs generalizing s with
  | nil => rfl
  | cons x t ih =>
    simp only [killed, List.foldl] at ih ⊢
    rw [ih]
    obtain ⟨o, b⟩ := x
    cases o <;> simp [State.depth]
    split
    · simp [unbindReg]; split <;> rfl
    · rfl

/-! Destinations. -/

theorem writeD_plain (s : State) (o : Opnd) (m : Mask) (v : VReg) (h : s.depth = 0) (hl : landsIn s m o = true) :
    writeD s o m v = .ok (landed s m v o) := by
  cases o with
  | v n =>
    simp only [writeD, writeV, landed]
    simp only [landsIn] at hl
    by_cases h1 : m = 0#32
    · simp [h1]
    · by_cases h2 : isShadow s n.val = true
      · simp [h1, h2]
      · simp only [h1, if_false, h2, logEntry_outside _ _ h]
        have : ¬ ((boundReg s (absName s n.val)).isNone && quotaFull s (absName s n.val)) = true := by
          cases hb : boundReg s (absName s n.val) <;> simp_all
        simp [this, bind, Except.bind]
  | s n =>
    simp only [writeD, landed]
    cases m.lowest <;> simp [writeS, logEntry_outside _ _ h, bind, Except.bind]
  | lnk => simp only [writeD, landed, writeLnk]; split <;> simp [logEntry_outside _ _ h, bind, Except.bind]
  | zero => rfl
  | _ => simp [landsIn] at hl

/-! The frontier. -/

theorem addEntry_length (e : Entry) (f : List Entry) : (addEntry e f).length ≤ f.length + 1 := by
  induction f with
  | nil => simp [addEntry]
  | cons x t ih => simp only [addEntry]; split <;> simp; omega

theorem advance_plain (s : State) (p : Px) (h : Ready s p) : advance p s = .ok (onward s p) := by
  obtain ⟨h1, h2, h3, h4⟩ := h
  have hlen : (addEntry { pc := s.nextPc p, mask := s.cur.mask, src := s.cur.pc } (s.w.front.erase s.cur)).length ≤ 8 := by
    have := addEntry_length { pc := s.nextPc p, mask := s.cur.mask, src := s.cur.pc } (s.w.front.erase s.cur)
    rw [List.length_erase_of_mem h1] at this
    have := List.length_pos_of_mem h1
    omega
  simp [advance, setFront, h2, departCheck, h4, onward, bind, Except.bind]
  omega

/-! How a group ends, and where a fault goes. -/

/-- Everything that a group can end in. -/
theorem run_cases (p : Px) (s : State) (r : Op) :
    (∃ t, r = .ok t ∧ run p s r = .next (finish t)) ∨ (∃ c a l acc, run p s r = .next (deliver s c a l acc))
    ∨ (∃ t k c, run p s r = .next (stallWarp t p.sos k c)) ∨ ∃ t d c f a, run p s r = .next (failAt t d c f a) := by
  match r with
  | .ok t => exact .inl ⟨t, rfl, rfl⟩
  | .error (.fault c a l acc) => exact .inr (.inl ⟨c, a, l, acc, rfl⟩)
  | .error (.stall k c) => exact .inr (.inr (.inl ⟨s, k, c, rfl⟩))
  | .error (.stallAt t k c) => exact .inr (.inr (.inl ⟨t, k, c, rfl⟩))
  | .error (.stallSide ps ls k c) => exact .inr (.inr (.inl ⟨_, k, c, rfl⟩))
  | .error (.fail c a) => exact .inr (.inr (.inr ⟨s, s.depth, c, 0, a, rfl⟩))
  | .error (.failIn t c) => exact .inr (.inr (.inr ⟨t, t.depth, c, 0, 0, rfl⟩))

/-- No group is refused. -/
theorem run_not_refused (p : Px) (s : State) (r : Op) (x : Refusal) : run p s r ≠ .refused x := by
  rcases run_cases p s r with ⟨t, _, h⟩ | ⟨_, _, _, _, h⟩ | ⟨_, _, _, h⟩ | ⟨_, _, _, _, _, h⟩ <;> simp [h]

/-- The four paths of a fault (14 R363). -/
theorem deliverAt_cases (s : State) (pc : Word) (code : Nat) (addr : DWord) (lanes : Mask) (acc : Access) :
    (s.depth ≠ 0 ∧ deliverAt s pc code addr lanes acc = failAt s s.depth 3 code 0)
    ∨ (s.depth = 0 ∧ s.w.trapMode = true ∧ deliverAt s pc code addr lanes acc = freezeFault s 5 code addr pc lanes acc)
    ∨ (s.depth = 0 ∧ s.w.trapMode = false ∧ s.l.handlerPc ≠ 0#32 ∧ deliverAt s pc code addr lanes acc = trapEnter s ⟨1, code, pc, pc, addr, lanes⟩)
    ∨ (s.depth = 0 ∧ s.w.trapMode = false ∧ s.l.handlerPc = 0#32 ∧ deliverAt s pc code addr lanes acc = freezeFault s 4 code addr pc lanes acc) := by
  by_cases h1 : s.depth = 0 <;> by_cases h2 : s.w.trapMode = true <;> by_cases h3 : s.l.handlerPc = 0#32 <;> simp [deliverAt, h1, h2, h3]

/-- A trap is taken at once, or waits: for the slot's shadows, or for the end of a halt. -/
theorem trapEnter_cases (s : State) (t : TrapInfo) :
    (((s.sl.holder = none ∨ s.sl.holder = some s.w.id) ∧ s.w.halted = false ∧ s.w.haltReq = false) ∧ trapEnter s t = trapNow s t (trapped s t))
    ∨ (((s.sl.holder ≠ none ∧ s.sl.holder ≠ some s.w.id) ∨ s.w.halted = true ∨ s.w.haltReq = true)
      ∧ (trapEnter s t).w.trapWait = some t ∧ (trapEnter s t).w.trapMode = s.w.trapMode) := by
  unfold trapEnter
  cases s.sl.holder <;> cases s.w.halted <;> cases s.w.haltReq <;> simp
  split <;> simp_all

/-- The failure of a level changes nothing but the cohort and the messages to its conversation's home. -/
theorem failAt_frame (s : State) (d c f a : Nat) :
    (failAt s d c f a).w = s.w ∧ (failAt s d c f a).mem = s.mem ∧ (failAt s d c f a).k = s.k ∧ (failAt s d c f a).l = s.l
      ∧ (failAt s d c f a).sl = s.sl ∧ (failAt s d c f a).claims = s.claims ∧ (failAt s d c f a).c.levels = s.c.levels := by
  unfold failAt
  cases hc : s.c.conv <;> cases hf : s.c.failing <;> simp only [] <;> (repeat' split) <;> simp

/-! The old values of atomics (09 R442). -/

/-- While no write waits at a home, no register waits for an old value. -/
@[simp] theorem awaits_calm (s : State) (i : Instr) (h : s.held = []) : awaits s i = [] := by simp [awaits, h]
@[simp] theorem awaited_calm (s : State) (h : s.held = []) : awaited s = [] := by simp [awaited, h]

/-- A word that comes to a register leaves who and where the warp is, its frontier and its stall. -/
theorem put_keeps (r : Await) (l : Nat) (x : Word) (p : Warp × Slot) :
    (r.put l x p).1.id = p.1.id ∧ (r.put l x p).1.cid = p.1.cid ∧ (r.put l x p).1.front = p.1.front ∧ (r.put l x p).1.stall = p.1.stall := by
  cases r <;> simp only [Await.put] <;> (repeat' split) <;> simp
/-- So do the old values of all lanes. -/
theorem deliverOld_keeps (dest : List Await) (olds : List (Nat × Nat)) (p : Warp × Slot) :
    (deliverOld dest olds p).1.id = p.1.id ∧ (deliverOld dest olds p).1.cid = p.1.cid ∧ (deliverOld dest olds p).1.front = p.1.front
      ∧ (deliverOld dest olds p).1.stall = p.1.stall := by
  have lane : ∀ (ds : List (Await × Nat)) (o : Nat × Nat) (q : Warp × Slot),
      let r := ds.foldl (fun p d => d.1.put o.1 (BitVec.ofNat 32 (o.2 / 2 ^ (32 * d.2))) p) q
      r.1.id = q.1.id ∧ r.1.cid = q.1.cid ∧ r.1.front = q.1.front ∧ r.1.stall = q.1.stall := by
    intro ds o
    induction ds with
    | nil => simp
    | cons d ds ih => intro q; simpa [put_keeps] using ih (d.1.put o.1 (BitVec.ofNat 32 (o.2 / 2 ^ (32 * d.2))) q)
  unfold deliverOld
  induction olds generalizing p with
  | nil => simp
  | cons o olds ih => simpa [lane] using ih (dest.zipIdx.foldl (fun p d => d.1.put o.1 (BitVec.ofNat 32 (o.2 / 2 ^ (32 * d.2))) p) p)

end Sys2Proof.Laws
end

