-- ==== Sys2Proof/Machine/SaveArea.lean ====
section
/-! DEFINITION. The contents of a context's save area in the partition's private memory (14 R372 to R374). No context maps that memory
and no host reads it, so it is a view of the saved units, and no memory is written. -/

namespace Sys2Proof.Machine

def blockBytes : Nat := 0x680000
def slotAreaBytes : Nat := 0x28000

/-- A unit stands on its core again, for reading only. -/
def asResident (s : State) (v : Saved) : State :=
  let s := s.unfocus
  { s with warps := v.warps, slots := v.slots, cohorts := v.cohorts }.mapCore v.core fun k => { k with tiles := v.tiles }

/-- The fibre with the lowest number of the fibres in the slot of a warp (01 R23). -/
def lowestFibre (v : Saved) (w : Warp) : Bool :=
  v.warps.all fun x => !(x.quarter == w.quarter && x.slot == w.slot) || decide (w.fibre ≤ x.fibre)
/-- The registers of a fibre in the order of their REGS indexes; those of the band with its lowest-numbered fibre (R373). -/
def fibreRegs (s : State) (v : Saved) (w : Warp) : List (Nat × VReg) :=
  w.regs ++ if lowestFibre v w then ((s.allSlots.filter (sameSlot w)).flatMap (·.bandRegs)) else []
def regBytes (x : VReg) : List Byte := x.flatMap fun y => leBytes 4 y.toNat
/-- REGS of a fibre from byte o on. -/
def regsByte (s : State) (v : Saved) (w : Warp) (o : Nat) : Byte :=
  match (fibreRegs s v w)[o / 128]? with
  | some r => (regBytes r.2).getD (o % 128) 0#8
  | none => Config.areaByte v.at_ o
/-- The pins of a slot: the old values of registers of its fibres in the levels' log entries, outermost level first. -/
def slotPins (v : Saved) (q t : Nat) : List VReg :=
  let ws := slotWarps v q t
  (v.cohorts.flatMap fun c => c.levels.reverse.flatMap (·.log)).filterMap fun e => match e with
    | .reg w _ (some x) => if ws.contains w then some x else none
    | _ => none
/-- The contents of SLOT, whose bits the manual does not place: fibre, band, shadow holder, FBAR state, `.fibre` queues. -/
def slotNums (t : Slot) : List Nat :=
  [t.cur, t.band.toNat, match t.holder with | some w => w + 1 | none => 0]
    ++ (t.fbars.flatMap fun b => [b.phase, b.arrived.length]) ++ t.fq.flatMap fun q => q.length :: q.flatMap fun x => x.map (·.toNat)

/-- Byte o of the area of a warp slot (R373 R374). -/
def slotAreaByte (s : State) (v : Saved) (q t o : Nat) : Byte :=
  let fibre := fun f : Nat => v.warps.find? fun w => w.quarter == q && w.slot == t && w.fibre == f
  let slot := v.slots.find? fun x => x.quarter == q && x.slot == t
  if o < 0x20000 then
    match fibre (o / 0x8000) with
    | some w => regsByte s v w (o % 0x8000)
    | none => Config.areaByte v.at_ o
  else if o < 0x22000 then
    match fibre ((o - 0x20000) / 0x800) with
    | some w =>
      let rs := fibreRegs s v w
      let bs := fibBytes (s.focus w.id) fun a => rs.findIdx fun r => r.1 == a
      bs.getD ((o - 0x20000) % 0x800) (Config.areaByte v.at_ o)
    | none => Config.areaByte v.at_ o
  else match slot with
  | none => Config.areaByte v.at_ o
  | some x =>
    if o < 0x22400 then (x.shadow.flatMap regBytes).getD (o - 0x22000) 0#8
    else if o < 0x26400 then
      match (slotPins v q t)[(o - 0x22400) / 128]? with
      | some r => (regBytes r).getD ((o - 0x22400) % 128) 0#8
      | none => Config.areaByte v.at_ o
    else if o < 0x27000 then Config.stateByte (slotNums x) (o - 0x26400)
    else Config.areaByte v.at_ o

/-- Byte o of the block of a unit (R372): warp slot 8q + t is slot t of quarter q; the shared memories of its cohorts stand one after
another; the regions whose layout the manual does not give hold free bytes. -/
def saveByte (s : State) (v : Saved) (o : Nat) : Byte :=
  if o < 0x500000 then
    let n := o / slotAreaBytes
    slotAreaByte (asResident s v) v (n / 8) (n % 8) (o % slotAreaBytes)
  else if o < 0x540000 then
    (v.cohorts.flatMap fun c => (List.range c.sharedSize).map (memGet c.shared)).getD (o - 0x500000) (Config.areaByte v.at_ o)
  else Config.areaByte v.at_ o

/-- The save area of a context holds at a physical address, while a unit that was on the core of the block is saved, this byte. -/
def Ctx.saveAt (s : State) (c : Ctx) (pa : Nat) : Option Byte :=
  if c.base ≤ pa ∧ pa < c.base + 384 * blockBytes then
    (c.saved.find? fun v => v.core == (pa - c.base) / blockBytes).map fun v => saveByte s v ((pa - c.base) % blockBytes)
  else none

end Sys2Proof.Machine
end

