-- ==== Sys2Proof/Safety.lean ====
section
/-! DEFINITION. What counts as a safe run. -/

namespace Sys2Proof

/-- k steps from a state end in a state: no race and no refusal on the way. -/
def SafeRun (s : Machine.State) (k : Nat) : Prop := ∃ t, Host.Core.run core k s = .next t

end Sys2Proof
end

