-- ==== Sys2Proof/Tests/Slice0.lean ====
section
/-! SUPPORT. Tests: well-formedness, words written out from the encodings of the spec, small steps, and for the hypotheses of every
statement a state and operands that meet them. -/

namespace Sys2Proof.Tests

open Sys2Proof Sys2Proof.Machine Sys2Proof.Ref

/-! Helpers: one warp of two threads at PC 0x100 of a cohort alone on core 0, in launch 1 of partition 0. -/

def entry : Entry := { pc := 0x100#32, mask := 3#32 }
def warp : Warp := { id := 1, cid := 1, resident := true, holds := 3#32, front := [entry], quota := 8 }
def cohort : Cohort := { id := 1, launch := 16, resident := true, sharedSize := 4096, warpsN := 1 }
def launch : Launch := { num := 16, ctx := 1, code := 0x10000#64, codeSize := 0x1000, handles := 8 }
def rwPage : TlbEntry := { ctx := 1, va := 0x10000, size := 4096, pa := 0x20000, r := true, w := true, xd := false, attr := 0 }
def base : State := { w := warp, c := cohort, l := launch, k := { tlb := [rwPage] }, vis := [] }

/-- base with other uniform registers 0 and up. -/
def withS (xs : List Word) : State := { base with w := { warp with sregs := xs ++ List.replicate (16 - xs.length) 0#32 } }
/-- The pair s0:s1 holds an address of the page. -/
def atPage : State := withS [0x10000#32]
/-- The cohort has one open level with one alternate. -/
def level : Level := { header := 0x80#32, test := 0x180#32, alts := [0x1C0#32], code := 5, codePc := 0x88#32, limit := 100, start := 0 }
def inOne : State := { base with c := { cohort with levels := [level] } }
/-- The warp is in its handler; the launch has one at 0x200. -/
def handled : State := { base with l := { launch with handlerPc := 0x200#32 } }
def trapped : State := { handled with w := { warp with trapMode := true, aside := some ([], entry), front := [{ pc := 0x200#32, mask := 3#32 }] }
                                      sl := { holder := some 1 } }

theorem reachable_of (s : State) (m : Mask) (addr : Nat → DWord) (n : Nat) (acc : Access)
    (h : ∀ l ∈ m.lanes, canonRange (addr l) n = true ∧ ∀ i < n, (place s acc (addr l + BitVec.ofNat 64 i)).any (fun pa => decide (pa < 2 ^ 47)) = true) :
    reachable s m addr n acc := fun l hl => ⟨(h l hl).1, fun i hi => by simpa [Option.any_eq_true] using (h l hl).2 i hi⟩

/-! Well-formed instructions: one ill-formed term for each check, and one that passes. -/

def rform : RForm := ⟨.v 3, .v 4, .v 5, false, true, 0#2⟩
theorem test_wf_passes : (Instr.iadd {} rform).wf = true := by decide
/-- A word before the instruction with a reserved value. -/
theorem test_wf_prefix_value : (Instr.iadd { perm := some ⟨7#4, 0#5, 0#4, 0#5⟩ } rform).wf = false := by decide
/-- A word that may not stand before this instruction. -/
theorem test_wf_prefix_place : (Instr.iadd { ximm := some 1#16 } rform).wf = false := by decide
/-- A field with a value that the encoding does not allow. -/
theorem test_wf_field : (Instr.ldg {} ⟨.v 3, .v 4, false, 0#3, 7#3, false, false, 0#2⟩).wf = false := by decide

/-! Words of the spec and the instructions that they stand for. -/

theorem test_word_iadd : decodeGroup [0x020C2054#32] = .ok (.iadd {} ⟨.v 3, .v 4, .v 5, false, true, 0#2⟩) := rfl
theorem test_word_icmp : decodeGroup [0x404BCE00#32] = .ok (.icmp {} ⟨1#3, 2#4, .lid, .s 0, false, false, 0#2⟩) := rfl
theorem test_word_group : decodeGroup [0xFE000000#32, 0xFE448000#32, 0xFE980000#32, 0x54285E23#32] = .ok (.fadd { sos := true, perm := some ⟨1#4, 4#5, 0#4, 0#5⟩, guard := some (3#3, false) }
      ⟨.v 10, .v 11, .s 2, false, false, 3#2⟩) := rfl
theorem test_word_ldg : decodeGroup [0xA42030C0#32] = .ok (.ldg {} ⟨.v 8, .v 6, false, 1#3, 4#3, false, false, 0#2⟩) := rfl
theorem test_word_stg : decodeGroup [0xA6283454#32] = .ok (.stg {} ⟨.v 10, .v 6, true, 0#3, 5#3, false, true, 0#2⟩) := rfl
theorem test_word_atg : decodeGroup [0xB0082030#32] = .ok (.atg {} ⟨.v 2, .v 4, .v 3, 0#4⟩) := rfl
theorem test_word_fence : decodeGroup [0xB7E3C140#32] = .ok (.fenceFull {} 5#3 0#2) := rfl
theorem test_word_bar : decodeGroup [0xB9E3C010#32] = .ok (.barSync {} .zero 1#4 0#2) := rfl
theorem test_word_fbar : decodeGroup [0xBBE3C030#32] = .ok (.fbarSync {} 3#4 0#2) := rfl
theorem test_word_bra : decodeGroup [0xC6400003#32] = .ok (.bra {} ⟨1#3, false, 0#2, 3#19⟩) := rfl
theorem test_word_exit : decodeGroup [0xCDE3C000#32] = .ok (.exit {} 0#2) := rfl
theorem test_word_ret : decodeGroup [0xCBE3C020#32] = .ok (.ret {} 0#2) := rfl
theorem test_word_ensure : decodeGroup [0xDB900007#32] = .ok (.ensure {} (.s 4) 7#18) := rfl
theorem test_word_rbend : decodeGroup [0xE1E3C000#32] = .ok (.rbend {} 0#2) := rfl
theorem test_word_rbaccept : decodeGroup [0xE27C78F0#32] = .ok (.rbaccept {} 1#3) := rfl
theorem test_word_tlalloc : decodeGroup [0xE8200288#32] = .ok (.tlalloc {} ⟨2#5, 2#2, 8#4, true, false⟩) := rfl
theorem test_word_tlgive : decodeGroup [0xEC400030#32] = .ok (.tlgive {} 4#5 3#4) := rfl
theorem test_word_mmloop : decodeGroup [0xF4202050#32] = .ok (.mmloop {} ⟨2#5, 0#5, 8#5, 5#4, false, false⟩) := rfl
theorem test_word_mfsr : decodeGroup [0xFA140040#32] = .ok (.mfsr {} (.v 5) 1#12) := rfl
theorem test_word_mtsr : decodeGroup [0xFB840004#32] = .ok (.mtsr {} (.s 1) 0#12) := rfl
theorem test_word_ffma : decodeGroup [0x5A204E10#32] = .ok (.ffma {} ⟨.v 8, .v 9, .s 1, false, false, 0#2⟩) := rfl
theorem test_word_fcmp : decodeGroup [0x449C0810#32] = .ok (.fcmp {} ⟨2#3, 7#4, .v 1, .v 1, false, false, 0#2⟩) := rfl
theorem test_word_redl : decodeGroup [0xA0142080#32] = .ok (.redlFadd {} ⟨.v 5, .v 4, false, 0#2⟩) := rfl
theorem test_word_fibre_start : decodeGroup [0xD9E3C060#32] = .ok (.fibreStart {} 6#4) := rfl
theorem test_word_movi : decodeGroup [0x32080190#32] = .ok (.movi {} ⟨.v 2, 100#16, 0#2⟩) := rfl
/-- OP 0x00 is no instruction. -/
theorem test_word_zero : groupInstr [0#32] = .illegalInstruction := rfl
/-- Four words with OP 0x7F are no group. -/
theorem test_word_four_prefixes : groupInstr (List.replicate 4 0xFE000000#32) = .illegalInstruction := rfl
theorem test_encode_iadd : encode (.iadd {} rform) = some [0x020C2054#32] := rfl

/-! States that meet the hypotheses of each statement. -/

theorem witness_decodeEncode : (Instr.iadd {} rform).WellFormed ∧ encode (.iadd {} rform) = some [0x020C2054#32] := ⟨by decide, rfl⟩

theorem witness_illegalGroups : (∃ r, decodeGroup [0#32] = .error r) ∧ (0#32 : Word).toNat / 2 ^ 25 = 0
    ∧ (0xFE000000#32 : Word).toNat / 2 ^ 25 = 0x7F := ⟨⟨_, rfl⟩, by decide, by decide⟩

/-- The state of the host's step test. -/
def fetching : State := State.reset.withFetchWord 32 0x020C2054
theorem witness_stepOfIssue : chooseMove fetching = some (.issue 1)
    ∧ fetchGroup (fetching.issueTo 1) (fetching.issueTo 1).cur.pc.toNat = .words [0x020C2054#32]
    ∧ decodeGroup [0x020C2054#32] = .ok (.iadd {} rform) := ⟨rfl, by decide, rfl⟩
/-- The same instruction over a bound name, with registers in the rebind reserve of its quarter and without. -/
def rebinding (n : Nat) : State := { fetching with w := { fetching.w with regs := [(3, splat 5#32)] }, k := { fetching.k with reserve := [n, 0, 0, 0] } }
theorem witness_stepRebinds : chooseMove (rebinding 0) = some (.issue 1) ∧ ∀ n ∈ [0, 32],
    ∃ t, exec (.iadd {} rform) ((rebinding n).issueTo 1) = .next t ∧ rebinds ((rebinding n).issueTo 1) t = 1 ∧ inReserve ((rebinding n).issueTo 1) = n := by
  refine ⟨rfl, fun n hn => ?_⟩
  fin_cases hn <;> exact ⟨_, rfl, by decide +kernel, by decide +kernel⟩
/-- A source of the instruction is still to take the old value of an atomic, whose line another cohort claims. -/
def awaiting : State := { fetching with
  held := [{ id := 1, warp := 1, cid := 1, core := 0, line := 0, va := 0#64, bytes := [], depth := 0, dest := [.reg 4] }]
  claims := [⟨0, 16, 9, none⟩] }
theorem witness_stepAwaits : chooseMove awaiting = some (.issue 1) ∧ awaits (awaiting.issueTo 1) (.iadd {} rform) = [.reg 4]
    ∧ awaits (awaiting.issueTo 1) (.iadd {} ⟨.v 3, .v 5, .v 6, false, false, 0#2⟩) = [] := ⟨rfl, by decide, by decide⟩
theorem witness_noRace : ∃ t, exec (.iadd {} rform) (fetching.issueTo 1) = .next t ∧ ∀ l ∈ t.allLaunches, l.raced = false := ⟨_, rfl, by decide⟩
/-- Core 0 holds the segment of 0x100, the last word that of `pinWord`. -/
def pinned : State :=
  { base with l := { launch with travel := true, segs := [{ start := 0x100, len := 8, cores := [0], bytes := leBytes 4 0 ++ leBytes 4 0x020C2054 }] }
              k := { base.k with pin := some (16, 0) } }
theorem witness_fetchReadsCode :
    (inCode fetching.l 64 = true ∧ transl fetching (codeVa fetching.l 64) { fetch := true } = some (4160, 0) ∧ pinnedSeg fetching = none
      ∧ agentsAgainst fetching (localPa fetching 4160 / 128) false = []
      ∧ isPxWord (BitVec.ofNat 32 (leNat ((List.range 4).map fun i => homeByte fetching (localPa fetching 4160 + i)))) = false)
    ∧ inCode pinned.l 0x104 = true
    ∧ ∃ g, pinnedSeg pinned = some g ∧ g.start ≤ 0x104 ∧ 0x104 + 4 ≤ g.start + g.len ∧ isPxWord (BitVec.ofNat 32 (fieldLe g.bytes (0x104 - g.start) 4)) = false :=
  ⟨by decide, by decide, _, rfl, by decide⟩

theorem witness_memoryStaysCanonical : memWf fetching.mem = true ∧ ∃ t, step fetching = .next t := ⟨by decide, _, rfl⟩

/-- The hypotheses on an integer row: its operands read, its result written, the issuing entry moved on. -/
def intRuns (i : Instr) : Prop := ∃ o vs t u v, intOp base i = some o ∧ o.reads base = .ok (vs, t)
  ∧ writeD t o.d o.mask (lanesOf fun l => (o.fn vs l).1) = .ok u ∧ advance o.p u = .ok v
/-- IADD writes a fresh name. -/
theorem witness_iaddRuns : intRuns (.iadd {} rform) := ⟨_, _, _, _, _, rfl, rfl, rfl, rfl⟩
/-- MOVHI reads its destination, here with no lane active. -/
theorem witness_movhiRuns : intRuns (.movhi {} ⟨.s 3, 1#16, 1#2⟩) := ⟨_, _, _, _, _, rfl, rfl, rfl, rfl⟩
theorem witness_faddRuns : ∃ o vs t u v w, floatOp base (.fadd {} rform) = some o ∧ o.reads base = .ok (vs, t)
    ∧ writeD t o.d o.mask (lanesOf fun l => (o.fn vs l).1) = .ok u ∧ raiseFlags u (laneFlags o.mask fun l => (o.fn vs l).2) = .ok v
    ∧ advance o.p v = .ok w := ⟨_, _, _, _, _, _, rfl, rfl, rfl, rfl, rfl⟩

theorem witness_laneCompletes : ∃ o, intOp base (.iadd {} rform) = some o ∧ base.depth = 0 ∧ Ready base o.p
    ∧ (∀ x ∈ o.srcs, plainSource x.1 = true) ∧ (o.readsD = true → plainSource o.d = true) ∧ landsIn (killed base o.srcs) o.mask o.d = true :=
  ⟨_, rfl, by decide⟩
theorem witness_laneFrame : ∃ o t, intOp inOne (.iadd {} rform) = some o ∧ (∀ x ∈ o.srcs, plainSource x.1 = true) ∧ plainSource o.d = true
    ∧ exec (.iadd {} rform) inOne = .next t := ⟨_, _, rfl, by decide, by decide, rfl⟩

/-- base with queue register 0 bound and fibre queue 1 holding some entries. -/
def queuing (k : Option QKind) (n : Nat) : State :=
  { base with w := { warp with qbind := (List.replicate 8 none).set 0 k }
              sl := { fq := (List.replicate 4 []).set 1 (List.replicate n (splat 7#32)) } }
theorem witness_queueForms :
    (base.w.qbind.getD 0 none = none)
    ∧ ((queuing (some (.copy 0)) 0).w.qbind.getD 0 none = some (.copy 0) ∧ (QKind.copy 0).canPop = false)
    ∧ ((queuing (some (.copydone 0)) 0).w.qbind.getD 0 none = some (.copydone 0) ∧ (QKind.copydone 0).canPush = false)
    ∧ ((queuing (some (.fibre 1)) 1).w.qbind.getD 0 none = some (.fibre 1) ∧ (queuing (some (.fibre 1)) 1).sl.fq.getD 1 [] = splat 7#32 :: []
      ∧ earlierWaiter (queuing (some (.fibre 1)) 1) (.fibre 1) false = false)
    ∧ (queuing (some (.fibre 1)) 0).sl.fq.getD 1 [] = []
    ∧ (((queuing (some (.fibre 1)) 3).sl.fq.getD 1 []).length < 4 ∧ 1 < (queuing (some (.fibre 1)) 3).sl.fq.length
      ∧ earlierWaiter (queuing (some (.fibre 1)) 3) (.fibre 1) true = false)
    ∧ 4 ≤ ((queuing (some (.fibre 1)) 4).sl.fq.getD 1 []).length := by decide

/-- A bound name at an open level with some log. -/
def writing (log : List LogEntry) : State :=
  { base with w := { warp with regs := [(3, splat 1#32)] }, c := { cohort with levels := [{ level with log := log }] } }
/-- The log holds the name already; it does not, and there is room; the husk memory has no byte left. -/
theorem witness_firstWriteLogged : ∀ log ∈ [[.reg 1 3 none], [], List.replicate 482 (.gln 0#64 0 [])], let s := writing log
    let x : Level := { level with log := log }
    let e := LogEntry.reg s.w.id (absName s 3) (boundReg s (absName s 3))
    s.w.handler = false ∧ s.c.levels = [x] ∧ isShadow s 3 = false ∧ (boundReg s (absName s 3)).isSome = true ∧ freePool s ≠ 0
      ∧ (logged s x e = true ↔ log = [.reg 1 3 none]) ∧ ((huskPlace s x 8).isSome = true ↔ log.length ≤ 1) := by
  set_option maxRecDepth 20000 in decide +kernel
/-- A write of two bytes, and an atomic, that waited. -/
def heldWrite (bytes : List (Nat × Byte)) (atoms : List HeldAtom) : HeldWrite :=
  { id := 1, warp := 1, cid := 1, core := 0, line := 0, va := 0#64, bytes := bytes, depth := 0, atoms := atoms, dest := [.reg 1] }
/-- An ADD whose lane 3 gives its old value. -/
def heldAdd : HeldAtom := { lane := 3, va := 0#64, pa := 0, aop := 0, b := 1#64, b2 := 0#32, gives := true }
theorem witness_heldWrites : ∀ h ∈ [heldWrite [(0, 1#8), (1, 2#8)] [], heldWrite [] [heldAdd]],
    let s := { base with held := [h], w := { warp with regs := [(1, zeros)] } }
    s.held = [h] ∧ h.depth = 0 ∧ s.stashOwners = [] ∧ memWf s.mem = true ∧ s.claims = [] ∧ s.dir = [] ∧ s.marks = [] ∧ (h.bytes.map (·.1)).Nodup
      ∧ (h.atoms = [] ∨ h.atoms = [heldAdd]) ∧ s.w.resident = true ∧ h.warp = s.w.id ∧ (assoc 1 s.w.regs).isSome = true ∧ h.dest = [.reg 1]
      ∧ ∃ x ∈ { s with claims := [⟨0, 16, 9, none⟩] }.claims, x.line = h.line ∧ x.cid ≠ h.cid ∧ x.conv = none := by decide

/-- The old value of an atomic comes to the register of its lane when the claim has gone (09 R442). -/
def oldValue : State := { base with w := { warp with regs := [(1, zeros)] }, held := [heldWrite [] [heldAdd]], mem := memPuts [] (placed 0 (leBytes 4 7)) }
theorem test_old_value : ∃ t, exec (.heldWritePerform 0) oldValue = .next t
    ∧ ((assoc 1 t.w.regs).getD []).getD 3 0#32 = 7#32 ∧ memGets t.mem 0 4 = leBytes 4 8 := ⟨_, rfl, by decide +kernel, by decide +kernel⟩
/-- An ATG whose line another cohort claims issues and waits at the home (09 R442). -/
theorem test_atomic_at_claim : ∃ t, exec (.atg {} ⟨.v 3, .s 0, .v 4, 0#4⟩) { atPage with claims := [⟨1024, 16, 9, none⟩] } = .next t
    ∧ t.w.stall = none ∧ t.held.map (·.dest) = [[.reg 3]] ∧ t.mem = atPage.mem := ⟨_, rfl, by decide +kernel, by decide +kernel, by decide +kernel⟩

theorem witness_pairResult : ∃ o, pairOp base (.iadd64 {} ⟨.v 4, .v 6, .s 2, true, false, 0#2⟩) = some o ∧ base.depth = 0 ∧ Ready base o.p ∧ o.ok = true
    ∧ landsAll (killed base o.kills) o.mask o.d (twoWords o.fn) = true := ⟨_, rfl, by decide⟩
theorem witness_crossLaneResult : ∃ o, crossOp base (.xwr {} ⟨.v 4, .v 6, .lid, false, false, 0#2⟩) = some o ∧ base.depth = 0 ∧ Ready base o.p ∧ o.d.isV = true
    ∧ (∀ x ∈ o.srcs, plainSource x.1 = true) ∧ landsIn (killed base o.srcs) o.mask o.d = true := ⟨_, rfl, by decide⟩
theorem witness_compareResult : ∃ o, compareOp base (.icmp {} ⟨1#3, 2#4, .lid, .s 0, false, false, 0#2⟩) = some o ∧ base.depth = 0 ∧ Ready base o.p ∧ o.ok = true
    ∧ ∀ x ∈ o.srcs, plainSource x.1 = true := ⟨_, rfl, by decide⟩
theorem witness_predicateResult : base.depth = 0 ∧ Ready base {} ∧ plainSource (.v 1) = true ∧ landsIn base base.lanes (.v 2) = true := by decide

/-- Descriptors of 8-bit and of 4-bit elements. -/
theorem witness_quantiseResult : let s := withS [0x0100#32, 0x0200#32]
    let m := s.active {} 0#2
    s.depth = 0 ∧ Ready s {} ∧ (∀ l ∈ m.lanes, goodDesc ((slotValue s {} 1 (.s 0)).get l) = true ∧ goodDesc ((slotValue s {} 1 (.s 1)).get l) = true)
      ∧ (∀ l ∈ m.lanes, smallElems ((slotValue s {} 1 (.s 0)).get l) = false ∧ smallElems ((slotValue s {} 1 (.s 1)).get l) = true)
      ∧ landsIn (killed s ((List.range 8).map (fun i => (Opnd.ofNat (8 + i), true)))) m (.v 2) = true
      ∧ (∀ l ∈ m.lanes, ((slotValue s {} 1 (.s 0)).get l).toNat / 2 ^ 16 % 8 < 4) := by decide

def governed : State := { base with clusters := [{ id := 0, gov := 3 }] }
theorem witness_sfuApproximate : let p : Px := { approx := some 2#3 }
    apxDepth governed 2 ≠ 0 ∧ governed.depth = 0 ∧ Ready governed p ∧ plainSource (.v 1) = true
      ∧ landsIn (killed governed [(.v 1, true)]) (governed.active p 0#2) (.v 2) = true := by decide

/-! Memory. -/

/-- Two lanes of words at one address, and of 16 bytes at the page's end. -/
theorem witness_loadGlobal : let f : MForm := ⟨.v 8, .zero, false, 0#3, 4#3, false, false, 0#2⟩
    PlainMem atPage ∧ Ready atPage {} ∧ addressForm f.wa f.a = true ∧ dataForm f.sz f.t = true
      ∧ reachable atPage (atPage.active {} f.g) (address atPage f.wa f.sb f.a) (sizeBytes f.sz) { rd := true }
      ∧ landsAll (killed atPage (addressNames f.wa f.a f.ka)) (atPage.active {} f.g) f.t
          (extended f.sz fun l => numberAt atPage { rd := true } (address atPage f.wa f.sb f.a l) (sizeBytes f.sz)) = true :=
  ⟨by decide, by decide, by decide, by decide, reachable_of _ _ _ _ _ (by decide), by decide⟩
theorem witness_storeGlobal : let s := withS [0x10FF0#32]
    let f : MForm := ⟨.s 4, .zero, false, 0#3, 6#3, false, false, 0#2⟩
    PlainMem s ∧ Ready s {} ∧ addressForm f.wa f.a = true ∧ dataForm f.sz f.t = true
      ∧ reachable s (s.active {} f.g) (address s f.wa f.sb f.a) (sizeBytes f.sz) { wr := true }
      ∧ lastAt s (s.active {} f.g) (address s f.wa f.sb f.a) (sizeBytes f.sz) 1 15 :=
  ⟨by decide, by decide, by decide, by decide, reachable_of _ _ _ _ _ (by decide), by decide⟩
theorem witness_sharedAccess : let s := withS [4080#32]
    let f : MForm := ⟨.v 8, .zero, false, 0#3, 6#3, false, false, 0#2⟩
    PlainMem s ∧ Ready s {} ∧ plainSource f.a = true ∧ dataForm f.sz f.t = true
      ∧ (∀ l ∈ (s.active {} f.g).lanes, sharedOffset s f.sb f.a l + sizeBytes f.sz ≤ s.c.sharedSize)
      ∧ landsAll (killed s [(f.a, f.ka)]) (s.active {} f.g) f.t (extended f.sz fun l => leNat (memGets s.c.shared (sharedOffset s f.sb f.a l) (sizeBytes f.sz))) = true := by
  decide
theorem witness_loadConstant : let f : MForm := ⟨.s 8, .zero, false, 0#3, 5#3, false, false, 0#2⟩
    PlainMem atPage ∧ Ready atPage {} ∧ addressForm f.wa f.a = true ∧ dataForm f.sz f.t = true ∧ f.t.isS = true
      ∧ reachable atPage (atPage.active {} f.g) (address atPage f.wa f.sb f.a) (sizeBytes f.sz) { rd := true } ∧ atPage.active {} 1#2 = 0#32 :=
  ⟨by decide, by decide, by decide, by decide, by decide, reachable_of _ _ _ _ _ (by decide), by decide⟩


theorem witness_globalAtomics : let s := { atPage with w := { atPage.w with regs := [(4, splat 0x10000#32), (5, zeros)] } }
    PlainMem s ∧ Ready s {} ∧ s.l.det = false ∧ evenOperand (.v 4) = true ∧ atomicForm 15 (.v 2) = true
      ∧ reachable s (lanesA s {}) (address s true 0#3 (.v 4)) (atomicBytes 1) { atomic := true }
      ∧ (∀ l ∈ (lanesA s {}).lanes, (address s true 0#3 (.v 4) l).toNat % atomicBytes 1 = 0) ∧ atomicDest 1 (.v 6) = true
      ∧ landsAll s (lanesA s {}) (.v 6) (atomicWords 1 fun _ => 0) = true :=
  ⟨by decide, by decide, by decide, by decide, by decide, reachable_of _ _ _ _ _ (by decide), by decide⟩
theorem witness_sharedAtomics : let f : AForm := ⟨.v 2, .s 0, .v 3, 0#4⟩
    let s := withS [4092#32]
    PlainMem s ∧ Ready s {} ∧ plainSource f.a = true ∧ atomicForm f.aop.toNat f.b = true ∧ atomicDest f.aop.toNat f.d = true
      ∧ (∀ l ∈ (lanesA s {}).lanes, ((sourceOf s f.a).get l).toNat + 4 ≤ s.c.sharedSize ∧ ((sourceOf s f.a).get l).toNat % 4 = 0)
      ∧ landsAll s (lanesA s {}) f.d (atomicWords f.aop.toNat fun _ => 0) = true := by decide
theorem witness_deterministicAtomics : let s := { atPage with l := { launch with det := true } }
    s.l.det = true ∧ evenOperand (.s 0) = true ∧ atomicForm 0 (.v 3) = true ∧ atomicDest 0 (.v 2) = true ∧ plainSource (.v 2) = true
      ∧ PlainMem s ∧ Ready s {} ∧ s.k.sheaf = []
      ∧ reachable s (lanesA s {}) (address s true 0#3 (.s 0)) 4 { atomic := true } ∧ ∀ l ∈ (lanesA s {}).lanes, (address s true 0#3 (.s 0) l).toNat % 4 = 0 :=
  ⟨by decide, by decide, by decide, by decide, by decide, by decide, by decide, by decide, reachable_of _ _ _ _ _ (by decide), by decide⟩

/-- The last canonical byte and the first that is not; the last shared byte and the one after it; an odd address. -/
theorem witness_addressFaults :
    (let s := withS [0xFFFFFFFD#32, 0x00FFFFFF#32];
      (maskOf fun k => (s.active {} 0#2).has k && !canonRange (address s false 0#3 .zero k) 4).lowest = some 0)
    ∧ (let s := withS [4093#32];
      (maskOf fun k => (s.active {} 0#2).has k && decide (s.c.sharedSize < sharedOffset s 0#3 .zero k + 4)).lowest = some 0) := by decide
theorem witness_misaligned : let s := withS [0x10002#32]
    evenOperand (.s 0) = true ∧ atomicForm 0 (.v 3) = true ∧ s.l.det = false ∧ reachable s (lanesA s {}) (address s true 0#3 (.s 0)) 4 { atomic := true }
      ∧ (maskOf fun k => (lanesA s {}).has k && decide ((address s true 0#3 (.s 0) k).toNat % 4 ≠ 0)).lowest = some 0 :=
  ⟨by decide, by decide, by decide, reachable_of _ _ _ _ _ (by decide), by decide⟩

def holding : State := { base with held := [heldWrite [(0, 1#8)] []] }
theorem witness_fences : Ready base {} ∧ base.active {} 1#2 = 0#32 ∧ base.active {} 0#2 ≠ 0#32 ∧ (∀ h ∈ base.held, h.warp ≠ base.w.id)
    ∧ (∀ y ∈ base.c.stash, y.dirty = false) ∧ Ready holding {} ∧ ∃ h ∈ holding.held, h.warp = holding.w.id := by decide

/-! Barriers, waits, queues, stash. -/

/-- Barrier 1 in a state of its phase, and an arrival the warp has made. -/
def barred (b : Bar) (last : List (Nat × Nat)) : State :=
  { base with c := { cohort with bars := (List.replicate 16 {}).set 1 b }, w := { warp with barLast := last } }
/-- A second live warp of the cohort. -/
def beside (s : State) : State := { s with warps := [{ warp with id := 2, slot := 1 }] }
theorem witness_namedBarriers :
    (let s := beside (barred { arrived := [2] } []);
      Ready s {} ∧ uniformOrZero .zero = true ∧ s.l.travel = false ∧ s.l.det = false ∧ s.c.bars.length = 16 ∧ arrives s {} 0#2
        ∧ arrivalCount s .zero = 2 ∧ liveCount s = 2 ∧ s.w.id ∉ (s.bar 1).arrived ∧ (s.bar 1).held = [] ∧ (s.bar 1).count.getD (liveCount s) = 2
        ∧ 2 ≤ (s.bar 1).arrived.length + 1 ∧ 0 < arrivalCount s .zero)
    ∧ (let s := beside (barred {} []);
      Ready s {} ∧ arrives s {} 0#2 ∧ (s.bar 1).arrived = [] ∧ (s.bar 1).arrived.length + 1 < arrivalCount s .zero ∧ arrivalCount s .zero ≤ liveCount s)
    ∧ (let s := barred { phase := 5 } [(1, 4)]; arrives s {} 0#2 ∧ Ready s {} ∧ 0 < arrivalCount s .zero ∧ arrivalCount s .zero ≤ liveCount s
      ∧ ∀ ph, assoc 1 s.w.barLast = some ph → ph < (s.bar 1).phase)
    ∧ (let s := barred { phase := 5 } [(1, 5)]; arrives s {} 0#2 ∧ Ready s {} ∧ 0 < arrivalCount s .zero ∧ arrivalCount s .zero ≤ liveCount s
      ∧ assoc 1 s.w.barLast = some 5 ∧ (s.bar 1).phase ≤ 5)
    ∧ (let s := beside (barred { arrived := [1] } [(1, 0)]);
      arrives s {} 0#2 ∧ Ready s {} ∧ s.w.id ∈ (s.bar 1).arrived ∧ (s.bar 1).count.getD (liveCount s) = arrivalCount s .zero) := by
  refine ⟨by decide, by decide, ⟨by decide, by decide, by decide, by decide, fun ph h => ?_⟩, by decide, by decide⟩
  have : ph = 4 := by cases h; rfl
  subst this; decide
/-- Counts of 0, above the live warps and unlike the governing one; a part of the warp. -/
theorem witness_barrierFaults :
    (base.active {} 1#2 = 0#32 ∧ Ready base {} ∧ base.l.travel = false)
    ∧ (let s := { base with w := { warp with front := [{ entry with mask := 1#32 }] } }; s.active {} 0#2 ≠ 0#32 ∧ s.cur.mask ≠ s.w.holds)
    ∧ (arrives base {} 0#2 ∧ arrivalCount base (.s 0) = 0)
    ∧ (let s := withS [2#32]; arrives s {} 0#2 ∧ liveCount s < arrivalCount s (.s 0))
    ∧ (let s := beside (barred { arrived := [2], count := some 1 } []);
      arrives s {} 0#2 ∧ (s.bar 1).arrived ≠ [] ∧ (s.bar 1).count.getD (liveCount s) ≠ arrivalCount s .zero) := by decide
def fbarred (b : FBar) (last : List (Nat × Nat)) : State := { base with sl := { fbars := [b] }, w := { warp with fbarLast := last } }
theorem witness_fibreBarriers :
    (Ready base {} ∧ (2#4).getLsbD base.w.fibre = false)
    ∧ (let s := fbarred { mask := 3#4, arrived := [1] } []; (3#4).getLsbD s.w.fibre = true ∧ arrives s {} 0#2 ∧ s.w.fibre ∉ (s.fbar 3#4).arrived
        ∧ (s.fbar 3#4).held = [] ∧ ∀ i < 4, (3#4).getLsbD i = true → i = s.w.fibre ∨ i ∈ (s.fbar 3#4).arrived)
    ∧ (arrives base {} 0#2 ∧ base.w.fibre ∉ (base.fbar 9#4).arrived
        ∧ ∃ i < 4, (9#4).getLsbD i = true ∧ i ≠ base.w.fibre ∧ i ∉ (base.fbar 9#4).arrived)
    ∧ (arrives base {} 0#2 ∧ assoc 3 base.w.fbarLast = none)
    ∧ (let s := fbarred { mask := 3#4, arrived := [0] } [(3, 0)]; assoc 3 s.w.fbarLast = some 0 ∧ (s.fbar 3#4).phase ≤ 0) :=
  ⟨by decide, by decide, ⟨by decide, by decide, 3, by decide⟩, by decide, by decide⟩

/-- The word at the page's start is 0. -/
def watching (lim : Word) (b : Word) : State := let s := withS [0x10000#32, 0#32, b]; { s with w := { s.w with waitlim := lim } }
theorem witness_waita : let f : RForm := ⟨.v 2, .s 0, .s 2, false, false, 0#2⟩
    ∀ x ∈ [(1000000#32, 1#32), (0#32, 0#32), (1000000#32, 0#32)], let s := watching x.1 x.2
      PlainMem s ∧ Ready s {} ∧ evenOperand f.a = true ∧ plainSource f.b = true ∧ s.w.keep = .none ∧ s.active {} f.g ≠ 0#32
        ∧ reachable s (s.active {} f.g) (address s true 0#3 f.a) 4 { rd := true } ∧ (∀ l ∈ (s.active {} f.g).lanes, (address s true 0#3 f.a l).toNat % 4 = 0)
        ∧ landsIn (killed s (bothNames f.a f.ka ++ [(f.b, f.kb)])) (s.active {} f.g) f.d = true
        ∧ ((∀ l ∈ (s.active {} f.g).lanes, numberAt s { rd := true } (address s true 0#3 f.a l) 4 ≠ ((sourceOf s f.b).get l).toNat) ↔ x.2 = 1#32) := by
  intro f x hx
  fin_cases hx <;> exact ⟨by decide, by decide, by decide, by decide, by decide, by decide, reachable_of _ _ _ _ _ (by decide), by decide, by decide, by decide⟩
/-- Issued again after a wait that began at tick 0: the limit is reached, and is still ahead. -/
theorem witness_waitaAgain : ∀ x ∈ [(10#32, true), (100#32, false)], let s := watching x.1 0#32
    let s := { s with cyc := 18, w := { s.w with keep := .waita 0 0 [] } }
    (s.w.keep = .none ∧ 0 = s.now ∨ ∃ seen watch, s.w.keep = .waita 0 seen watch) ∧ PlainMem s ∧ Ready s {} ∧ (s.w.waitlim.toNat ≤ s.now - 0 ↔ x.2 = true) := by
  intro x hx
  fin_cases hx <;> exact ⟨.inr ⟨0, [], rfl⟩, by decide, by decide, by decide⟩
/-- A command of the warp whose promise is tick 5, at tick 10; a completion word. -/
def lateCopy : CopyCmd := { id := 1, warp := 1, cid := 1, launch := 16, fill := false, dims := [], esz := 1, srcSh := false, dstSh := false, acq := false
                            rel := false, scope := 0, key := none, tag := 0, src := 0#64, dst := 0#64, record := 0#64, count0 := 0, stage := .accepted, promise := 5 }
theorem witness_sleepu :
    let late := { withS [6#32] with cyc := 1000, clusters := [{ id := 0, chans := [{ cmds := [lateCopy] }] }] }
    let woken := { base with w := { withS [0xFFFFFFFF#32] |>.w with qbind := (List.replicate 8 none).set 0 (some (.copydone 0)) }
                             clusters := [{ id := 0, chans := [{ words := [(1, 1#32)] }] }] }
    (∀ s ∈ [base, late, woken, withS [0xFFFFFFFF#32]], s.depth = 0 ∧ Ready s {} ∧ uniformPair (.s 0) = true ∧ s.w.keep = .none ∧ s.active {} 0#2 ≠ 0#32
        ∧ landsIn s (s.active {} 0#2) (.v 2) = true)
      ∧ (uniform64 base (.s 0) ≤ base.now ∧ lateCmds base 0 = [])
      ∧ (uniform64 late (.s 0) ≤ late.now ∧ lateCmds late 6 ≠ [] ∧ late.w.trapen.getLsbD 1 = false)
      ∧ (woken.now < uniform64 woken (.s 0) ∧ wakeWord woken = true)
      ∧ (let s := withS [0xFFFFFFFF#32]; s.now < uniform64 s (.s 0) ∧ wakeWord s = false)
      -- issued again after it has slept from tick 0 to 6, with TRAPEN.PMISS
      ∧ (let s := { late with w := { late.w with trapen := 2#4, keep := .sleep 0 6 }, l := { launch with handlerPc := 0x200#32 } }
        s.w.keep = .sleep 0 6 ∧ 6 ≤ s.now ∧ lateCmds s 6 ≠ [] ∧ s.w.trapen.getLsbD 1 = true ∧ mayTrap s ∧ s.l.travel = false) := by decide
/-- A header of capacity 1 at shared offset 16. -/
theorem witness_queueBindings : let f : UForm := ⟨.q 7, .s 0, false, 0#2⟩
    let s := { withS [16#32] with c := { cohort with shared := [(16, 1#8)] } }
    (∃ k, binding s (.qbindWarp {} f) = some ({}, f, k)) ∧ f.d = .q 7 ∧ uniformOrZero f.a = true ∧ s.depth = 0 ∧ Ready s {} ∧ s.active {} f.g ≠ 0#32
      ∧ s.active {} 1#2 = 0#32 ∧ (∃ k, binding (withS [3#32]) (.qbindFibre {} f) = some ({}, f, k)) := by
  refine ⟨⟨_, rfl⟩, by decide, by decide, by decide, by decide, by decide, by decide, ⟨_, rfl⟩⟩
theorem witness_queueStatus : let f : UForm := ⟨.q 7, .s 0, false, 0#2⟩
    (binding (withS [4#32]) (.qbindFibre {} f) = none ∧ binding (withS [8#32]) (.qbindCopy {} f) = none ∧ (withS [4#32]).active {} f.g ≠ 0#32
      ∧ (withS [4#32]).c.maps = [])
    ∧ (let s := queuing (some (.fibre 1)) 3; s.depth = 0 ∧ Ready s {} ∧ landsIn s (s.active {} 0#2) (.v 2) = true
      ∧ s.w.qbind.getD 0 none = some (.fibre 1) ∧ s.w.qbind.getD 1 none = none) := by decide

/-- A bad format in lane 1 alone; four-bit elements from v4; an 8-bit element 4. -/
theorem witness_quantiseFault :
    (let s := { base with w := { warp with regs := [(3, [0x0100#32, 0x0700#32] ++ List.replicate 30 0#32)] } }
      let desc := slotValue s {} 1 (.v 3)
      plainSource (.v 3) = true ∧ writable (.v 2) = .ok ()
        ∧ (maskOf fun l => (s.active {} 0#2).has l && (!goodDesc (desc.get l) || (smallElems (desc.get l) && 8 % 8 != 0))) = 2#32)
    ∧ (let s := withS [0x0200#32, 0x40100#32]
      (maskOf fun l => (s.active {} 0#2).has l && (!goodDesc ((slotValue s {} 1 (.s 0)).get l) || (smallElems ((slotValue s {} 1 (.s 0)).get l) && 4 % 8 != 0))) ≠ 0#32
      ∧ (maskOf fun l => (s.active {} 0#2).has l
          && (!goodDesc ((slotValue s {} 1 (.s 1)).get l) || (!smallElems ((slotValue s {} 1 (.s 1)).get l) && decide (4 ≤ ((slotValue s {} 1 (.s 1)).get l).toNat / 2 ^ 16 % 8)))) ≠ 0#32) := by
  decide

/-- A mapping of the last line, and one of the first line with a dirty line. -/
def stashing : State := { withS [0x3FF80#32, 0#32, 0x10000#32] with c := { cohort with sharedSize := 0x40000 } }
def stashed : State := { withS [0#32] with c := { cohort with maps := [⟨0, 1, 0x10000#64⟩], stash := [⟨0, 0x20000, 0x10000#64, true, 0⟩] } }
theorem witness_stashMappings :
    (Ready stashing {} ∧ stashing.w.resident = true ∧ stashing.w.sregs.getD 0 0#32 = ofN (2 ^ 18 * (1 - 1) + 128 * 2047) ∧ stashing.active {} 0#2 ≠ 0#32
      ∧ stashing.active {} 1#2 = 0#32 ∧ canonRange (BitVec.ofNat 64 (uniform64 stashing (.s 2))) 128 = true
      ∧ 128 * (2047 + 1) ≤ stashing.c.sharedSize ∧ stashing.c.maps = [] ∧ uniform64 stashing (.s 2) % 128 = 0
      ∧ linesReady stashing ((walkReads stashing stashing.l.ctx (mapPages (BitVec.ofNat 64 (uniform64 stashing (.s 2))) 1)).map (·.1)) false = .ok ()
      ∧ ∀ i ≤ 1 * 128 / 4096 + 1, noStash stashing (BitVec.ofNat 64 (uniform64 stashing (.s 2)) + BitVec.ofNat 64 (min (4096 * i) (128 * 1 - 1))) = false)
    ∧ (Ready stashed {} ∧ stashed.w.resident = true ∧ stashed.w.sregs.getD 0 0#32 = ofN (2 ^ 18 * (1 - 1) + 128 * 0) ∧ stashed.active {} 0#2 ≠ 0#32
      ∧ (∃ x ∈ stashed.c.maps, x.line = 0 ∧ x.lines = 1) ∧ (∀ i < 1, (Machine.mapOf stashed.c (0 + i)).isSome = true)
      ∧ stashed.c.stash.all (fun y => !y.dirty) = false) := by decide
/-- Reserved bits; a base that is not aligned; one line past the allocation; a range that is no mapping; an access at the edge of one. -/
theorem witness_stashFaults :
    ((Opnd.v 1).isS = false ∧ ∀ k : Fin 16, k.val % 2 = 0 → Opnd.s 1 ≠ .s k)
    ∧ (let s := withS [1#32]; s.active {} 0#2 ≠ 0#32 ∧ (s.w.sregs.getD 0 0#32).toNat % 128 ≠ 0)
    ∧ (let s := withS [0x40000000#32]; 2 ^ 30 ≤ (s.w.sregs.getD 0 0#32).toNat)
    ∧ (let s := withS [0#32, 0#32, 64#32]; (BitVec.ofNat 64 (uniform64 s (.s 2)) : DWord).toNat % 128 ≠ 0)
    ∧ (let s := withS [ofN (128 * 32)]; s.c.sharedSize < 128 * (32 + 1) ∧ (s.w.sregs.getD 0 0#32).toNat / 128 % 2048 = 32 ∧ (s.w.sregs.getD 0 0#32).toNat / 2 ^ 18 % 4096 + 1 = 1
      ∧ (∀ y ∈ s.c.maps, ¬ (y.line = 32 ∧ y.lines = 1)) ∧ ∃ i < 1, Machine.mapOf s.c (32 + i) = none)
    ∧ (let s := { stashed with w := { stashed.w with regs := [(3, splat 126#32)] } }; let off := sharedOffset s 0#3 (.v 3)
      plainSource (.v 3) = true ∧ dataForm 4#3 (.v 8) = true ∧ (∀ k ∈ (s.active {} 0#2).lanes, off k + sizeBytes 4#3 ≤ s.c.sharedSize)
        ∧ (maskOf fun k => (s.active {} 0#2).has k && Machine.mapOf s.c (off k / 128) != Machine.mapOf s.c ((off k + sizeBytes 4#3 - 1) / 128)).lowest = some 0) := by
  decide
theorem witness_stashLines :
    let s := { stashed with cyc := 10000, stashOwners := [(0x20000 / 128, 1)], warps := [{ warp with id := 2, cid := 2, stall := some ⟨.memory, .unstashed (0x20000 / 128)⟩ }] }
    ∃ x t, s.cohort? 1 = some x ∧ memWf s.mem = true ∧ t.pa % 128 = 0 ∧ t.dirty = true
      ∧ x.stash.find? (fun y => y.line == t.line && y.dirty && decide (y.lastUse + 10000 ≤ s.cyc)) = some t
      ∧ assoc (t.pa / 128) s.stashOwners = some 1 ∧ x.stash.find? (fun y => y.pa == t.pa) = some t
      ∧ ∃ w ∈ s.allWarps, ∃ k, w.stall = some ⟨k, .unstashed (t.pa / 128)⟩ :=
  ⟨_, ⟨0, 0x20000, 0x10000#64, true, 0⟩, rfl, by decide, by decide, by decide, rfl, by decide, rfl, { warp with id := 2, cid := 2, stall := some ⟨.memory, .unstashed (0x20000 / 128)⟩ }, by decide, _, rfl⟩

/-! Control flow, window and quota, fibres. -/

/-- Predicate 1 holds in lane 0 alone; the frontier has other entries too. -/
def forked (others : List Entry) : State :=
  { base with w := { warp with preds := (List.replicate 8 0#32).set 1 1#32, front := entry :: others, holds := 0xFFFFFFFF#32 } }
/-- Seven entries of other threads. -/
def seven : List Entry := (List.range 7).map fun i => { pc := ofN (0x200 + 4 * i), mask := ofN (4 * 2 ^ i) }
/-- The four modes; at eight entries only a whole transfer fits. -/
theorem witness_branches :
    (∀ mode ∈ [0#2, 1#2, 2#2, 3#2], let s := forked []; let f : BForm := ⟨1#3, false, mode, 3#19⟩
      transfers s [(s.wordPc {} + 4#32 * f.disp.signExtend 32, takenLanes s f), (s.nextPc {}, s.cur.mask &&& ~~~ takenLanes s f)] ∧ s.depth = 0)
    ∧ (let s := forked seven; let f : BForm := ⟨1#3, false, 1#2, 0x7FFFF#19⟩
      transfers s [(s.wordPc {} + 4#32 * f.disp.signExtend 32, takenLanes s f), (s.nextPc {}, s.cur.mask &&& ~~~ takenLanes s f)]) := by
  refine ⟨fun mode hm => ?_, by decide, fun _ _ _ => rfl⟩
  fin_cases hm <;> exact ⟨⟨by decide, fun _ _ _ => rfl⟩, by decide⟩
theorem witness_jumps : let s := { base with w := { warp with sregs := [0x40#32] ++ List.replicate 15 0#32, lnk := [0x80#32, 0x84#32] ++ List.replicate 30 0#32 } }
    s.depth = 0 ∧ plainSource (.s 0) = true ∧ (∀ l ∈ (s.active {} 0#2).lanes, ((slotValue s {} 0 (.s 0)).get l).toNat % 4 = 0)
      ∧ transfers s (jumpGroups s {} (s.active {} 0#2) (slotValue s {} 0 (.s 0))) ∧ (∀ l ∈ (s.active {} 0#2).lanes, (s.w.lnk.get l).toNat % 4 = 0)
      ∧ transfers s (jumpGroups s {} (s.active {} 0#2) s.w.lnk) ∧ (jumpGroups s {} (s.active {} 0#2) s.w.lnk).length = 3 :=
  ⟨by decide, by decide, by decide, ⟨by decide, fun _ _ _ => rfl⟩, by decide, ⟨by decide, fun _ _ _ => rfl⟩, by decide⟩
theorem witness_transferFaults :
    -- JMP and CALLR: a target of lane 1 that is not aligned; two targets beside seven entries; CALL shares BRA's state
    (let s := { base with w := { warp with regs := [(3, [0x80#32, 0x82#32] ++ List.replicate 30 0#32)] } };
      s.depth = 0 ∧ plainSource (.v 3) = true ∧ ∃ l ∈ (s.active {} 0#2).lanes, ((slotValue s {} 0 (.v 3)).get l).toNat % 4 ≠ 0)
    ∧ (let s := forked seven; let s := { s with w := { s.w with regs := [(3, [0x80#32, 0x84#32] ++ List.replicate 30 0#32)] } }
      s.depth = 0 ∧ (∀ l ∈ (s.active {} 0#2).lanes, ((slotValue s {} 0 (.v 3)).get l).toNat % 4 = 0)
      ∧ 8 < (transferred s (jumpGroups s {} (s.active {} 0#2) (slotValue s {} 0 (.v 3)))).w.front.length)
    ∧ (forked seven).depth = 0
    ∧ (let s := { base with w := { warp with lnk := [0x80#32, 0x82#32] ++ List.replicate 30 0#32 } }; ∃ l ∈ (s.active {} 0#2).lanes, (s.w.lnk.get l).toNat % 4 ≠ 0)
    ∧ (let s := forked seven; let s := { s with w := { s.w with lnk := [0x80#32, 0x84#32] ++ List.replicate 30 0#32 } }
      (∀ l ∈ (s.active {} 0#2).lanes, (s.w.lnk.get l).toNat % 4 = 0) ∧ 8 < (transferred s (jumpGroups s {} (s.active {} 0#2) s.w.lnk)).w.front.length)
    ∧ (let s := forked seven; let f : BForm := ⟨1#3, false, 0#2, 3#19⟩
      8 < (transferred s [(s.wordPc {} + 4#32 * f.disp.signExtend 32, takenLanes s f), (s.nextPc {}, s.cur.mask &&& ~~~ takenLanes s f)]).w.front.length) := by
  decide

/-- In a level; no lane; one of two lanes; the last lanes. -/
theorem witness_exits :
    inOne.depth ≠ 0
    ∧ (let s := base; s.depth = 0 ∧ s.active {} 1#2 = 0#32 ∧ Ready s {} ∧ transfers s [(s.nextPc {}, s.cur.mask &&& ~~~ 0#32)])
    ∧ (let s := { forked [] with w := { (forked []).w with holds := 3#32 } }; let m := s.active { guard := some (1#3, false) } 3#2
      m = 1#32 ∧ s.depth = 0 ∧ s.w.holds &&& ~~~ m ≠ 0#32 ∧ noneParked s ∧ transfers s [(s.nextPc { guard := some (1#3, false) }, s.cur.mask &&& ~~~ m)]
        ∧ ∃ e ∈ (transferred s [(s.nextPc { guard := some (1#3, false) }, s.cur.mask &&& ~~~ m)]).w.front, e.parked = false)
    ∧ (let m := base.active {} 0#2; m ≠ 0#32 ∧ base.w.holds &&& ~~~ m = 0#32 ∧ (∀ v ∈ base.warps, v.cid ≠ base.c.id) ∧ (∀ b ∈ base.c.bars, b.arrived = [])
      ∧ base.c.hand = [] ∧ transfers base [(base.nextPc {}, base.cur.mask &&& ~~~ m)]) :=
  ⟨by decide, ⟨by decide, by decide, by decide, by decide, fun _ _ _ => rfl⟩, ⟨by decide, by decide, by decide, by decide, ⟨by decide, fun _ _ _ => rfl⟩, by decide⟩,
    by decide, by decide, by decide, by decide, by decide, by decide, fun _ _ _ => rfl⟩

/-- A target that is not aligned; an entry that runs on; the last entry, with compaction shut out by an open level. -/
theorem witness_regroup :
    (let s := withS [0x42#32]; uniformOrZero (.s 0) = true ∧ s.lanes ≠ 0#32 ∧ (ofN (uniform s (.s 0))).toNat % 4 ≠ 0)
    ∧ (let s := forked seven; s.lanes ≠ 0#32 ∧ s.w.resident = true ∧ s.w.cid = s.c.id
      ∧ (addEntry { pc := s.nextPc {}, mask := s.cur.mask, parked := true, src := s.cur.pc } (s.w.front.erase s.cur)).length ≤ 8
      ∧ ∃ e ∈ addEntry { pc := s.nextPc {}, mask := s.cur.mask, parked := true, src := s.cur.pc } (s.w.front.erase s.cur), e.parked = false)
    ∧ (let s := inOne; s.lanes ≠ 0#32 ∧ (∀ e ∈ addEntry { pc := s.nextPc {}, mask := s.cur.mask, parked := true, src := s.cur.pc } (s.w.front.erase s.cur),
        e.parked = true ∧ e.rbLanes = 0#32) ∧ (∀ v ∈ s.warps, v.cid ≠ s.c.id ∧ v.id ≠ s.w.id) ∧ s.w.frozen = none ∧ s.w.trapWait = none ∧ s.c.levels ≠ [])
    ∧ (let s := beside base; s.lanes ≠ 0#32 ∧ s.w.holds ≠ 0#32 ∧ s.w.resident = true ∧ s.w.cid = s.c.id ∧ s.l.travel = false
      ∧ (∀ e ∈ addEntry { pc := s.nextPc {}, mask := s.cur.mask, parked := true, src := s.cur.pc } (s.w.front.erase s.cur), e.parked = true ∧ e.rbLanes = 0#32)
      ∧ ∃ v ∈ s.warps, v.cid = s.c.id ∧ v.holds ≠ 0#32 ∧ ∃ e ∈ v.front, e.parked = false) := by decide
/-- Beside it a warp of the cohort with lane 1 of its own parked at the PC after the group; together they are one warp. -/
def besides : Warp := { warp with id := 2, slot := 1, lidx := 1, front := [{ pc := 0x104#32, mask := 3#32, parked := true }] }
def gathering : State := { base with warps := [besides] }
def gatheredFront : List Entry := addEntry { pc := 0x104#32, mask := gathering.cur.mask, parked := true, src := gathering.cur.pc } (gathering.w.front.erase gathering.cur)
def gatheredFirst : Warp := { gathering.w with front := gatheredFront }
def gatheredWarps : List Warp := [gatheredFirst, besides]
def gatheredThreads : List Parked := gatheredWarps.flatMap fun w => [⟨0x104#32, w, 0⟩, ⟨0x104#32, w, 1⟩]
theorem witness_compaction :
    gatheredWarps = { gathering.w with front := gatheredFront } :: (gathering.warps.filter fun v => v.cid == gathering.c.id && v.holds != 0#32) ∧ uniformOrZero .zero = true ∧ gathering.lanes ≠ 0#32 ∧ gathering.nextPc {} = 0x104#32 ∧ (0x104#32 : Word).toNat % 4 = 0 ∧ gatheredFront.length ≤ 8
      ∧ gathering.w.resident = true ∧ gathering.w.cid = gathering.c.id ∧ gathering.w.holds ≠ 0#32
      ∧ mayCompact gathering gatheredWarps ∧ inOrder gathering.l gatheredWarps gatheredThreads
      ∧ (newFront (gatheredThreads.take 32)).length ≤ 8 ∧ gatheredWarps.length = 2 ∧ gatheredThreads.length ≤ 32
      ∧ (gathering.allWarps.map (·.id)).Nodup ∧ (∀ b ∈ gathering.c.bars, b.arrived = []) ∧ gathering.c.hand = [] := by
  refine ⟨rfl, by decide, by decide, by decide, by decide, by decide +kernel, by decide, by decide, by decide, ?_, ⟨by decide +kernel, by decide +kernel, by decide +kernel⟩,
    by decide +kernel, by decide +kernel, by decide +kernel, by decide, by decide, by decide⟩
  refine ⟨by decide, by decide, by decide +kernel, by decide +kernel, fun w hw => ?_⟩
  have h : w = gatheredFirst ∨ w = besides := by simpa only [gatheredWarps, List.mem_cons, List.not_mem_nil, or_false] using hw
  rcases h with rfl | rfl <;> exact ⟨by decide +kernel, by decide +kernel, by decide +kernel, by decide +kernel, by decide +kernel, by decide +kernel, by decide +kernel,
    by decide +kernel, by decide +kernel, by decide +kernel, by decide +kernel, by decide +kernel⟩
theorem witness_yields : Ready base {} ∧ base.l.det = false ∧ (let s := { base with l := { launch with det := true } }; Ready s {} ∧ s.l.det = true) := by decide

/-- Quotas of 8, growth to 256 and beyond, with the pool full and free. -/
theorem witness_windowAndQuota :
    (let s := withS [248#32]; s.depth = 0 ∧ Ready s {} ∧ s.lanes ≠ 0#32 ∧ landsIn s s.lanes (.v 1) = true ∧ s.w.quota + uniform s (.s 0) ≤ 256
      ∧ 0 < uniform s (.s 0) ∧ uniform s (.s 0) ≤ freePool s ∧ earlierGrow s = false
      ∧ landsIn { s with w := { s.w with quota := s.w.quota + uniform s (.s 0) } } s.lanes (.v 1) = true)
    ∧ (let s := withS [249#32]; Ready s {} ∧ 256 < s.w.quota + uniform s (.s 0) ∧ landsIn s s.lanes (.v 1) = true)
    ∧ (let s := { withS [1#32] with warps := [{ warp with id := 2, cid := 2, quota := 984 }] };
      Ready s {} ∧ s.w.quota + uniform s (.s 0) ≤ 256 ∧ freePool s < uniform s (.s 0) ∧ landsIn s s.lanes (.v 1) = true)
    ∧ (uniform base (.s 0) = 0 ∧ base.w.quota ≤ 256)
    ∧ (let s := { withS [7#32] with w := { (withS [7#32]).w with regs := [(3, zeros)] } }; Ready s {} ∧ s.lanes ≠ 0#32 ∧ uniform s (.s 0) ≤ s.w.quota - s.boundCount)
    ∧ (let s := { withS [8#32] with w := { (withS [8#32]).w with regs := [(3, zeros)] } }; Ready s {} ∧ s.w.quota - s.boundCount < uniform s (.s 0)) := by decide

theorem witness_fibreInstructions :
    Ready base {} ∧ base.w.resident = true ∧ (2#4).getLsbD base.w.fibre = false ∧ (1#4).getLsbD base.w.fibre = true ∧ landsIn base base.lanes (.v 1) = true
      ∧ (let s := { withS [255#32] with w := { (withS [255#32]).w with regs := [(3, zeros), (87, zeros)] } };
        Ready s {} ∧ s.depth = 0 ∧ s.lanes ≠ 0#32 ∧ aloneInSlot s ∧ s.l.travel = false ∧ uniform s (.s 0) < 256 ∧ s.sl.band = 0#8 ∧ s.sl.bandRegs = []
          ∧ (s.w.regs.map (·.1)).Nodup) := by decide

/-! Recovery. -/

/-- ELSE and ELSEERR 5 stand at 0x104 and 0x108. -/
def heading : State := { withS [100#32] with mem := [(0x20104, 0x2F#8), (0x20107, 0xDC#8), (0x20109, 0x0A#8), (0x2010B, 0xDE#8)] }
theorem witness_levelsOpen :
    (parseHeader heading 8 (heading.wordPc {} + 4#32) [] = .ok ([0x1C0#32], 5, 0x108#32) ∧ heading.w.trapMode = false ∧ heading.w.handler = false
      ∧ heading.cur.mask = heading.w.holds ∧ heading.c.levels.length < 8)
    ∧ ∀ b ∈ [true, false], let full : Level := { level with log := List.replicate 482 (.gln 0#64 0 []) }
      let s := { base with c := { cohort with headers := [(1, level)], levels := if b then [] else [full] } }
      Solo s ∧ s.c.failing = none ∧ s.c.headers = [(s.w.id, level)] ∧ staysHere s (level.codePc + 4#32) = true ∧ s.c.conv = none
        ∧ (huskPlace { s with c := { s.c with headers := [] } } { level with start := s.cyc, seqFrom := s.k.nextOp, headOver := true } 32).isSome = b :=
  ⟨⟨rfl, by decide⟩, by set_option maxRecDepth 20000 in decide +kernel⟩
theorem witness_levelEnds :
    (base.w.trapMode = false ∧ base.depth = 0) ∧ trapped.w.trapMode = true ∧ (inLevel inOne ∧ inOne.c.conv = none ∧ inOne.c.failing = none)
    ∧ (inLevel inOne ∧ inOne.c.levels = [level] ∧ inOne.l.travel = false ∧ inOne.active {} 0#2 = inOne.cur.mask ∧ inOne.cur.mask ≠ 0#32
      ∧ (let front := addEntry { pc := level.test, mask := inOne.cur.mask, parked := true, rbLanes := inOne.cur.mask, src := inOne.cur.pc } (inOne.w.front.erase inOne.cur);
        front.length ≤ 8 ∧ front.foldl (fun k x => k ||| x.rbLanes) 0#32 = inOne.w.holds))
    ∧ (let s := { inOne with w := (forked seven).w }; inLevel s ∧ s.active {} 0#2 = s.cur.mask
      ∧ (let front := addEntry { pc := level.test, mask := s.cur.mask, parked := true, rbLanes := s.cur.mask, src := s.cur.pc } (s.w.front.erase s.cur);
        front.length ≤ 8 ∧ front.foldl (fun k x => k ||| x.rbLanes) 0#32 ≠ s.w.holds)) := by decide

/-- A verdict of every lane, and of some. -/
def judging (m : Mask) (vs : List Level) : State :=
  { base with w := { warp with preds := (List.replicate 8 0#32).set 1 m }, c := { cohort with levels := vs } }
theorem witness_verdicts : ∀ s ∈ [judging 3#32 [level], judging 3#32 [level, level], judging 1#32 [level]],
    Solo s ∧ inLevel s ∧ s.cur.mask = s.w.holds ∧ unsettled s = false ∧ s.c.conv = none ∧ s.c.failing = none ∧ s.l.check = false
      ∧ (∀ v ∈ s.c.levels, v.verdicts = [])
      ∧ ((∀ l ∈ s.w.holds.lanes, (s.w.preds.getD 1 0#32).has l = true) ↔ s.w.preds.getD 1 0#32 = 3#32) := by decide

/-- An attempt at its limit; a failed one with an alternate left, and without. -/
def rolling (alt : Nat) (trapen : BitVec 4) : State :=
  { handled with w := { warp with trapen := trapen }, c := { cohort with failing := some ⟨1, 3, 0x10, 0⟩, levels := [{ level with alt := alt, log := [.uni 1 0 7#32, .pred 1 1 3#32, .lnk 1 (splat 9#32)] }] } }
theorem witness_rollbacks :
    (let s := { inOne with cyc := 100 }; Solo s ∧ s.c.levels = [level] ∧ s.c.conv = none ∧ s.c.failing = none ∧ level.limit ≠ 0 ∧ level.start + level.limit ≤ s.cyc)
    ∧ ∀ s ∈ [rolling 0 0#4, rolling 1 4#4, rolling 1 0#4], Solo s ∧ copiesOpen s s.c.id 1 = false ∧ s.w.frozen = none ∧ s.sl.holder = none ∧ s.c.hand = []
      ∧ s.w.trapMode = false ∧ s.l.handlerPc ≠ 0#32 ∧ s.c.conv = none ∧ staysHere s 0x1C0#32 = true ∧ level.alts[0]? = some 0x1C0#32 ∧ level.alts.length ≤ 1 := by
  decide

/-- A conversation's object at the page's start: identifier 1, two members, and further fields. -/
def object (fields : List Host.Cell) : List Host.Cell := (0x20000, 1#8) :: (0x20004, 2#8) :: fields
def joining (k : Keep) (v : Option Conv) : State :=
  { atPage with w := { atPage.w with keep := k }, c := { cohort with levels := [level], conv := v } }
def member : Conv := { va := 0x10000#64, pa := 0x20000, ident := 1#32, member := 0, depth := 1 }
theorem witness_conversationJoins : ∀ s ∈ [joining .none none, joining (.conv (some none)) none, joining .none (some member), joining (.conv (some (some 0x50))) none],
    s.w.trapMode = false ∧ s.w.handler = false ∧ s.c.levels ≠ [] ∧ s.active {} 0#2 ≠ 0#32 ∧ canonRange (BitVec.ofNat 64 (uniform64 s (.s 0))) 64 = true
      ∧ uniform64 s (.s 0) % 64 = 0 ∧ PlainMem { s with c := { s.c with levels := [] } } ∧ place s { rd := true, wr := true } 0x10000#64 = some 0x20000
      ∧ Ready s {} ∧ BitVec.ofNat 64 (uniform64 s (.s 0)) = 0x10000#64 := by decide
def noticed (v : Verdict) (x : Conv) (k : Keep) : State :=
  { joining k (some x) with notices := [⟨1, x.serial, v, x.pa⟩] }
theorem witness_conversationMembers :
    ∀ s ∈ [noticed .commit member (.status 0x104), noticed .rollback member .none, noticed .advance { member with rolled := true } .none,
        noticed .exhaust { member with rolled := true } .none],
      Solo s ∧ s.c.levels = [level] ∧ s.c.failing = none ∧ s.l.check = false ∧ s.w.trapen.getLsbD 2 = false ∧ s.c.hand = [] ∧ staysHere s 0x1C0#32 = true
        ∧ level.alts[level.alt]? = some 0x1C0#32 ∧ s.notices.length = 1 ∧ s.savedCohorts = []
        ∧ ∃ x ∈ s.c.conv, x.depth = 1 ∧ ∀ n ∈ s.notices, n.serial = x.serial ∧ n.pa = x.pa ∧ n.serial ≠ { x with serial := 1 }.serial := by decide
/-- A verdict of an earlier conversation. -/
theorem witness_staleNotice : let s := { noticed .commit { member with serial := 1 } .none with notices := [⟨1, 0, .commit, 0x20000⟩] }
    Solo s ∧ s.c.levels = [level] ∧ s.savedCohorts = [] ∧ ∃ x ∈ s.c.conv, x.depth = 1 ∧ x.pa = 0x20000 ∧ 0 ≠ x.serial := by decide

/-- The first JOIN; the last vote of two; a vote against; the last DONE. -/
def homing (fields : List Host.Cell) (m : ConvMsg) (noAlt : Bool) : State :=
  { inOne with mem := object fields, convMsgs := [m], convs := [{ pa := 0x20000, members := [(1, 0, 0), (2, 1, 0)], noAlt := noAlt }] }
theorem witness_conversationHome :
    (let s := { inOne with mem := object [], convMsgs := [.join 1 1 0x10000#64 0x20000 1] };
      memWf s.mem = true ∧ s.stashOwners = [] ∧ s.dir = [] ∧ s.parts = [] ∧ s.cohort? 1 = some s.c ∧ 1 ≤ s.c.levels.length ∧ s.c.done = none
        ∧ s.c.failing = none ∧ s.c.conv = none
        ∧ joinFault s 0x20000 (launchNo s.c.launch) = none)
    ∧ (let s := homing [(0x20008, 3#8), (0x2000A, 2#8), (0x2000C, 2#8)] (.vote 1 0x20000 0 true) false;
      memWf s.mem = true ∧ (s.convs.find? (fun x => x.pa == 0x20000)).isSome = true
        ∧ Nat.lor (objectField s 0x20000 10 2) (2 ^ 0) = objectField s 0x20000 8 2 ∧ Nat.lor (objectField s 0x20000 12 2) (2 ^ 0) = 3
        ∧ bitsOf 3 = objectField s 0x20000 4 1)
    ∧ (let s := homing [(0x20008, 3#8)] (.fail 1 0x20000 0) false;
      memWf s.mem = true ∧ objectField s 0x20000 12 2 ≠ Nat.lor (objectField s 0x20000 10 2) (2 ^ 0) ∧ objectField s 0x20000 5 1 = 0)
    ∧ (let s := homing [(0x20005, 1#8), (0x20008, 3#8), (0x2000E, 2#8)] (.done 1 0x20000 0 true) false;
      memWf s.mem = true ∧ Nat.lor (objectField s 0x20000 14 2) (2 ^ 0) = objectField s 0x20000 8 2) := by decide

/-! System registers, traps. -/

/-- The lowest and the highest number in use, one out of use, and a trap register. -/
theorem witness_csrReads :
    (csrRead base 0 = some 0#32 ∧ base.depth = 0 ∧ Ready base {} ∧ landsIn base base.lanes (.v 1) = true) ∧ csrRead base 0x003 = none
    ∧ (csrRead trapped 0x805 = some 0#32 ∧ trapped.w.trapMode = true ∧ Ready trapped {}) ∧ (0x800 ≤ (0x805#12).toNat ∧ base.w.trapMode = false) := by decide
/-- WINBASE at its limit and past it; a read-only register. -/
theorem witness_csrWrites :
    (let s := withS [13#32]; plainSource (.s 0) = true ∧ s.lanes.lowest = some 0 ∧ (csrRead s 0x030).isSome = true
      ∧ (csrWritten s.w 0x030 ((sourceOf s (.s 0)).get 0)).isSome = true ∧ s.depth = 0 ∧ Ready s {})
    ∧ (let s := withS [14#32]; s.lanes.lowest = some 0 ∧ csrWritten s.w 0x030 ((sourceOf s (.s 0)).get 0) = none)
    ∧ csrWritten base.w 0x010 0#32 = none := by decide

theorem witness_faultDelivery :
    (inOne.depth ≠ 0 ∧ inOne.c.conv = none ∧ inOne.c.failing = none) ∧ (trapped.depth = 0 ∧ trapped.w.trapMode = true)
    ∧ (handled.depth = 0 ∧ mayTrap handled) ∧ (base.depth = 0 ∧ base.w.trapMode = false ∧ base.l.handlerPc = 0#32) := by decide
theorem witness_trapEntry :
    mayTrap handled ∧ trapped.w.trapMode = true ∧ (base.w.trapMode = false ∧ base.l.handlerPc = 0#32)
    ∧ (let s := { handled with w := { warp with trapen := 8#4 } }; mayTrap s ∧ s.w.trapen.getLsbD 3 = true)
    ∧ (let s := { handled with sl := { holder := some 2 } }; s.l.handlerPc ≠ 0#32 ∧ s.sl.holder ≠ none ∧ s.sl.holder ≠ some s.w.id) := by decide
theorem witness_trapReturn : base.w.trapMode = false
    ∧ (trapped.w.trapMode = true ∧ trapped.w.aside = some ([], entry) ∧ trapped.sl.holder = some trapped.w.id ∧ trapped.l.travel = false
      ∧ trapped.w.resident = true ∧ trapped.w.cid = trapped.c.id ∧ entry.mask &&& trapped.w.holds ≠ 0#32 ∧ entry.parked = false) := by decide

def claimed : State := { base with l := { launch with claimer := some 32 } }
theorem witness_debugInstructions :
    (Ready base {} ∧ base.w.trapen.getLsbD 3 = false ∧ base.l.claimer = none) ∧ (Ready claimed {} ∧ claimed.w.trapen.getLsbD 3 = false ∧ claimed.l.claimer ≠ none)
    ∧ (plainSource (.s 0) = true ∧ base.w.holds.lowest = some 0)
    ∧ (let s := { withS [31#32] with l := { launch with tbufs := [⟨31, false, false⟩] } };
      Ready s {} ∧ s.depth = 0 ∧ s.lanes ≠ 0#32 ∧ s.w.sregs.getD 0 0#32 = ofN 31 ∧ (∃ b ∈ s.l.tbufs, b.id = 31) ∧ ∀ h ∈ s.held, h.warp ≠ s.w.id) := by decide

/-- base at tick 1000 with its warp stalled. -/
def waiting (w : Warp) : State := { handled with w := w, cyc := 60000 }
theorem witness_timersAndWaits :
    (let s := waiting { warp with timerEn := true, timerCmp := BitVec.ofNat 64 1000 };
      s.warp? 1 = some s.w ∧ s.w.holds ≠ 0#32 ∧ s.w.timerPend = false ∧ s.w.timerCmp.toNat ≤ s.now ∧ s.w.timerOne = false ∧ (s.focus 1).depth = 0)
    ∧ (let s := waiting { warp with timerPend := true, trapen := 1#4 };
      s.w.resident = true ∧ mayTrap s ∧ s.w.trapWait = none ∧ s.w.stopped = false ∧ s.w.frozen = none ∧ s.w.halted = false ∧ s.w.haltReq = false
        ∧ s.w.stall = none ∧ s.w.keep = .none ∧ s.c.done = none ∧ s.c.failing = none ∧ breaksNow s 1 = none)
    ∧ (let s := waiting { warp with trapWait := some ⟨6, 255, 0x104#32, 0x100#32, 0#64, 3#32⟩ }; s.sl.holder = none ∧ s.c.done = none ∧ s.cur ∈ s.w.front ∧ staysHere s s.cur.pc = true)
    ∧ (let s := waiting { warp with stall := some ⟨.wait, .status⟩, keep := .waita 0 0 [], waitlim := 1000#32 };
      s.warp? 1 = some s.w ∧ 0 + 1000 ≤ s.now ∧ 0 + s.w.waitlim.toNat ≤ s.now)
    ∧ (let s := waiting { warp with stall := some ⟨.wait, .status⟩, keep := .sleep 0 1000 }; s.warp? 1 = some s.w ∧ 1000 ≤ s.now)
    ∧ (let s := { waiting { warp with stall := some ⟨.wait, .status⟩, keep := .sleep 0 2000, qbind := (List.replicate 8 none).set 0 (some (.copydone 0)) } with
          clusters := [{ id := 0, chans := [{ words := [(1, 1#32)] }] }] }; wakeWord s = true)
    ∧ (let s := waiting { warp with stall := some ⟨.memory, .noHeld⟩ }; ∀ h ∈ s.held, h.warp ≠ s.w.id)
    ∧ (let s := { waiting { warp with stall := some ⟨.barrier, .bar 1 4⟩ } with c := { cohort with bars := (List.replicate 16 ({} : Bar)).set 1 { phase := 5 } } };
      s.w.resident = true ∧ 4 < (s.bar 1).phase)
    ∧ (let s := waiting { warp with stall := some ⟨.memory, .xlate 0x10000#64 { rd := true } [] 1 0⟩ }; (transl s 0x10000#64 { rd := true }).isSome = true) := by
  decide

/-! Tiles. -/

def aRec : TRec := { fmt := 0, m := 1, k := 1 }
def bRec : TRec := { fmt := 0, n := 1, k := 1 }
def cRec : TRec := { fmt := 7, m := 1, n := 1 }
def aTile : Tile := { phys := 1, launch := 16, cid := 1, kind := .a, record := aRec, store := 1, granules := 1 }
def bTile : Tile := { phys := 2, launch := 16, cid := 1, kind := .b, record := bRec, store := 2, granules := 1 }
def cTile : Tile := { phys := 3, launch := 16, cid := 1, kind := .c, record := cRec, store := 3, granules := 1 }
/-- Names 0 and on are bound to physical tiles 1 and on. -/
def tiling (xs : List Word) (ts : List Tile) : State :=
  { withS xs with w := { (withS xs).w with hmap := (ts.map fun t => some t.phys) ++ List.replicate (32 - ts.length) none }, k := { base.k with tiles := ts } }
/-- The warp's partner: live warp 1 of the cohort. -/
def paired (s : State) : State := { s with warps := [{ warp with id := 2, slot := 1, lidx := 1 }], c := { s.c with warpsN := 2 } }

/-- Records of the three kinds at their least and greatest sizes, and the words of one. -/
theorem witness_goodRecord : goodRecord .a aRec ∧ goodRecord .b bRec ∧ goodRecord .c cRec ∧ goodRecord .a { fmt := 4, m := 128, k := 768 }
    ∧ goodRecord .b { fmt := 3, n := 256, k := 768 } ∧ goodRecord .b { fmt := 5, n := 128, k := 1 } ∧ goodRecord .c { fmt := 7, m := 128, n := 512 }
    ∧ ∀ j < 4, (tiling [0#32, 0x10000#32, 1#32, 0#32] []).w.sregs.getD (0 + j) 0#32 = recordWord aRec j := by
  refine ⟨?_, ?_, ?_, ?_, ?_, ?_, ?_, by decide⟩ <;> simp [goodRecord, aRec, bRec, cRec]
theorem witness_tileNames :
    (let s := tiling [0#32, 0x10000#32, 1#32, 0#32] []; Ready s {} ∧ s.depth = 0 ∧ s.k.seq.length < 32 ∧ s.l.travel = false ∧ handleOf s 31 = none
      ∧ (planeFor s.k .a (granulesOf .a aRec)).isSome = true ∧ handlesUsed s < s.l.handles ∧ s.w.asked = none ∧ tileOf s 31 = none)
    ∧ (let s := { tiling [0#32] [aTile] with l := { launch with handles := 1 } }; s.l.handles ≤ handlesUsed s ∧ handleOf s 31 = none)
    ∧ (let s := paired (tiling [1#32] [aTile]); Ready s {} ∧ s.depth = 0 ∧ handleOf s 0 = some 1 ∧ (tileAt s.k 1).isSome = true ∧ s.k.seq = []
      ∧ pinnedTile s 1 = false ∧ (∀ x ∈ s.k.tiles, x.pend = none) ∧ (∃ v ∈ s.allWarps, v.cid = s.c.id ∧ v.holds ≠ 0#32 ∧ v.lidx = 1) ∧ 1 ≠ s.w.lidx ∧ handUsed s < 32)
    ∧ (let s := tiling [0#32] [aTile]; (s.w.sregs.getD 0 0#32).toNat = s.w.lidx ∧ handleOf s 0 = some 1)
    ∧ (let s := paired (tiling [1#32] []); let s := { s with c := { s.c with hand := [(65536, 5), (65537, 6)] } }
      handleOf s 0 = none ∧ 1 ≠ s.w.lidx ∧ 1 < s.c.warpsN ∧ s.c.hand = [] ++ (65536 * 1 + s.w.lidx, 5) :: [(65537, 6)])
    ∧ (let s := paired (tiling [1#32] []); (∀ x ∈ s.c.hand, x.1 ≠ 65536) ∧ 1 < s.c.warpsN ∧ ∃ v ∈ s.allWarps, v.cid = s.c.id ∧ v.holds ≠ 0#32 ∧ v.lidx = 1)
    ∧ (let s := { paired (tiling [1#32] []) with warps := [] }; 1 < s.c.warpsN ∧ ∀ v ∈ s.allWarps, v.cid = s.c.id → v.holds ≠ 0#32 → v.lidx ≠ 1) := by
  decide

/-- Maps at shared offset 0: one byte of the page's last line, and one of shared memory. -/
def mapping : State := { tiling [0#32] [aTile] with c := { cohort with shared := [(0, 0xFF#8), (1, 0x0F#8), (2, 1#8)] } }
set_option maxRecDepth 20000 in
theorem witness_tileMaps :
    Ready mapping {} ∧ mapping.depth = 0 ∧ mapping.k.seq.length < 32 ∧ tileOf mapping 0 = some aTile ∧ settledTile mapping aTile
      ∧ mapAt mapping (mapping.w.sregs.getD 0 0#32).toNat aTile 0x10FFF 0 0 0
      ∧ (runPages mapping { rd := true } (tileRuns aTile (Ref.mapOf aTile 0x10FFF 0 0 0))).toOption = some [(0x10000, 0x20000)]
      ∧ (∀ r ∈ tileRuns aTile (Ref.mapOf aTile 0x10FFF 0 0 0), canonRange r.1 r.2 = true) :=
  ⟨by decide, by decide, by decide, by decide, by decide, by decide, by decide, by decide⟩
/-- A loop of no steps and of 40, past the 32 names. -/
theorem witness_loops : let s := tiling [40#32] [aTile, bTile, cTile]
    Ready s {} ∧ s.depth = 0 ∧ s.k.seq.length < 32 ∧ tileOf s 2 = some cTile ∧ settledTile s cTile ∧ (tileOf s 0).isSome = true ∧ (tileOf s 1).isSome = true
      ∧ s.w.sregs.getD 0 0#32 = ofN (40 + 2 ^ 16 * 0 + 2 ^ 20 * 0) ∧ s.w.resident = true ∧ s.w.holds ≠ 0#32 ∧ (stepNames 0 1 0 0 40).length = 40 := by decide
theorem witness_stepsFit : stepsFit (tiling [2#32] [aTile, bTile, cTile]) cTile (stepNames 0 1 0 0 2) :=
  ⟨by decide, by decide, by decide, fun t ht => by
    have h : t = (0, 1) := by revert t; decide
    subst h; exact ⟨aTile, bTile, by decide⟩⟩
theorem witness_hadamard : let c48 : Tile := { cTile with phys := 1, record := { fmt := 7, m := 1, n := 48 } }
    (let s := tiling [] [c48, { c48 with phys := 2 }]; let f : HtForm := ⟨0#5, 1#5, 0#2, 0#4, false⟩
      Ready s {} ∧ tileOf s f.hd.toNat = some c48 ∧ (tileOf s f.hs.toNat).isSome = true ∧ 48 % Nat.lcm 48 (16 * 2 ^ f.size.toNat) = 0 ∧ settledTile s c48)
    ∧ (let s := tiling [0x7F#32] [{ aTile with record := { fmt := 0, m := 1, k := 48 } }, { c48 with phys := 2 }];
      quantOk (s.w.sregs.getD 0 0#32) { fmt := 0, m := 1, k := 48 } = true ∧ (tileOf s 0).isSome = true) := by decide

/-- A load of the tile in the sequencer, waiting or running. -/
def loadOp (running : Bool) : TileOp := { id := 1, warp := 1, cid := 1, launch := 16, pc := 0x100#32, names := [0], running := running
                                          work := .load 1 (Ref.mapOf aTile 0x10FFF 0 0 0) 0 0, pages := [(0x10000, 0x20000)] }
def storeOp (running : Bool) : TileOp := { loadOp running with work := .store 1 (Ref.mapOf aTile 0x10FFF 0 0 0) 0 }
def sequenced (o : TileOp) (ts : List Tile) : State := { tiling [] ts with k := { (tiling [] ts).k with seq := [o] } }
theorem witness_tileOrder :
    (Ready (tiling [] [aTile]) {} ∧ (tileOf (tiling [] [aTile]) 0).isSome = true ∧ (tiling [] [aTile]).k.seq = [])
    ∧ (let s := sequenced (loadOp false) [aTile]; Ready s {} ∧ (tileOf s 0).isSome = true
      ∧ ((s.k.seq.filter fun o => o.warp == s.w.id).filter fun o => o.names.contains 0) ≠ [])
    ∧ (let s := sequenced (loadOp false) [aTile]; (s.coreOf 0).seq = [loadOp false] ∧ (loadOp false).work.reads = [])
    ∧ (let s := sequenced (storeOp false) [{ aTile with pend := some (0x80#32, 0) }]; (s.coreOf 0).seq = [storeOp false]
      ∧ ∃ x ∈ (storeOp false).work.reads, ∃ t ∈ s.k.tiles, tileAt (s.coreOf 0) x = some t ∧ t.pend ≠ none)
    ∧ (let s := sequenced (loadOp false) [{ aTile with handle := none }]; (s.coreOf 0).seq = [loadOp false] ∧ (loadOp false).hold = none
      ∧ (loadOp false).work.writes = some 1 ∧ tileAt (s.coreOf 0) 1 = some { aTile with handle := none })
    ∧ (let s := { tiling [] [aTile] with k := { (tiling [] [aTile]).k with seq := List.replicate 32 (loadOp false) } };
      Ready s {} ∧ 32 ≤ s.k.seq.length ∧ (tileOf s 0).isSome = true) := by decide
/-- Rows for name 0 of cohort 0 of launch 16, its first allocation. -/
def rows : Rows := { id := 1, launch := 16, index := 0, name := 0, nth := 1, data := [5#32], scales := [] }
def arriving (ts : List Tile) (at_ : Nat) : State := { base with c := { cohort with index := at_ }, k := { base.k with tiles := ts, arrived := [rows] } }
/-- The rows find their tile; their allocation is still to come; so is their cohort. -/
theorem witness_rows :
    (∀ s ∈ [arriving [{ aTile with gang := some (1, 0, 1) }] 0, arriving [] 0, arriving [] 7], (s.coreOf 0).arrived[0]? = some rows ∧ s.launch? 16 = some s.l
      ∧ s.l.doneIdx.contains 0 = false ∧ s.l.stopAll = false)
    ∧ (let s := arriving [{ aTile with gang := some (1, 0, 1) }] 0; s.allCohorts.find? (fun c => c.launch == 16 && c.index == 0) = some s.c ∧ s.c.done = none
      ∧ (s.coreOf s.c.core).tiles.find? (fun t => t.gang == some (s.c.id, 0, 1)) = some { aTile with gang := some (1, 0, 1) } ∧ aTile.freed = false)
    ∧ (let s := arriving [] 0; s.allCohorts.find? (fun c => c.launch == 16 && c.index == 0) = some s.c
      ∧ (∀ t ∈ (s.coreOf s.c.core).tiles, t.gang ≠ some (s.c.id, 0, 1)) ∧ (allocCount (s.coreOf s.c.core) s.c.id 0).1 < 1)
    ∧ (arriving [] 7).allCohorts.find? (fun c => c.launch == 16 && c.index == 0) = none
    -- an earlier one of the same flow
    ∧ (let s := arriving [{ aTile with gang := some (1, 0, 1) }] 0; let u := { s with k := { s.k with arrived := [rows, rows] } }
      rowsMeet u 0 0 = some (rows, some (u.c, 1)) ∧ u.c.core = 0 ∧ (u.coreOf 0).arrived[1]? = some rows) := by decide

theorem witness_tileRetire :
    (let s := sequenced (loadOp true) [aTile]; ripe s (loadOp true) ∧ tileAt s.k 1 = some aTile ∧ fmtBits aTile.record.fmt = 8 ∧ aTile.record.blk = false
      ∧ aTile.freed = false ∧ quiet s ∧ (loadOp true).farSince = none ∧ routed s (workLines s s.k (loadOp true)) = true)
    ∧ (let t := { aTile with data := some [0xA5#32] }; let s := sequenced (storeOp true) [t]
      ripe s (storeOp true) ∧ tileAt s.k 1 = some t ∧ quiet s ∧ routed s (workLines s s.k (storeOp true)) = true ∧ (∀ x ∈ s.allLaunches, x.check = false) ∧ memWf s.mem = true ∧ tileLines t = 1 ∧ tileLineLen t = 1)
    ∧ (let a := { aTile with data := some [0x38#32] }; let b := { bTile with data := some [0x38#32] }
      let o : TileOp := { loadOp true with work := .mm 3 3 false [(1, 2)] 0 }; let s := sequenced o [a, b, cTile]
      ripe s o ∧ tileAt s.k 3 = some cTile ∧ cTile.freed = false ∧ tileAt s.k 1 = some a ∧ tileAt s.k 2 = some b)
    ∧ (let o : TileOp := { loadOp true with work := .hadt 3 4 16 none }
      let s := sequenced o [cTile, { cTile with phys := 4, record := { fmt := 7, m := 1, n := 48 }, data := some (List.replicate 48 0#32) }]
      ripe s o ∧ tileAt s.k 3 = some cTile ∧ (tileAt s.k 4).isSome = true) := by decide

/-! Engines and launches. -/

/-- Non-zero bytes from an address on. -/
def cells (a : Nat) (bs : List Byte) : List Host.Cell := bs.zipIdx.filterMap fun x => if x.1 = 0#8 then none else some (a + x.2, x.1)
/-- Context 1 of partition 0 maps its first GiB to the first GiB of memory, which partition 0 owns. -/
def space : Ctx := { num := 1, part := 0, root := 0x1000 }
def owner : Part := { id := 0, clusters := [0], granules := [0] }
def tables : List Host.Cell := [(0x1000, 1#8), (0x1001, 0x20#8), (0x2000, 1#8), (0x2001, 0x30#8), (0x3000, 0x27#8)]
def paged (more : List Host.Cell) : State := { base with mem := tables ++ more, ctxs := [space], parts := [owner] }
/-- The page of the address is in the TLB; a page that only the tables name. -/
theorem witness_prefetch : let f : PrefForm := ⟨.s 0, true, 0#3, false, 0#2⟩
    (atPage.depth = 0 ∧ Ready atPage {} ∧ addressForm f.wa f.a = true ∧ transl atPage 0x10000#64 { rd := true } ≠ none ∧ transl atPage 0x1007F#64 { rd := true } ≠ none
      ∧ ∀ l ∈ (atPage.active {} f.g).lanes, address atPage f.wa f.sb f.a l = 0x10000#64)
    ∧ (let s := { paged [] with w := { warp with sregs := 0x30000#32 :: List.replicate 15 0#32 } }
      s.depth = 0 ∧ Ready s {} ∧ (∃ l ∈ (s.active {} f.g).lanes, address s f.wa f.sb f.a l = 0x30000#64) ∧ canonVa 0x30000#64 = true
        ∧ transl s 0x30000#64 { rd := true } = none ∧ (match walkOwned s s.l 0x30000#64 { rd := true } with | .page _ => true | _ => false) = true) := by decide +kernel
theorem placed (s : State) (l : Launch) (va : DWord) (acc : Access) (n pa : Nat)
    (h : ∀ i < n, (enginePa s l (va + BitVec.ofNat 64 i) acc).toOption = some (pa + i) ∧ routed s [(pa + i) / 128] = true) :
    placedAt s l va acc n (pa + ·) := by
  refine ⟨fun i hi => ⟨?_, (h i hi).2⟩, fun i _ j _ h => Nat.add_left_cancel h⟩
  have := (h i hi).1
  cases e : enginePa s l (va + BitVec.ofNat 64 i) acc with
  | error x => simp [e, Except.toOption] at this
  | ok x => simp only [e, Except.toOption, Option.some.injEq] at this; rw [this]

/-- A FILL of three bytes, and one with a destination that is not aligned. -/
def fillLine (dst : DWord) (esz : Nat) : CopyLine := ⟨2, esz, false, false, 5, 7, 0xA5#64, dst, 0#64, 3⟩
def fillCmd (stage : CopyStage) (record : DWord) : CopyCmd := { (fillLine 0x20000#64 0).cmd 1 1 1 16 with stage := stage, record := record, promise := 1 }
def filling (m : List CopyCmd) (parts : List (Nat × List Word)) : State := { paged [] with clusters := [{ id := 0, chans := [{ cmds := m, parts := parts }] }] }
theorem witness_copyIssue : ∀ x ∈ [fillLine 0x20000#64 0, fillLine 0x20001#64 1], let s := filling [] [(1, x.words)]
    s.warp? 1 = some s.w ∧ s.cohort? s.w.cid = some s.c ∧ 0 < (s.cluster 0).chans.length ∧ (channel s 0 0).parts = [(1, x.words)] ∧ x.fits
      ∧ (x.detail = 0 ↔ x.esz = 0) := by
  intro x hx
  fin_cases hx <;> decide
theorem witness_copyRecord : let m := fillCmd .accepted 0x20020#64; let s := filling [m] []
    (channel s 0 0).cmds = [m] ∧ s.launch? m.launch = some s.l ∧ m.final = none ∧ m.dstSh = false ∧ savedCohort s m.cid = false ∧ m.stage = .accepted
      ∧ (channel s 0 0).words.length < 64 ∧ m.openFault = none ∧ m.lost = false ∧ m.record ≠ 0#64 ∧ (enginePa s s.l m.record { wr := true }).toOption = some 0x20020
      ∧ copyRouted s s.l m ∧ quiet s ∧ memWf s.mem = true := by decide +kernel
theorem witness_copyFill : let m := fillCmd .running 0#64; let s := filling [m] []
    ((channel s 0 0).cmds = [m] ∧ s.launch? m.launch = some s.l ∧ m.final = none ∧ m.dstSh = false ∧ savedCohort s m.cid = false ∧ m.stage = .running
      ∧ (channel s 0 0).words.length < 64 ∧ m.openFault = none ∧ m.lost = false ∧ m.acq = false ∧ m.fill = true ∧ m.dims = [] ∧ 0 < m.esz ∧ m.record = 0#64
      ∧ (m.rel && m.scope == 5) = false ∧ s.l.check = false ∧ copyRouted s s.l m ∧ quiet s ∧ memWf s.mem = true)
    ∧ placedAt s s.l m.dst { wr := true } (m.count0 * m.esz) (0x20000 + ·) := ⟨by decide +kernel, placed _ _ _ _ _ _ (by decide +kernel)⟩
theorem witness_copyExpiry : let m : CopyCmd := { fillCmd .running 0#64 with openFault := some (4, 1) }; let s := { filling [m] [] with cyc := 1000 }
    (channel s 0 0).cmds = [m] ∧ s.launch? m.launch = some s.l ∧ m.stage = .running ∧ m.openFault = some (4, 1) ∧ m.promise ≠ 0 ∧ m.promise ≤ s.now ∧ m.dstSh = false
      ∧ m.final = none ∧ savedCohort s m.cid = false ∧ (channel s 0 0).words.length < 64 ∧ m.record = 0#64 := by decide

/-- The Thresher with one command, and set 15 with two destinations. -/
def thr (words : List Word) : ThrCmd := { id := 1, warp := 1, launch := 16, words := words }
def binSet : BinSet := { launch := 16, set := 15, ndest := 2, addr := 0x20000#64, counts := [3, 4] }
def threshing (t : Thresher) (more : List Host.Cell) : State := { paged more with dies := [{ id := 0, thr := t }] }
theorem witness_thresherCommands :
    (∀ ws ∈ [[0x1F001000#32, 0x20000#32, 0#32], [0x2F000000#32, 0x20000#32, 0#32, 2#32], [0x3FFF0001#32, 0xF1#32, 0x1FFFFF#32, 9#32], [0x4F000000#32], [0xFF000000#32]],
      let s := threshing { cmds := [thr ws], sets := if ws.length = 3 then [] else [binSet] } []
      (s.die 0).thr.cmds = [thr ws] ∧ (thr ws).warp = 1 ∧ (thr ws).openFault = none ∧ (thr ws).lost = false ∧ (thr ws).farSince = none ∧ s.launch? 16 = some s.l
        ∧ ((s.die 0).thr.sets = [binSet] ∨ ws = [0x1F001000#32, 0x20000#32, 0#32] ∧ (s.die 0).thr.sets = [])
        ∧ ((s.die 0).thr.results.filter fun r => r.1 == 16).length < 32 ∧ quiet s ∧ memWf s.mem = true ∧ s.l.check = false)
    ∧ 0x1F001000#32 = ofN (2 ^ 28 * 1 + 2 ^ 24 * 15 + 4096) ∧ 0x2F000000#32 = ofN (2 ^ 28 * 2 + 2 ^ 24 * 15 + 0) ∧ 0x4F000000#32 = ofN (2 ^ 28 * 4 + 2 ^ 24 * 15 + 0)
    ∧ 0x3FFF0001#32 = ofN (2 ^ 28 * 3 + 2 ^ 24 * 15 + (2 ^ 16 * 255 + 1)) ∧ 0xF1#32 = ofN (16 * 15 + 1) ∧ 0x1FFFFF#32 = ofN (2 ^ 16 * 31 + 65535)
    ∧ 0xFF000000#32 = ofN (2 ^ 28 * 15 + 2 ^ 24 * 15) ∧ 1 < binSet.ndest
    ∧ binSet.counts.length = binSet.ndest ∧ binSet.binds = [] ∧ binSet.bad = false
    ∧ (∀ ws ∈ [[0x1FFFFFFF#32, 0#32, 0#32], [0x2F000000#32, 0#32, 0#32, 0#32], [0x3F000000#32, 0#32, 0#32, 0#32], [0x4F000000#32], [0xFF000000#32]],
      let s := threshing { parts := [(1, ws)] } []; (s.die 0).thr.parts = [(1, ws)] ∧ ws.length = thrLen (ws.headD 0#32) ∧ s.warp? 1 = some s.w
        ∧ s.cohort? s.w.cid = some s.c ∧ (s.die 0).thr.cmds = [])
    ∧ 0x1FFFFFFF#32 = ofN (2 ^ 28 * 1 + 2 ^ 24 * 15 + (2 ^ 24 - 1)) := by
  decide +kernel
theorem witness_thresherPlaces : let s := threshing { cmds := [thr [0x2F000000#32, 0x20000#32, 0#32, 2#32]], sets := [binSet] } [(0x20000, 1#8), (0x20002, 2#8)]
    placedAt s s.l (0#32 ++ 0x20000#32) { rd := true } (2 * 2) (0x20000 + ·) ∧ placedAt s s.l binSet.addr { wr := true } (4 * 2) (0x20000 + ·)
      ∧ destId s (0x20000 + ·) 0 = 1 ∧ destId s (0x20000 + ·) 1 = 2 ∧ walksOk s s.l (0#32 ++ 0x20000#32) (2 * 2) ∧ walksOk s s.l binSet.addr (4 * 2) := by
  exact ⟨placed _ _ _ _ _ _ (by decide +kernel), placed _ _ _ _ _ _ (by decide +kernel), by decide, by decide, by decide +kernel, by decide +kernel⟩

/-- A message of 28 words, and one of 29; the spawn of its handler. -/
def message (n : Nat) (arrived : Bool) : AmMsg := { launch := 16, sender := 5, target := 0#64, handler := 0x200#32, count := ofN n, payload := List.replicate 28 1#32, arrived := arrived }
def messaged (m : AmMsg) : State := { base with l := { launch with f1 := 1 }, k := { base.k with am := [m] } }
theorem witness_activeMessages :
    (let s := messaged (message 28 false); (s.coreOf 0).am[0]? = some (message 28 false) ∧ s.launch? 16 = some s.l
      ∧ ¬ ((message 28 false).handler.toNat % 4 ≠ 0 ∨ 28 < (message 28 false).count.toNat ∨ (message 28 false).target.toNat ∈ s.l.doneIdx)
      -- one that comes behind another
      ∧ (let u := { s with k := { s.k with am := [message 28 false, message 29 false] } }; (u.coreOf 0).am[1]? = some (message 29 false)
        ∧ ∃ x ∈ (u.coreOf 0).am.take 1, amFlow u x (message 29 false) = true ∧ x.arrived = false))
    ∧ (28 < (message 29 false).count.toNat ∧ ((messaged (message 29 false)).coreOf 0).am[0]? = some (message 29 false))
    ∧ (∃ x, spawnReady (messaged (message 28 true)) 1 = some x ∧ (messaged (message 28 true)).cohort? 1 = some (messaged (message 28 true)).c
      ∧ (messaged (message 28 true)).launch? 16 = some (messaged (message 28 true)).l) :=
  ⟨by decide, by decide, _, rfl, by decide, by decide⟩

/-- Launch queue 0 of interface 0, with 16 slots at 0x20000 and its tail at 0x20080. -/
def lq (head last : Nat) : LQueue := { base := 0x20000#64, cfg := 0x100000104#64, tailAt := 0x20080#64, head := head, lastTail := last }
def lqOff : LQueue := { base := 0x20000#64, cfg := 0x4#64, tailAt := 0x20080#64 }
def viOf (x : LQueue) : VIface := { id := 0, part := some 0, owner := true, lqs := [x] }
def submitting (x : LQueue) (more : List Host.Cell) : State := { paged more with vis := [viOf x] }
theorem witness_launchQueues :
    (∀ s ∈ [submitting (lq 0 0) [], submitting lqOff []], (∃ v p x, s.vi? 0 = some v ∧ v.part = some p.id ∧ s.part? p.id = some p ∧ v.lqs[0]? = some x)
      ∧ s.stashOwners = [] ∧ s.dir = [] ∧ noDebug s)
    ∧ (lq 0 0).enabled = true ∧ (lq 0 0).stopped = false ∧ lqOff.enabled = false
    ∧ (let s := submitting (lq 0 0) [(0x20080, 16#8)]; deviceMemory s 0 0x20080 = true ∧ leNat (memGets s.mem (localPa s 0x20080) 8) = 16)
    ∧ (let s := submitting (lq 0 0) [(0x20080, 17#8)]; leNat (memGets s.mem (localPa s 0x20080) 8) = 17)
    ∧ (let s := submitting (lq 0 1) [(0x20000, 1#8), (0x20080, 1#8)]; queueMemory s 0 0x20000 = true ∧ leNat (memGets s.mem (localPa s 0x20000) 8) % 128 ≠ 0
      ∧ leNat (memGets s.mem (localPa s 0x20080) 8) = 1)
    ∧ ((0x100000104#64 : DWord).getLsbD 8 = true ∧ (0x100000104#64 : DWord).toNat / 2 ^ 32 = 1 ∧ (∃ c ∈ (submitting lqOff []).ctxs, c.num = 1 ∧ c.part = 0 ∧ c.releasing = false ∧ c.killed = false)
      ∧ lqOff.base.toNat % 4096 = 0 ∧ lqOff.tailAt.toNat % 128 = 0 ∧ queueMemory (submitting lqOff []) 0 0x20000 = true) :=
  ⟨fun s h => by fin_cases h <;> exact ⟨⟨_, owner, _, rfl, rfl, by decide, rfl⟩, rfl, rfl, by decide⟩, by decide, by decide, by decide, by decide, by decide, by decide, by decide⟩
/-- A header at 0x20100, a code object with one kernel at 0x20200, a launch record at 0x20180. -/
def header : List Byte := leBytes 4 0x4A374C48 ++ leBytes 2 1 ++ leBytes 2 0x10 ++ leBytes 8 0x20200 ++ leBytes 4 0 ++ leBytes 2 0 ++ leBytes 2 1 ++ leBytes 8 1
  ++ List.replicate 0x38 0#8 ++ leBytes 8 0x20180 ++ List.replicate 0x20 0#8
def codeObject : List Byte := leBytes 4 0x4A374B43 ++ leBytes 4 1 ++ leBytes 4 64 ++ leBytes 4 64 ++ leBytes 8 0 ++ leBytes 4 128 ++ leBytes 4 1 ++ List.replicate 32 0#8
  ++ List.replicate 64 0#8 ++ leBytes 4 64 ++ leBytes 4 0 ++ leBytes 4 8 ++ List.replicate 20 0#8
def headed : State := submitting (lq 0 1) ((0x20001, 1#8) :: (0x20002, 2#8) :: (0x20080, 1#8) :: cells 0x20100 header ++ cells 0x20200 codeObject)

/-- What the entry names passes every check. -/
theorem witness_launchAccepted :
    let taken := mapLq headed 0 0 fun y => { y with head := y.head + 1 }
    headed.vi? 0 = some (viOf (lq 0 1)) ∧ leNat (memGets headed.mem (localPa headed 0x20000) 8) = 0x20100
      ∧ readVa taken (asCtx 0 1) (BitVec.ofNat 64 0x20100) 128 = some header
      ∧ ((checkHeader taken header owner 0 1).toOption.any fun l => !l.travel && !l.promiseF) = true
      ∧ (writeRecord taken (asCtx 0 1) (BitVec.ofNat 64 (fieldLe header 0x58 8)) 1 0 0 1).isSome = true := by decide +kernel

theorem witness_dispatches : let l : Launch := { launch with ncoh := 1, quota := 8 }; let s : State := { launches := [l], parts := [owner], ctxs := [space] }
    s.w.resident = false ∧ s.warps = [] ∧ s.cohorts = [] ∧ s.slots = [] ∧ s.cores = [] ∧ owner.clusters.contains 0 = true ∧ owner.reserve = [] ∧ l.part = owner.id
      ∧ (∀ c ∈ s.ctxs, c.killed = false ∧ c.releasing = false) ∧ l.stopAll = false ∧ l.promiseF = false ∧ l.travel = false ∧ l.f3 = 0 ∧ l.f4 = 0 ∧ l.cqCnt = 0
      ∧ l.tbufs = [] ∧ l.warps = 1 ∧ l.next < l.ncoh ∧ l.quota ≤ 256 ∧ l.shared ≤ 262144 ∧ l.handles ≤ 120 ∧ l.vi < 64 ∧ l.next * 2 ^ (5 + l.f1) < 2 ^ 64 := by decide

/-- A cohort without threads, with a join counter of 2 at 0x20000. -/
def ended : State := { paged [(0x20000, 2#8)] with w := { warp with holds := 0#32, front := [] }, c := { cohort with exitJ := true, record := { join := 0x20000#64 } } }
theorem witness_cohortCompletion : ended.cohort? 1 = some ended.c ∧ noDebug ended ∧ ended.dir = [] ∧ ended.stashOwners = [] ∧ ended.launch? 16 = some ended.l ∧ ended.l.travel = false ∧ cohortDone ended 1 = true
    ∧ ended.c.done = none ∧ ended.c.stash = [] ∧ ended.l.check = false ∧ memWf ended.mem = true ∧ joinPa ended ended.l ended.c.record.join = some 0x20000
    ∧ leNat (memGets ended.mem 0x20000 4) = 2 := by decide +kernel
/-- A launch without cohorts: a parent that waits for room in a queue of 16 with 15 entries, a promise that is near, an end, a second run. -/
def lone (l : Launch) (more : List Host.Cell) : State := { mem := tables ++ more, ctxs := [space], parts := [owner], launches := [l] }
def queueOwner : Launch := { launch with cqCnt := 1, cqLog := 4, cqBase := 0x20000#64, parents := [(0, List.replicate 32 0#8)] }
theorem witness_launchLife :
    (let s := lone queueOwner [(0x20008, 15#8)]; s.launch? 16 = some queueOwner
      ∧ (queueOwner.parents.find? fun t => decide (queueCount s queueOwner t.1 8 - queueCount s queueOwner t.1 0 < 2 ^ queueOwner.cqLog)) = some (0, List.replicate 32 0#8))
    ∧ (let l := { launch with promiseF := true, promise := 4000 }; (lone l []).launch? 16 = some l ∧ l.stopAll = false ∧ (lone l []).clusters = []
      ∧ l.promise ≤ (lone l []).now + 4000 ∧ ∀ c ∈ (lone l []).allCohorts, c.launch ≠ 16)
    ∧ (launchOver (lone launch []) launch = true ∧ restarts launch = false)
    ∧ (let l := { launch with check := true, checkLog := [(0x20000#64, 0x20000, List.replicate 128 1#8)] };
      (lone l []).launch? 16 = some l ∧ launchOver (lone l []) l = true ∧ restarts l = true ∧ l.det = false ∧ memWf (lone l []).mem = true)
    ∧ (let s := { base with l := { launch with promiseF := true } }; Solo s ∧ s.c.launch = s.l.num ∧ s.c.budgetEnd ≤ s.now ∧ s.c.levels = [] ∧ s.c.conv = none
      ∧ s.c.hand = [] ∧ s.clusters = []) := by decide +kernel

/-- Launch 32 of priority 3 wants a whole core; a cohort of launch 16 stands on each core of the only cluster. -/
def wanting (since : Option Nat) : Launch := { num := 32, ctx := 2, prio := 3, ncoh := 1, shared := 262144, quota := 8, waitSince := since }
def crowded (l : Launch) (n : Nat) : State :=
  { launches := [launch, l], ctxs := [space, { space with num := 2 }], parts := [owner], cyc := 180000
    cohorts := (List.range n).map fun i => { cohort with id := i + 1, core := i, sharedSize := 262144 } }
theorem witness_preemptTrigger : ∀ since ∈ [none, some 1, some 0],
    let l := wanting since; let s := crowded l 8
    s.launch? 32 = some l ∧ l.stopAll = false ∧ l.promiseF = false ∧ hasReady s l = true ∧ (∀ cl ∈ owner.clusters, (offer s l cl).isNone = true) ∧ s.part? l.part = some owner
      ∧ s.now = 100000 ∧ victimOf s l = some (1, 0) ∧ s.ctx? 1 = some space ∧ (let s := crowded (wanting (some 1)) 7; (offer s (wanting (some 1)) 0).isSome = true) := by decide +kernel
def ousted : State := { base with ctxs := [{ space with preempt := [0] }], parts := [owner] }
/-- What core 0 held of the context. -/
def saving : Saved := { core := 0, warps := [warp], slots := [{}], cohorts := [{ cohort with levels := [level] }], tiles := [], seq := [], mseqParts := [], sheaf := [], arrived := []
                        allocs := [], pts := 0, nextOp := 0, at_ := 0 }
theorem witness_preemption : ousted.ctx? 1 = some { space with preempt := [0] } ∧ space.killed = false ∧ (∀ k ∈ [0], quiesced ousted 1 k = true)
    ∧ unitCohorts ousted 1 0 = [ousted.c] ∧ ∃ w ∈ ousted.allWarps, w.cid = ousted.c.id ∧ w.holds ≠ 0#32 := by decide
/-- A launch with segments at 0x100 and 0x200, pinned on cores 0 and 1. -/
def travelling : Launch := { launch with travel := true, segs := [{ start := 0x100, len := 0x100, cores := [0] }, { start := 0x200, len := 0x100, cores := [1] }] }
/-- One unit of a launch that stays, and one of a travelling launch. -/
def returning (v : Saved) (l : Launch) : State := { parts := [{ owner with clusters := [0, 1] }], ctxs := [{ space with saved := [v] }], launches := [l] }
theorem witness_contextResume :
    (∃ c at_ d, resumeDue (returning saving launch) 1 0 = some (c, saving, at_, d) ∧ c.replies = [] ∧ (∀ t ∈ at_, t.1.short = []) ∧ saving.pin = none)
    ∧ ∃ c v at_ d, resumeDue (returning { saving with pin := some (16, 0) } travelling) 1 0 = some (c, v, at_, d) ∧ c.replies = [] ∧ (∀ t ∈ at_, t.1.short = [])
      ∧ v.pin = some (16, 0) ∧ (returning { saving with pin := some (16, 0) } travelling).launch? 16 = some travelling :=
  ⟨⟨_, _, _, rfl, rfl, by decide, rfl⟩, _, _, _, _, rfl, rfl, by decide, rfl, rfl⟩
/-- A warp of the travelling launch on core 0, its lanes with cargoes in the outbound buffer. -/
def parting (cs : List Cargo) : State :=
  { base with l := travelling, k := { base.k with pin := some (16, 0), outb := cs }, parts := [{ owner with clusters := [0, 1] }], ctxs := [space]
              w := { warp with regs := [(3, splat 5#32)] } }
/-- The cargo of lane 1 for 0x200. -/
def cargo (placed sent : Bool) : Cargo := { cargoFor (parting []) { pc := 0x200#32, mask := 2#32 } 1 false with placed := placed, sent := sent }
theorem witness_departures :
    (let s := parting []; let f : BForm := ⟨0#3, false, 1#2, 64#19⟩
      s.l.travel = true ∧ s.w.trapMode = false ∧ s.w.front = [s.cur] ∧ s.cur.mask ≠ 0#32 ∧ takenLanes s f = s.cur.mask
        ∧ staysHere s (s.wordPc {} + 4#32 * f.disp.signExtend 32) = false ∧ targetOf s (s.wordPc {} + 4#32 * f.disp.signExtend 32) (s.w.wid.getD 0 0#64) = some 1
        ∧ s.depth = 0 ∧ s.boundCount ≤ 128 ∧ unsettled s = false ∧ outUsed s < 64 ∧ ∀ c ∈ s.k.outb, c.warp ≠ s.w.id)
    ∧ (let s := parting [cargo false false]; s.w.resident = true ∧ departs s = some (cargo false false) ∧ s.w.holds &&& ~~~ (cargo false false).lanes ≠ 0#32
      ∧ ∃ x ∈ s.w.front, x.parked = false ∧ x.mask &&& ~~~ (cargo false false).lanes ≠ 0#32) := by decide
theorem witness_travels : ∀ b ∈ [false, true], let s := parting [cargo true b]; (s.coreOf 0).outb[0]? = some (cargo true b) ∧ (cargo true b).placed = true
    ∧ (cargo true b).sent = b ∧ (∀ l, s.launch? (cargo true b).launch = some l → preempted s l.ctx 0 = false)
    ∧ (b = false → ((entriesOf s (cargo true b).target).filter fun x => !x.reserved).length < 56)
    ∧ (∀ x ∈ (s.coreOf 0).outb, x.placed = true → x.sent = false → x.target = (cargo true b).target → (cargo true b).seq ≤ x.seq)
    ∧ ∀ x ∈ (s.coreOf 0).outb, x.target = (cargo true b).target → (cargo true b).seq ≤ x.seq := by
  intro b _
  cases b <;> exact ⟨by decide, by decide, by decide, fun l h => by cases h; decide, by decide, by decide, by decide⟩
def landing : State := { parting [] with cores := [{ id := 1, pin := some (16, 1), moor := [cargo true true], moorFullSince := some 0 }], cyc := 600000 }
theorem witness_landing : (∃ x, landReady landing 1 = some x)
    ∧ (landing.coreOf 1).moorFullSince = some 0 ∧ 0 + 10000 ≤ landing.now ∧ (landing.coreOf 1).pin = some (16, 1) ∧ landing.launch? 16 = some travelling
      ∧ landing.part? 0 = some { owner with clusters := [0, 1] } ∧ idleCore landing { owner with clusters := [0, 1] } = some 2
      ∧ travelling.segs[1]? = some { start := 0x200, len := 0x100, cores := [1] } := ⟨⟨_, rfl⟩, by decide⟩

/-! The memory system. -/

/-- A region of line 0x400 in a state and with a holder. -/
def region (st : DirSt) (vec : List Nat) : Region := { base := 0x20000, size := 128, st := st, vec := vec, touch := 0 }
theorem witness_directory :
    (base.stashOwners = [] ∧ base.dirWait = [] ∧ base.hostWait = [] ∧ base.dir = [] ∧ base.probes = [] ∧ heldGranule { base with parts := [owner] } (128 * 0x400) = true)
    ∧ (∀ st ∈ [DirSt.s, DirSt.e], let s := { base with dir := [region st [1]] };
      s.probes = [] ∧ (region st [1]).recalled = false ∧ (region st [1]).base = 128 * 0x400 ∧ (region st [1]).vec = [1] ∧ 1 ≠ 2 ∧ 1 ≠ 64 ∧ memWf s.mem = true
        ∧ (List.replicate 128 3#8).length = 128)
    ∧ (let s := { base with dir := [region .e [1]], probes := [{ agent := 1, line := 0x400, inval := true }], notes := [(1, 0x400, 9)], dirWait := [⟨7, 2, 0x400, true⟩] };
      (1, 0x400, 9) ∈ s.notes ∧ (1, 0x400, 8) ∉ s.notes ∧ s.bias = [] ∧ s.dirWait.length = 1)
    ∧ (let a := { region .s [1] with size := 32768 }; let b := { a with base := 0x28000 }
      a.base % (2 * 32768) = 0 ∧ b.base = a.base + 32768 ∧ 2 * 32768 ≤ 65536 ∧ a.st = b.st ∧ a.vec = b.vec ∧ max a.touch b.touch + 100000 ≤ { base with cyc := 6000000 }.now
        ∧ base.bias = [])
    ∧ biasOf { base with bias := [(0x20, .host)] } (0x400 / 32) ≠ .dev := by
  decide +kernel

theorem witness_hostAccess :
    (let s := { base with parts := [owner] }; 0x20000 + [1#8, 2#8].length ≤ 0x9000000000 ∧ heldGranule s 0x20000 = true ∧ heldGranule s 0x20001 = true
      ∧ s.dir = [] ∧ s.held = [] ∧ s.hostWait = [] ∧ engineQueues s = [] ∧ noDebug s ∧ s.stashOwners = [] ∧ s.bias = [] ∧ memWf s.mem = true ∧ s.claims = []
      ∧ heldGranule s 0x40000000 = false)
    ∧ (let s := { base with claims := [⟨0x400, 16, 1, none⟩] }; ∃ x ∈ s.claims, 0x20000 / 128 = x.line)
    ∧ 0x8000000020000 + [1#8, 2#8].length ≤ 0x10000000000000 ∧ base.devWrote = [] ∧ base.probes = [] ∧ base.dirWait = []
    ∧ (assoc (0x20000 / 4096) base.bias = none ∧ assoc (0x20000 / 4096) { base with bias := [(0x20, .host)] }.bias = some .host)
    ∧ (let s := submitting lqOff []; s.vi? 0 = some (viOf lqOff) ∧ (viOf lqOff).part = some 0 ∧ ownedPage s 0 (4096 * 0x20) = true ∧ s.dir = [] ∧ flipping s 0x20 = false
      ∧ s.biasWait = [] ∧ (s.bias.map (·.1)).Nodup)
    ∧ (∀ n ∈ [3000000, 0], let s := { submitting lqOff [] with bias := [(0x20, .toDev 0 [0x400] 0)], cyc := n };
      s.vi? 0 = some (viOf lqOff) ∧ 0x400 / 32 = 0x20 ∧ assoc 0x20 s.bias = some (.toDev 0 [0x400] 0) ∧ (0 + 50000 ≤ s.now ↔ n ≠ 0) ∧ s.probes = [] ∧ s.dir = []
        ∧ (s.bias.map (·.1)).Nodup)
    ∧ ((submitting lqOff []).stashOwners = [] ∧ 0x8000000000000 ≤ 128 * 0x100000000000 ∧ 0x1000000000000 ≤ 128 * 0x20000000000 ∧ 128 * 0x20000000000 < 0x8000000000000) := by decide

/-- Five tables for address 0x10000, and a page at 0x20000. -/
def fiveTables (last : List Host.Cell) : State :=
  { base with mem := [(0x1000, 1#8), (0x1001, 0x20#8), (0x2000, 1#8), (0x2001, 0x30#8), (0x3000, 1#8), (0x3001, 0x40#8), (0x4000, 1#8), (0x4001, 0x50#8)] ++ last
              ctxs := [space], parts := [owner] }
/-- A warp that waits for a page, mapped and not mapped. -/
def missing (last : List Host.Cell) (source : Nat) : State :=
  { fiveTables last with w := { warp with stall := some ⟨.memory, .xlate 0x10000#64 { rd := true } [(0, 0x10000#64)] 4 source⟩ }, k := { base.k with tlb := [] } }
theorem witness_pageWalks :
    (let s := fiveTables [(0x5080, 0x27#8), (0x5082, 2#8)]; s.ctx? 1 = some space ∧ s.stashOwners = [] ∧ noDebug s ∧ tablePlace space.root ∧ tablePlace 0x2000 ∧ tablePlace 0x5000
      ∧ pteAt s 0x1000 (0x10000 / 2 ^ 48 % 512) (tableEntry 0x2000) ∧ pteAt s 0x2000 (0x10000 / 2 ^ 39 % 512) (tableEntry 0x3000)
      ∧ pteAt s 0x3000 (0x10000 / 2 ^ 30 % 512) (tableEntry 0x4000) ∧ pteAt s 0x4000 (0x10000 / 2 ^ 21 % 512) (tableEntry 0x5000)
      ∧ pteAt s 0x5000 (0x10000 / 2 ^ 12 % 512) (pageEntry 0x20000 0 true true false))
    ∧ pteAt (fiveTables []) 0x5000 (0x10000 / 2 ^ 12 % 512) (2 * 0)
    ∧ (let s := missing [(0x5080, 0x27#8), (0x5082, 2#8)] 0; s.w.resident = true ∧ s.w.holds ≠ 0#32 ∧ s.w.frozen = none ∧ transl s 0x10000#64 { rd := true } = none
      ∧ walkOwned s s.l 0x10000#64 { rd := true } = .page { rwPage with xd := false } ∧ s.k.tlb.length < 256 ∧ s.dir = []
      ∧ walkFar s (walkVas s 0x10000#64 { rd := true } [(0, 0x10000#64)] 4) = none)
    ∧ (∀ source ∈ [prefSource, 0], let s := missing [] source; walkOwned s s.l 0x10000#64 { rd := true } = .bad 1 ∧ transl s 0x10000#64 { rd := true } = none
      ∧ s.w.frozen = none ∧ s.dir = [] ∧ walkFar s (walkVas s 0x10000#64 { rd := true } [(0, 0x10000#64)] 4) = none)
    -- a page of a stretch that the partition does not hold
    ∧ (let s := missing [(0x5080, 0x27#8), (0x5083, 0x40#8)] 0; walkOwned s s.l 0x10000#64 { rd := true } = .bad 7 ∧ s.ctx? s.l.ctx = some space
      ∧ transl s 0x10000#64 { rd := true } = none ∧ walkFar s (walkVas s 0x10000#64 { rd := true } [(0, 0x10000#64)] 4) = none) := by decide +kernel

def serving (fs : List OpenFault) : State := { submitting lqOff [] with l := { launch with handlerPc := 0x200#32 }, faults := fs }
def openFault (part : Nat) : OpenFault := ⟨4, part, 1, 16, 1, .warp 1⟩
theorem witness_faultReplies :
    (let s := serving [openFault 1]; ownsPart s 0 (viOf lqOff) owner ∧ (openFault 1).token = 4 ∧ s.faults = [openFault 1] ∧ (openFault 1).part ≠ owner.id)
    ∧ (let s := { serving [openFault 0] with w := { warp with frozen := some (.xlate 4 2 0x10000#64 3#32 { rd := true }) } };
      ownsPart s 0 (viOf lqOff) owner ∧ (openFault 0).part = owner.id ∧ savedWarp s 1 = none ∧ s.warp? 1 = some s.w ∧ s.w.resident = true ∧ (openFault 0).kind ≤ 3
        ∧ faultSaved s (openFault 0) = false ∧ s.depth = 0 ∧ mayTrap s ∧ s.ctx? 1 = some space)
    ∧ (let c := { space with saved := [saving] }; let s := { serving [openFault 0] with w := {}, ctxs := [c] };
      ownsPart s 0 (viOf lqOff) owner ∧ faultSaved s (openFault 0) = true ∧ s.ctx? 1 = some c) := by decide

theorem witness_machineChecks :
    (Alone base ∧ base.l.failing = none)
    ∧ (∀ n ∈ [180000, 179999], let s := { base with w := { warp with stall := some ⟨.memory, .route 5⟩ }, fabric := { lost := [(1, 5, 0)] }, cyc := n };
      Alone s ∧ s.fabric.routes.getD 5 0 = 0 ∧ (0 + 100000 ≤ s.now ↔ n = 180000))
    ∧ (let s := sequenced (loadOp true) [aTile]; Alone s ∧ s.l.failing = none ∧ seqOp s 0 1 = some (loadOp true) ∧ (loadOp true).warp = s.w.id)
    ∧ (((threshing { cmds := [thr [0x4F000000#32]] } []).die 0).thr.cmds[0]? = some (thr [0x4F000000#32]))
    ∧ ((paged []).w.resident = true ∧ (paged []).w.holds ≠ 0#32 ∧ (paged []).ctx? (paged []).l.ctx = some space)
    ∧ (let s := { paged [] with ctxs := [{ space with killed := true }] }; s.ctx? 1 = some { space with killed := true } ∧ Solo s ∧ s.l.ctx = 1 ∧ s.c.launch = s.l.num
      ∧ (∀ x ∈ s.cohorts, x.launch ≠ s.l.num) ∧ s.launches = [] ∧ s.c.hand = [] ∧ s.clusters = []) :=
  ⟨by decide, fun n h => by fin_cases h <;> decide, by decide, by decide, by decide, by decide⟩
def invalidating (x : Xinv) (o : List TileOp) : State := { submitting lqOff [] with xinv := [x], k := { base.k with seq := o } }
/-- One page at 0x10000 of context 1. -/
def onePage : Xinv := ⟨0, 0, 1, 0x10000, 1⟩
theorem witness_invalidations :
    ownsPart (submitting lqOff []) 0 (viOf lqOff) owner
    ∧ (let v := { viOf lqOff with owner := false }; { submitting lqOff [] with vis := [v] }.vi? 0 = some v ∧ v.owner = false)
    ∧ (∀ o ∈ [[], [loadOp true]], let s := invalidating onePage o; s.xinv.find? (fun y => y.part == 0) = some onePage ∧ s.vi? onePage.vi = some (viOf lqOff)
      ∧ (viOf lqOff).xinvStat.toNat / 2 < 2 ^ 63 - 1 ∧ ∀ x ∈ s.xinv, x.part ≠ 1)
    ∧ ((∃ k ∈ base.allCores, k.id = 0) ∧ base.cyc < (base.coreOf 0).ptsAt + 64 ∧ (base.coreOf 0).ptsAt + 64 ≤ { base with cyc := 64 }.cyc) := by decide
theorem witness_rangeFree : ¬ rangeInUse (invalidating onePage []) onePage := by
  simp [rangeInUse, invalidating, submitting, paged, base, space, State.allCores]
theorem witness_rangeInMessage : let s := { invalidating onePage [] with convMsgs := [.join 1 1 0x10FC0#64 0x20FC0 1] }; rangeInUse s onePage :=
  .inr (.inr (.inr ⟨_, List.mem_singleton.2 rfl, ⟨cohort, rfl, launch, rfl, rfl⟩, _, rfl, .inr (by decide)⟩))
theorem witness_rangeInUse : rangeInUse (invalidating onePage [loadOp true]) onePage :=
  .inl ⟨loadOp true, by decide, ⟨launch, by decide, rfl⟩, (0x10000, 0x20000), by decide, .inr ⟨by decide, by decide⟩⟩

/-- A fault queue of 16 records at 0x21000, full; and three granules for one context. -/
def fqVi : VIface := { viOf lqOff with fqBase := 0x21000#64, fqCfg := 0x104#64, fqTail := 16#64 }
theorem witness_interfaceRegisters :
    (let s := { paged [] with vis := [fqVi] }; s.vi? 0 = some fqVi ∧ 0 ≠ 64 ∧ ownsPart s 0 fqVi owner ∧ s.fqWait = [])
    ∧ (let v := { fqVi with owner := false }; { paged [] with vis := [v] }.vi? 0 = some v)
    ∧ (let s := { paged [] with vis := [fqVi], fqWait := [(0, List.replicate 64 1#8)] }; s.fqWait = [(owner.id, List.replicate 64 1#8)] ∧ s.vis = [fqVi]
      ∧ fqVi.fqCfg.getLsbD 8 = true ∧ fqPlaced s 0 fqVi = true ∧ memWf s.mem = true ∧ (fqVi.fqTail - 1#64).toNat < 2 ^ (fqVi.fqCfg.toNat % 32))
    ∧ (let p := { owner with granules := [0, 1, 2] }; ((({ paged [] with ctxs := [] } : State).ctxs.filter fun c => c.part == p.id).length + 1) * 2496 ≤ 1024 * p.granules.length
      ∧ 1024 * owner.granules.length < (((paged []).ctxs.filter fun c => c.part == owner.id).length + 1) * 2496)
    ∧ (let v := { fqVi with ctxStat := 0x100000000#64 }; space.num = v.ctxStat.toNat / 2 ^ 32 ∧ space.part = owner.id ∧ space.releasing = false ∧ space.killed = false)
    ∧ (∀ bias ∈ [[], [(0x20, Bias.host)]], let s := { paged [] with l := { launch with ctx := 2 }, ctxs := [{ space with releasing := true }], bias := bias };
      (∀ l ∈ s.allLaunches, l.ctx ≠ 1) ∧ space.killed = false ∧ partBias s 0 = bias ∧ ownedPage s 0 (4096 * 0x20) = true) := by decide

theorem witness_partitionsAndFabric :
    (({} : State).part? 15 = none ∧ (({} : State).parts.map (·.l2ways)).sum < 16)
    ∧ ((paged []).parts = [owner] ∧ (∃ c ∈ (paged []).ctxs, c.part = 0))
    ∧ (let s := { paged [] with ctxs := [], w := {} }; (∀ c ∈ s.ctxs, c.part ≠ 0) ∧ memWf s.mem = true ∧ (∀ l ∈ s.allLaunches, l.part ≠ 0) ∧ (∀ c ∈ s.allCohorts, c.resident = false)
      ∧ biasedIn s owner owner.granules = [] ∧ biasedIn { s with bias := [(0x20, .host)] } owner owner.granules ≠ [])
    ∧ ((0, 5, 2) ∈ { (paged []) with fabric := { blocked := [(0, 5, 2)] } }.fabric.blocked ∧ (0, 5, 2) ∉ (paged []).fabric.blocked)
    ∧ ([47, 0].Nodup ∧ ∀ c ∈ [47, 0], c < 48)
    ∧ (∃ c ∈ (paged []).allCohorts, c.resident = true ∧ clusterOf c.core ∈ owner.clusters)
    ∧ (∃ r : Rect, rectClusters r ≠ [] ∧ ∀ c ∈ rectClusters r, c ∈ owner.clusters) :=
  ⟨by decide, by decide, by decide, by decide, by decide, by decide, ⟨0, 0, 0, 0, 0⟩, by decide, by decide⟩

/-! Debugging. -/

/-- A command for launch 16 in port 15 of partition 0, written by launch 32. -/
def port (n : Nat) (code index flags : Nat) : Port := { plaunch := 1#64, pwid := BitVec.ofNat 64 n, cmds := [(32, portWord code index flags)] }
def debugging (q : Port) (claimer : Option Nat) (halted : Bool) : State :=
  { base with l := { launch with claimer := claimer }, w := { warp with halted := halted }, windows := [{ part := 0, ports := List.replicate 15 {} ++ [q] }] }
theorem witness_debugPorts :
    (∀ q ∈ [port 0 0 0 0, port 0 1 0 3, port 0 2 0 0, port 0 3 0 0, port 0 4 0 0, port 0 5 0 0, port 0 6 0 0, port 0 7 0 0, port 0 8 15 0, port 0 9 15 0, port 99 3 0 0],
      ∀ cl ∈ [none, some 32, some 48], ∀ h ∈ [false, true], let s := debugging q cl h; ∃ x, portHas s 15 q 32 x [] ∧ s.launch? (16 * q.plaunch.toNat + 15 / 16) = some s.l
        ∧ s.l.claimer = cl ∧ (q.pwid = 0#64 → portWarp s (15 / 16) q = some s.w ∧ s.warp? s.w.id = some s.w) ∧ (q.pwid = 99#64 → portWarp s (15 / 16) q = none ∧ savedHolder s 16 q.pwid = none))
    ∧ ((portWord 0 0 0).toNat % 256 = 0 ∧ 16 ≠ 32 ∧ ((port 0 8 15 0).bps.getD 15 {}).pc.toNat % 4 = 0)
    ∧ (let q := { port 99 3 0 0 with plaunch := 7#64 }; (debugging q none false).launch? (16 * q.plaunch.toNat + 15 / 16) = none)
    ∧ (let q := { port 0 8 0 0 with bps := [{ pc := 2#32 }] }; (q.bps.getD 0 {}).pc.toNat % 4 ≠ 0)
    ∧ (let s := { debugging (port 99 3 0 0) (some 32) false with ctxs := [{ space with saved := [{ saving with warps := [{ warp with wid := [99#64], holds := 1#32 }] }] }], w := { warp with cid := 9 } };
      portWarp s 0 (port 99 3 0 0) = none ∧ (savedHolder s 16 99#64).isSome = true) := by
  refine ⟨fun q hq cl hcl h hh => ?_, by decide +kernel⟩
  fin_cases hq <;> fin_cases hcl <;> fin_cases hh <;> exact ⟨_, ⟨by decide, rfl, rfl⟩, by decide⟩

/-- A halted warp under port 0, with name 3 bound, one tile and a quota of one. -/
def viewing (halted : Bool) : State :=
  { tiling [] [{ aTile with data := some [1#32] }] with w := { (tiling [] [aTile]).w with halted := halted, regs := [(3, zeros)], quota := 1 }
                                                        windows := [{ part := 0, ports := [{ plaunch := 1#64 }] }] }
theorem witness_debugViews :
    (let s := { base with w := { warp with haltReq := true } }; s.w.resident = true ∧ s.w.holds ≠ 0#32 ∧ s.w.halted = false ∧ unsettled s = false ∧ s.l.claimer = none)
    ∧ (let b : BPoint := { pc := 0x100#32, armed := true, mask := 31#64, val := 1#64 }; let q : Port := { plaunch := 1#64, bps := [b] }
      let s := { claimed with windows := [{ part := 0, ports := [q] }] }
      holdsSlot s.w = true ∧ s.w.stall = none ∧ s.w.haltReq = false ∧ s.w.bpSkip = none ∧ s.w.cid = s.c.id ∧ s.c.launch = s.l.num ∧ s.l.claimer ≠ none
        ∧ topEntry s.l (s.w.front.filter fun e => !e.parked && atHome s.l s.w (s.coreOf s.w.core).pin e.pc) = some entry ∧ q.plaunch.toNat = s.l.num / 16 ∧ (entry.mask &&& s.w.holds).has 1 = true
        ∧ s.w.wid.getD 1 0#64 &&& b.mask = b.val)
    ∧ (let s := viewing true; viewed s 0 ∧ boundReg s 3 = some zeros ∧ inBand s 3 = false ∧ (zeros : VReg).length = 32 ∧ boundReg s 511 = none ∧ quotaFull s 511 = true
      ∧ 4092 + 4 ≤ s.c.sharedSize ∧ memWf s.c.shared = true ∧ s.w.core = s.k.id ∧ tileOf s (s.port 0 0).phandle = some { aTile with data := some [1#32] })
    ∧ (let s := viewing false; portWarp s 0 (s.port 0 0) = some s.w ∧ s.w.halted = false ∧ 0 < (s.window 0).ports.length)
    ∧ sampleDue base 0 = false
    ∧ (let s := { base with l := { launch with sample := true, claimer := some 32 }, windows := [{ part := 0, speriod := 10#64 }], parts := [owner], cyc := 1024 }; sampleAt s 0 = some 1024 ∧ sampleWarps s 0 = [((0, 0, 16), s.w.id)])
    ∧ (base.now < (base.cluster 0).govAt + 10000 ∧ (let s := { base with clusters := [{ id := 0, gov := 7, droop := true }], cyc := 18000 };
      (s.cluster 0).govAt + 10000 ≤ s.now ∧ (s.cluster 0).gov ≤ 7)) := by decide

/-! Lantern. -/

def logRec (n : Nat) : LogRec := ⟨n, List.replicate 64 0#8⟩
theorem witness_lanternMailbox :
    (mailOpen base 64 ∧ 65 % 64 ≠ 0 ∧ base.lan.recovery = false ∧ (List.replicate 32 0#8).length = 32 ∧ base.lan.meas.length = 8 ∧ (∀ m ∈ base.lan.meas, m.length = 32)
      ∧ base.lan.chain.length = 32 ∧ base.lan.spent < 2 ^ 40 ∧ base.lan.leafLow < 2 ^ 20 ∧ base.lan.leaf = none
      ∧ 2 ^ 40 ≤ { base.lan with leafTop := 2 ^ 20 }.spent ∧ { base.lan with leaf := some 0 }.leaf.isSome = true
      ∧ (∀ r ∈ base.lan.log, r.seq ≠ 0) ∧ base.lan.checkpoints = [])
    ∧ (let s := { base with lan := { base.lan with log := [logRec 0, logRec 1] } }; mailOpen s 64 ∧ (∀ r ∈ s.lan.log, r.bytes.length = 64)
      ∧ s.lan.log.filter (fun r => decide (1 ≤ r.seq)) = logRec 1 :: [] ∧ s.lan.life.bytes.length < 2 ^ 50) := by decide +kernel
def loggingQueue (n : Nat) : State := { base with lan := { base.lan with queue := List.replicate n (0x40, 0, List.replicate 12 0#8) } }
theorem witness_lanternLog :
    ((loggingQueue 255).lan.queue.length < 256 ∧ 256 ≤ (loggingQueue 256).lan.queue.length)
    ∧ (let s := loggingQueue 1; s.lan.queue = (0x40, 0, List.replicate 12 0#8) :: [] ∧ s.lan.waiting = [] ∧ s.lan.log.length < 16384 ∧ s.lan.checkDue = false)
    ∧ (let s := { base with lan := { base.lan with checkDue := true } }; s.lan.checkDue = true ∧ s.lan.spent < 2 ^ 40 ∧ s.lan.leafLow < 2 ^ 20)
    ∧ (base.now < base.lan.foldAt ∧ base.lan.foldNow = false ∧ { base.lan with foldNow := true }.foldNow = true
      ∧ { base.lan with foldAt := 0 }.foldAt ≤ base.now) := by decide +kernel
/-- A signature is accepted or not; each answer has its clause. -/
theorem witness_lanternLife :
    (∀ image, acceptsImage base.lan image = true ∨ acceptsImage base.lan image = false)
    ∧ ({ base.lan with recovery := true }.recovery = true ∧ base.lan.recovery = false ∧ base.lan.fuseMin < 64)
    ∧ (base.lan.tripped = false ∧ { base.lan with tripped := true }.tripped = true ∧ killsOver {} = true ∧ killsOver base = false) :=
  ⟨fun image => by cases acceptsImage base.lan image <;> simp, by decide, by decide⟩

/-- The image in slot A is not accepted, or is; a fuse that is to rise. -/
theorem witness_boot : let image : Image := ⟨[], 0, ⟨[], []⟩⟩
    acceptsImage base.lan image = false ∧ (BootImages.mk true [] image image image image []).fusesOk = true
      ∧ (BootImages.mk false [] image image image image []).fusesOk = false ∧ base.lan.fuseMin < 64 ∧ 64 ≤ 64 := by decide +kernel

/-! One step each; the expected values are those of the rules named. -/

/-- 14 R373: in the area of warp slot 9, the second name of fibre 0 stands as REGS index 1; a launch's shared memory follows the slots. -/
theorem test_save_area : let w : Warp := { warp with quarter := 1, slot := 1, regs := [(7, splat 0x11#32), (3, splat 0x22#32)] }
    let v : Saved := { saving with warps := [w], cohorts := [{ cohort with shared := [(5, 0x33#8)] }] }
    saveByte base v (9 * 0x28000 + 128) = 0x22#8 ∧ saveByte base v (0x500000 + 5) = 0x33#8 := by decide +kernel

/-- Lane 0 of v2 after an instruction on uniform registers. -/
def after (i : Instr) (xs : List Word) : Option Word := match exec i (withS xs) with
  | .next t => (boundReg t 2).map (·.get 0)
  | _ => none
def rr : RForm := ⟨.v 2, .s 0, .s 1, false, false, 0#2⟩
/-- 04 R90: sums wrap. -/
theorem test_iadd_wraps : after (.iadd {} rr) [0xFFFFFFFF#32, 2#32] = some 1#32 := by decide +kernel
/-- 04 R91: the count is the whole word. -/
theorem test_shl_by_32 : after (.shl {} rr) [1#32, 32#32] = some 0#32 := by decide +kernel
theorem test_sar_by_2_31 : after (.sar {} rr) [0x80000000#32, 0x80000000#32] = some 0xFFFFFFFF#32 := by decide +kernel
/-- 04 R90: the high half of a signed product. -/
theorem test_imulhs : after (.imulhs {} rr) [0xFFFFFFFF#32, 2#32] = some 0xFFFFFFFF#32 := by decide +kernel
/-- 05 R125: 1.5 + 2.25 is 3.75. -/
theorem test_fadd : after (.fadd {} rr) [0x3FC00000#32, 0x40100000#32] = some 0x40700000#32 := by decide +kernel
/-- 05 R141, 02 R50: 2^31 is above the signed range. -/
theorem test_f2i_saturates : after (.f2i {} ⟨.v 2, .s 0, false, 0#2⟩) [0x4F000000#32] = some 0x7FFFFFFF#32 := by decide +kernel
/-- 06 R159: where two lanes store one byte, the higher lane's value stays. -/
theorem test_stg_last_lane : (match exec (.stg {} ⟨.lid, .zero, false, 0#3, 4#3, false, false, 0#2⟩) atPage with
    | .next t => leNat (memGets t.mem 0x20000 4) | _ => 99) = 1 := by decide +kernel
/-- 04 R105: the lanes of a taken branch go to PC + 4 d. -/
theorem test_bra : (match exec (.bra {} ⟨0#3, false, 1#2, 3#19⟩) base with | .next t => t.w.front.map (·.pc) | _ => []) = [0x10C#32] := by decide +kernel
/-- The arithmetic leaves memory and the other names as they were. -/
theorem test_iadd_frame : (match exec (.iadd {} rr) (withS [1#32]) with | .next t => decide (t.mem = [] ∧ t.w.regs.map (·.1) = [2]) | _ => false) = true := by
  decide +kernel

/-! More words, one of each remaining group of encodings. -/

theorem test_word_rcp : decodeGroup [0x84041000#32] = .ok (.rcp {} ⟨.v 1, .v 2, false, 0#2⟩) := rfl
theorem test_word_f2i : decodeGroup [0x96142000#32] = .ok (.f2i {} ⟨.v 5, .v 4, false, 0#2⟩) := rfl
theorem test_word_mov64 : decodeGroup [0x300820D8#32] = .ok (.mov64 {} ⟨.v 2, .v 4, true, 0#2⟩) := rfl
theorem test_word_shfl : decodeGroup [0x9C041034#32] = .ok (.shfl {} ⟨.v 1, .v 2, .v 3, false, true, 0#2⟩) := rfl
theorem test_word_qnt : decodeGroup [0x98041031#32] = .ok (.qnt {} ⟨.v 1, .v 2, .v 3, false, false, 1#2⟩) := rfl
theorem test_word_vote : decodeGroup [0x4E4178F0#32] = .ok (.vote {} 1#3 (.v 2)) := rfl
theorem test_word_qstat : decodeGroup [0xC207C050#32] = .ok (.qstat {} (.v 1) 5#3 0#2) := rfl
theorem test_word_stmap : decodeGroup [0xC593C011#32] = .ok (.stmapUnmap {} ⟨.s 4, 1#2⟩) := rfl
theorem test_word_waita : decodeGroup [0xBC043030#32] = .ok (.waita {} ⟨.v 1, .v 6, .v 3, false, false, 0#2⟩) := rfl

/-- LaneWords: VOTE and BALLOT to v1 in the base state, where p1 is 0 in every lane: VOTE's word is 4, BALLOT's 0. -/
theorem witness_laneWords : ∃ u v u' v', writable (.v 1) = .ok () ∧
    (let bits := base.lanes.lanes.map fun l => (base.w.preds.getD 1 0#32).has l
     writeD base (.v 1) base.lanes (splat (ofN ((bits.any id).toNat + 2 * (bits.all id).toNat + 4 * (bits.all id || !bits.any id).toNat))) = .ok u) ∧
    advance {} u = .ok v ∧
    writeD base (.v 1) base.lanes (splat (maskOf fun l => base.lanes.has l && (base.w.preds.getD 1 0#32).has l)) = .ok u' ∧ advance {} u' = .ok v' :=
  ⟨_, _, _, _, rfl, rfl, rfl, rfl, rfl⟩
theorem test_vote : (match exec (.vote {} 1#3 (.v 1)) base with | .next t => (boundReg t 1).map (·.get 1) | _ => none) = some 4#32 := by decide +kernel

end Sys2Proof.Tests
end

/-! PROOFS. Compares, SEL, PLOG, VOTE, BALLOT and PMOV (04 R97 to R103, 05 R132 R133): the bits of masks, what is left of `Ready` by
an update of the registers, and one law for each instruction. -/

namespace Sys2Proof.Predicates

open Sys2Proof.Machine Sys2Proof.Ref Sys2Proof.Laws

/-! Masks by their bits. -/

/-- The fold that makes a mask holds the bits of the lanes that it has passed. -/
theorem getLsbD_foldl_range (f : Nat → Bool) (n l : Nat) (hn : n ≤ 32) :
    ((List.range n).foldl (fun (m : Mask) i => if f i then m ||| (1#32 <<< i) else m) 0#32).getLsbD l = (decide (l < n) && f l) := by
  induction n with
  | zero => simp
  | succ n ih =>
    have hbit : (1#32 <<< n).getLsbD l = decide (n = l) := by
      rw [← BitVec.twoPow_eq, BitVec.getLsbD_twoPow, decide_eq_true (show n < 32 by omega), Bool.true_and]
    have hlt : decide (l < n + 1) = (decide (l < n) || decide (n = l)) := by rw [← Bool.decide_or, decide_eq_decide]; omega
    rw [List.range_succ, List.foldl_append, List.foldl_cons, List.foldl_nil, hlt]
    by_cases hl : n = l
    · subst hl; cases hf : f n <;> simp [ih (by omega), hbit]
    · cases hf : f n <;> simp [ih (by omega), hbit, hl]

@[simp] theorem has_maskOf (f : Nat → Bool) (l : Nat) : (maskOf f).has l = (decide (l < 32) && f l) :=
  getLsbD_foldl_range f 32 l (Nat.le_refl _)

@[simp] theorem has_zero (l : Nat) : Mask.has 0#32 l = false := BitVec.getLsbD_zero
@[simp] theorem has_and (a b : Mask) (l : Nat) : Mask.has (a &&& b) l = (a.has l && b.has l) := BitVec.getLsbD_and
@[simp] theorem has_or (a b : Mask) (l : Nat) : Mask.has (a ||| b) l = (a.has l || b.has l) := BitVec.getLsbD_or
@[simp] theorem has_not (a : Mask) (l : Nat) : Mask.has (~~~ a) l = (decide (l < 32) && !a.has l) := BitVec.getLsbD_not

theorem lt_of_has {m : Mask} {l : Nat} (h : m.has l = true) : l < 32 := BitVec.lt_of_getLsbD h

theorem mask_ext {a b : Mask} (h : ∀ l, l < 32 → a.has l = b.has l) : a = b := BitVec.eq_of_getLsbD_eq h

@[simp] theorem mem_lanes {m : Mask} {l : Nat} : l ∈ m.lanes ↔ m.has l = true := by
  simpa [Mask.lanes] using lt_of_has

/-- Some bit of q is 1 in the lanes of m. -/
theorem any_lanes (q m : Mask) : (m.lanes.map q.has).any id = (q &&& m != 0#32) := by
  have hall : ¬ (m.lanes.map q.has).any id = true ↔ ∀ l, m.has l = true → q.has l = false := by simp
  rw [Bool.eq_iff_iff, bne_iff_ne, ← not_iff_not, not_ne_iff, hall]
  constructor
  · intro h
    refine mask_ext fun l _ => ?_
    have := h l
    cases hm : m.has l <;> simp_all
  · intro h l hm
    simpa [hm] using congrArg (Mask.has · l) h

/-- Every bit of q is 1 in the lanes of m. -/
theorem all_lanes (q m : Mask) : (m.lanes.map q.has).all id = (q &&& m == m) := by
  have hall : (m.lanes.map q.has).all id = true ↔ ∀ l, m.has l = true → q.has l = true := by simp
  rw [Bool.eq_iff_iff, beq_iff_eq, hall]
  constructor
  · intro h
    refine mask_ext fun l _ => ?_
    have := h l
    cases hm : m.has l <;> simp_all
  · intro h l hm
    simpa [hm] using congrArg (Mask.has · l) h

/-- A write in the lanes of a mask, lane by lane. -/
theorem merge_maskOf (old m : Mask) (f : Nat → Bool) :
    (old &&& ~~~ m) ||| (maskOf f &&& m) = maskOf fun l => if m.has l then f l else old.has l := by
  refine mask_ext fun l hl => ?_
  simp only [has_or, has_and, has_not, has_maskOf, hl, decide_true, Bool.true_and]
  split <;> simp_all

/-! Updates of the registers of the warp in focus leave it ready. -/

/-- `Ready` depends on the launch, the core, the frontier and the trap mode alone. -/
theorem ready_congr {s t : State} {p : Px} (hl : t.l = s.l) (hk : t.k = s.k) (hf : t.w.front = s.w.front)
    (hm : t.w.trapMode = s.w.trapMode) (h : Ready s p) : Ready t p := by
  have hstay : staysHere t = staysHere s := by funext pc; simp [staysHere, atHome, hl, hk, hm]
  have hcur : t.cur = s.cur := by simp only [State.cur, hl, hf, hstay]
  have hpc : t.nextPc p = s.nextPc p := by simp only [State.nextPc, State.wordPc, hcur]
  simpa only [Ready, hcur, hpc, hf, hstay] using h

theorem ready_unbindReg {s : State} {p : Px} (a : Nat) (h : Ready s p) : Ready (unbindReg s a) p := by
  apply ready_congr _ _ _ _ h <;> simp

theorem ready_killed {s : State} {p : Px} (xs : List (Opnd × Bool)) (h : Ready s p) : Ready (killed s xs) p := by
  induction xs generalizing s with
  | nil => exact h
  | cons x xs ih =>
    obtain ⟨o, b⟩ := x
    simp only [killed, List.foldl_cons] at ih ⊢
    cases o with
    | v n =>
      simp only
      split
      · exact ih (ready_unbindReg _ h)
      · exact ih h
    | _ => exact ih h

theorem ready_predicated {s : State} {p : Px} (i : Nat) (m : Mask) (f : Nat → Bool) (h : Ready s p) :
    Ready (predicated s i m f) p := by
  unfold predicated
  split
  · exact h
  · exact ready_congr rfl rfl rfl rfl h

theorem ready_flagged {s : State} {p : Px} (fl : Flags) (h : Ready s p) : Ready (flagged s fl) p :=
  ready_congr rfl rfl rfl rfl h

theorem ready_landed {s : State} {p : Px} (m : Mask) (v : VReg) (o : Opnd) (h : Ready s p) : Ready (landed s m v o) p := by
  cases o with
  | v n =>
    simp only [landed]
    split
    · exact h
    · split
      · exact ready_congr rfl rfl rfl rfl h
      · apply ready_congr _ _ _ _ h <;> simp
  | s n =>
    simp only [landed]
    split
    · exact ready_congr rfl rfl rfl rfl h
    · exact h
  | lnk =>
    simp only [landed]
    split
    · exact h
    · exact ready_congr rfl rfl rfl rfl h
  | _ => exact h

/-! Shared operations, outside recovery levels. -/

@[simp] theorem depth_predicated (s : State) (i : Nat) (m : Mask) (f : Nat → Bool) : (predicated s i m f).depth = s.depth := by
  unfold predicated; split <;> rfl

theorem killed_append (s : State) (xs ys : List (Opnd × Bool)) : killed (killed s xs) ys = killed s (xs ++ ys) :=
  List.foldl_append.symm

theorem writeP_outside (s : State) (i : Nat) (m : Mask) (f : Nat → Bool) (h : s.depth = 0) :
    writeP s i m (maskOf f) = .ok (predicated s i m f) := by
  unfold writeP predicated
  split
  · rfl
  · simp only [logEntry_outside _ _ h, merge_maskOf, bind, Except.bind]; rfl

@[simp] theorem noFlags_or (fl : Flags) : noFlags ||| fl = fl := BitVec.zero_or

@[simp] theorem flagged_noFlags (s : State) : flagged s noFlags = s := by simp [flagged, noFlags]

@[simp] theorem laneFlags_noFlags (m : Mask) : laneFlags m (fun _ => noFlags) = noFlags := by
  unfold laneFlags
  induction m.lanes with
  | nil => rfl
  | cons l ls ih => simp [noFlags]

theorem raiseFlags_outside (s : State) (fl : Flags) (h : s.depth = 0) : raiseFlags s fl = .ok (flagged s fl) := by
  unfold raiseFlags
  split
  · next hfl => rw [hfl, flagged_noFlags]
  · simp only [logEntry_outside _ _ h, bind, Except.bind]; rfl

theorem writable_of_landsIn {s : State} {m : Mask} {o : Opnd} (h : landsIn s m o = true) : writable o = .ok () := by
  cases o <;> simp_all [landsIn, writable]

/-- A meaning that has come to a ready state goes on to the next word. -/
theorem runNext_ok {s t : State} {p : Px} (h : Ready t p) : runNext p s (.ok t) = done p t := by
  change run p s (advance p t) = _
  rw [advance_plain t p h]; rfl

/-- A meaning whose state can go on ends in that state. -/
theorem runNext_of_advance {s u v : State} {p : Px} (h : advance p u = .ok v) : runNext p s (.ok u) = .next (finish v) := by
  change run p s (advance p u) = _
  rw [h]; rfl

theorem runNext_writeD_plain {s : State} {p : Px} {d : Opnd} {m : Mask} (v : VReg) (hd : s.depth = 0) (hr : Ready s p)
    (hl : landsIn s m d = true) : runNext p s (writeD s d m v) = done p (landed s m v d) := by
  rw [writeD_plain _ _ _ _ hd hl, runNext_ok (ready_landed _ _ _ hr)]

theorem runNext_writeP_outside {s : State} {p : Px} (i : Nat) (m : Mask) (f : Nat → Bool) (hd : s.depth = 0) (hr : Ready s p) :
    runNext p s (writeP s i m (maskOf f)) = done p (predicated s i m f) := by
  rw [writeP_outside _ _ _ _ hd, runNext_ok (ready_predicated _ _ _ hr)]

/-! Compares (04 R97, 05 R132 R133). -/

/-- The conditions of 03 R66 by the order of two numbers. -/
theorem intCond_eq_holds (cc : BitVec 4) (x y : Int) : intCond cc (decide (x < y)) (x == y) = holds cc x y := by
  unfold intCond holds
  generalize cc.toNat = n
  match n with
  | 0 => rfl
  | 1 => rfl
  | 2 => rfl
  | 3 =>
    change (decide (x < y) || x == y) = decide (x ≤ y)
    rw [Bool.eq_iff_iff, Bool.or_eq_true, beq_iff_eq, decide_eq_true_iff, decide_eq_true_iff, Int.le_iff_lt_or_eq]
  | 4 =>
    change (!(decide (x < y) || x == y)) = decide (y < x)
    rw [Bool.eq_iff_iff, Bool.not_eq_true', Bool.or_eq_false_iff, beq_eq_false_iff_ne, decide_eq_false_iff_not, decide_eq_true_iff]
    omega
  | _ + 5 =>
    change (!decide (x < y)) = decide (y ≤ x)
    rw [← decide_not, decide_eq_decide, Int.not_lt]

theorem signed_eq_holds (cc : BitVec 4) (a b : Word) : intCond cc (a.slt b) (a == b) = holds cc a.toInt b.toInt := by
  rw [← intCond_eq_holds, Bool.beq_eq_decide_eq a b, Bool.beq_eq_decide_eq a.toInt b.toInt]
  simp only [BitVec.toInt_inj]; rfl

theorem unsigned_eq_holds (cc : BitVec 4) (a b : Word) : intCond cc (a.ult b) (a == b) = holds cc a.toNat b.toNat := by
  rw [← intCond_eq_holds, Bool.beq_eq_decide_eq a b, Bool.beq_eq_decide_eq (a.toNat : Int)]
  simp only [Int.ofNat_inj, Int.ofNat_lt, BitVec.toNat_inj]; rfl

theorem halfOf_low (x : Word) : halfOf x 0 = x.toNat % 65536 := by simp [halfOf]
theorem halfOf_high (x : Word) : halfOf x 1 = x.toNat / 65536 := by have := x.isLt; simp [halfOf]; omega

section
variable {s : State} {p : Px} {f : CForm} (hd : s.depth = 0) (hr : Ready s p) (ha : plainSource f.a = true)
  (hb : plainSource f.b = true)
include hd hr ha hb

theorem cmpInt_plain (lt : Word → Word → Bool) : cmpInt p f lt s =
    done p (predicated (killed s [(f.a, f.ka), (f.b, f.kb)]) f.pd.toNat (s.active p f.g) fun l =>
      intCond f.cc (lt ((slotValue s p 0 f.a).get l) ((slotValue s p 1 f.b).get l))
        ((slotValue s p 0 f.a).get l == (slotValue s p 1 f.b).get l)) := by
  rw [← runNext_ok (ready_predicated _ _ _ (ready_killed _ hr)) (s := s)]
  simp only [cmpInt, readable_plain _ ha, readable_plain _ hb, readA_plain _ _ _ ha, readB_plain _ _ _ hb, kill_plain, hd,
    depth_killed, killed_append, writeP_outside, bind, Except.bind]
  rfl

theorem execFcmp_plain :
    let r := fun l => fCmp f32 (fenv s p).flush32 f.cc ((slotValue s p 0 f.a).get l).toNat ((slotValue s p 1 f.b).get l).toNat
    execFcmp p f s = done p (flagged (predicated (killed s [(f.a, f.ka), (f.b, f.kb)]) f.pd.toNat (s.active p f.g) fun l => (r l).1)
      (laneFlags (s.active p f.g) fun l => (r l).2)) := by
  intro r
  rw [← runNext_ok (ready_flagged _ (ready_predicated _ _ _ (ready_killed _ hr))) (s := s)]
  simp only [execFcmp, readable_plain _ ha, readable_plain _ hb, readA_plain _ _ _ ha, readB_plain _ _ _ hb, kill_plain, hd,
    depth_killed, killed_append, writeP_outside, depth_predicated, raiseFlags_outside, bind, Except.bind]
  rfl

theorem cmpHalves_plain (fmt : Fmt) (he : f.pd.toNat % 2 = 0) :
    let lo := fun l => fCmp fmt (fenv s p).flush16 f.cc (((slotValue s p 0 f.a).get l).toNat % 65536)
      (((slotValue s p 1 f.b).get l).toNat % 65536)
    let hi := fun l => fCmp fmt (fenv s p).flush16 f.cc (((slotValue s p 0 f.a).get l).toNat / 65536)
      (((slotValue s p 1 f.b).get l).toNat / 65536)
    cmpHalves p f fmt s = done p (flagged (predicated (predicated (killed s [(f.a, f.ka), (f.b, f.kb)])
        f.pd.toNat (s.active p f.g) fun l => (lo l).1) (f.pd.toNat + 1) (s.active p f.g) fun l => (hi l).1)
      (laneFlags (s.active p f.g) fun l => (lo l).2 ||| (hi l).2)) := by
  intro lo hi
  rw [← runNext_ok (ready_flagged _ (ready_predicated _ _ _ (ready_predicated _ _ _ (ready_killed _ hr)))) (s := s)]
  simp only [cmpHalves, readable_plain _ ha, readable_plain _ hb, readA_plain _ _ _ ha, readB_plain _ _ _ hb, kill_plain, hd,
    depth_killed, killed_append, writeP_outside, depth_predicated, raiseFlags_outside, halfOf_low, halfOf_high, need, he,
    beq_self_eq_true, if_true, bind, Except.bind]
  rfl

end

/-- Both sources of a compare are plain. -/
theorem plain_pair {x y : Opnd × Bool} (h : ∀ z ∈ [x, y], plainSource z.1 = true) :
    plainSource x.1 = true ∧ plainSource y.1 = true := ⟨h x (by simp), h y (by simp)⟩

/-- 04 R97, 05 R132 R133. -/
theorem compareResult : Parts.CompareResult := by
  intro s i o ho hd hr hok hplain
  unfold compareOp at ho
  split at ho <;> cases ho <;> obtain ⟨ha, hb⟩ := plain_pair hplain
  case h_1 p f =>
    refine (cmpInt_plain hd hr ha hb BitVec.slt).trans ?_
    simp only [signed_eq_holds]
    simp [CompareOp.bits]
  case h_2 p f =>
    refine (cmpInt_plain hd hr ha hb BitVec.ult).trans ?_
    simp only [unsigned_eq_holds]
    simp [CompareOp.bits]
  case h_3 p f =>
    refine (execFcmp_plain hd hr ha hb).trans ?_
    simp [CompareOp.bits]
  case h_4 p f =>
    refine (cmpHalves_plain hd hr ha hb f16 (of_decide_eq_true hok)).trans ?_
    simp [CompareOp.bits]
  case h_5 p f =>
    refine (cmpHalves_plain hd hr ha hb b16 (of_decide_eq_true hok)).trans ?_
    simp [CompareOp.bits]

/-! Predicates on every lane that holds a thread (04 R98 to R103). -/

/-- The word of VOTE from the bits of pN in the counted lanes. -/
def voteWord (bits : List Bool) : Word :=
  ofN ((bits.any id).toNat + 2 * (bits.all id).toNat + 4 * (bits.all id || !bits.any id).toNat)

theorem execVote_writable {d : Opnd} (s : State) (p : Px) (pn : BitVec 3) (h : writable d = .ok ()) :
    execVote p pn d s = runNext p s (writeD s d s.lanes
      (splat (voteWord (s.lanes.lanes.map fun l => (s.w.preds.getD pn.toNat 0#32).has l)))) := by
  simp only [voteWord, any_lanes, all_lanes, execVote, h, bind, Except.bind]
  rfl

theorem execBallot_writable {d : Opnd} (s : State) (p : Px) (pn : BitVec 3) (h : writable d = .ok ()) :
    execBallot p pn d s = runNext p s (writeD s d s.lanes
      (splat (maskOf fun l => s.lanes.has l && (s.w.preds.getD pn.toNat 0#32).has l))) := by
  have hq : readP s pn.toNat &&& s.lanes = maskOf fun l => s.lanes.has l && (s.w.preds.getD pn.toNat 0#32).has l :=
    mask_ext fun l hl => by simp [hl, Bool.and_comm, readP]
  simp only [execBallot, h, hq, bind, Except.bind]

theorem execSel_plain {s : State} {p : Px} {f : SelForm} (hd : s.depth = 0) (hr : Ready s p) (ha : plainSource f.a = true)
    (hb : plainSource f.b = true) (hl : landsIn s s.lanes f.d = true) :
    execSel p f s = done p (landed s s.lanes (lanesOf fun l =>
      if (s.w.preds.getD f.pn.toNat 0#32).has l then (sourceOf s f.a).get l else (sourceOf s f.b).get l) f.d) := by
  rw [← runNext_writeD_plain _ hd hr hl]
  simp only [execSel, readable_plain _ ha, readable_plain _ hb, writable_of_landsIn hl, readOpnd_plain _ _ ha, readOpnd_plain _ _ hb,
    bind, Except.bind]
  rfl

/-- The index of a predicate in a descriptor of PLOG. -/
theorem descIndex_toNat (x : Word) (i : Nat) : (x.extractLsb' i 3).toNat = x.toNat / 2 ^ i % 8 := by
  simp [Nat.shiftRight_eq_div_pow]

theorem execPlog_plain {s : State} {p : Px} {a : Opnd} (pn : BitVec 3) (hd : s.depth = 0) (hr : Ready s p)
    (ha : plainSource a = true) :
    execPlog p pn a s = done p (predicated s pn.toNat s.lanes fun l =>
      let x := ((sourceOf s a).get l).toNat
      let bit := fun i => ((s.w.preds.getD (x / 2 ^ i % 8) 0#32).has l).toNat
      x.testBit (4 * bit 8 + 2 * bit 12 + bit 16)) := by
  rw [← runNext_writeP_outside _ _ _ hd hr]
  simp only [execPlog, readable_plain _ ha, readOpnd_plain _ _ ha, readP, descIndex_toNat, BitVec.getLsbD, bind, Except.bind]

theorem execPmov_plain {s : State} {p : Px} {d : Opnd} (pn : BitVec 3) (hd : s.depth = 0) (hr : Ready s p)
    (hl : landsIn s s.lanes d = true) :
    execPmov p pn d s = done p (landed s s.lanes (lanesOf fun l => ofN ((s.w.preds.getD pn.toNat 0#32).has l).toNat) d) := by
  rw [← runNext_writeD_plain _ hd hr hl]
  simp only [execPmov, writable_of_landsIn hl, bind, Except.bind]
  rfl

theorem execPmovPred_plain {s : State} {p : Px} {a b : Opnd} (pn : BitVec 3) (hd : s.depth = 0) (hr : Ready s p)
    (ha : plainSource a = true) (hb : plainSource b = true) :
    execPmovPred p pn a b s = done p (predicated s pn.toNat s.lanes fun l =>
      ((sourceOf s a).get l).toNat.testBit (((sourceOf s b).get l).toNat % 32)) := by
  rw [← runNext_writeP_outside _ _ _ hd hr]
  simp only [execPmovPred, readable_plain _ ha, readable_plain _ hb, readOpnd_plain _ _ ha, readOpnd_plain _ _ hb, BitVec.getLsbD,
    bind, Except.bind]

/-- 04 R98 to R103. -/
theorem predicateResult : Parts.PredicateResult := by
  intro s p hd hr
  refine ⟨?sel, ?plog, ?vote, ?ballot, ?pmov, ?pmovPred⟩
  case sel => exact fun f ha hb hl => execSel_plain hd hr ha hb hl
  case plog => exact fun pn a ha => execPlog_plain pn hd hr ha
  case vote => exact fun pn d hl =>
    (execVote_writable s p pn (writable_of_landsIn hl)).trans (runNext_writeD_plain _ hd hr hl)
  case ballot => exact fun pn d hl =>
    (execBallot_writable s p pn (writable_of_landsIn hl)).trans (runNext_writeD_plain _ hd hr hl)
  case pmov => exact fun pn d hl => execPmov_plain pn hd hr hl
  case pmovPred => exact fun pn a b ha hb => execPmovPred_plain pn hd hr ha hb

/-- 04 R98 R101 R102: the one word does not depend on the levels, only its write does. -/
theorem laneWords : Parts.LaneWords := by
  intro s u v p pn d hd hv
  constructor
  · intro hu
    exact (execVote_writable s p pn hd).trans ((congrArg (runNext p s) hu).trans (runNext_of_advance hv))
  · intro hu
    exact (execBallot_writable s p pn hd).trans ((congrArg (runNext p s) hu).trans (runNext_of_advance hv))

/-- Settles O13: each instruction by its own law, over what VOTE and BALLOT say of the counted lanes. -/
theorem predicateResults : Obligations.PredicateResults := ⟨compareResult, predicateResult, laneWords⟩

end Sys2Proof.Predicates

/-! PROOFS. Delivery of program faults, entry of the trap handler and TRET (08 R240 R241 R244, 13 R343, 14 R363 to R366). -/

namespace Sys2Proof.Traps

open Sys2Proof.Machine Sys2Proof.Ref Sys2Proof.Laws Sys2Proof.Predicates

/-! A fibre that freezes. -/

/-- Writing waiting records out changes neither the warp and the cohort in focus nor which faults are open. -/
theorem fqFlush_frame (s : State) (part n : Nat) :
    (fqFlush s part n).w = s.w ∧ (fqFlush s part n).c = s.c ∧ (fqFlush s part n).faults = s.faults
      ∧ (fqFlush s part n).nextToken = s.nextToken := by
  induction n generalizing s with
  | zero => exact ⟨rfl, rfl, rfl, rfl⟩
  | succ n ih =>
    unfold fqFlush
    split
    · simp only []
      split
      · exact ih _
      · exact ⟨rfl, rfl, rfl, rfl⟩
    · exact ⟨rfl, rfl, rfl, rfl⟩

theorem frozenWith_freezeFault (s : State) (kind code : Nat) (addr : DWord) (pc : Word) (lanes : Mask) (acc : Access) :
    frozenWith s (freezeFault s kind code addr pc lanes acc) kind := by
  simp [frozenWith, freezeFault, queueFault, fqFlush_frame]

/-! The entry that a trap sets aside. -/

theorem topEntry_isSome (l : Launch) {es : List Entry} (h : es ≠ []) : (topEntry l es).isSome = true := by
  cases es with
  | nil => exact absurd rfl h
  | cons e t =>
    simp only [topEntry]
    cases topEntry l t with
    | none => rfl
    | some b => simp only []; split <;> rfl

/-- An entry that issues is the highest-ranked of those that can: it is not the empty one that stands for none. -/
theorem topEntry_eq_cur {s : State} (hf : s.cur ∈ s.w.front) (hs : staysHere s s.cur.pc = true) :
    topEntry s.l (s.w.front.filter fun e => !e.parked && staysHere s e.pc) = some s.cur := by
  cases ht : topEntry s.l (s.w.front.filter fun e => !e.parked && staysHere s e.pc) with
  | some e => simp [State.cur, ht]
  | none =>
    have hc : s.cur.parked = false := by simp [State.cur, ht]
    have hin : s.cur ∈ s.w.front.filter fun e => !e.parked && staysHere s e.pc := List.mem_filter.mpr ⟨hf, by simp [hc, hs]⟩
    simpa [ht] using topEntry_isSome s.l (List.ne_nil_of_mem hin)

/-- The trapped entry is the one that issues, but for a promise trap (cause 3), whose entry a SLEEPU may have moved on (14 R366). -/
theorem trapped_eq_cur {s : State} {i : TrapInfo} (hi : i.cause ≠ 3) (hf : s.cur ∈ s.w.front) (hs : staysHere s s.cur.pc = true) :
    trapped s i = s.cur := by
  simp only [trapped, hi, if_false, topEntry_eq_cur hf hs]

/-! Entry of the handler. -/

theorem trapEnter_free {s : State} (i : TrapInfo) (hh : s.sl.holder = none ∨ s.sl.holder = some s.w.id)
    (h1 : s.w.halted = false) (h2 : s.w.haltReq = false) : trapEnter s i = trapNow s i (trapped s i) := by
  rcases trapEnter_cases s i with ⟨_, h⟩ | ⟨⟨h, h'⟩ | h | h, _⟩
  · exact h
  · exact (hh.elim h h').elim
  · simp [h1] at h
  · simp [h2] at h

theorem inHandler_trapEnter {s : State} {i : TrapInfo} (h : mayTrap s) (hi : i.cause ≠ 3) (hd : i.detail < 256) :
    inHandler s (trapEnter s i) i.cause i.detail i.pc i.blame i.addr i.lanes := by
  obtain ⟨hf, hh, _, _, h1, h2, _, hs⟩ := h
  rw [trapEnter_free i hh h1 h2, trapped_eq_cur hi hf hs]
  simp [inHandler, trapNow, Nat.mod_eq_of_lt hd, Nat.mul_comm]

/-- A warp that traps on its own instruction enters the handler after the group has completed. -/
theorem inHandler_trapEnter_finish {s : State} {i : TrapInfo} (h : mayTrap s) (hi : i.cause ≠ 3) (hd : i.detail < 256) :
    inHandler s (trapEnter (finish s) i) i.cause i.detail i.pc i.blame i.addr i.lanes := by
  obtain ⟨hf, hh, hm, hp, h1, h2, h3, hs⟩ := h
  have hq : (finish s).w.haltReq = false := by simp [finish, h2, h3]
  exact inHandler_trapEnter (s := finish s) ⟨hf, hh, hm, hp, h1, hq, rfl, hs⟩ hi hd

/-! The instructions. -/

theorem exec_trap_inTrapMode {s : State} (p : Px) (code : BitVec 8) (h : s.w.trapMode = true) :
    exec (.trap p code) s = .next (deliver s 0x01 0#64 none) := by
  change execTrap p code s = _
  rw [execTrap, if_pos h]; rfl

theorem exec_trap_unhandled {s : State} (p : Px) (code : BitVec 8) (h : s.w.trapMode = false) (hp : s.l.handlerPc = 0#32) :
    exec (.trap p code) s = .next (freezeFault s 4 (Config.trapFcode code.toNat) 0#64 s.cur.pc s.cur.mask) := by
  change execTrap p code s = _
  simp [execTrap, h, hp]

theorem exec_trap_handled {s : State} (p : Px) (code : BitVec 8) (h : s.w.trapMode = false) (hp : s.l.handlerPc ≠ 0#32) :
    exec (.trap p code) s = .next (trapEnter (finish s) ⟨6, code.toNat, s.nextPc p, s.cur.pc, 0#64, s.cur.mask⟩) := by
  change execTrap p code s = _
  simp [execTrap, h, hp]

theorem exec_brk_handled {s : State} (p : Px) (code : BitVec 8) (h : s.w.trapMode = false) (hp : s.l.handlerPc ≠ 0#32)
    (he : s.w.trapen.getLsbD 3 = true) :
    exec (.brk p code) s = .next (trapEnter (finish s) ⟨5, code.toNat, s.nextPc p, s.cur.pc, 0#64, s.cur.mask⟩) := by
  change execBrk p code s = _
  simp [execBrk, h, hp, he]

theorem exec_tret_outside {s : State} (p : Px) (h : s.w.trapMode = false) :
    exec (.tret p) s = .next (deliver s 0x01 0#64 none) := by
  change execTret p s = _
  simp only [execTret, h]; rfl

/-! Frontiers put together with `addEntry`: a property of entries that a merge hands on. -/

/-- A merge of two entries has q where one of them has it. -/
def MergesAsOr (q : Entry → Bool) : Prop :=
  ∀ e f : Entry, f.pc = e.pc → f.parked = e.parked →
    q { f with mask := f.mask ||| e.mask, rbLanes := f.rbLanes ||| e.rbLanes, src := e.src, sos := f.sos || e.sos } = (q e || q f)

theorem mergesAsOr_has (l : Nat) : MergesAsOr fun x => x.mask.has l := fun _ _ _ _ => by simp [Bool.or_comm]

theorem mergesAsOr_unparked : MergesAsOr fun x => !x.parked := fun e f _ h => by simp [h]

theorem any_addEntry {q : Entry → Bool} (hq : MergesAsOr q) (e : Entry) (f : List Entry) : (addEntry e f).any q = (q e || f.any q) := by
  induction f with
  | nil => rfl
  | cons x t ih =>
    simp only [addEntry]
    split
    · next h => simp [hq e x h.1 h.2, Bool.or_assoc]
    · simp [ih, Bool.or_left_comm]

theorem any_foldl_addEntry {q : Entry → Bool} (hq : MergesAsOr q) (xs f : List Entry) :
    (xs.foldl (fun f x => addEntry x f) f).any q = (f.any q || xs.any q) := by
  induction xs generalizing f with
  | nil => simp
  | cons x xs ih => simp [ih, any_addEntry hq, Bool.or_assoc, Bool.or_left_comm]

/-! The frontier that TRET restores (R241). -/

/-- Entries set aside, without the threads that have ended. -/
def survivors (holds : Mask) (es : List Entry) : List Entry :=
  (es.map fun x => { x with mask := x.mask &&& holds, rbLanes := x.rbLanes &&& holds }).filter fun x => x.mask != 0#32

theorem mem_survivors {holds : Mask} {es : List Entry} {x : Entry} (hx : x ∈ es) (hm : x.mask &&& holds ≠ 0#32) :
    { x with mask := x.mask &&& holds, rbLanes := x.rbLanes &&& holds } ∈ survivors holds es :=
  List.mem_filter.mpr ⟨List.mem_map_of_mem hx, by simpa using hm⟩

theorem any_has_survivors (holds : Mask) (es : List Entry) (l : Nat) :
    ((survivors holds es).any fun x => x.mask.has l) = es.any fun x => x.mask.has l && holds.has l := by
  have hz (m : Mask) : ((m != 0#32) && m.has l) = m.has l := by
    by_cases h : m = 0#32 <;> simp [h]
  simp only [survivors, List.any_filter, List.any_map, Function.comp_def, hz, has_and]

/-- The frontier after a TRET: the trapped entry at its new PC comes first. -/
def restored (s : State) (es : List Entry) (e : Entry) : List Entry :=
  (survivors s.w.holds ({ e with pc := s.w.trapPc, src := s.cur.pc } :: es)).foldl (fun f x => addEntry x f) []

theorem trapReturn_aside {s : State} {es : List Entry} {e : Entry} (h : s.w.aside = some (es, e)) :
    trapReturn s = dropShadows { s with w := { s.w with trapMode := false, aside := none, front := restored s es e } } := by
  simp only [trapReturn, h]; rfl

theorem any_has_restored (s : State) (es : List Entry) (e : Entry) (l : Nat) :
    ((restored s es e).any fun x => x.mask.has l) = (e :: es).any fun x => x.mask.has l && s.w.holds.has l := by
  simp [restored, any_foldl_addEntry (mergesAsOr_has l), any_has_survivors]

theorem exists_unparked_restored {s : State} {es : List Entry} {e : Entry}
    (h : ∃ x ∈ e :: es, x.parked = false ∧ x.mask &&& s.w.holds ≠ 0#32) : ∃ x ∈ restored s es e, x.parked = false := by
  have hany : (survivors s.w.holds ({ e with pc := s.w.trapPc, src := s.cur.pc } :: es)).any (fun x => !x.parked) = true := by
    obtain ⟨x, hx, hp, hm⟩ := h
    rcases List.mem_cons.mp hx with rfl | hx
    · exact List.any_eq_true.mpr ⟨_, mem_survivors (List.mem_cons_self ..) hm, by simp [hp]⟩
    · exact List.any_eq_true.mpr ⟨_, mem_survivors (List.mem_cons_of_mem _ hx) hm, by simp [hp]⟩
  have : (restored s es e).any (fun x => !x.parked) = true := by simp [restored, any_foldl_addEntry mergesAsOr_unparked, hany]
  simpa using this

/-- The trapped entry alone goes on at TRAPPC. -/
theorem restored_alone {s : State} {e : Entry} (hm : e.mask &&& s.w.holds ≠ 0#32) :
    (restored s [] e).map (fun x => (x.pc, x.mask)) = [(s.w.trapPc, e.mask &&& s.w.holds)] := by
  simp [restored, survivors, hm, addEntry]

/-! What a warp with an entry that is not parked leaves undone. -/

theorem mem_regroupWarps {s : State} (hr : s.w.resident = true) (hc : s.w.cid = s.c.id) (hh : s.w.holds ≠ 0#32) : s.w ∈ regroupWarps s := by
  unfold regroupWarps
  split
  · exact List.mem_singleton_self _
  · simp [State.everyWarp, State.allWarps, hr, hc, hh]

theorem regroupCheck_unparked {s : State} (hr : s.w.resident = true) (hc : s.w.cid = s.c.id) (hh : s.w.holds ≠ 0#32)
    (h : ∃ x ∈ s.w.front, x.parked = false) : regroupCheck s = s := by
  obtain ⟨x, hx, hp⟩ := h
  have hno : regrouped (regroupWarps s) = false := by
    refine Bool.eq_false_iff.mpr fun ht => ?_
    simp only [regrouped, Bool.and_eq_true, List.all_eq_true] at ht
    have hpark := ((ht.2 s.w (mem_regroupWarps hr hc hh)).2 x hx).1
    simp [hp] at hpark
  simp [regroupCheck, hno]

theorem parkedTurn_unparked {s : State} (h : ∃ x ∈ s.w.front, x.parked = false) : parkedTurn s = s := by
  obtain ⟨x, hx, hp⟩ := h
  have hno : s.w.front.all (fun e => e.parked && e.rbLanes == 0#32) = false := List.all_eq_false.mpr ⟨x, hx, by simp [hp]⟩
  simp [parkedTurn, hno]

/-- A launch that does not travel has no entry that departs. -/
theorem departCheck_home {s : State} (h : s.l.travel = false) (es others : List Entry) : departCheck s es others = .ok () := by
  simp [departCheck, staysHere, atHome, h]

theorem dropShadows_holder {s : State} (h : s.sl.holder = some s.w.id) :
    dropShadows s = { s with sl := { s.sl with holder := none, shadow := List.replicate 8 (List.replicate 32 0#32) } } := by
  simp [dropShadows, h]

/-- The warp returns from trap mode: its frontier restored, the slot's shadows zero and free. -/
def returned (s : State) (es : List Entry) (e : Entry) : State :=
  { s with w := { s.w with trapMode := false, aside := none, front := restored s es e }
           sl := { s.sl with holder := none, shadow := List.replicate 8 (List.replicate 32 0#32) } }

theorem exec_tret_inTrapMode {s : State} {es : List Entry} {e : Entry} (p : Px) (hm : s.w.trapMode = true)
    (ha : s.w.aside = some (es, e)) (hs : s.sl.holder = some s.w.id) (ht : s.l.travel = false) (hr : s.w.resident = true)
    (hc : s.w.cid = s.c.id) (hx : ∃ x ∈ e :: es, x.parked = false ∧ x.mask &&& s.w.holds ≠ 0#32) :
    exec (.tret p) s = .next (finish (returned s es e)) := by
  have hu : ∃ x ∈ (returned s es e).w.front, x.parked = false := exists_unparked_restored hx
  have hh : s.w.holds ≠ 0#32 := by
    obtain ⟨x, _, _, hne⟩ := hx
    intro h0
    simp [h0] at hne
  have hret : trapReturn s = returned s es e := (trapReturn_aside ha).trans (dropShadows_holder hs)
  have htr : (returned s es e).l.travel = false := ht
  have hturn : parkedTurn (regroupCheck (leave (returned s es e) false p.sos)) = returned s es e := by
    simp only [leave, htr, Bool.false_eq_true, if_false]
    rw [regroupCheck_unparked (s := returned s es e) hr hc hh hu, parkedTurn_unparked hu]
  change execTret p s = _
  simp only [execTret, hm, need, if_true, hret, departCheck_home htr, htr, Bool.false_eq_true, if_false, bind, Except.bind, hturn, run]

/-! The three parts of the obligation. -/

/-- 14 R363: the open level, trap mode, the handler, none of them. -/
theorem faultDelivery : Parts.FaultDelivery := by
  intro s code addr lanes hcode
  refine ⟨?level, ?inTrapMode, ?handler, ?unhandled⟩
  case level => intro hd hc hf; simp [deliver, deliverAt, hd, failAt, hc, hf]
  case inTrapMode =>
    intro hd hm
    have : deliver s code addr (some lanes) = freezeFault s 5 code addr s.cur.pc lanes := by simp [deliver, deliverAt, hd, hm]
    exact this ▸ frozenWith_freezeFault ..
  case handler =>
    intro hd h
    have ⟨_, _, hm, hp, _⟩ := h
    have : deliver s code addr (some lanes) = trapEnter s ⟨1, code, s.cur.pc, s.cur.pc, addr, lanes⟩ := by
      simp [deliver, deliverAt, hd, hm, hp]
    exact this ▸ inHandler_trapEnter h (by simp) hcode
  case unhandled =>
    intro hd hm hp
    have : deliver s code addr (some lanes) = freezeFault s 4 code addr s.cur.pc lanes := by simp [deliver, deliverAt, hd, hm, hp]
    exact this ▸ frozenWith_freezeFault ..

/-- 08 R240 R244. -/
theorem trapEntry : Parts.TrapEntry := by
  intro s p code
  refine ⟨?handler, exec_trap_inTrapMode p code, ?unhandled, ?brk, ?waits⟩
  case handler =>
    intro h
    have ⟨_, _, hm, hp, _⟩ := h
    exact ⟨_, exec_trap_handled p code hm hp, inHandler_trapEnter_finish h (by simp) code.isLt⟩
  case unhandled => exact fun hm hp => ⟨_, exec_trap_unhandled p code hm hp, frozenWith_freezeFault ..⟩
  case brk =>
    intro h he
    have ⟨_, _, hm, hp, _⟩ := h
    exact ⟨_, exec_brk_handled p code hm hp he, inHandler_trapEnter_finish h (by simp) code.isLt⟩
  case waits =>
    intro hp hm h1 h2
    refine ⟨_, exec_trap_handled p code hm hp, ?_⟩
    rcases trapEnter_cases (finish s) ⟨6, code.toNat, s.nextPc p, s.cur.pc, 0#64, s.cur.mask⟩ with ⟨⟨hh, _⟩, _⟩ | ⟨_, hw, ht⟩
    · exact (hh.elim h1 h2).elim
    · exact ⟨ht.trans hm, hw⟩

/-- 08 R241. -/
theorem trapReturns : Parts.TrapReturn := by
  intro s p
  refine ⟨exec_tret_outside p, fun es e hm ha hs ht hr hc hx => ?_⟩
  refine ⟨_, exec_tret_inTrapMode p hm ha hs ht hr hc hx, rfl, rfl, rfl, rfl, rfl, rfl, rfl, ?alone, any_has_restored s es e⟩
  case alone => rintro rfl hne _; exact restored_alone hne

/-- Settles O37: every delivery is one path of `deliverAt`, every entry one of `trapEnter`, and TRET restores the frontier set aside. -/
theorem faultsAndTraps : Obligations.FaultsAndTraps := ⟨faultDelivery, trapEntry, trapReturns⟩

end Sys2Proof.Traps
